-- ==== Sys2Proof/Word.lean ====
section
/-! DEFINITION. The plainest types of the model: the byte and word of the System Port, and the index types of the
numbered things of the part (spec/00_scope.md, Numbering). Chamber c of the manual is index c − 1 here, line k is
index k − 1 and interlock input k is index k − 1. Scan channels are numbered from 0 in both. -/

namespace Sys2Proof

/-- A byte of the Common Memory. -/
abbrev Byte := BitVec 8

/-- A word of the System Port. -/
abbrev Word := BitVec 32

/-- A chamber, 1 to 4 in the manual, 0 to 3 here. -/
abbrev Chamber := Fin 4

/-- A gas line, 1 to 16 in the manual, 0 to 15 here. -/
abbrev LineId := Fin 16

/-- An interlock input, 1 to 16 in the manual, 0 to 15 here. -/
abbrev InputId := Fin 16

/-- A scan channel, 0 to 47. -/
abbrev ChannelId := Fin 48

/-- A moment of the Time Base: the number of T0 periods (ms) that have passed since the last reset (R44). -/
abbrev Moment := Nat

/-- The width of a host access (R1). -/
inductive Width where
  | byte
  | half
  | word
  deriving DecidableEq, Repr

/-- The four taps of the Time Base (R44). -/
inductive Tap where
  | t0
  | t1
  | t2
  | t3
  deriving DecidableEq, Repr

end Sys2Proof
end

