-- ==== Sys2Proof/Syntax.lean ====
section
/-! DEFINITION. The commands of the block, one constructor per row of spec/opcode_table.json, in the table's order.
The table gives no operands; the operands here are what the row's rule needs from outside the part (log 1, log 2):
`t` is the moment of the event on the Time Base, `c` the chamber, `k` the line or the interlock input, and a Bool, a
BitVec or a Vector the level of the input pins that the event samples. -/

namespace Sys2Proof

/-- A command: a write or read of a register, a host memory write, or an event of one of the part's blocks. -/
inductive Instr where
  | powerOnReset
  | resetInput
  | softReset
  | applyLayout (t : Moment)
  | ackTrips (levels : Vector Bool 16)
  | eventSummaryRead (w : Width)
  | eventEnableWrite (v : Word)
  | registerWriteIgnored (addr : Word) (w : Width) (v : Word)
  | hostMemoryWrite (addr : Word) (w : Width) (v : Word)
  | extEvent (t : Moment) (c : Chamber)
  | slotScan (t : Moment) (c : Chamber)
  | stepTimerDecrement (t : Moment) (c : Chamber)
  | stepTimerExpiry (t : Moment) (c : Chamber)
  | endpointSample (t : Moment) (c : Chamber) (level : Bool)
  | endpointExit (t : Moment) (c : Chamber)
  | pressureBelowRead (t : Moment) (c : Chamber)
  | pulseLossDecrement (t : Moment) (c : Chamber)
  | pulseLost (t : Moment) (c : Chamber)
  | gapTimerDecrement (t : Moment) (c : Chamber)
  | gapExpired (t : Moment) (c : Chamber)
  | flowEvaluation (t : Moment) (k : LineId)
  | lineStable (t : Moment) (k : LineId)
  | flowFault (t : Moment) (k : LineId)
  | pressureEvaluation (t : Moment) (c : Chamber)
  | pressureFaultArmed (t : Moment) (c : Chamber)
  | pressureStable (t : Moment) (c : Chamber)
  | pressureFault (t : Moment) (c : Chamber)
  | strikeTest (t : Moment) (c : Chamber)
  | strikeWindowExpiry (t : Moment) (c : Chamber)
  | retryPauseEnd (t : Moment) (c : Chamber)
  | struckEvaluation (t : Moment) (c : Chamber)
  | rfReflect (t : Moment) (c : Chamber)
  | plasmaLost (t : Moment) (c : Chamber)
  | rfOnCount (t : Moment) (c : Chamber)
  | interlockSample (t : Moment) (k : InputId) (level : Bool)
  | tripLatch (t : Moment) (k : InputId)
  | scanPassT0 (t : Moment) (counts : Vector (BitVec 12) 48)
  | settlingEnd (t : Moment) (counts : Vector (BitVec 12) 48)
  | scanPassT2 (t : Moment) (counts : Vector (BitVec 12) 48)
  | handoverTimerDecrement (t : Moment) (k : LineId)
  | handoverPurgeEnd (t : Moment) (k : LineId)
  | pumpMachineT1 (t : Moment) (c : Chamber) (turbo : Bool)
  | crossoverDelayEnd (t : Moment) (c : Chamber) (turbo : Bool)
  | gateCloseDelayEnd (t : Moment) (c : Chamber)
  | stageLimitDecrement (t : Moment) (c : Chamber)
  | pumpTimeout (t : Moment) (c : Chamber)
  | economyPressureRead (t : Moment) (c : Chamber)
  | wakeTurboSample (t : Moment) (c : Chamber) (turbo : Bool)
  | wakeCountDecrement (t : Moment) (c : Chamber)
  | wakeLimitExpiry (t : Moment) (c : Chamber)
  | wakeDwellEnd (t : Moment) (c : Chamber)
  | gasOff (t : Moment) (c : Chamber)
  | purgeTimerDecrement (t : Moment) (c : Chamber)
  | purgeEnd (t : Moment) (c : Chamber)
  | pumpOutRead (t : Moment) (c : Chamber)
  | closeLimitDecrement (t : Moment) (c : Chamber)
  | closeLimitExpiry (t : Moment) (c : Chamber)
  | elapsedTimeCount (t : Moment) (c : Chamber)
  deriving DecidableEq, Repr

end Sys2Proof
end

