-- ==== Sys2Proof/Decode.lean ====
section
/-! DEFINITION. The command that a word spells. No row of spec/opcode_table.json gives bits (every row's `fields` is
empty), so no word spells a command: commands reach the block as its queue's entries, not as words (log 3). -/

namespace Sys2Proof

/-- The command that an `nbits`-bit word spells by the opcode table's bits: none, for no row gives bits. -/
def decodeTableWord (_nbits _w : Nat) : Option Instr := none

end Sys2Proof
end

