-- ==== Sys2Proof/Config.lean ====
section
/-! DEFINITION. The constants that this revision of the part fixes, and the free values: opaque constants that stand
for what the manual does not state. Nothing in Lean can evaluate a free value, so a theorem about one holds for every
value of it. Each free value is named in the assumption log. -/

namespace Sys2Proof

/-- The Identity register (R3): vendor code 0x5A47, part code 0x0440. -/
def Config.identity : Nat := 0x5A470440

/-- The revision byte (R3). -/
def Config.revision : Nat := 0x01

/-- The size of the Common Memory in bytes (R1). -/
def Config.memorySize : Nat := 131072

/-- The partition number in force from a reset to the first successful APPLY (R8). -/
def Config.defaultPartition : Nat := 14

/-- FREE VALUE (log 6). The number shown by a count that has outgrown its field of `bits` bits and for which the manual
states neither a wrap nor a saturation: the Segment Number and the Steps Executed counts. -/
opaque Config.counterPast (bits count : Nat) : Nat

/-- FREE VALUE (log 7). Whether a Notice Policy byte that is neither 0 nor 1 acts as PER_ENTRY. -/
opaque Config.noticeOther (code : Nat) : Bool

/-- FREE VALUE (log 7). Whether a Close Short at Run End byte that is neither 0 nor 1 acts as yes. -/
opaque Config.closeShortOther (code : Nat) : Bool

/-- FREE VALUE (log 8). Whether the BAD_RANGE refusal of a segment that runs past the recipe area names Segment First
(otherwise Segment Count). R23 says that the field is named, and names a sum of two fields. -/
opaque Config.rangeNamesFirst : Bool

/-- FREE VALUE (log 9). The Step Index that entries carry in GAP when no step of the ended segment reached step end. -/
opaque Config.gapStepIndex (segmentFirst : Nat) : Nat

/-- FREE VALUE (log 10). Whether the MODE entry of a FULL_SAFE trip in ECONOMY comes before the PUMP_STAGE entry of the
same trip (R165: either may be produced first). The argument is the state's counter of free choices. -/
opaque Config.modeEntryFirst (use : Nat) : Bool

/-- FREE VALUE (log 10). The place of the PUMP_STAGE entry of a turbo loss among the entries that the Chamber Sequencer makes
of the same loss (R165: either may be produced first): 0 before them, 1 after the first of them, 2 after them. The argument
is the state's counter of free choices. -/
opaque Config.pumpEntryPlace (use : Nat) : Fin 3

end Sys2Proof
end

