-- ==== Sys2Proof/Machine/Arith.lean ====
section
/-! DEFINITION. The arithmetic of the manual: integer formulas (spec/00_scope.md, Arithmetic), byte packing
(little-endian fields) and the taps of the Time Base. -/

namespace Sys2Proof.Machine

/-- Whether a tap has an event at a moment (R44): T0 every 1 ms, T1 at every tenth T0 event, T2 at every tenth T1
event, T3 at every tenth T2 event, none at the reset itself. -/
def tapFalls (tap : Tap) (t : Moment) : Bool :=
  match tap with
  | .t0 => decide (0 < t)
  | .t1 => decide (0 < t ∧ t % 10 = 0)
  | .t2 => decide (0 < t ∧ t % 100 = 0)
  | .t3 => decide (0 < t ∧ t % 1000 = 0)

/-- The value of a ramp after its `k`-th of `n` counted events: S0 + trunc((S1 − S0) × k / n) (R73, R127). -/
def rampValue (start stop k n : Nat) : Nat :=
  ((start : Int) + Int.tdiv (((stop : Int) - start) * k) n).toNat

/-- A 32-bit count that saturates at 4,294,967,295 (R65, R135, R158). -/
def satSucc32 (n : Nat) : Nat := min (n + 1) 4294967295

/-- |a − b| on naturals. -/
def absDiff (a b : Nat) : Nat := if a ≤ b then b - a else a - b

/-- What a field of `bits` bits shows of a count; past the field's range the manual states nothing (log 6). -/
def shownCount (bits n : Nat) : Nat :=
  if n < 2 ^ bits then n else Config.counterPast bits n % 2 ^ bits

/-- A word from two 16-bit fields, the lower first. -/
def pack16 (lo hi : Nat) : Nat := lo % 65536 + 65536 * (hi % 65536)

/-- A word from four byte fields, the lowest first. -/
def pack8 (b0 b1 b2 b3 : Nat) : Nat :=
  b0 % 256 + 256 * (b1 % 256) + 65536 * (b2 % 256) + 16777216 * (b3 % 256)

/-- A flag as a bit of a field. -/
def bitIf (b : Bool) (weight : Nat) : Nat := if b then weight else 0

/-- Bit `i` of a field. -/
def bitSet (n i : Nat) : Bool := n / 2 ^ i % 2 == 1

end Sys2Proof.Machine
end

