-- ==== Sys2Proof/Machine/Memory.lean ====
section
/-! DEFINITION. The Common Memory: 131,072 bytes (R1), held as a list of address and byte pairs in one canonical form:
addresses strictly rising, each below 131,072, and no pair that holds the byte an unlisted address reads as. -/

namespace Sys2Proof.Machine

/-- The Common Memory. -/
abbrev Memory := List Host.Cell

/-- What an unlisted address reads as. The manual leaves the memory undefined at power-up (R16): DESIGN CHOICE, log 4. -/
def powerOnByte : Byte := 0

/-- The byte listed at exactly this address. -/
def memLookup : Memory → Nat → Byte
  | [], _ => powerOnByte
  | cell :: rest, a => if cell.1 = a then cell.2 else memLookup rest a

/-- The list less every pair at this address. -/
def memErase : Memory → Nat → Memory
  | [], _ => []
  | cell :: rest, a => if cell.1 = a then memErase rest a else cell :: memErase rest a

/-- The list with a pair put at its place in the rising order. -/
def memInsert : Memory → Nat → Byte → Memory
  | [], a, b => [(a, b)]
  | cell :: rest, a, b => if a < cell.1 then (a, b) :: cell :: rest else cell :: memInsert rest a b

/-- The byte at an address; addresses above bit 16 wrap (R1). -/
def memRead (m : Memory) (a : Nat) : Byte := memLookup m (a % Config.memorySize)

/-- Writes one byte, keeping the canonical form. -/
def memWrite (m : Memory) (a : Nat) (b : Byte) : Memory :=
  let rest := memErase m (a % Config.memorySize)
  if b = powerOnByte then rest else memInsert rest (a % Config.memorySize) b

/-- A little-endian field of `n` bytes. -/
def memField (m : Memory) (a : Nat) : Nat → Nat
  | 0 => 0
  | n + 1 => (memRead m a).toNat + 256 * memField m (a + 1) n

/-- Writes a little-endian field of `n` bytes. -/
def memPutField (m : Memory) (a v : Nat) : Nat → Memory
  | 0 => m
  | n + 1 => memPutField (memWrite m a (BitVec.ofNat 8 v)) (a + 1) (v / 256) n

/-- Writes one whole word of the part's own (R2). -/
def memPutWord (m : Memory) (a v : Nat) : Memory := memPutField m a v 4

/-- Writes consecutive words in offset order. -/
def memPutWords (m : Memory) (a : Nat) : List Nat → Memory
  | [] => m
  | v :: rest => memPutWords (memPutWord m a v) (a + 4) rest

/-- The canonical form of a tail whose addresses must be at least `lo`. -/
def memWfFrom : Nat → Memory → Bool
  | _, [] => true
  | lo, cell :: rest =>
    decide (lo ≤ cell.1) && decide (cell.1 < Config.memorySize) && decide (cell.2 ≠ powerOnByte) &&
      memWfFrom (cell.1 + 1) rest

/-- The canonical form. -/
def Memory.wf (m : Memory) : Bool := memWfFrom 0 m

/-- The number of bytes of an access. -/
def widthBytes : Width → Nat
  | .byte => 1
  | .half => 2
  | .word => 4

/-- A host write: the address bits below the width are ignored and a narrow write changes only the bytes it names
(R1, R2). DESIGN CHOICE (log 27): no rule names the lanes of a narrow access, and a byte or halfword write takes its value
here from the low bits of the 32-bit data. -/
def hostWrite (m : Memory) (addr : Word) (w : Width) (v : Word) : Memory :=
  memPutField m (addr.toNat / widthBytes w * widthBytes w) v.toNat (widthBytes w)

end Sys2Proof.Machine
end

