-- ==== Sys2Proof/Machine/Layout.lean ====
section
/-! DEFINITION. The Common Memory map (spec/01, section 1.3), the named codes of the record layouts (section 1.5), and
the words the part writes on entering HALTED (R10, R43, R147, R171). -/

namespace Sys2Proof.Machine

/-! ### Addresses -/

/-- A word of the Identity and Layout block. -/
def layoutAddr (off : Nat) : Nat := off
/-- A word of the Global Status image. -/
def imageAddr (off : Nat) : Nat := 0x100 + off
/-- The Line Table entry of line index `k`. -/
def lineTableAddr (k : Nat) : Nat := 0x0200 + 32 * k
/-- The Chamber Table of chamber index `c`. -/
def chamberTableAddr (c : Nat) : Nat := 0x0400 + 128 * c
/-- The Interlock Table entry of input index `k`. -/
def interlockTableAddr (k : Nat) : Nat := 0x0600 + 16 * k
/-- The Chamber Control Block. -/
def controlAddr (c : Chamber) : Nat := 0x0700 + 64 * c.val
/-- Order slot `i`. -/
def slotAddr (c : Chamber) (i : Fin 2) : Nat := 0x0800 + 128 * c.val + 64 * i.val
/-- The Chamber Status Block. -/
def statusAddr (c : Chamber) : Nat := 0x0A00 + 128 * c.val
/-- The Context Record. -/
def contextAddr (c : Chamber) : Nat := 0x0C00 + 64 * c.val
/-- The Measurement Table entry of a channel. -/
def measurementAddr (k : Nat) : Nat := 0x0D00 + 16 * k
/-- A Scan and Conversion Table entry. -/
def scanTableAddr (j : Nat) : Nat := 0x1000 + 80 * j
/-- Step record `i` (R8). -/
def recordAddr (i : Nat) : Nat := 0x2000 + 32 * i
/-- The number of entries of a chamber's report area, E (R8). -/
def areaEntries (n : Nat) : Nat := 32 * (30 - n)
/-- The start of a chamber's report area (R8). -/
def reportAddr (n : Nat) (c : Chamber) : Nat := 0x2000 + 4096 * n + 1024 * (30 - n) * c.val
/-- The step records of the recipe area (R8). -/
def recipeRecords (n : Nat) : Nat := n * 128

/-! ### Codes -/

/-- The part state (R5). -/
inductive PartState where
  | halted
  | running
  deriving DecidableEq, Repr

/-- Its code. -/
def PartState.code : PartState → Nat
  | .halted => 0
  | .running => 1

/-- The layout result codes (R5). -/
inductive LayoutCode where
  | noApply
  | ok
  | busy
  | badPartition
  | badScan
  | badConversion
  | badLine
  | badChamber
  | badPurgeLine
  | badInterlock
  deriving DecidableEq, Repr

/-- Its code. -/
def LayoutCode.code : LayoutCode → Nat
  | .noApply => 0
  | .ok => 1
  | .busy => 2
  | .badPartition => 3
  | .badScan => 4
  | .badConversion => 5
  | .badLine => 6
  | .badChamber => 7
  | .badPurgeLine => 8
  | .badInterlock => 9

/-- The outcome codes: slot outcomes, run outcomes, context causes and entry fault fields (section 1.5). -/
inductive Code where
  | nil
  | complete
  | completeOpen
  | already
  | notRun
  | lostByReset
  | abortedHost
  | gapExpired
  | timeoutAbort
  | flowFault
  | pressureFault
  | strikeFail
  | rfReflect
  | plasmaLost
  | pulseLost
  | faultInterlock
  | pumpingLost
  | badStep
  | loopDepth
  | pumpTimeout
  | turboLost
  | busy
  | notPumped
  | interlocked
  | asleep
  | badContext
  | noRun
  | closed
  | badTag
  | badRange
  | badKind
  | hold
  | gap
  deriving DecidableEq, Repr

/-- The outcome code table. -/
def Code.code : Code → Nat
  | .nil => 0
  | .complete => 1
  | .completeOpen => 2
  | .already => 3
  | .notRun => 4
  | .lostByReset => 5
  | .abortedHost => 6
  | .gapExpired => 7
  | .timeoutAbort => 8
  | .flowFault => 9
  | .pressureFault => 10
  | .strikeFail => 11
  | .rfReflect => 12
  | .plasmaLost => 13
  | .pulseLost => 14
  | .faultInterlock => 15
  | .pumpingLost => 16
  | .badStep => 17
  | .loopDepth => 18
  | .pumpTimeout => 19
  | .turboLost => 20
  | .busy => 32
  | .notPumped => 33
  | .interlocked => 34
  | .asleep => 35
  | .badContext => 36
  | .noRun => 37
  | .closed => 38
  | .badTag => 39
  | .badRange => 40
  | .badKind => 41
  | .hold => 48
  | .gap => 49

/-- The causes for which the start of close-out sets FAULT and produces a FAULT entry (R31): TIMEOUT_ABORT to
LOOP_DEPTH in the outcome list, and GAP_EXPIRED. -/
def Code.reportsFault (x : Code) : Bool := decide (7 ≤ x.code ∧ x.code ≤ 18)

/-- The run states (section 2.3). -/
inductive RunState where
  | idle
  | starting
  | waitLines
  | step
  | gap
  | held
  | closing
  deriving DecidableEq, Repr

/-- Its code. -/
def RunState.code : RunState → Nat
  | .idle => 0
  | .starting => 1
  | .waitLines => 2
  | .step => 3
  | .gap => 4
  | .held => 5
  | .closing => 6

/-- The pump states (R106). -/
inductive PumpState where
  | isolated
  | vented
  | roughWait
  | softRough
  | fastRough
  | crossover
  | highVac
  | pumped
  | venting
  | faultHold
  deriving DecidableEq, Repr

/-- Its code. -/
def PumpState.code : PumpState → Nat
  | .isolated => 0
  | .vented => 1
  | .roughWait => 2
  | .softRough => 3
  | .fastRough => 4
  | .crossover => 5
  | .highVac => 6
  | .pumped => 7
  | .venting => 8
  | .faultHold => 9

/-- The mode (R159). -/
inductive Mode where
  | active
  | economy
  deriving DecidableEq, Repr

/-- Its code. -/
def Mode.code : Mode → Nat
  | .active => 0
  | .economy => 1

/-- The wake causes, and none (R159). -/
inductive WakeCause where
  | nil
  | order
  | pressure
  | host
  deriving DecidableEq, Repr

/-- Its code, as Last Wake Cause and a MODE entry's kind byte show it. -/
def WakeCause.code : WakeCause → Nat
  | .nil => 0
  | .order => 1
  | .pressure => 2
  | .host => 3

/-- A page's state (R164). -/
inductive PageState where
  | empty
  | filling
  | full
  deriving DecidableEq, Repr

/-- Its code. -/
def PageState.code : PageState → Nat
  | .empty => 0
  | .filling => 1
  | .full => 2

/-- The scanner rates (R137). -/
inductive ScanRate where
  | stopped
  | normal
  | reduced
  | settling
  deriving DecidableEq, Repr

/-- Its code. -/
def ScanRate.code : ScanRate → Nat
  | .stopped => 0
  | .normal => 1
  | .reduced => 2
  | .settling => 3

/-- The state of a published result (R137). -/
inductive Conv where
  | valid
  | over
  | under
  deriving DecidableEq, Repr

/-- Its code in the Measurement Table, where STALE is 1. -/
def Conv.code : Conv → Nat
  | .valid => 0
  | .over => 2
  | .under => 3

/-- The kinds of report entry (R169). -/
inductive EntryKind where
  | runStart
  | segmentStart
  | stepEnd
  | gapEnter
  | held
  | released
  | runEnd
  | fault
  | pumpStage
  | mode
  deriving DecidableEq, Repr

/-- Its code. -/
def EntryKind.code : EntryKind → Nat
  | .runStart => 1
  | .segmentStart => 2
  | .stepEnd => 3
  | .gapEnter => 4
  | .held => 5
  | .released => 6
  | .runEnd => 7
  | .fault => 8
  | .pumpStage => 9
  | .mode => 10

/-- The exit causes of a step (R65). -/
inductive ExitCause where
  | time
  | endpoint
  | stable
  | pressureBelow
  | timeout
  deriving DecidableEq, Repr

/-- Its code. -/
def ExitCause.code : ExitCause → Nat
  | .time => 1
  | .endpoint => 2
  | .stable => 3
  | .pressureBelow => 4
  | .timeout => 5

/-- A report entry (section 1.5). -/
structure Entry where
  kind : EntryKind
  chamber : Nat := 0
  sequence : Nat := 0
  tag : Nat := 0
  segNumber : Nat := 0
  stepIdx : Nat := 0
  depth : Nat := 0
  kindByte : Nat := 0
  innermost : Nat := 0
  flags : Nat := 0
  fault : Nat := 0
  second : Nat := 0
  elapsed : Nat := 0
  rfOn : Nat := 0
  pressure : Nat := 0
  deriving DecidableEq, Repr

/-- The eight words of an entry. -/
def Entry.words (e : Entry) : List Nat :=
  [ e.kind.code % 256 + 256 * (e.chamber % 256) + 65536 * (e.sequence % 65536),
    e.tag,
    pack16 e.segNumber e.stepIdx,
    e.depth % 256 + 256 * (e.kindByte % 256) + 65536 * (e.innermost % 65536),
    e.flags % 65536 + 65536 * (e.fault % 256) + 16777216 * (e.second % 256),
    e.elapsed,
    e.rfOn,
    e.pressure ]

/-! ### The words written on entering HALTED -/

/-- The Identity and Layout block (R10): every word of it but Partition N, which is the host's. -/
def resetLayoutBlock (m : Memory) : Memory :=
  memPutWords
    (memPutWords m (layoutAddr 0x00) [Config.identity, Config.revision])
    (layoutAddr 0x0C) [LayoutCode.noApply.code, PartState.halted.code, Config.defaultPartition]

/-- The Global Status image (R10): every line state and owner 0, both queues empty, no rough-line holder, raw levels
and trips 0, scanner rate STOPPED, other bytes 0. -/
def resetImage (m : Memory) : Memory := memPutWords m (imageAddr 0) (List.replicate 64 0)

/-- A Measurement Table entry as a reset writes it (R147). -/
def resetMeasurement (m : Memory) (k : Nat) : Memory :=
  memPutWords m (measurementAddr k) [0, pack16 0 65535, 1, 0]

/-- The Measurement Table, in channel order (R147). -/
def resetMeasurements (m : Memory) : Memory := (List.range 48).foldl resetMeasurement m

/-- A Chamber Status Block as the blocks write it at a reset (R43, R123, R159, R171): every field 0 but Last Run
Outcome. -/
def resetStatus (last : Chamber → Code) (m : Memory) (c : Chamber) : Memory :=
  memPutWords m (statusAddr c) ([0, 0, pack16 0 (last c).code] ++ List.replicate 29 0)

/-- All the words the part writes on entering HALTED. -/
def resetWrites (last : Chamber → Code) (m : Memory) : Memory :=
  (List.finRange 4).foldl (resetStatus last) (resetMeasurements (resetImage (resetLayoutBlock m)))

end Sys2Proof.Machine
end

