-- ==== Sys2Proof/Machine/Operands.lean ====
section
/-! DEFINITION. The host's records as the part reads them from the Common Memory (section 1.5): the applied tables, step
records, order slots, control blocks and context records, with the checks the rules make on them (R12, R23, R41,
R46). -/

namespace Sys2Proof.Machine

/-! ### The host tables -/

/-- A Line Table entry. -/
structure LineCfg where
  use : Nat := 0
  chamber : Nat := 0
  command : Nat := 0
  readback : Nat := 0
  fullScale : Nat := 0
  gcf : Nat := 0
  tolerance : Nat := 0
  faultTime : Nat := 0
  handover : Nat := 0
  deriving DecidableEq, Repr

/-- A Chamber Table. -/
structure ChamberCfg where
  manometer : Nat := 0
  roughGauge : Nat := 0
  forward : Nat := 0
  reflected : Nat := 0
  rfCommand : Nat := 0
  purgeLine : Nat := 0
  strikeRetries : Nat := 0
  wakeEnables : Nat := 0
  valveSpan : Nat := 0
  pressureTolerance : Nat := 0
  settleTime : Nat := 0
  minimumBand : Nat := 0
  pressureFaultTime : Nat := 0
  rfSpan : Nat := 0
  strikeRatio : Nat := 0
  strikeWindow : Nat := 0
  reflectedLimit : Nat := 0
  reflectTime : Nat := 0
  softRoughPressure : Nat := 0
  crossoverPressure : Nat := 0
  basePressure : Nat := 0
  atmosphere : Nat := 0
  softRoughLimit : Nat := 0
  fastRoughLimit : Nat := 0
  highVacLimit : Nat := 0
  ventLimit : Nat := 0
  crossoverDelay : Nat := 0
  gateCloseDelay : Nat := 0
  purgeFlow : Nat := 0
  purgeTime : Nat := 0
  closePressure : Nat := 0
  closeLimit : Nat := 0
  pulseLossTime : Nat := 0
  economyPurgeFlow : Nat := 0
  recoveryDwell : Nat := 0
  economyRise : Nat := 0
  recoveryLimit : Nat := 0
  foreline : Nat := 0
  forelineLimit : Nat := 0
  forelineResume : Nat := 0
  deriving DecidableEq, Repr

/-- An Interlock Table entry. -/
structure InterlockCfg where
  activeLevel : Nat := 0
  debounce : Nat := 0
  scope : Nat := 0
  action : Nat := 0
  deriving DecidableEq, Repr

/-- A Scan and Conversion Table entry; `points` are the eight breakpoints as count and value. -/
structure ScanCfg where
  channel : Nat := 0
  cls : Nat := 0
  count : Nat := 0
  points : List (Nat × Nat) := []
  deriving DecidableEq, Repr

/-- The host tables with Partition N: the part's applied copies (R15). -/
structure Tables where
  partition : Nat := Config.defaultPartition
  lines : Vector LineCfg 16 := Vector.replicate 16 {}
  chambers : Vector ChamberCfg 4 := Vector.replicate 4 {}
  interlocks : Vector InterlockCfg 16 := Vector.replicate 16 {}
  scan : Vector ScanCfg 48 := Vector.replicate 48 {}
  deriving DecidableEq, Repr

/-- Reads a Line Table entry. -/
def readLineCfg (m : Memory) (a : Nat) : LineCfg where
  use := memField m a 1
  chamber := memField m (a + 1) 1
  command := memField m (a + 2) 1
  readback := memField m (a + 3) 1
  fullScale := memField m (a + 4) 2
  gcf := memField m (a + 6) 2
  tolerance := memField m (a + 8) 2
  faultTime := memField m (a + 10) 2
  handover := memField m (a + 12) 2

/-- Reads a Chamber Table. -/
def readChamberCfg (m : Memory) (a : Nat) : ChamberCfg where
  manometer := memField m a 1
  roughGauge := memField m (a + 1) 1
  forward := memField m (a + 2) 1
  reflected := memField m (a + 3) 1
  rfCommand := memField m (a + 4) 1
  purgeLine := memField m (a + 5) 1
  strikeRetries := memField m (a + 6) 1
  wakeEnables := memField m (a + 7) 1
  valveSpan := memField m (a + 8) 4
  pressureTolerance := memField m (a + 12) 2
  settleTime := memField m (a + 14) 2
  minimumBand := memField m (a + 16) 4
  pressureFaultTime := memField m (a + 20) 2
  rfSpan := memField m (a + 22) 2
  strikeRatio := memField m (a + 24) 2
  strikeWindow := memField m (a + 26) 2
  reflectedLimit := memField m (a + 28) 2
  reflectTime := memField m (a + 30) 2
  softRoughPressure := memField m (a + 32) 4
  crossoverPressure := memField m (a + 36) 4
  basePressure := memField m (a + 40) 4
  atmosphere := memField m (a + 44) 4
  softRoughLimit := memField m (a + 48) 2
  fastRoughLimit := memField m (a + 50) 2
  highVacLimit := memField m (a + 52) 2
  ventLimit := memField m (a + 54) 2
  crossoverDelay := memField m (a + 56) 2
  gateCloseDelay := memField m (a + 58) 2
  purgeFlow := memField m (a + 60) 2
  purgeTime := memField m (a + 62) 2
  closePressure := memField m (a + 64) 4
  closeLimit := memField m (a + 68) 2
  pulseLossTime := memField m (a + 70) 2
  economyPurgeFlow := memField m (a + 72) 2
  recoveryDwell := memField m (a + 74) 2
  economyRise := memField m (a + 76) 4
  recoveryLimit := memField m (a + 80) 2
  foreline := memField m (a + 84) 1
  forelineLimit := memField m (a + 88) 4
  forelineResume := memField m (a + 92) 4

/-- Reads an Interlock Table entry. -/
def readInterlockCfg (m : Memory) (a : Nat) : InterlockCfg where
  activeLevel := memField m a 1
  debounce := memField m (a + 1) 1
  scope := memField m (a + 2) 1
  action := memField m (a + 3) 1

/-- Reads a Scan and Conversion Table entry. -/
def readScanCfg (m : Memory) (a : Nat) : ScanCfg where
  channel := memField m a 1
  cls := memField m (a + 1) 1
  count := memField m (a + 2) 1
  points := (List.range 8).map fun i => (memField m (a + 4 + 8 * i) 4, memField m (a + 8 + 8 * i) 4)

/-- Reads Partition N and every host table, as the one compound read of an APPLY (R12). -/
def readTables (m : Memory) : Tables where
  partition := memField m (layoutAddr 0x08) 4
  lines := Vector.ofFn fun k : Fin 16 => readLineCfg m (lineTableAddr k.val)
  chambers := Vector.ofFn fun c : Fin 4 => readChamberCfg m (chamberTableAddr c.val)
  interlocks := Vector.ofFn fun k : Fin 16 => readInterlockCfg m (interlockTableAddr k.val)
  scan := Vector.ofFn fun j : Fin 48 => readScanCfg m (scanTableAddr j.val)

/-- A scan entry is in use with Class FAST (1) or SLOW (2). -/
def ScanCfg.inUse (e : ScanCfg) : Bool := e.cls == 1 || e.cls == 2

/-- The breakpoints of an entry that its Breakpoint Count uses. -/
def ScanCfg.usedPoints (e : ScanCfg) : List (Nat × Nat) := e.points.take e.count

/-- The class of a channel: that of the entry in use that names it (R137). -/
def Tables.channelEntry (tab : Tables) (k : Nat) : Option ScanCfg :=
  tab.scan.toList.find? fun e => e.inUse && e.channel == k

/-- The lines whose Readback Channel is a channel, lowest first (R140). -/
def Tables.readbackLines (tab : Tables) (k : Nat) : List LineId :=
  (List.finRange 16).filter fun j => tab.lines[j].readback == k

/-- A channel that a line or chamber field may name: at most 47 and in use (R12). -/
def Tables.channelOk (tab : Tables) (k : Nat) : Bool := decide (k ≤ 47) && (tab.channelEntry k).isSome

/-- Counts strictly ascending. -/
def strictlyAscending : List Nat → Bool
  | a :: b :: rest => decide (a < b) && strictlyAscending (b :: rest)
  | _ => true

/-- The checks of scan entry `j` (R12). -/
def checkScan (tab : Tables) (j : Fin 48) : Option LayoutCode :=
  let e := tab.scan[j]
  if 2 < e.cls then some .badScan
  else if !e.inUse then none
  else if 47 < e.channel ∨
      ((List.finRange 48).any fun i => decide (i < j) && tab.scan[i].inUse && tab.scan[i].channel == e.channel) then
    some .badScan
  else if !(tab.readbackLines e.channel).isEmpty then none
  else if e.count < 2 ∨ 8 < e.count ∨ (e.usedPoints.any fun p => decide (4095 < p.1)) ∨
      strictlyAscending (e.usedPoints.map Prod.fst) = false then
    some .badConversion
  else none

/-- The checks of line `k` (R12). -/
def checkLine (tab : Tables) (k : LineId) : Option LayoutCode :=
  let e := tab.lines[k]
  if (e.use ≠ 1 ∧ e.use ≠ 2) ∨ (e.use = 1 ∧ (e.chamber < 1 ∨ 4 < e.chamber)) ∨ e.fullScale = 0 ∨
      e.gcf < 100 ∨ 4000 < e.gcf ∨ e.tolerance < 5 ∨ 200 < e.tolerance ∨ e.faultTime < 1 ∨ 6000 < e.faultTime ∨
      15 < e.command ∨
      ((List.finRange 16).any fun i => decide (i < k) && tab.lines[i].command == e.command) ∨
      tab.channelOk e.readback = false ∨ (e.use = 2 ∧ 500 < e.handover) then
    some .badLine
  else none

/-- The checks of chamber `c` (R12). -/
def checkChamber (tab : Tables) (c : Chamber) : Option LayoutCode :=
  let e := tab.chambers[c]
  if tab.channelOk e.manometer = false ∨ tab.channelOk e.roughGauge = false ∨ tab.channelOk e.forward = false ∨
      tab.channelOk e.reflected = false ∨ (c = 0 ∧ tab.channelOk e.foreline = false) ∨
      e.rfCommand < 20 ∨ 23 < e.rfCommand ∨
      ((List.finRange 4).any fun i => decide (i < c) && tab.chambers[i].rfCommand == e.rfCommand) ∨
      e.valveSpan = 0 ∨ e.pressureTolerance < 10 ∨ 500 < e.pressureTolerance ∨ e.rfSpan < 100 ∨ 5000 < e.rfSpan ∨
      e.strikeRatio < 500 ∨ 1000 < e.strikeRatio ∨ e.strikeWindow < 1 ∨ 500 < e.strikeWindow ∨
      e.reflectTime < 1 ∨ 500 < e.reflectTime ∨ 3 < e.strikeRetries ∨ 600 < e.recoveryDwell ∨
      e.recoveryLimit < 10 ∨ 1800 < e.recoveryLimit then
    some .badChamber
  else if e.purgeLine ≠ 0 ∧
      ((List.finRange 16).any fun k =>
        k.val + 1 == e.purgeLine && tab.lines[k].use == 1 && tab.lines[k].chamber == c.val + 1) = false then
    some .badPurgeLine
  else none

/-- The checks of interlock input `k` (R12). -/
def checkInterlock (tab : Tables) (k : InputId) : Option LayoutCode :=
  let e := tab.interlocks[k]
  if 15 < e.scope then some .badInterlock
  else if e.scope = 0 then none
  else if 1 < e.activeLevel ∨ e.action < 1 ∨ 3 < e.action then some .badInterlock
  else none

/-- The layout checks in order (R12): the first that fails, with the entry it names, or none. -/
def checkTables (tab : Tables) : Option (LayoutCode × Nat) :=
  if tab.partition < 6 ∨ 26 < tab.partition then some (.badPartition, 0)
  else
    (((List.finRange 48).findSome? fun j => (checkScan tab j).map fun x => (x, j.val)).or
      ((List.finRange 16).findSome? fun k => (checkLine tab k).map fun x => (x, k.val + 1))).or
      (((List.finRange 4).findSome? fun c => (checkChamber tab c).map fun x => (x, c.val + 1)).or
        ((List.finRange 16).findSome? fun k => (checkInterlock tab k).map fun x => (x, k.val + 1)))

/-- A line number of a record or table, 1 to 16, as an index. -/
def lineIndex? (n : Nat) : Option LineId :=
  if h : 1 ≤ n ∧ n ≤ 16 then some ⟨n - 1, by omega⟩ else none

/-! ### Step records -/

/-- A step record, all kinds (section 1.5); `gases` are the four gas entries as line number and setpoint. -/
structure StepRec where
  kind : Nat := 0
  flags : Nat := 0
  base : Nat := 0
  exit : Nat := 0
  duration : Nat := 0
  flowRamp : Nat := 0
  dwell : Nat := 0
  gases : List (Nat × Nat) := []
  target : Nat := 0
  rfPower : Nat := 0
  endpointMin : Nat := 0
  endpointDwell : Nat := 0
  rfRamp : Nat := 0
  loopTarget : Nat := 0
  loopCount : Nat := 0
  deriving DecidableEq, Repr

/-- Reads the step record of a recipe index as one compound read. -/
def readStep (m : Memory) (idx : Nat) : StepRec :=
  let a := recordAddr idx
  { kind := memField m a 1
    flags := memField m (a + 1) 1
    base := memField m (a + 2) 1
    exit := memField m (a + 3) 1
    duration := memField m (a + 4) 2
    flowRamp := memField m (a + 6) 1
    dwell := memField m (a + 7) 1
    gases := (List.range 4).map fun i => (memField m (a + 8 + i) 1, memField m (a + 12 + 2 * i) 2)
    target := memField m (a + 20) 2
    rfPower := memField m (a + 22) 2
    endpointMin := memField m (a + 24) 2
    endpointDwell := memField m (a + 26) 2
    rfRamp := memField m (a + 28) 1
    loopTarget := memField m (a + 8) 2
    loopCount := memField m (a + 12) 2 }

/-- Kind LOOP_BACK. -/
def StepRec.isLoop (r : StepRec) : Bool := r.kind == 4
/-- Kind GAS. -/
def StepRec.isGas (r : StepRec) : Bool := r.kind == 1
/-- Kind PLASMA. -/
def StepRec.isPlasma (r : StepRec) : Bool := r.kind == 2
/-- Kind PUMP_OUT. -/
def StepRec.isPumpOut (r : StepRec) : Bool := r.kind == 3
/-- Flag REPORT. -/
def StepRec.reports (r : StepRec) : Bool := bitSet r.flags 0
/-- Flag ABORT_ON_TIMEOUT. -/
def StepRec.abortsOnTimeout (r : StepRec) : Bool := bitSet r.flags 1
/-- Exit Mode TIME. -/
def StepRec.exitsTime (r : StepRec) : Bool := r.exit == 0
/-- Exit Mode ENDPOINT. -/
def StepRec.exitsEndpoint (r : StepRec) : Bool := r.exit == 1
/-- Exit Mode STABLE. -/
def StepRec.exitsStable (r : StepRec) : Bool := r.exit == 2
/-- Exit Mode PRESSURE_BELOW. -/
def StepRec.exitsPressure (r : StepRec) : Bool := r.exit == 3
/-- Time Base EXT. -/
def StepRec.onExt (r : StepRec) : Bool := r.base == 4

/-- The tap of a Time Base code T0 to T3; EXT has none. -/
def StepRec.tap? (r : StepRec) : Option Tap :=
  match r.base with
  | 0 => some .t0
  | 1 => some .t1
  | 2 => some .t2
  | 3 => some .t3
  | _ => none

/-- The gas entries in use: those whose Gas Line is not 0, as line and setpoint. Only GAS and PLASMA steps have gas
entries. -/
def StepRec.entries (r : StepRec) : List (LineId × Nat) :=
  if r.isGas || r.isPlasma then
    r.gases.filterMap fun g => (lineIndex? g.1).map fun k => (k, g.2)
  else []

/-- Whether an entry in use names a line. -/
def StepRec.names (r : StepRec) (k : LineId) : Bool := r.entries.any fun e => e.1 == k

/-- A list without repeats. -/
def noRepeats : List Nat → Bool
  | [] => true
  | a :: rest => !rest.contains a && noRepeats rest

/-- Test 5 of R46 on the lines named. -/
def gasLinesOk (tab : Tables) (c : Chamber) (r : StepRec) : Bool :=
  let used := (r.gases.map Prod.fst).filter (· != 0)
  noRepeats used && used.all fun n =>
    match lineIndex? n with
    | none => false
    | some k => !(tab.lines[k].use == 1 && tab.lines[k].chamber != c.val + 1)

/-- Tests 1 to 11 of R46: whether a record at recipe index `idx` of a segment is well formed. -/
def stepOk (tab : Tables) (c : Chamber) (segFirst idx : Nat) (r : StepRec) : Bool :=
  if r.isLoop then
    decide (2 ≤ r.loopCount ∧ segFirst ≤ r.loopTarget ∧ r.loopTarget < idx)
  else if r.isGas || r.isPlasma then
    decide (r.base ≤ 4 ∧ r.exit ≤ 2 ∧ r.duration ≠ 0) && gasLinesOk tab c r &&
      (!r.exitsEndpoint || decide (r.endpointMin < r.duration)) &&
      (!r.exitsStable || !r.entries.isEmpty || decide (r.target ≠ 0)) &&
      (!r.onExt || decide (tab.chambers[c].pulseLossTime ≠ 0))
  else if r.isPumpOut then
    decide (r.base ≤ 4 ∧ (r.exit = 0 ∨ r.exit = 3) ∧ r.duration ≠ 0) && (r.gases.all fun g => g.1 == 0) &&
      (!r.onExt || decide (tab.chambers[c].pulseLossTime ≠ 0))
  else false

/-- Tests 1 to 12 of R46 at a take, with the LOOP_BACK tests of R23: the first record of the segment that fails, as a
recipe index. -/
def firstBadRecord (m : Memory) (tab : Tables) (c : Chamber) (segFirst count : Nat) : Option Nat :=
  (List.range count).findSome? fun p =>
    let idx := segFirst + p
    let r := readStep m idx
    if stepOk tab c segFirst idx r && !(r.isLoop && (readStep m r.loopTarget).isLoop) then none else some idx

/-! ### Order slots, control blocks and context records -/

/-- The fields of an order slot that the part reads. -/
structure Order where
  kind : Nat := 0
  closure : Nat := 0
  resumeMode : Nat := 0
  targetMode : Nat := 0
  tag : Nat := 0
  first : Nat := 0
  count : Nat := 0
  gapLimit : Nat := 0
  deriving DecidableEq, Repr

/-- Reads a whole slot as one compound read (R19). -/
def readOrder (m : Memory) (a : Nat) : Order where
  kind := memField m (a + 4) 1
  closure := memField m (a + 5) 1
  resumeMode := memField m (a + 6) 1
  targetMode := memField m (a + 7) 1
  tag := memField m (a + 8) 4
  first := memField m (a + 12) 2
  count := memField m (a + 14) 2
  gapLimit := memField m (a + 16) 2

/-- The range checks of R23 in its order: the byte offset of the first field out of range. -/
def orderRangeFault (partition : Nat) (resume : Bool) (o : Order) : Option Nat :=
  if 1 < o.closure then some 5
  else if o.count < 1 ∨ 1024 < o.count then some 14
  else if recipeRecords partition < o.first + o.count then some (if Config.rangeNamesFirst then 12 else 14)
  else if o.closure = 1 ∧ (o.gapLimit < 1 ∨ 600 < o.gapLimit) then some 16
  else if resume = true ∧ 1 < o.resumeMode then some 6
  else none

/-- The fields of a context record that a RUN_RESUME reads; `entries` are the four loop entries, oldest first. -/
structure Context where
  tag : Nat := 0
  next : Nat := 0
  depth : Nat := 0
  remaining : Nat := 0
  entries : List (Nat × Nat) := []
  rfTotal : Nat := 0
  steps : Nat := 0
  deriving DecidableEq, Repr

/-- Reads a context record as one compound read (R41). -/
def readContext (m : Memory) (a : Nat) : Context where
  tag := memField m a 4
  next := memField m (a + 8) 2
  depth := memField m (a + 10) 2
  remaining := memField m (a + 12) 2
  entries := (List.range 4).map fun i => (memField m (a + 16 + 4 * i) 2, memField m (a + 18 + 4 * i) 2)
  rfTotal := memField m (a + 32) 4
  steps := memField m (a + 36) 4

/-- The loop entries below Loop Depth, oldest first. -/
def Context.loops (x : Context) : List (Nat × Nat) := x.entries.take x.depth

/-- Checks 4 to 6 of R41 on the loop entries, oldest first, from entry `i` on; `prev` is the index of entry i − 1. -/
def contextLoopFault (m : Memory) (first count : Nat) : List (Nat × Nat) → Nat → Option Nat → Option Nat
  | [], _, _ => none
  | (idx, rem) :: rest, i, prev =>
    if idx < first ∨ first + count ≤ idx ∨ (readStep m idx).isLoop = false then some (16 + 4 * i)
    else if rem = 0 ∨ (readStep m idx).loopCount ≤ rem then some (18 + 4 * i)
    else if prev.any (fun p => decide (p ≤ idx)) then some (16 + 4 * i)
    else contextLoopFault m first count rest (i + 1) (some idx)

/-- The checks of R41: the byte offset of the first context field that fails. -/
def contextFault (m : Memory) (o : Order) (x : Context) : Option Nat :=
  if x.tag ≠ o.tag then some 0
  else if o.count ≤ x.next then some 8
  else if 4 < x.depth then some 10
  else
    (contextLoopFault m o.first o.count x.loops 0 none).or
      (match x.loops.getLast? with
        | some newest => if newest.1 < o.first + x.next then some (16 + 4 * (x.depth - 1)) else none
        | none => none)

end Sys2Proof.Machine
end

