-- ==== Sys2Proof/Machine/State.lean ====
section
/-! DEFINITION. The state of the block as plain data: every register, count, queue, latch and pin the manual names, one
structure per block of the part (spec/00_scope.md, Block diagram), and the state right after a power-on reset. Counts
are naturals, as the manual's formulas are integer arithmetic. A field named `…Mark` or `mark` is the model's own: the
moment at which a count was loaded or last counted, from which the same-moment rules are judged (log 2). -/

namespace Sys2Proof.Machine

/-- What stops the machine. No rule of the manual stops the block, so there is no fault: every command has a next
state. -/
inductive Fault where
  deriving DecidableEq, Repr

/-- Why a command has no meaning here. -/
inductive Refusal where
  /-- Raised only by exec's arm of a command that has no meaning yet; safe: the machine stops. No arm raises it now. -/
  | notModelled (mnemonic : String)
  deriving DecidableEq, Repr

/-- The System Port (R3 to R7): the part state, the layout result, Event Summary, Event Enable, and the data that the
last register read returned. -/
structure Port where
  part : PartState := .halted
  result : LayoutCode := .noApply
  resultEntry : Nat := 0
  summary : BitVec 18 := 0
  enable : BitVec 18 := 0
  dataOut : Word := 0
  deriving DecidableEq, Repr

/-- The input pins at the level their last sample found: endpoint and turbo-at-speed of each chamber, the 16 interlock
inputs (high = true), and the counts of the 48 analog inputs. -/
structure Pins where
  endpoint : Vector Bool 4 := Vector.replicate 4 false
  turbo : Vector Bool 4 := Vector.replicate 4 false
  interlock : Vector Bool 16 := Vector.replicate 16 false
  analog : Vector (BitVec 12) 48 := Vector.replicate 48 0
  deriving DecidableEq, Repr

/-- A segment of a run (R17, R26). -/
structure Segment where
  first : Nat := 0
  count : Nat := 0
  isOpen : Bool := false
  gapLimit : Nat := 0
  deriving DecidableEq, Repr

/-- An entry of the loop stack (R61). -/
structure LoopEntry where
  idx : Nat
  rem : Nat
  deriving DecidableEq, Repr

/-- What a slot holds inside the part (R17): nothing (not-TAKEN), or TAKEN with the order it holds. A pump order taken
in ECONOMY, which started no pumpdown (R111), is marked `wake`. -/
inductive SlotHold where
  | free
  | current
  | pending
  | pump (wake : Bool)
  | mode
  deriving DecidableEq, Repr

/-- The close-out stages that last (R154 to R156); GAS_OFF and END pass within an event. -/
inductive CloseStage where
  | none
  | rfOff
  | purge
  | pumpOut
  deriving DecidableEq, Repr

/-- The close-out restriction (R153). -/
inductive Restriction where
  | none
  | noPurge
  | noPurgeNoPumpOut
  deriving DecidableEq, Repr

/-- The Chamber Sequencer of one chamber (R17, R26 to R43, R52 to R65, R153 to R158). -/
structure Seq where
  run : RunState := .idle
  /-- The expected-slot pointer (R17). -/
  expected : Fin 2 := 0
  slots : Vector SlotHold 2 := Vector.replicate 2 .free
  /-- The current segment and the pending one (R26, R27). -/
  seg : Segment := {}
  pendingSeg : Option Segment := none
  /-- The Pending Segment First last shown. -/
  pendFirstShown : Nat := 0
  /-- Steps of the current segment that reached step end, the last of them, and the segment's clamp flags (R21, R64). -/
  segDone : Nat := 0
  segLast : Option Nat := none
  segClamped : Bool := false
  segPclamped : Bool := false
  segRclamped : Bool := false
  tag : Nat := 0
  segNumber : Nat := 0
  stepsRun : Nat := 0
  rfTotal : Nat := 0
  /-- The loop stack, newest entry first. -/
  loop : List LoopEntry := []
  /-- The record of the current step as its step start read it, its position, and its recipe index. -/
  step : StepRec := {}
  pos : Nat := 0
  stepIdx : Nat := 0
  /-- The step timer (R53), the pulse-loss timer (R54), the Elapsed count (R65) and the endpoint dwell (R56). -/
  timer : Nat := 0
  timerMark : Moment := 0
  pulse : Nat := 0
  pulseMark : Moment := 0
  elapsed : Nat := 0
  elapsedMark : Moment := 0
  endpointCount : Nat := 0
  endpointMark : Moment := 0
  /-- The saved remaining count that the next timer load uses, 0 for none (R34, R37, R42). -/
  saved : Nat := 0
  latch : Bool := false
  gap : Nat := 0
  gapMark : Moment := 0
  /-- The run's outcome with its item, and the second fault (R153). -/
  outcome : Code := .nil
  item : Nat := 0
  second : Code := .nil
  lastRequest : Nat := 0
  requestResult : Nat := 0
  lastOutcome : Code := .nil
  /-- Close-out (R153 to R158). -/
  stage : CloseStage := .none
  restriction : Restriction := .none
  stageMark : Moment := 0
  purgeTimer : Nat := 0
  purgeEndMark : Moment := 0
  closeLimit : Nat := 0
  closeLimitMark : Moment := 0
  closeElapsed : Nat := 0
  closeElapsedMark : Moment := 0
  closeClamped : Bool := false
  pumpOutIncomplete : Bool := false
  /-- The Current Step Index and Loop Depth last shown in the status block. -/
  shownIdx : Nat := 0
  shownDepth : Nat := 0
  deriving DecidableEq, Repr

/-- A ramp in progress (R73, R127). -/
structure Ramp where
  start : Nat
  stop : Nat
  len : Nat
  taken : Nat
  deriving DecidableEq, Repr

/-- What a line is flowing for (R66). -/
inductive Source where
  | none
  | step
  | purge
  | idlePurge
  deriving DecidableEq, Repr

/-- A line channel of the Flow Unit (R66). `dwell` is the Stable Dwell handed in a STABLE step; `faultDue` names the
chamber whose FLOW_FAULT an evaluation has reached and the Flow Unit has still to deliver (R79). -/
structure Line where
  openTo : Option Chamber := none
  source : Source := .none
  setpoint : Nat := 0
  ramp : Option Ramp := none
  command : Nat := 0
  inCount : Nat := 0
  stable : Bool := false
  outCount : Nat := 0
  clamped : Bool := false
  dwell : Option Nat := none
  mark : Moment := 0
  faultDue : Option Chamber := none
  deriving DecidableEq, Repr

/-- A line's state in the Line Arbiter (R86); `absent` for a line that is not SHARED. -/
inductive Arb where
  | absent
  | free
  | owned (c : Chamber)
  | purging (timer : Nat) (mark : Moment)
  deriving DecidableEq, Repr

/-- An entry of the shared-line wait queue (R86). -/
structure WaitEntry where
  chamber : Chamber
  set : List LineId
  deriving DecidableEq, Repr

/-- A Pressure Channel (R97). `dwell` is the Stable Dwell handed in a STABLE step; after a reset it is none, and R97 names
no value for it there (DESIGN CHOICE, log 11); `faultDue`: an evaluation has reached PRESSURE_FAULT and it is still to be
delivered (R104). -/
structure Press where
  target : Nat := 0
  output : Nat := 0
  throttleOpen : Bool := false
  evaluating : Bool := false
  dwell : Option Nat := none
  inCount : Nat := 0
  stable : Bool := false
  settle : Nat := 0
  armed : Bool := false
  outCount : Nat := 0
  pclamped : Bool := false
  mark : Moment := 0
  faultDue : Bool := false
  deriving DecidableEq, Repr

/-- A pump machine (R106). A limit or delay that is not running is none. -/
structure Pump where
  st : PumpState := .isolated
  paused : Bool := false
  limit : Option Nat := none
  limitMark : Moment := 0
  delay : Option Nat := none
  ventOpened : Bool := false
  mark : Moment := 0
  deriving DecidableEq, Repr

/-- The Rough Line Arbiter (R112). -/
structure Rough where
  holder : Option Chamber := none
  queue : List Chamber := []
  deriving DecidableEq, Repr

/-- The phase of an RF Supervisor (R125). -/
inductive RfPhase where
  | off
  | striking
  | retryPause
  | struck
  deriving DecidableEq, Repr

/-- An RF Supervisor (R125). `rampLen` is the current step's RF Ramp; `onSince` the moment of the enabling in force and
`lastOn` the last enabling and disabling that lay apart (R135); the due flags: RF_REFLECT or PLASMA_LOST reached at an
evaluation and still to be delivered (R134). -/
structure Rf where
  phase : RfPhase := .off
  target : Nat := 0
  power : Nat := 0
  ramp : Option Ramp := none
  output : Nat := 0
  window : Nat := 0
  pause : Nat := 0
  retries : Nat := 0
  reflect : Nat := 0
  lost : Nat := 0
  rclamped : Bool := false
  stepRetries : Nat := 0
  stepRfOn : Nat := 0
  inhibit : Bool := false
  rampLen : Nat := 0
  mark : Moment := 0
  rampMark : Moment := 0
  onSince : Option Moment := none
  lastOn : Option (Moment × Moment) := none
  countMark : Moment := 0
  reflectDue : Bool := false
  lostDue : Bool := false
  deriving DecidableEq, Repr

/-- The wake phase (R159). -/
inductive WakePhase where
  | none
  | turboWait
  | dwell
  deriving DecidableEq, Repr

/-- The economy logic of one chamber (R159). -/
structure Econ where
  mode : Mode := .active
  phase : WakePhase := .none
  cause : WakeCause := .nil
  limit : Nat := 0
  dwell : Nat := 0
  sampleMark : Moment := 0
  countMark : Moment := 0
  lastWake : WakeCause := .nil
  deriving DecidableEq, Repr

/-- A page of a report area with its header (R164). -/
structure Page where
  st : PageState := .empty
  count : Nat := 0
  first : Nat := 0
  skipped : Nat := 0
  deriving DecidableEq, Repr

/-- The Report Writer of one chamber (R164). `size` and `pages` are 0 while not fixed; `partition` is the applied
partition number for which the page layout was fixed. `perEntry` is the notice policy PER_ENTRY and `closeShort` the
close-short choice; between a reset and the first APPLY_LAYOUT, where no rule gives them, they are PER_PAGE and no
(DESIGN CHOICE, log 11). -/
structure Rep where
  size : Nat := 0
  pages : Nat := 0
  partition : Nat := 0
  page0 : Page := {}
  page1 : Page := {}
  held : Option Entry := none
  skipped : Nat := 0
  next : Nat := 0
  perEntry : Bool := false
  closeShort : Bool := false
  clampedSize : Bool := false
  deriving DecidableEq, Repr

/-- A channel of the Measurement Scanner (R137, R142): the last result, with one value for each line that reads it, its
age, the moment of its last publish, and whether the Measurement Table's State word was last written STALE. -/
structure Chan where
  raw : Nat := 0
  value : Nat := 0
  conv : Conv := .valid
  lineValues : List (LineId × Nat) := []
  age : Nat := 65535
  published : Moment := 0
  shownStale : Bool := true
  deriving DecidableEq, Repr

/-- The scanner's rate and settling count (R137, R146). -/
structure Scan where
  rate : ScanRate := .stopped
  settling : Nat := 0
  settleMark : Moment := 0
  passMark : Moment := 0
  slowMark : Moment := 0
  deriving DecidableEq, Repr

/-- An interlock input (R148). -/
structure Ilk where
  raw : Bool := false
  count : Nat := 0
  trip : Bool := false
  mark : Moment := 0
  deriving DecidableEq, Repr

/-- The state of the block. `pending` is the queue of commands that wait, first in, first out; `now` is the moment of
the Time Base (R44); `uses` is the model's own counter of the free choices taken (log 10). -/
structure State where
  pending : List Instr := []
  now : Moment := 0
  uses : Nat := 0
  mem : Memory := []
  port : Port := {}
  tables : Tables := {}
  pins : Pins := {}
  seqs : Vector Seq 4 := Vector.replicate 4 {}
  rfs : Vector Rf 4 := Vector.replicate 4 {}
  presses : Vector Press 4 := Vector.replicate 4 {}
  pumps : Vector Pump 4 := Vector.replicate 4 {}
  econs : Vector Econ 4 := Vector.replicate 4 {}
  reps : Vector Rep 4 := Vector.replicate 4 {}
  lines : Vector Line 16 := Vector.replicate 16 {}
  gasInhibits : Vector Bool 4 := Vector.replicate 4 false
  arbs : Vector Arb 16 := Vector.replicate 16 .absent
  waitQueue : List WaitEntry := []
  rough : Rough := {}
  scan : Scan := {}
  chans : Vector Chan 48 := Vector.replicate 48 {}
  ilks : Vector Ilk 16 := Vector.replicate 16 {}
  deriving DecidableEq, Repr

/-- The block right after a power-on reset (R16): every block in its reset state, and the Common Memory holding the
words the part writes on entering HALTED over what unwritten memory reads as (log 4). -/
def State.reset : State := { mem := resetWrites (fun _ => .nil) [] }

/-- What a command answers. -/
abbrev Result := Host.Outcome State Fault Refusal

end Sys2Proof.Machine
end

