-- ==== Sys2Proof/Machine/Ops.lean ====
section
/-! DEFINITION. The named operations every meaning is built from: one accessor and one update for each block of State,
the writes of the status words and of the Global Status image, and the events of the Time Base. -/

namespace Sys2Proof.Machine

/-! ### Accessors -/

/-- The Chamber Sequencer of chamber `c`. -/
def State.seq (s : State) (c : Chamber) : Seq := s.seqs[c]
/-- The RF Supervisor of chamber `c`. -/
def State.rf (s : State) (c : Chamber) : Rf := s.rfs[c]
/-- The Pressure Channel of chamber `c`. -/
def State.press (s : State) (c : Chamber) : Press := s.presses[c]
/-- The pump machine of chamber `c`. -/
def State.pump (s : State) (c : Chamber) : Pump := s.pumps[c]
/-- The economy logic of chamber `c`. -/
def State.econ (s : State) (c : Chamber) : Econ := s.econs[c]
/-- The Report Writer of chamber `c`. -/
def State.rep (s : State) (c : Chamber) : Rep := s.reps[c]
/-- The line channel `k` of the Flow Unit. -/
def State.line (s : State) (k : LineId) : Line := s.lines[k]
/-- The Line Arbiter's state of line `k`. -/
def State.arb (s : State) (k : LineId) : Arb := s.arbs[k]
/-- Scan channel `k`. -/
def State.chan (s : State) (k : ChannelId) : Chan := s.chans[k]
/-- Interlock input `k`. -/
def State.ilk (s : State) (k : InputId) : Ilk := s.ilks[k]
/-- The gas inhibit of chamber `c` (R83). -/
def State.gasInhibit (s : State) (c : Chamber) : Bool := s.gasInhibits[c]
/-- The applied Chamber Table of chamber `c`. -/
def State.chamberCfg (s : State) (c : Chamber) : ChamberCfg := s.tables.chambers[c]
/-- The applied Line Table entry of line `k`. -/
def State.lineCfg (s : State) (k : LineId) : LineCfg := s.tables.lines[k]
/-- The applied Interlock Table entry of input `k`. -/
def State.ilkCfg (s : State) (k : InputId) : InterlockCfg := s.tables.interlocks[k]

/-! ### Updates -/

/-- Replaces a Chamber Sequencer. -/
def State.setSeq (s : State) (c : Chamber) (x : Seq) : State := { s with seqs := s.seqs.set c x }
/-- Replaces an RF Supervisor. -/
def State.setRf (s : State) (c : Chamber) (x : Rf) : State := { s with rfs := s.rfs.set c x }
/-- Replaces a Pressure Channel. -/
def State.setPress (s : State) (c : Chamber) (x : Press) : State := { s with presses := s.presses.set c x }
/-- Replaces a pump machine. -/
def State.setPump (s : State) (c : Chamber) (x : Pump) : State := { s with pumps := s.pumps.set c x }
/-- Replaces a chamber's economy logic. -/
def State.setEcon (s : State) (c : Chamber) (x : Econ) : State := { s with econs := s.econs.set c x }
/-- Replaces a chamber's Report Writer. -/
def State.setRep (s : State) (c : Chamber) (x : Rep) : State := { s with reps := s.reps.set c x }
/-- Replaces a line channel. -/
def State.setLine (s : State) (k : LineId) (x : Line) : State := { s with lines := s.lines.set k x }
/-- Replaces a line's arbiter state. -/
def State.setArb (s : State) (k : LineId) (x : Arb) : State := { s with arbs := s.arbs.set k x }
/-- Replaces a scan channel. -/
def State.setChan (s : State) (k : ChannelId) (x : Chan) : State := { s with chans := s.chans.set k x }
/-- Replaces an interlock input. -/
def State.setIlk (s : State) (k : InputId) (x : Ilk) : State := { s with ilks := s.ilks.set k x }
/-- Sets or clears a gas inhibit. -/
def State.setGasInhibit (s : State) (c : Chamber) (b : Bool) : State :=
  { s with gasInhibits := s.gasInhibits.set c b }
/-- Replaces the memory. -/
def State.setMem (s : State) (m : Memory) : State := { s with mem := m }
/-- Replaces the System Port. -/
def State.setPort (s : State) (p : Port) : State := { s with port := p }
/-- Replaces the applied copies. -/
def State.setTables (s : State) (x : Tables) : State := { s with tables := x }
/-- Replaces the sampled pins. -/
def State.setPins (s : State) (p : Pins) : State := { s with pins := p }
/-- Replaces the shared-line wait queue. -/
def State.setWaitQueue (s : State) (q : List WaitEntry) : State := { s with waitQueue := q }
/-- Replaces the Rough Line Arbiter. -/
def State.setRough (s : State) (r : Rough) : State := { s with rough := r }
/-- Replaces the scanner's rate and counts. -/
def State.setScan (s : State) (x : Scan) : State := { s with scan := x }
/-- Moves the Time Base. -/
def State.setNow (s : State) (t : Moment) : State := { s with now := t }
/-- Takes a free choice. -/
def State.bumpUses (s : State) : State := { s with uses := s.uses + 1 }

/-- Changes a Chamber Sequencer. -/
def State.modSeq (s : State) (c : Chamber) (f : Seq → Seq) : State := s.setSeq c (f (s.seq c))
/-- Changes an RF Supervisor. -/
def State.modRf (s : State) (c : Chamber) (f : Rf → Rf) : State := s.setRf c (f (s.rf c))
/-- Changes a Pressure Channel. -/
def State.modPress (s : State) (c : Chamber) (f : Press → Press) : State := s.setPress c (f (s.press c))
/-- Changes a pump machine. -/
def State.modPump (s : State) (c : Chamber) (f : Pump → Pump) : State := s.setPump c (f (s.pump c))
/-- Changes a chamber's economy logic. -/
def State.modEcon (s : State) (c : Chamber) (f : Econ → Econ) : State := s.setEcon c (f (s.econ c))
/-- Changes a chamber's Report Writer. -/
def State.modRep (s : State) (c : Chamber) (f : Rep → Rep) : State := s.setRep c (f (s.rep c))
/-- Changes a line channel. -/
def State.modLine (s : State) (k : LineId) (f : Line → Line) : State := s.setLine k (f (s.line k))
/-- Changes an interlock input. -/
def State.modIlk (s : State) (k : InputId) (f : Ilk → Ilk) : State := s.setIlk k (f (s.ilk k))

/-- A whole-word write of the part (R2). -/
def State.putWord (s : State) (a v : Nat) : State := s.setMem (memPutWord s.mem a v)
/-- Whole-word writes of the part in offset order. -/
def State.putWords (s : State) (a : Nat) (vs : List Nat) : State := s.setMem (memPutWords s.mem a vs)

/-! ### The Chamber Status Block -/

/-- The words of the Chamber Status Block that carry chamber state; the part writes whole words (R2). -/
inductive StatusWord where
  | states        -- Run State, Pump State, Mode, Expected Slot
  | flags         -- Status Flags, Last Wake Cause, Last Taken Request Number
  | outcome       -- Request Result, Last Run Outcome
  | tag           -- Run Tag
  | index         -- Current Step Index, Loop Depth
  | timer         -- Step Timer count, Segment Number
  | steps         -- Steps Executed (run)
  | page0         -- Page 0 State
  | header0       -- Page 0 Entry Count, First Sequence
  | skipped0      -- Page 0 Skipped
  | page1         -- Page 1 State
  | header1       -- Page 1 Entry Count, First Sequence
  | skipped1      -- Page 1 Skipped
  | layout        -- Page Count, Effective Page Size
  | counts        -- Skipped Count, Next Sequence
  | pending       -- Pending Segment First, Pending Segment Count
  deriving DecidableEq, Repr

/-- The offset of a status word. -/
def StatusWord.offset : StatusWord → Nat
  | .states => 0
  | .flags => 4
  | .outcome => 8
  | .tag => 12
  | .index => 16
  | .timer => 20
  | .steps => 24
  | .page0 => 28
  | .header0 => 32
  | .skipped0 => 36
  | .page1 => 40
  | .header1 => 44
  | .skipped1 => 48
  | .layout => 52
  | .counts => 56
  | .pending => 60

/-- The value a status word shows. -/
def statusValue (s : State) (c : Chamber) : StatusWord → Nat
  | .states => pack8 (s.seq c).run.code (s.pump c).st.code (s.econ c).mode.code (s.seq c).expected.val
  | .flags =>
    pack8 (bitIf (s.pump c).paused 1 + bitIf (s.rep c).clampedSize 2 + bitIf (s.seq c).latch 4)
      (s.econ c).lastWake.code 0 0 + 65536 * ((s.seq c).lastRequest % 65536)
  | .outcome => pack16 (s.seq c).requestResult (s.seq c).lastOutcome.code
  | .tag => (s.seq c).tag
  | .index => pack16 (s.seq c).shownIdx (s.seq c).shownDepth
  | .timer => pack16 (s.seq c).timer (shownCount 16 (s.seq c).segNumber)
  | .steps => shownCount 32 (s.seq c).stepsRun
  | .page0 => (s.rep c).page0.st.code
  | .header0 => pack16 (s.rep c).page0.count (s.rep c).page0.first
  | .skipped0 => pack16 (s.rep c).page0.skipped 0
  | .page1 => (s.rep c).page1.st.code
  | .header1 => pack16 (s.rep c).page1.count (s.rep c).page1.first
  | .skipped1 => pack16 (s.rep c).page1.skipped 0
  | .layout => pack16 (s.rep c).pages (s.rep c).size
  | .counts => pack16 (s.rep c).skipped (s.rep c).next
  | .pending => pack16 (s.seq c).pendFirstShown ((s.seq c).pendingSeg.elim 0 Segment.count)

/-- Writes a status word as the state now stands. -/
def showWord (c : Chamber) (w : StatusWord) (s : State) : State := s.putWord (statusAddr c + w.offset) (statusValue s c w)

/-- Enters a run state and shows it (section 2.3). -/
def setRun (c : Chamber) (r : RunState) (s : State) : State :=
  showWord c .states (s.modSeq c fun q => { q with run := r })

/-! ### The Global Status image (R10, R94, R113) -/

/-- The state and owner codes of a line (R94, R66). -/
def lineCodes (s : State) (k : LineId) : Nat × Nat :=
  match s.arb k with
  | .free => (0, 0)
  | .owned c => (1, c.val + 1)
  | .purging _ _ => (2, 0)
  | .absent => if (s.lineCfg k).use = 1 then (3, (s.lineCfg k).chamber) else (0, 0)

/-- The lower line of the pair of lines that share a word of the image. -/
def pairBase (k : LineId) : LineId := ⟨k.val / 2 * 2, by omega⟩
/-- The upper line of the pair. -/
def pairTop (k : LineId) : LineId := ⟨k.val / 2 * 2 + 1, by omega⟩

/-- Writes the word that shows a line's state and owner. -/
def imageLine (k : LineId) (s : State) : State :=
  let lo := lineCodes s (pairBase k)
  let hi := lineCodes s (pairTop k)
  s.putWord (imageAddr (4 * (k.val / 2))) (pack8 lo.1 lo.2 hi.1 hi.2)

/-- The chambers of a queue, one per byte, oldest first. -/
def queueWord (q : List Chamber) : Nat := q.foldr (fun c acc => (c.val + 1) + 256 * acc) 0

/-- Writes the shared-line wait queue, the queue word before the length (R94). -/
def imageWait (s : State) : State :=
  let q := s.waitQueue.map WaitEntry.chamber
  (s.putWord (imageAddr 0x2C) (queueWord q)).putWord (imageAddr 0x28) q.length

/-- Writes the rough line's queue word and then its holder and queue length (R113). -/
def imageRough (s : State) : State :=
  (s.putWord (imageAddr 0x24) (queueWord s.rough.queue)).putWord (imageAddr 0x20)
    (pack8 (s.rough.holder.elim 0 fun c => c.val + 1) s.rough.queue.length 0 0)

/-- A set of inputs as bits. -/
def inputBits (p : InputId → Bool) : Nat := ((List.finRange 16).map fun k => bitIf (p k) (2 ^ k.val)).sum

/-- Writes the interlock word: raw levels and trips. -/
def imageInterlock (s : State) : State :=
  s.putWord (imageAddr 0x30) (pack16 (inputBits fun k => (s.ilk k).raw) (inputBits fun k => (s.ilk k).trip))

/-- Writes the scanner rate. -/
def imageRate (s : State) : State := s.putWord (imageAddr 0x34) s.scan.rate.code

/-- Writes the Layout Result, Part State and Applied N words (R10). -/
def showLayout (s : State) : State :=
  s.putWords (layoutAddr 0x0C)
    [pack8 s.port.result.code s.port.resultEntry 0 0, s.port.part.code, s.tables.partition]

/-! ### Events of the Time Base (R11, R44) -/

/-- An event of a tap at a moment: it reaches a block while the part is RUNNING, at a moment that carries an event of
the tap and is not past. Otherwise there is no such event and nothing changes (log 2). -/
def atTap (tap : Tap) (t : Moment) (s : State) (body : State → State) : Result :=
  if s.port.part = .running ∧ s.now ≤ t ∧ tapFalls tap t = true then .next (body (s.setNow t)) else .next s

/-- An event between the taps (a pin edge, a register write) at a moment, while the part is RUNNING. -/
def atMoment (t : Moment) (s : State) (body : State → State) : Result :=
  if s.port.part = .running then .next (body (s.setNow (max s.now t))) else .next s

/-- Whether an event at this moment falls after a moment kept as a mark. -/
def State.after (s : State) (mark : Moment) : Bool := decide (mark < s.now)

/-- Applies an update for each chamber in chamber order. -/
def forChambers (f : Chamber → State → State) (s : State) : State := (List.finRange 4).foldl (fun s c => f c s) s

/-- Applies an update for each line in line order. -/
def forLines (f : LineId → State → State) (s : State) : State := (List.finRange 16).foldl (fun s k => f k s) s

/-- Applies an update for each interlock input in order. -/
def forInputs (f : InputId → State → State) (s : State) : State := (List.finRange 16).foldl (fun s k => f k s) s

/-- Applies an update for each scan channel in channel order. -/
def forChannels (f : ChannelId → State → State) (s : State) : State := (List.finRange 48).foldl (fun s k => f k s) s

end Sys2Proof.Machine
end

