-- ==== Sys2Proof/Machine/Flags.lean ====
section
/-! DEFINITION. The Event Summary flags, the interrupt output and the register reads (R3 to R7). -/

namespace Sys2Proof.Machine

/-- The Event Summary flags (R6). -/
inductive EventFlag where
  | order (c : Chamber)
  | report (c : Chamber)
  | fault (c : Chamber)
  | pump (c : Chamber)
  | layout
  | interlock
  deriving DecidableEq, Repr

/-- A flag's bit: chamber c holds bits 4 × (c − 1) + 0 to + 3, LAYOUT bit 16, INTERLOCK bit 17 (R6). -/
def EventFlag.bit : EventFlag → Fin 18
  | .order c => ⟨4 * c.val, by omega⟩
  | .report c => ⟨4 * c.val + 1, by omega⟩
  | .fault c => ⟨4 * c.val + 2, by omega⟩
  | .pump c => ⟨4 * c.val + 3, by omega⟩
  | .layout => 16
  | .interlock => 17

/-- The register value with one flag set. -/
def EventFlag.mask (f : EventFlag) : BitVec 18 := BitVec.twoPow 18 f.bit.val

/-- Sets a flag; one already set stays set (R6). -/
def raise (f : EventFlag) (s : State) : State := s.setPort { s.port with summary := s.port.summary ||| f.mask }

/-- Whether a flag is set. -/
def State.flagSet (s : State) (f : EventFlag) : Bool := s.port.summary.getLsbD f.bit.val

/-- The interrupt output: active while a flag is set whose enable bit is set (R7). -/
def State.interrupt (s : State) : Bool := decide (s.port.summary &&& s.port.enable ≠ 0)

/-- The registers by address bits 2 and 3 (R1). -/
inductive PortReg where
  | identity
  | command
  | summary
  | enable
  deriving DecidableEq, Repr

/-- The register that a register access reaches (R1). -/
def selectReg (addr : Word) : PortReg :=
  match addr.toNat / 4 % 4 with
  | 0 => .identity
  | 1 => .command
  | 2 => .summary
  | _ => .enable

/-- The value a register holds for a read (R3, R5, R6, R7). -/
def State.regValue (s : State) : PortReg → Word
  | .identity => BitVec.ofNat 32 Config.identity
  | .command => BitVec.ofNat 32 (pack8 s.port.part.code s.port.result.code s.port.resultEntry 0)
  | .summary => s.port.summary.setWidth 32
  | .enable => s.port.enable.setWidth 32

/-- What a register read returns: a narrow read returns 0 (R1). -/
def State.readReg (s : State) (r : PortReg) (w : Width) : Word := if w = .word then s.regValue r else 0

/-- What a register write does (R1, R3, R4, R6, R7). -/
inductive RegWrite where
  | ignored
  | applyLayout
  | ackTrips
  | softReset
  | enable (v : BitVec 18)
  deriving DecidableEq, Repr

/-- Reads a register write: narrow writes, writes to Identity and Event Summary, and unknown command codes are
ignored; a command is in bits 0 to 7 (R4). -/
def readRegWrite (addr : Word) (w : Width) (v : Word) : RegWrite :=
  if w = .word then
    match selectReg addr with
    | .identity => .ignored
    | .summary => .ignored
    | .enable => .enable (v.setWidth 18)
    | .command =>
      match v.toNat % 256 with
      | 1 => .applyLayout
      | 2 => .ackTrips
      | 3 => .softReset
      | _ => .ignored
  else .ignored

/-- What a host memory read returns: the addressed byte, halfword or word, aligned down (R1). DESIGN CHOICE (log 27): no
rule names the lanes of a narrow access, and a byte or halfword read returns its value here in the low bits of the 32, the
others 0. -/
def State.hostRead (s : State) (addr : Word) (w : Width) : Word :=
  BitVec.ofNat 32 (memField s.mem (addr.toNat / widthBytes w * widthBytes w) (widthBytes w))

end Sys2Proof.Machine
end

