-- ==== Sys2Proof/Machine/Scanner.lean ====
section
/-! DEFINITION. The Measurement Scanner: conversion, publishing, ageing, staleness and rates (spec/09), with the flow
readback formula (R72). -/

namespace Sys2Proof.Machine

/-- The stale limit of a class at a rate, in ms (R143). -/
def staleLimit (cls : Nat) (rate : ScanRate) : Nat := if cls = 1 ∧ rate ≠ .reduced then 3 else 300

/-- A scan channel by its number; a number above 47 names none (log 21). -/
def State.chanAt (s : State) (k : Nat) : Chan := if h : k < 48 then s.chan ⟨k, h⟩ else {}

/-- Whether a value read now from a channel is stale (R143). -/
def State.staleAt (s : State) (k : Nat) : Bool :=
  match s.tables.channelEntry k with
  | some e => decide (staleLimit e.cls s.scan.rate < (s.chanAt k).age)
  | none => true

/-- The value a block reads from a channel, saturated when OVER or UNDER (R143). DESIGN CHOICE (log 29): a block other than
the Flow Unit that reads the readback channel of several lines reads the value the Measurement Table shows, the F of the
lowest-numbered line (R140). -/
def State.valueAt (s : State) (k : Nat) : Nat := (s.chanAt k).value

/-- The flow a line reads: its own F from the channel's raw counts (R72, R140; log 21). -/
def State.flowAt (s : State) (k : LineId) : Nat :=
  let ch := s.chanAt (s.lineCfg k).readback
  ((ch.lineValues.find? fun p => p.1 == k).map Prod.snd).getD ch.value

/-- The value of a channel when it is not stale. -/
def State.freshAt (s : State) (k : Nat) : Option Nat := if s.staleAt k then none else some (s.valueAt k)

/-- F = floor(R × FS × GCF / 4,095,000) (R72). -/
def flowOf (raw fullScale gcf : Nat) : Nat := raw * fullScale * gcf / 4095000

/-- The point on a curve between two breakpoints (R139). -/
def interpolate (c c0 v0 c1 v1 : Nat) : Nat :=
  ((v0 : Int) + Int.tdiv (((c : Int) - c0) * ((v1 : Int) - v0)) ((c1 : Int) - c0)).toNat

/-- Conversion through breakpoints from the first on, for counts not below the first count (R139). -/
def convertFrom (c : Nat) : List (Nat × Nat) → Nat × Conv
  | [] => (0, .valid)
  | [p] => if c ≤ p.1 then (p.2, .valid) else (p.2, .over)
  | p :: q :: rest =>
    if c < q.1 ∨ (rest = [] ∧ c = q.1) then (interpolate c p.1 p.2 q.1 q.2, .valid) else convertFrom c (q :: rest)

/-- Conversion through breakpoints (R139). -/
def convertPoints (c : Nat) (points : List (Nat × Nat)) : Nat × Conv :=
  match points with
  | [] => (0, .valid)
  | p :: _ => if c < p.1 then (p.2, .under) else convertFrom c points

/-- The flows of the lines that read a channel, lowest line first (R140). -/
def lineFlows (tab : Tables) (k raw : Nat) : List (LineId × Nat) :=
  (tab.readbackLines k).map fun j => (j, flowOf raw tab.lines[j].fullScale tab.lines[j].gcf)

/-- The shown result of a conversion: the line formula for a readback channel, else the entry's breakpoints (R137). -/
def convertChannel (tab : Tables) (e : ScanCfg) (k raw : Nat) : Nat × Conv :=
  match lineFlows tab k raw with
  | (_, f) :: _ => (f, .valid)
  | [] => convertPoints raw e.usedPoints

/-- Publishes a channel's new result, inside and in the Measurement Table (R138, R141). -/
def publish (k : ChannelId) (e : ScanCfg) (raw : Nat) (s : State) : State :=
  let r := convertChannel s.tables e k.val raw
  let s := s.setChan k
    { raw := raw, value := r.1, conv := r.2, lineValues := lineFlows s.tables k.val raw, age := 0
      published := s.now, shownStale := false }
  s.putWords (measurementAddr k.val) [r.1, pack16 raw 0, r.2.code, 0]

/-- Converts the channels of the chosen classes from the sampled counts and publishes them in channel order (R138). -/
def publishPass (fast slow : Bool) (s : State) : State :=
  forChannels
    (fun k s =>
      match s.tables.channelEntry k.val with
      | some e =>
        if (fast && e.cls == 1) || (slow && e.cls == 2) then publish k e (s.pins.analog[k]).toNat s else s
      | none => s) s

/-- Ages one channel in use at a T0 event that falls after its last publish (R142, R141). -/
def ageChannel (k : ChannelId) (s : State) : State :=
  let ch := s.chan k
  if (s.tables.channelEntry k.val).isSome ∧ s.after ch.published = true ∧ ch.age < 65535 then
    (s.setChan k { ch with age := ch.age + 1 }).putWord (measurementAddr k.val + 4) (pack16 ch.raw (ch.age + 1))
  else s

/-- Writes STALE for a channel in use that is stale by the limit in force and does not show it yet (R141). -/
def markStale (k : ChannelId) (s : State) : State :=
  let ch := s.chan k
  if (s.tables.channelEntry k.val).isSome ∧ s.staleAt k.val = true ∧ ch.shownStale = false then
    (s.setChan k { ch with shownStale := true }).putWord (measurementAddr k.val + 8) 1
  else s

/-- Enters a rate and shows it (R137). -/
def setRate (r : ScanRate) (s : State) : State := imageRate (s.setScan { s.scan with rate := r })

/-- Enters SETTLING with a settling count of 2 (R146). -/
def enterSettling (s : State) : State :=
  imageRate (s.setScan { s.scan with rate := .settling, settling := 2, settleMark := s.now })

/-- Whether a chamber holds a TAKEN pump order. -/
def Seq.pumpTaken (q : Seq) : Bool := q.slots.toList.any fun h => match h with
  | .pump _ => true
  | _ => false

/-- Whether a chamber holds a TAKEN mode order. -/
def Seq.modeTaken (q : Seq) : Bool := q.slots.toList.any (· == .mode)

/-- The condition of REDUCED for one chamber (R144). -/
def quietForScan (s : State) (c : Chamber) : Bool :=
  decide ((s.seq c).run = .idle) && !(s.seq c).pumpTaken &&
    (decide ((s.econ c).mode = .economy ∧ (s.econ c).phase = .none) ||
      decide ((s.pump c).st = .isolated ∨ (s.pump c).st = .vented ∨ (s.pump c).st = .faultHold))

/-- The condition of REDUCED (R144). -/
def reducedHolds (s : State) : Bool := (List.finRange 4).all (quietForScan s)

/-- The examination and the pass of a T0 event, by the rate before it (R138, R144, R146). -/
def scanT0 (s : State) : State :=
  match s.scan.rate with
  | .stopped => s
  | .normal => if reducedHolds s then setRate .reduced s else publishPass true false s
  | .reduced => if reducedHolds s then s else enterSettling s
  | .settling =>
    if s.after s.scan.settleMark then
      let s := s.setScan { s.scan with settling := s.scan.settling - 1 }
      if s.scan.settling = 0 then setRate .normal s else s
    else s

/-- A whole T0 event of the scanner: the examination and pass, then ageing, then stale marking (R138, R141). A moment
carries one T0 event. -/
def scannerT0 (counts : Vector (BitVec 12) 48) (s : State) : State :=
  if s.after s.scan.passMark then
    let s := s.setPins { s.pins with analog := counts }
    let s := s.setScan { s.scan with passMark := s.now }
    forChannels markStale (forChannels ageChannel (scanT0 s))
  else s

/-- A T2 pass of the scanner (R138). A moment carries one T2 event. -/
def scannerT2 (counts : Vector (BitVec 12) 48) (s : State) : State :=
  if s.after s.scan.slowMark then
    let s := s.setPins { s.pins with analog := counts }
    let s := s.setScan { s.scan with slowMark := s.now }
    match s.scan.rate with
    | .normal => publishPass false true s
    | .reduced => publishPass true true s
    | _ => s
  else s

end Sys2Proof.Machine
end

