-- ==== Sys2Proof/Machine/Flow.lean ====
section
/-! DEFINITION. The Flow Unit: command scaling, opening and closing a line channel, ramps, the band and the evaluation
of a line (spec/04). What a closed shared line does to the Line Arbiter is in Arbiter.lean. -/

namespace Sys2Proof.Machine

/-- The exact quotient of R69, rounded half up, before the clamp. -/
def commandQuotient (setpoint : Nat) (cfg : LineCfg) : Nat :=
  (setpoint * 4095000 + cfg.gcf * cfg.fullScale / 2) / (cfg.gcf * cfg.fullScale)

/-- The command count of a setpoint, at most 4095 (R69). -/
def commandCount (setpoint : Nat) (cfg : LineCfg) : Nat := min (commandQuotient setpoint cfg) 4095

/-- Whether R69 clamps the command. -/
def commandClamps (setpoint : Nat) (cfg : LineCfg) : Bool := decide (4095 < commandQuotient setpoint cfg)

/-- The band of a line at a setpoint (R75). -/
def flowBand (setpoint : Nat) (cfg : LineCfg) : Nat := max (setpoint * cfg.tolerance / 1000) (cfg.fullScale / 200)

/-- Whether a line is in band now: its F is not stale and within the band (R75). -/
def lineInBand (s : State) (k : LineId) : Bool :=
  !s.staleAt (s.lineCfg k).readback &&
    decide (absDiff (s.flowAt k) (s.line k).setpoint ≤ flowBand (s.line k).setpoint (s.lineCfg k))

/-- A line channel with nothing open: setpoint and command 0, no ramp (R66). -/
def Line.shut (l : Line) : Line :=
  { l with openTo := none, source := .none, setpoint := 0, ramp := none, command := 0 }

/-- A line handed a setpoint by a step (R68, R70, R73, R77, R78). An open line ramps from its effective setpoint, a newly
opened one from 0; the counts restart, and the command is computed at the hand-off, a clamp counting for the step (log 18). -/
def Line.handed (l : Line) (c : Chamber) (cfg : LineCfg) (setpoint len : Nat) (dwell : Option Nat) (now : Moment) :
    Line :=
  let start := if l.openTo = some c then l.setpoint else 0
  let at0 := if len = 0 then setpoint else start
  { l with
    openTo := some c
    source := .step
    setpoint := at0
    ramp := if len = 0 then none else some { start := start, stop := setpoint, len := len, taken := 0 }
    command := commandCount at0 cfg
    inCount := 0
    stable := false
    outCount := 0
    clamped := commandClamps at0 cfg
    dwell := dwell
    mark := now }

/-- Hands a step's setpoint to a line; a standing gas inhibit leaves the line closed at 0 (R83). -/
def handLine (c : Chamber) (r : StepRec) (e : LineId × Nat) (s : State) : State :=
  if s.gasInhibit c then s
  else
    s.modLine e.1 fun l =>
      l.handed c (s.lineCfg e.1) e.2 r.flowRamp (if r.exitsStable then some r.dwell else none) s.now

/-- A line opened for a purge flow at once, without a ramp (R81, R82). -/
def Line.purging (l : Line) (c : Chamber) (src : Source) (cfg : LineCfg) (flow : Nat) : Line :=
  { l with
    openTo := some c, source := src, setpoint := flow, ramp := none, command := commandCount flow cfg }

/-- The applied purge line of a chamber, if it has one (R81). -/
def State.purgeLine (s : State) (c : Chamber) : Option LineId := lineIndex? (s.chamberCfg c).purgeLine

/-- Opens the chamber's purge line with a source and flow, unless the gas inhibit stands (R83). -/
def openPurge (c : Chamber) (src : Source) (flow : Nat) (s : State) : State :=
  match s.purgeLine c with
  | some k => if s.gasInhibit c then s else s.modLine k fun l => l.purging c src (s.lineCfg k) flow
  | none => s

/-- Whether opening the purge line at a flow clamps its command (R70). -/
def purgeClamps (s : State) (c : Chamber) (flow : Nat) : Bool :=
  match s.purgeLine c with
  | some k => !s.gasInhibit c && commandClamps flow (s.lineCfg k)
  | none => false

/-- The next ramp step of a line: S0 + trunc((S1 − S0) × k / n), the ramp removed at k = n (R73). -/
def Line.ramped (l : Line) (cfg : LineCfg) (stepping : Bool) : Line :=
  match l.ramp with
  | none => l
  | some r =>
    let k := r.taken + 1
    let sp := rampValue r.start r.stop k r.len
    { l with
      setpoint := sp
      ramp := if k < r.len then some { r with taken := k } else none
      command := commandCount sp cfg
      clamped := l.clamped || (stepping && commandClamps sp cfg) }

/-- Whether a line is evaluated at its T1 event: Source STEP, open to a chamber in STEP whose step names it, ramp
complete (R76). -/
def evaluated (s : State) (k : LineId) : Bool :=
  match (s.line k).openTo with
  | some c =>
    decide ((s.line k).source = .step ∧ (s.seq c).run = .step ∧ (s.line k).ramp = none) && (s.seq c).step.names k
  | none => false

/-- The counts of a line after an evaluation (R77, R78). -/
def Line.judged (l : Line) (cfg : LineCfg) (inBand : Bool) : Line :=
  if inBand then
    match l.dwell with
    | some d =>
      { l with outCount := 0, inCount := min (l.inCount + 1) 255, stable := l.stable || decide (max d 1 ≤ l.inCount + 1) }
    | none => { l with outCount := 0 }
  else
    let n := min (l.outCount + 1) cfg.faultTime
    { l with
      outCount := n
      inCount := if l.dwell.isSome then 0 else l.inCount
      stable := if l.dwell.isSome then false else l.stable
      faultDue := if n = cfg.faultTime then l.openTo else l.faultDue }

/-- The work of a line at one T1 event after the hand-off: its ramp step, and then its evaluation, with no report made
yet (R73, R76, R77, R78). -/
def lineWork (k : LineId) (s : State) : State :=
  let l := s.line k
  match l.openTo with
  | none => s
  | some c =>
    if s.after l.mark then
      let s := s.setLine k { l.ramped (s.lineCfg k) (decide (l.source = .step ∧ (s.seq c).run = .step)) with mark := s.now }
      if evaluated s k then s.modLine k fun l => l.judged (s.lineCfg k) (lineInBand s k) else s
    else s

/-- The valves of a line (R67): the shutoff valve. -/
def State.shutoffOpen (s : State) (k : LineId) : Bool := (s.line k).openTo.isSome
/-- The divert valve of a SHARED line to a chamber (R67). -/
def State.divertOpen (s : State) (k : LineId) (c : Chamber) : Bool :=
  decide ((s.lineCfg k).use = 2 ∧ (s.line k).openTo = some c)
/-- The line purge valve (R67, R86). -/
def State.purgeValveOpen (s : State) (k : LineId) : Bool :=
  match s.arb k with
  | .purging _ _ => true
  | _ => false

end Sys2Proof.Machine
end

