-- ==== Sys2Proof/Machine/Pressure.lean ====
section
/-! DEFINITION. The Pressure Channels: setpoint output, hand-off, band and evaluation (spec/06). -/

namespace Sys2Proof.Machine

/-- The exact quotient of R98, rounded half up, before the clamp. -/
def pressureQuotient (target span : Nat) : Nat := (target * 409500 + span / 2) / span

/-- The setpoint output of a target (R98). -/
def pressureOutput (target span : Nat) : Nat := if target = 0 then 0 else min (pressureQuotient target span) 4095

/-- Whether R98 clamps the output. -/
def pressureClamps (target span : Nat) : Bool := decide (target ≠ 0 ∧ 4095 < pressureQuotient target span)

/-- A target driven: a target of 0 asserts throttle-open (R98). -/
def Press.driven (p : Press) (target span : Nat) : Press :=
  { p with target := target, output := pressureOutput target span, throttleOpen := decide (target = 0) }

/-- Sets the target to 0 with throttle open and stops the evaluation (R99). -/
def openThrottle (c : Chamber) (s : State) : State :=
  s.modPress c fun p => { p.driven 0 (s.chamberCfg c).valveSpan with evaluating := false }

/-- Stops the evaluation with the target unchanged (R99). -/
def stopPressure (c : Chamber) (s : State) : State := s.modPress c fun p => { p with evaluating := false }

/-- The hand-off of a GAS or PLASMA step with a target (R98, R99, R101), or of a step without one. -/
def handPressure (c : Chamber) (r : StepRec) (s : State) : State :=
  let cfg := s.chamberCfg c
  let target := if r.isPumpOut then 0 else r.target
  s.modPress c fun p =>
    if target = 0 then { p.driven 0 cfg.valveSpan with evaluating := false, pclamped := false }
    else
      { p.driven target cfg.valveSpan with
        evaluating := true
        pclamped := pressureClamps target cfg.valveSpan
        inCount := 0
        stable := false
        outCount := 0
        settle := cfg.settleTime
        armed := decide (cfg.settleTime = 0 ∧ cfg.pressureFaultTime ≠ 0)
        dwell := if r.exitsStable then some r.dwell else none
        mark := s.now }

/-- The band of a target in µTorr (R100). -/
def pressureBand (target : Nat) (cfg : ChamberCfg) : Nat :=
  max (target * 100 * cfg.pressureTolerance / 1000) cfg.minimumBand

/-- Whether the chamber pressure is in band now (R100). -/
def pressureInBand (s : State) (c : Chamber) : Bool :=
  let cfg := s.chamberCfg c
  match s.freshAt cfg.manometer with
  | some v => decide (absDiff v ((s.press c).target * 100) ≤ pressureBand (s.press c).target cfg)
  | none => false

/-- The settle count's work at a T1 event (R101, R103). -/
def Press.settled (p : Press) (cfg : ChamberCfg) : Press :=
  if 0 < p.settle ∧ p.armed = false then
    { p with settle := p.settle - 1, armed := decide (p.settle = 1 ∧ cfg.pressureFaultTime ≠ 0) }
  else p

/-- The counts after an evaluation (R102, R103). -/
def Press.judged (p : Press) (cfg : ChamberCfg) (inBand : Bool) : Press :=
  if inBand then
    match p.dwell with
    | some d =>
      { p with
        outCount := if p.armed then 0 else p.outCount
        inCount := min (p.inCount + 1) 255
        stable := p.stable || decide (max d 1 ≤ p.inCount + 1) }
    | none => { p with outCount := if p.armed then 0 else p.outCount }
  else
    let n := if p.armed then min (p.outCount + 1) cfg.pressureFaultTime else p.outCount
    let due := p.armed && decide (n = cfg.pressureFaultTime)
    { p with
      outCount := n
      inCount := if p.dwell.isSome then 0 else p.inCount
      stable := if p.dwell.isSome then false else p.stable
      faultDue := p.faultDue || due
      evaluating := p.evaluating && !due }

/-- The work of a Pressure Channel at one T1 event after the hand-off, with no report made yet (R101). -/
def pressureWork (c : Chamber) (s : State) : State :=
  let p := s.press c
  if p.evaluating ∧ s.after p.mark = true then
    s.setPress c { (p.settled (s.chamberCfg c)).judged (s.chamberCfg c) (pressureInBand s c) with mark := s.now }
  else s

end Sys2Proof.Machine
end

