-- ==== Sys2Proof/Machine/RfUnit.lean ====
section
/-! DEFINITION. The RF Supervisors: output scaling, enabling and disabling, the hand-off, the strike window, the struck
plasma and RF-on time (spec/08). -/

namespace Sys2Proof.Machine

/-- The RF command count of a power (R126). -/
def rfCount (power span : Nat) : Nat := (power * 4095 + span / 2) / span

/-- The level of the strike test and of a lost plasma at a power (R130, R133). -/
def strikeLevel (power ratio : Nat) : Nat := power * ratio / 1000

/-- A ramp handed: at once for a length of 0 (R127). -/
def Rf.rampFrom (x : Rf) (start len span : Nat) (now : Moment) : Rf :=
  let power := if len = 0 then x.target else start
  { x with
    power := power
    ramp := if len = 0 then none else some { start := start, stop := x.target, len := len, taken := 0 }
    output := rfCount power span
    rampMark := now }

/-- RF enabled: a ramp from 0 to the target over the step's RF Ramp, and a window opened in full (R128, R130). -/
def Rf.enabled (x : Rf) (cfg : ChamberCfg) (now : Moment) : Rf :=
  { x.rampFrom 0 x.rampLen cfg.rfSpan now with
    phase := .striking, window := cfg.strikeWindow, reflect := 0, lost := 0, pause := 0, mark := now, onSince := some now }

/-- RF taken off the generator, in whatever phase follows: E and Q are 0 and the ramp is removed (R126); the time it was
enabled is kept for the T0 event of the same moment (R135). -/
def Rf.released (x : Rf) (phase : RfPhase) (now : Moment) : Rf :=
  { x with
    phase := phase
    power := 0
    ramp := none
    output := 0
    window := 0
    pause := 0
    onSince := none
    lastOn := match x.onSince with
      | some e => if e < now then some (e, now) else x.lastOn
      | none => x.lastOn }

/-- Turns RF off with the window closed and any pause ended (R128). -/
def rfOff (c : Chamber) (s : State) : State := s.modRf c fun x => x.released .off s.now

/-- The hand-off of a PLASMA step (R126, R127, R128). -/
def Rf.handedPlasma (x : Rf) (cfg : ChamberCfg) (r : StepRec) (now : Moment) : Rf :=
  let x := { x with target := min r.rfPower cfg.rfSpan, rclamped := decide (cfg.rfSpan < r.rfPower), rampLen := r.rfRamp }
  if x.inhibit then x.released .off now
  else
    match x.phase with
    | .off => { x with retries := 0 }.enabled cfg now
    | .retryPause => x.enabled cfg now
    | .striking => x.rampFrom x.power r.rfRamp cfg.rfSpan now
    | .struck => { x with reflect := 0, lost := 0 }.rampFrom x.power r.rfRamp cfg.rfSpan now

/-- The hand-off of a step to the RF Supervisor (R51, R52): the step results are cleared first. -/
def handRf (c : Chamber) (r : StepRec) (s : State) : State :=
  s.modRf c fun x =>
    let x := { x with rclamped := false, stepRetries := 0, stepRfOn := 0 }
    if r.isPlasma then x.handedPlasma (s.chamberCfg c) r s.now else x.released .off s.now

/-- The next ramp step of the power, at a T1 event after the event that began the ramp (R127). -/
def Rf.ramped (x : Rf) (span : Nat) (now : Moment) : Rf :=
  match x.ramp with
  | none => x
  | some r =>
    if x.rampMark < now then
      let k := r.taken + 1
      let power := rampValue r.start r.stop k r.len
      { x with
        power := power
        ramp := if k < r.len then some { r with taken := k } else none
        output := rfCount power span }
    else x

/-- Whether the strike test is met (R130). -/
def strikeMet (s : State) (c : Chamber) (power : Nat) : Bool :=
  let cfg := s.chamberCfg c
  match s.freshAt cfg.forward, s.freshAt cfg.reflected with
  | some f, some r => decide (strikeLevel power cfg.strikeRatio ≤ f ∧ r ≤ cfg.reflectedLimit)
  | _, _ => false

/-- The strike test's effect: struck, one test fewer, or the window's expiry into a retry pause or OFF (R130, R131). -/
def Rf.tested (x : Rf) (cfg : ChamberCfg) (met : Bool) (now : Moment) : Rf :=
  if met then { x with phase := .struck, window := 0 }
  else if 1 < x.window then { x with window := x.window - 1 }
  else if x.retries < cfg.strikeRetries then
    { x.released .retryPause now with retries := x.retries + 1, stepRetries := x.stepRetries + 1, pause := 10 }
  else x.released .off now

/-- Whether a struck evaluation finds the reflected power failing (R133). -/
def reflectFails (s : State) (c : Chamber) : Bool :=
  match s.freshAt (s.chamberCfg c).reflected with
  | some r => decide ((s.chamberCfg c).reflectedLimit < r)
  | none => true

/-- Whether a struck evaluation finds the forward power failing (R133). -/
def forwardFails (s : State) (c : Chamber) (power : Nat) : Bool :=
  match s.freshAt (s.chamberCfg c).forward with
  | some f => decide (f < strikeLevel power (s.chamberCfg c).strikeRatio)
  | none => true

/-- The counts after a struck evaluation (R133). -/
def Rf.judged (x : Rf) (cfg : ChamberCfg) (reflectBad forwardBad : Bool) : Rf :=
  let n := if reflectBad then min (x.reflect + 1) cfg.reflectTime else 0
  let m := if forwardBad then min (x.lost + 1) cfg.reflectTime else 0
  { x with
    reflect := n
    lost := m
    reflectDue := x.reflectDue || (reflectBad && decide (n = cfg.reflectTime))
    lostDue := x.lostDue || (forwardBad && decide (m = cfg.reflectTime)) }

/-- The pause's work at a T1 event: RF is enabled again when the count reaches 0 (R131). -/
def Rf.paused (x : Rf) (cfg : ChamberCfg) (now : Moment) : Rf :=
  if 1 < x.pause then { x with pause := x.pause - 1 } else x.enabled cfg now

/-- The Supervisor's work at one T1 event, in the order of R125, with no fault delivered yet. A moment carries one T1
event. -/
def rfWork (c : Chamber) (s : State) : State :=
  let x := s.rf c
  let cfg := s.chamberCfg c
  if s.after x.mark then
    match x.phase with
    | .off => s
    | .retryPause => s.setRf c { x.paused cfg s.now with mark := s.now }
    | .striking =>
      let x := x.ramped cfg.rfSpan s.now
      s.setRf c { x.tested cfg (strikeMet s c x.power) s.now with mark := s.now }
    | .struck =>
      let x := x.ramped cfg.rfSpan s.now
      s.setRf c { x.judged cfg (reflectFails s c) (forwardFails s c x.power) with mark := s.now }
  else s

/-- Whether a T0 event at this moment counts as RF-on: it falls after an enabling and not after the disabling that
follows (R135). -/
def Rf.countsAt (x : Rf) (now : Moment) : Bool :=
  (match x.onSince with
    | some e => decide (e < now)
    | none => false) ||
  (match x.lastOn with
    | some (e, d) => decide (e < now ∧ d = now)
    | none => false)

/-- RF is enabled while the phase is STRIKING or STRUCK (R125): the RF enable output. -/
def State.rfEnable (s : State) (c : Chamber) : Bool :=
  match (s.rf c).phase with
  | .striking => true
  | .struck => true
  | _ => false

end Sys2Proof.Machine
end

