-- ==== Sys2Proof/Machine/Handoff.lean ====
section
/-! DEFINITION. The fourth and fifth stages of a step start: setpoints handed on and the step timer loaded (R51, R52). -/

namespace Sys2Proof.Machine

/-- The fourth stage of a step start (R51): gas lines in entry order, pressure, RF. -/
def handSetpoints (c : Chamber) (s : State) : State :=
  let r := (s.seq c).step
  handRf c r (handPressure c r (r.entries.foldl (fun s e => handLine c r e s) s))

/-- The fifth stage of a step start (R52, R54): the timer takes the saved remaining count when there is one, used at this
one load, and the Duration Count otherwise; the results and the exit machinery start afresh; the run is in STEP. DESIGN
CHOICE (log 19): at a grant that comes later than the step start the Current Step Index and Loop Depth word is written
again, as R52 lists it at this stage. DESIGN CHOICE (log 15): a T1 event at the moment of the load, taken after it, is not
counted by the pulse-loss timer, for which R54 says nothing. -/
def loadTimer (c : Chamber) (s : State) : State :=
  let s := s.modSeq c fun q =>
    { q with
      timer := if q.saved ≠ 0 then q.saved else q.step.duration
      timerMark := s.now
      saved := 0
      elapsed := 0
      elapsedMark := s.now
      endpointCount := 0
      pulse := if q.step.onExt then (s.chamberCfg c).pulseLossTime else q.pulse
      pulseMark := s.now }
  showWord c .timer (showWord c .index (setRun c .step s))

/-- The fourth and fifth stages, taken at the event of the grant (R50). -/
def handStep (c : Chamber) (s : State) : State := loadTimer c (handSetpoints c s)

end Sys2Proof.Machine
end

