-- ==== Sys2Proof/Machine/Arbiter.lean ====
section
/-! DEFINITION. The Line Arbiter: grants, the wait queue and its walk, releases and handover purges, with the drop of a
line that releases it (spec/05, R68). -/

namespace Sys2Proof.Machine

/-- The lines that no entry of the queue may be passed for (R87). -/
def queuedLines (q : List WaitEntry) : List LineId := q.flatMap WaitEntry.set

/-- Sets a line's state in the arbiter and shows it (R94). -/
def putArb (k : LineId) (x : Arb) (s : State) : State := imageLine k (s.setArb k x)

/-- Every line of a set becomes OWNED by a chamber, in line order (R87, R91, R94). -/
def ownLines (c : Chamber) (set : List LineId) (s : State) : State :=
  forLines (fun k s => if set.contains k then putArb k (.owned c) s else s) s

/-- Grants a waiting entry: it leaves the queue, its set becomes OWNED, and its step start goes on to its fourth and
fifth stages (R91, R50). -/
def grantWaiting (e : WaitEntry) (s : State) : State :=
  let s := imageWait (s.setWaitQueue (s.waitQueue.filter fun w => decide (w.chamber ≠ e.chamber)))
  handStep e.chamber (ownLines e.chamber e.set s)

/-- The walk over the entries left to judge; `older` holds the lines of the older entries still in the queue (R91). -/
def walkFrom : List WaitEntry → List LineId → State → State
  | [], _, s => s
  | e :: rest, older, s =>
    if (e.set.all fun k => decide (s.arb k = .free)) && (e.set.all fun k => !older.contains k) then
      walkFrom rest older (grantWaiting e s)
    else walkFrom rest (older ++ e.set) s

/-- The walk of the queue, oldest first (R91). -/
def walk (s : State) : State := walkFrom s.waitQueue [] s

/-- A shared line becomes FREE, and the queue is walked (R89, R90). -/
def freeLine (k : LineId) (s : State) : State := walk (putArb k .free s)

/-- The release of a line by a chamber; a release by another than its owner changes nothing (R89). -/
def releaseLine (c : Chamber) (k : LineId) (s : State) : State :=
  if s.arb k = .owned c then
    let h := (s.lineCfg k).handover
    if h = 0 then freeLine k s else putArb k (.purging h s.now) s
  else s

/-- Drops a line of a chamber: where it is open to the chamber, setpoint and command go to 0 at once and the valves close;
where the chamber owns it, it is released (R68, R89). -/
def dropLine (c : Chamber) (k : LineId) (s : State) : State :=
  releaseLine c k (if (s.line k).openTo = some c then s.modLine k Line.shut else s)

/-- Drops, in line order, the lines of a chamber that a test picks. -/
def dropLines (c : Chamber) (p : LineId → Bool) (s : State) : State :=
  forLines (fun k s => if p k then dropLine c k s else s) s

/-- Drops every line of a chamber. -/
def dropAll (c : Chamber) (s : State) : State := dropLines c (fun _ => true) s

/-- Drops the SHARED lines of a chamber (R49, R88). -/
def dropShared (c : Chamber) (s : State) : State := dropLines c (fun k => decide ((s.lineCfg k).use = 2)) s

/-- Drops the chamber's purge line while it flows for a purge (R68, R82, R155). -/
def dropPurge (c : Chamber) (s : State) : State :=
  dropLines c
    (fun k => decide ((s.line k).openTo = some c ∧ ((s.line k).source = .purge ∨ (s.line k).source = .idlePurge))) s

/-- Whether a requested set is granted at once (R87). -/
def grantedAtOnce (c : Chamber) (set : List LineId) (s : State) : Bool :=
  (set.all fun k => decide (s.arb k = .free ∨ s.arb k = .owned c)) &&
    set.all fun k => !(queuedLines s.waitQueue).contains k

/-- Takes a chamber out of the wait queue without a grant, and walks the queue (R92). -/
def leaveQueue (c : Chamber) (s : State) : State :=
  if s.waitQueue.any fun w => w.chamber == c then
    walk (imageWait (s.setWaitQueue (s.waitQueue.filter fun w => decide (w.chamber ≠ c))))
  else s

/-- A handover timer's T1 event after the release (R90): at 0 the line becomes FREE and the queue is walked. -/
def handoverTick (k : LineId) (s : State) : State :=
  match s.arb k with
  | .purging n mark =>
    if s.after mark then (if 1 < n then s.setArb k (.purging (n - 1) s.now) else freeLine k s) else s
  | _ => s

/-- Whether the next T1 event ends a line's handover purge. -/
def handoverEnds (k : LineId) (s : State) : Bool :=
  match s.arb k with
  | .purging n mark => decide (n ≤ 1) && s.after mark
  | _ => false

/-- A SHARED line starts PURGING at an apply, or is FREE at once (R95). The queue is empty then, so nothing is granted. -/
def startPurge (k : LineId) (s : State) : State :=
  let h := (s.lineCfg k).handover
  if (s.lineCfg k).use = 2 then putArb k (if h = 0 then .free else .purging h s.now) s
  else putArb k .absent s

end Sys2Proof.Machine
end

