-- ==== Sys2Proof/Machine/Report.lean ====
section
/-! DEFINITION. The Report Writer: producing, placing and holding entries, fixing and returning pages, and closing a
page short (spec/12). -/

namespace Sys2Proof.Machine

/-- A page of the two. -/
def Rep.page (r : Rep) (i : Fin 2) : Page := if i = 0 then r.page0 else r.page1

/-- Replaces a page. -/
def Rep.setPage (r : Rep) (i : Fin 2) (p : Page) : Rep := if i = 0 then { r with page0 := p } else { r with page1 := p }

/-- Changes a page of a chamber. -/
def State.modPage (s : State) (c : Chamber) (i : Fin 2) (f : Page → Page) : State :=
  s.modRep c fun r => r.setPage i (f (r.page i))

/-- The pages a chamber has. -/
def Rep.inUse (r : Rep) (i : Fin 2) : Bool := decide (i.val < r.pages)

/-- The page that is FILLING. -/
def Rep.filling? (r : Rep) : Option (Fin 2) :=
  (List.finRange 2).find? fun i => r.inUse i && decide ((r.page i).st = .filling)

/-- The lowest-numbered EMPTY page. -/
def Rep.empty? (r : Rep) : Option (Fin 2) :=
  (List.finRange 2).find? fun i => r.inUse i && decide ((r.page i).st = .empty)

/-- The status words of a page. -/
def pageStateWord (i : Fin 2) : StatusWord := if i = 0 then .page0 else .page1
/-- The Entry Count and First Sequence word of a page. -/
def pageHeaderWord (i : Fin 2) : StatusWord := if i = 0 then .header0 else .header1
/-- The Skipped word of a page. -/
def pageSkippedWord (i : Fin 2) : StatusWord := if i = 0 then .skipped0 else .skipped1

/-- The address of entry `e` of page `i`: page 1 begins P entries after page 0 (R8). -/
def entryAddr (s : State) (c : Chamber) (i : Fin 2) (e : Nat) : Nat :=
  reportAddr s.tables.partition c + 32 * ((s.rep c).size * i.val + e)

/-- The notice of a placement under PER_ENTRY (R166). -/
def placementNotice (c : Chamber) (s : State) : State := if (s.rep c).perEntry then raise (.report c) s else s

/-- A page that has become FULL: its state word is written and REPORT is set (R166, R170). -/
def announceFull (c : Chamber) (i : Fin 2) (s : State) : State := raise (.report c) (showWord c (pageStateWord i) s)

/-- Writes an entry at the next position of a FILLING page and raises its Entry Count; the page is FULL at its last
entry (R166). -/
def placeFilling (c : Chamber) (i : Fin 2) (e : Entry) (s : State) : State :=
  let full := decide ((s.rep c).size ≤ ((s.rep c).page i).count + 1)
  let s := s.putWords (entryAddr s c i ((s.rep c).page i).count) e.words
  let s := s.modPage c i fun p => { p with count := p.count + 1, st := if full then .full else p.st }
  let s := showWord c (pageHeaderWord i) s
  placementNotice c (if full then announceFull c i s else s)

/-- Opens an EMPTY page with an entry at its position 0 (R166). -/
def placeOpening (c : Chamber) (i : Fin 2) (e : Entry) (s : State) : State :=
  let full := decide ((s.rep c).size ≤ 1)
  let s := s.putWords (entryAddr s c i 0) e.words
  let s := s.modPage c i fun _ =>
    { st := if full then .full else .filling, count := 1, first := e.sequence, skipped := (s.rep c).skipped }
  let s := showWord c (pageSkippedWord i) (showWord c (pageHeaderWord i) s)
  let s := showWord c .counts (s.modRep c fun r => { r with skipped := 0 })
  placementNotice c (if full then announceFull c i s else showWord c (pageStateWord i) s)

/-- Holds an entry when every page is FULL, discarding any older held entry (R167). -/
def holdEntry (c : Chamber) (e : Entry) (s : State) : State :=
  if (s.rep c).held.isSome then
    showWord c .counts (s.modRep c fun r => { r with held := some e, skipped := min (r.skipped + 1) 65535 })
  else s.modRep c fun r => { r with held := some e }

/-- Places an entry (R166). -/
def placeEntry (c : Chamber) (e : Entry) (s : State) : State :=
  match (s.rep c).filling? with
  | some i => placeFilling c i e s
  | none =>
    match (s.rep c).empty? with
    | some i => placeOpening c i e s
    | none => holdEntry c e s

/-- The common fields of an entry (R169): the run's while the run is not IDLE, 0 while it is. -/
def commonFields (s : State) (c : Chamber) (e : Entry) : Entry :=
  let q := s.seq c
  let e := { e with chamber := c.val + 1, sequence := (s.rep c).next }
  if q.run = .idle then e
  else
    { e with
      tag := q.tag
      segNumber := shownCount 16 q.segNumber
      stepIdx := q.stepIdx
      depth := q.loop.length
      innermost := (q.loop.head?).elim 0 LoopEntry.rem }

/-- Produces an entry: it takes the next sequence number, which rises by one, and is placed (R165). -/
def produce (c : Chamber) (e : Entry) (s : State) : State :=
  let e := commonFields s c e
  placeEntry c e (showWord c .counts (s.modRep c fun r => { r with next := (r.next + 1) % 65536 }))

/-- Places the held entry when a page is available (R164, R168). -/
def placeHeld (c : Chamber) (s : State) : State :=
  match (s.rep c).held, (s.rep c).empty? with
  | some e, some _ => placeEntry c e (s.modRep c fun r => { r with held := none })
  | _, _ => s

/-- The effective page size for a Page Size word (R164). -/
def pageSizeFor (size n : Nat) : Nat := if size = 0 then 1 else min size (areaEntries n)

/-- Whether a Page Size had to be clamped (R164). -/
def pageSizeClamped (size n : Nat) : Bool := decide (size = 0 ∨ areaEntries n < size)

/-- The page count for an effective page size (R164). -/
def pageCountFor (p n : Nat) : Nat := if 2 * p ≤ areaEntries n then 2 else 1

/-- Writes a page's header and then its state word. -/
def showPage (c : Chamber) (i : Fin 2) (s : State) : State :=
  showWord c (pageStateWord i) (showWord c (pageSkippedWord i) (showWord c (pageHeaderWord i) s))

/-- A Report Writer with its layout, notice policy and close-short choice fixed for a partition number from the Page Size,
Notice Policy and Close Short fields; a changed layout makes both pages EMPTY with headers of 0 (R164). -/
def Rep.fixed (r : Rep) (n size notice short : Nat) : Rep :=
  let p := pageSizeFor size n
  let keep := decide (r.size = p ∧ r.pages = pageCountFor p n ∧ r.partition = n)
  { r with
    size := p
    pages := pageCountFor p n
    partition := n
    perEntry := if notice = 0 then false else if notice = 1 then true else Config.noticeOther notice
    closeShort := if short = 0 then false else if short = 1 then true else Config.closeShortOther short
    clampedSize := pageSizeClamped size n
    page0 := if keep then r.page0 else {}
    page1 := if keep then r.page1 else {} }

/-- Fixes page size, page count, notice policy and close-short choice from the Chamber Control Block, and renews the
pages when the layout has changed (R164). -/
def fixPages (c : Chamber) (s : State) : State :=
  let n := s.tables.partition
  let old := s.rep c
  let new := old.fixed n (memField s.mem (controlAddr c + 4) 2) (memField s.mem (controlAddr c + 6) 1)
    (memField s.mem (controlAddr c + 7) 1)
  let s := showWord c .flags (showWord c .layout (s.setRep c new))
  if old.size = new.size ∧ old.pages = new.pages ∧ old.partition = n then s
  else placeHeld c (showPage c 1 (showPage c 0 s))

/-- Reads the state word of a FULL page at the slot scan: EMPTY returns it, any value but EMPTY and FULL is answered
with FULL (R168). -/
def scanPage (c : Chamber) (i : Fin 2) (s : State) : State :=
  if (s.rep c).inUse i && decide (((s.rep c).page i).st = .full) then
    let word := memField s.mem (statusAddr c + (pageStateWord i).offset) 4
    if word = PageState.empty.code then s.modPage c i fun p => { p with st := .empty }
    else if word = PageState.full.code then s
    else showWord c (pageStateWord i) s
  else s

/-- The third part of a slot scan (R168): page 0 first, and then the held entry. -/
def scanPages (c : Chamber) (s : State) : State := placeHeld c (scanPage c 1 (scanPage c 0 s))

/-- Closes a FILLING page short at the end of a run (R170). -/
def closeShort (c : Chamber) (s : State) : State :=
  if (s.rep c).closeShort then
    match (s.rep c).filling? with
    | some i => announceFull c i (s.modPage c i fun p => { p with st := .full })
    | none => s
  else s

end Sys2Proof.Machine
end

