-- ==== Sys2Proof/Machine/Sequencer.lean ====
section
/-! DEFINITION. The Chamber Sequencer: slots and their answers, the context record, close-out, step start and step end,
segments, gaps and holds (spec/02, spec/03, and sections 10.4 and 10.5 of spec/10). -/

namespace Sys2Proof.Machine

/-! ### Slots and their answers -/

/-- The slot that holds what a test picks. -/
def Seq.slotWith (q : Seq) (p : SlotHold → Bool) : Option (Fin 2) := (List.finRange 2).find? fun i => p q.slots[i]

/-- Sets what a slot holds inside the part (R17). -/
def holdSlot (c : Chamber) (i : Fin 2) (h : SlotHold) (s : State) : State :=
  s.modSeq c fun q => { q with slots := q.slots.set i h }

/-- Writes a slot's outcome fields and then its State word (R2, R20). -/
def writeSlot (c : Chamber) (i : Fin 2) (outcome detail steps state : Nat) (s : State) : State :=
  (s.putWords (slotAddr c i + 20) [outcome, detail, steps]).putWord (slotAddr c i) state

/-- Answers a slot DONE: the internal state becomes not-TAKEN and ORDER is set (R20). -/
def doneSlot (c : Chamber) (i : Fin 2) (outcome : Code) (detail steps : Nat) (s : State) : State :=
  raise (.order c) (holdSlot c i .free (writeSlot c i outcome.code detail steps 3 s))

/-- Answers DONE the slot that holds what a test picks, if there is one. -/
def doneHeld (c : Chamber) (p : SlotHold → Bool) (outcome : Code) (detail steps : Nat) (s : State) : State :=
  match (s.seq c).slotWith p with
  | some i => doneSlot c i outcome detail steps s
  | none => s

/-- The slot holds the current segment. -/
def SlotHold.isCurrent : SlotHold → Bool
  | .current => true
  | _ => false
/-- The slot holds the pending segment. -/
def SlotHold.isPending : SlotHold → Bool
  | .pending => true
  | _ => false
/-- The slot holds a pump order. -/
def SlotHold.isPump : SlotHold → Bool
  | .pump _ => true
  | _ => false
/-- The slot holds a pump order taken in ECONOMY. -/
def SlotHold.isWakePump : SlotHold → Bool
  | .pump true => true
  | _ => false
/-- The slot holds a mode order. -/
def SlotHold.isMode : SlotHold → Bool
  | .mode => true
  | _ => false

/-- Bits 16 to 18 of a run or segment order's Outcome Detail (R21). -/
def Seq.clampBits (q : Seq) : Nat := bitIf q.segClamped 65536 + bitIf q.segPclamped 131072 + bitIf q.segRclamped 262144

/-- The Outcome Detail of a segment by its last step (R21). -/
def Seq.segmentDetail (q : Seq) : Nat := q.segLast.getD 0xFFFF % 65536 + q.clampBits

/-- The Outcome Detail of a run by its outcome (R21). -/
def Seq.runDetail (q : Seq) : Nat :=
  if q.outcome = .complete ∨ q.outcome = .abortedHost then q.segmentDetail else q.item % 65536 + q.clampBits

/-! ### The context record (R40) -/

/-- The words of the loop entries, oldest first, 0 above the depth. -/
def loopWords (stack : List LoopEntry) : List Nat :=
  let oldest := stack.reverse.map fun e => pack16 e.idx e.rem
  (oldest ++ List.replicate 4 0).take 4

/-- Writes the whole context record, words in offset order (R40). -/
def writeContext (c : Chamber) (cause : Code) (pos remaining : Nat) (s : State) : State :=
  let q := s.seq c
  s.putWords (contextAddr c)
    ([q.tag, pack16 q.seg.first q.seg.count, pack16 pos q.loop.length, pack16 remaining cause.code] ++
      loopWords q.loop ++ [q.rfTotal, shownCount 32 q.stepsRun] ++ List.replicate 6 0)

/-! ### The start of close-out and run faults (R30, R31, R153) -/

/-- Clears the HOLD_AT_STEP_END latch and its flag. -/
def clearLatch (c : Chamber) (s : State) : State :=
  if (s.seq c).latch then showWord c .flags (s.modSeq c fun q => { q with latch := false }) else s

/-- Whether an interlock entry's Scope includes a chamber. -/
def InterlockCfg.covers (e : InterlockCfg) (c : Chamber) : Bool := bitSet e.scope c.val

/-- Whether a trip with an action of at least this degree is latched whose scope includes the chamber; the actions are
1 RF_INHIBIT, 2 GAS_INHIBIT, 3 FULL_SAFE. -/
def tripped (s : State) (c : Chamber) (action : Nat) : Bool :=
  (List.finRange 16).any fun k => (s.ilk k).trip && (s.ilkCfg k).covers c && decide (action ≤ (s.ilkCfg k).action)

/-- The restriction that the trips now latched demand (R153). -/
def restrictionNow (s : State) (c : Chamber) : Restriction :=
  if tripped s c 3 then .noPurgeNoPumpOut else if tripped s c 2 then .noPurge else .none

/-- Close-out begins (R31, R40, R128, R153, R154): the outcome is fixed, the context written, the latch cleared, the
chamber leaves the wait queue, the run is CLOSING in RF_OFF, RF goes off and the pressure is no longer judged. -/
def closeBegin (c : Chamber) (cause : Code) (item pos remaining : Nat) (s : State) : State :=
  let s := s.modSeq c fun q => { q with outcome := cause, item := item }
  let s := clearLatch c (writeContext c cause pos remaining s)
  let s := leaveQueue c s
  let s := s.modSeq c fun q =>
    { q with
      stage := .rfOff
      restriction := restrictionNow s c
      stageMark := s.now
      closeElapsed := 0
      closeElapsedMark := s.now
      closeClamped := false
      pumpOutIncomplete := false }
  let s := stopPressure c (rfOff c (setRun c .closing s))
  if cause.reportsFault then produce c { kind := .fault, fault := cause.code } (raise (.fault c) s) else s

/-- The position and remaining count that the context record takes when close-out begins from a run state (R40). -/
def Seq.closePoint (q : Seq) : Nat × Nat :=
  match q.run with
  | .step => (q.pos, q.timer)
  | .held => (q.pos, q.saved)
  | .gap => (q.seg.count, 0)
  | _ => (q.pos, 0)

/-- The T1 event of a line would reach FLOW_FAULT for a chamber. -/
def lineReaches (s : State) (k : LineId) (c : Chamber) : Bool :=
  decide ((s.line k).openTo = some c ∧ (s.line k).faultDue = none ∧ ((lineWork k s).line k).faultDue = some c)

/-- The T1 event of a chamber's pressure would reach PRESSURE_FAULT. -/
def pressureReaches (s : State) (c : Chamber) : Bool := !(s.press c).faultDue && ((pressureWork c s).press c).faultDue

/-- The T1 event of a struck plasma would reach RF_REFLECT or PLASMA_LOST. -/
def rfReaches (s : State) (c : Chamber) : Bool :=
  let x := s.rf c
  let y := (rfWork c s).rf c
  decide (x.phase = .struck) && (!x.reflectDue && y.reflectDue || !x.lostDue && y.lostDue)

/-- Before a fault, a trip or an ABORT closes a run out in STEP at the moment of a T1 event, the evaluations of that event
that are still to be made and would reach a fault of the chamber are made, so that their faults are due and meet the CLOSING
run (R30, R79, R104, R134, R151; log 14). An evaluation that would reach none is not made. -/
def reachFaults (c : Chamber) (s : State) : State :=
  if (s.seq c).run = .step ∧ tapFalls .t1 s.now = true then
    let s := forLines (fun k s => if lineReaches s k c then lineWork k s else s) s
    let s := if pressureReaches s c then pressureWork c s else s
    if rfReaches s c then rfWork c s else s
  else s

/-- Close-out begins from the run state the run is in, at a fault, a trip, an ABORT, an END or a gap's expiry. -/
def closeNow (c : Chamber) (cause : Code) (item : Nat) (s : State) : State :=
  closeBegin c cause item (s.seq c).closePoint.1 (s.seq c).closePoint.2 (reachFaults c s)

/-- The end of a run (R32, R158, R170): the RUN_END entry, the close-short choice, the slots' answers, and the run IDLE
with its loop stack empty. -/
def finishRun (c : Chamber) (elapsed flags : Nat) (s : State) : State :=
  let q := s.seq c
  let failed := if q.outcome = .complete ∨ q.outcome = .abortedHost then 0 else q.outcome.code
  let s := produce c
    { kind := .runEnd, fault := failed, second := q.second.code, flags := flags, elapsed := elapsed, rfOn := q.rfTotal
      pressure := s.valueAt (s.chamberCfg c).manometer } s
  let s := closeShort c s
  let s := doneHeld c SlotHold.isCurrent q.outcome q.runDetail (shownCount 32 q.segDone) s
  let s := doneHeld c SlotHold.isPending .notRun 0 0 s
  let s := s.modSeq c fun q =>
    { q with loop := [], pendingSeg := none, lastOutcome := q.outcome, shownDepth := 0, saved := 0, stage := .none }
  let s := setRun c .idle s
  showWord c .pending (showWord c .index (showWord c .outcome s))

/-- A run's end from STARTING begins: the outcome, and the FAULT flag and entry of a fault (R32). -/
def beginEnd (c : Chamber) (cause : Code) (item : Nat) (s : State) : State :=
  let s := s.modSeq c fun q => { q with outcome := cause, item := item }
  if cause.reportsFault then produce c { kind := .fault, fault := cause.code } (raise (.fault c) s) else s

/-- A run ends from STARTING without close-out stages (R32). -/
def endStarting (c : Chamber) (cause : Code) (item : Nat) (s : State) : State :=
  finishRun c 0 0 (clearLatch c (beginEnd c cause item s))

/-- A run fault is delivered (R30, R153; log 20). -/
def deliverFault (c : Chamber) (code : Code) (item : Nat) (s : State) : State :=
  match (s.seq c).run with
  | .idle => s
  | .starting => if code = .faultInterlock ∨ code = .pumpingLost then endStarting c code item s else s
  | .closing => s.modSeq c fun q => { q with second := if q.second = .nil then code else q.second }
  | _ => closeNow c code item s

/-! ### Close-out stages (R154 to R157) -/

/-- The END stage (R157). -/
def endStage (c : Chamber) (s : State) : State :=
  let q := s.seq c
  openThrottle c (finishRun c q.closeElapsed (bitIf q.closeClamped 1 + bitIf q.pumpOutIncomplete 16) s)

/-- PUMP_OUT is entered or skipped (R156). -/
def judgePumpOut (c : Chamber) (s : State) : State :=
  let cfg := s.chamberCfg c
  if (s.seq c).restriction ≠ .noPurgeNoPumpOut ∧ (s.pump c).st = .pumped ∧ cfg.closeLimit ≠ 0 then
    s.modSeq c fun q =>
      { q with stage := .pumpOut, closeLimit := cfg.closeLimit, closeLimitMark := s.now, stageMark := s.now }
  else endStage c s

/-- PURGE ends: the purge line is dropped if it is still open, and PUMP_OUT is judged (R155). -/
def endPurge (c : Chamber) (s : State) : State :=
  judgePumpOut c (dropPurge c (s.modSeq c fun q => { q with purgeEndMark := s.now }))

/-- PURGE is entered or skipped on leaving GAS_OFF (R155, R70). -/
def judgePurge (c : Chamber) (s : State) : State :=
  let cfg := s.chamberCfg c
  if (s.seq c).restriction = .none ∧ (s.pump c).st = .pumped ∧ cfg.purgeLine ≠ 0 ∧ cfg.purgeTime ≠ 0 then
    let s := s.modSeq c fun q =>
      { q with
        stage := .purge, purgeTimer := cfg.purgeTime, stageMark := s.now
        closeClamped := q.closeClamped || purgeClamps s c cfg.purgeFlow }
    openPurge c .purge cfg.purgeFlow s
  else judgePumpOut c s

/-- GAS_OFF: every line of the chamber is dropped, and close-out leaves the stage with the throttle open (R154, R99). -/
def gasOffStage (c : Chamber) (s : State) : State := judgePurge c (openThrottle c (dropAll c s))

/-- PUMP_OUT ends without reaching Close Pressure (R156). -/
def pumpOutFails (c : Chamber) (s : State) : State :=
  endStage c (s.modSeq c fun q => { q with pumpOutIncomplete := true })

/-- A restriction has come to forbid the PUMP_OUT that was entered at this very moment, at PURGE's end. -/
def Seq.pumpOutVoid (q : Seq) (now : Moment) : Bool :=
  decide (q.restriction = .noPurgeNoPumpOut ∧ q.purgeEndMark = now ∧ q.stageMark = now)

/-- The stages that a raised restriction or a pump machine that has left PUMPED ends early (R155, R156). A FULL_SAFE trip
at the moment of PURGE's end gives the same stages in either order, so that the PUMP_OUT just entered is skipped, with no
flag (R155; log 2). -/
def checkStage (c : Chamber) (s : State) : State :=
  let q := s.seq c
  if q.run = .closing then
    match q.stage with
    | .purge => if q.restriction ≠ .none ∨ (s.pump c).st ≠ .pumped then endPurge c s else s
    | .pumpOut =>
      if q.pumpOutVoid s.now then endStage c s
      else if q.restriction = .noPurgeNoPumpOut ∨ (s.pump c).st ≠ .pumped then pumpOutFails c s
      else s
    | _ => s
  else s

/-- A restriction raised to the level of an action, never lowered (R153). -/
def Restriction.raisedBy (r : Restriction) (action : Nat) : Restriction :=
  if 3 ≤ action then .noPurgeNoPumpOut
  else if action = 2 ∧ r = .none then .noPurge
  else r

/-- A latched trip raises the restriction of a close-out in progress (R153). -/
def raiseRestriction (c : Chamber) (action : Nat) (s : State) : State :=
  if (s.seq c).run = .closing then
    s.modSeq c fun q => { q with restriction := q.restriction.raisedBy action }
  else s

/-! ### Step start (R47 to R52, R62, R63) -/

/-- What a step start finds at a position: a step to run, the end of the segment, or a fault of the step logic, each with
the loop stack as the resolution left it. -/
inductive Resolved where
  | run (r : StepRec) (pos : Nat) (stack : List LoopEntry)
  | segmentEnd (stack : List LoopEntry)
  | fault (code : Code) (pos : Nat) (stack : List LoopEntry)
  deriving DecidableEq, Repr

/-- A resolution continues at a Target: a record there that fails its tests, or is itself a LOOP_BACK, is BAD_STEP
(R62, R63). -/
def landAt (m : Memory) (tab : Tables) (c : Chamber) (seg : Segment) (stack : List LoopEntry) (target : Nat) :
    Resolved :=
  let r := readStep m target
  if stepOk tab c seg.first target r && !r.isLoop then .run r (target - seg.first) stack
  else .fault .badStep (target - seg.first) stack

/-- A LOOP_BACK whose entry is not on top is pushed, unless the stack is full (R62, R63). -/
def pushLoop (m : Memory) (tab : Tables) (c : Chamber) (seg : Segment) (stack : List LoopEntry) (pos : Nat)
    (r : StepRec) : Resolved :=
  if stack.length < 4 then
    landAt m tab c seg ({ idx := seg.first + pos, rem := r.loopCount - 1 } :: stack) r.loopTarget
  else .fault .loopDepth pos stack

/-- Reads and judges the record of a position, resolving LOOP_BACK records against the loop stack (R47, R62). DESIGN
CHOICE (log 28): where a host edit has taken away the LOOP_BACK that an entry names, R62's table is followed as it stands,
and the entry stays below or on the stack until the stack is emptied. -/
def resolve (m : Memory) (tab : Tables) (c : Chamber) (seg : Segment) : List LoopEntry → Nat → Resolved
  | [], pos =>
    let r := readStep m (seg.first + pos)
    if stepOk tab c seg.first (seg.first + pos) r = false then .fault .badStep pos []
    else if r.isLoop then pushLoop m tab c seg [] pos r
    else .run r pos []
  | top :: rest, pos =>
    let r := readStep m (seg.first + pos)
    if stepOk tab c seg.first (seg.first + pos) r = false then .fault .badStep pos (top :: rest)
    else if r.isLoop = false then .run r pos (top :: rest)
    else if top.idx ≠ seg.first + pos then pushLoop m tab c seg (top :: rest) pos r
    else if 1 < top.rem then landAt m tab c seg ({ top with rem := top.rem - 1 } :: rest) r.loopTarget
    else if seg.count ≤ pos + 1 then .segmentEnd rest
    else resolve m tab c seg rest (pos + 1)

/-- What a step start finds at a position of the current segment now. -/
def resolveNow (c : Chamber) (pos : Nat) (s : State) : Resolved :=
  resolve s.mem s.tables c (s.seq c).seg (s.seq c).loop pos

/-- The step start's record becomes the current step and is shown (R26, R47, R61). -/
def setStep (c : Chamber) (pos : Nat) (stack : List LoopEntry) (s : State) : State :=
  showWord c .index
    (s.modSeq c fun q =>
      { q with
        pos := pos, stepIdx := q.seg.first + pos, loop := stack
        shownIdx := q.seg.first + pos, shownDepth := stack.length })

/-- A request that is not granted at once: the chamber joins the queue, releases its shared lines, turns RF off, and the
run enters WAIT_LINES (R49, R88, R99). -/
def enterWait (c : Chamber) (set : List LineId) (s : State) : State :=
  let s := imageWait (s.setWaitQueue (s.waitQueue ++ [{ chamber := c, set := set }]))
  dropShared c (stopPressure c (rfOff c (setRun c .waitLines s)))

/-- The shared lines that a record requests (R49). -/
def requestedLines (s : State) (r : StepRec) : List LineId :=
  (r.entries.map Prod.fst).filter fun k => (s.lineCfg k).use == 2

/-- The stages of a step start after the record is judged (R48, R49, R51, R52). A resolution that ended the segment is
taken by the caller; at position 0 of a segment there is none, since a LOOP_BACK there fails test 11. -/
def enterStep (c : Chamber) (found : Resolved) (s : State) : State :=
  match found with
  | .segmentEnd _ => s
  | .fault code pos stack =>
    let s := setStep c pos stack s
    closeBegin c code (s.seq c).stepIdx pos 0 s
  | .run r pos stack =>
    let s := (setStep c pos stack s).modSeq c fun q => { q with step := r }
    let s := dropLines c (fun k => !r.names k) s
    let set := requestedLines s r
    if set.isEmpty then handStep c s
    else if grantedAtOnce c set s then
      handStep c (ownLines c (set.filter fun k => decide (s.arb k ≠ .owned c)) s)
    else enterWait c set s

/-! ### Holds, gaps and segments (R28, R29, R34, R35) -/

/-- The run enters HELD at a position with a remaining count (R34, R35, R36). A fault reached at an evaluation already made
meets the run in HELD (R30, R79, R134). The held position's record, which R169 names for the HELD and RELEASED entries,
is the current step for as long as the run is in HELD, after HOLD_AT_STEP_END too (DESIGN CHOICE, log 32). -/
def enterHeld (c : Chamber) (pos remaining : Nat) (s : State) : State :=
  let s := s.modSeq c fun q => { q with pos := pos, stepIdx := q.seg.first + pos, saved := remaining }
  let s := clearLatch c (openThrottle c (dropAll c (rfOff c s)))
  let s := writeContext c .hold pos remaining s
  let s := produce c { kind := .held, rfOn := (s.seq c).rfTotal } s
  setRun c .held s

/-- A segment becomes current: Segment Number one higher, the loop stack empty, SEGMENT_START produced (R28, R29). -/
def makeCurrent (c : Chamber) (seg : Segment) (s : State) : State :=
  let s := s.modSeq c fun q =>
    { q with
      seg := seg, pendingSeg := none, segNumber := q.segNumber + 1, loop := [], pos := 0, stepIdx := seg.first
      segDone := 0, segLast := none, segClamped := false, segPclamped := false, segRclamped := false, saved := 0 }
  produce c { kind := .segmentStart } (showWord c .timer s)

/-- The first step start of a segment that follows another (R28, R29). -/
def startSegment (c : Chamber) (s : State) : State := enterStep c (resolveNow c 0 s) s

/-- The run enters GAP (R29). The loop stack is kept as the segment's end left it, and the context record carries it: empty
by the law of R61, unless a host edit took a LOOP_BACK away (DESIGN CHOICE, log 28). -/
def enterGap (c : Chamber) (s : State) : State :=
  let s := writeContext c .gap (s.seq c).seg.count 0 (clearLatch c s)
  let s := s.modSeq c fun q =>
    { q with
      stepIdx := q.segLast.getD (Config.gapStepIndex q.seg.first), gap := q.seg.gapLimit, gapMark := s.now, saved := 0 }
  let s := produce c { kind := .gapEnter, rfOn := (s.seq c).rfTotal } s
  setRun c .gap (stopPressure c (rfOff c s))

/-- The pending segment's slot now holds the current segment. -/
def promoteSlot (c : Chamber) (s : State) : State :=
  match (s.seq c).slotWith SlotHold.isPending with
  | some i => holdSlot c i .current s
  | none => s

/-- The segment ends (R28, R35). -/
def segmentEnd (c : Chamber) (s : State) : State :=
  let q := s.seq c
  if q.seg.isOpen then
    let s := doneHeld c SlotHold.isCurrent .completeOpen q.segmentDetail (shownCount 32 q.segDone) s
    match q.pendingSeg with
    | some seg =>
      let s := showWord c .pending (makeCurrent c seg (promoteSlot c s))
      if q.latch then enterHeld c 0 0 s else startSegment c s
    | none => enterGap c s
  else closeBegin c .complete 0 q.seg.count 0 s

/-- A step start whose resolution ends the segment shows Loop Depth too (R61, R62). It has no current step, and Current
Step Index stays as last shown (DESIGN CHOICE, log 19). Where that ends a FINAL segment from STARTING or HELD, the RUN_END
entry carries the resumed or held position's record as its Step Index (DESIGN CHOICE, log 30). -/
def leaveLoops (c : Chamber) (stack : List LoopEntry) (s : State) : State :=
  showWord c .index (s.modSeq c fun q => { q with loop := stack, shownDepth := stack.length })

/-- A step start at a position of the current segment (R47). -/
def stepStart (c : Chamber) (pos : Nat) (s : State) : State :=
  match resolveNow c pos s with
  | .segmentEnd stack => segmentEnd c (leaveLoops c stack s)
  | found => enterStep c found s

/-! ### Step end (R64, R65) -/

/-- Whether the Flow Unit clamped the command of a named line of the step. -/
def stepClamped (s : State) (c : Chamber) : Bool := (s.seq c).step.entries.any fun e => (s.line e.1).clamped

/-- The Flags of a STEP_END entry (R65). -/
def stepFlags (s : State) (c : Chamber) (cause : ExitCause) : Nat :=
  bitIf (stepClamped s c) 1 + bitIf (s.press c).pclamped 2 + bitIf (s.rf c).rclamped 4 +
    bitIf (decide (cause = .timeout)) 8 + 256 * ((s.rf c).stepRetries % 4)

/-- A step ends (R64). Its CLAMPED, PCLAMPED and RCLAMPED join those of the segment here and nowhere else, so that a step
closed out by a fault, a trip or an ABORT adds none to bits 16 to 18 of Outcome Detail (R21; DESIGN CHOICE, log 31). -/
def stepEnd (c : Chamber) (cause : ExitCause) (s : State) : State :=
  let flags := stepFlags s c cause
  let s := s.modSeq c fun q =>
    { q with
      stepsRun := q.stepsRun + 1
      segDone := q.segDone + 1
      segLast := some q.stepIdx
      segClamped := q.segClamped || stepClamped s c
      segPclamped := q.segPclamped || (s.press c).pclamped
      segRclamped := q.segRclamped || (s.rf c).rclamped }
  let s := showWord c .steps s
  let q := s.seq c
  let s :=
    if q.step.reports then
      produce c
        { kind := .stepEnd, kindByte := cause.code, flags := flags, elapsed := q.elapsed, rfOn := (s.rf c).stepRfOn
          pressure := s.valueAt (s.chamberCfg c).manometer } s
    else s
  if q.seg.count ≤ q.pos + 1 then segmentEnd c s
  else if q.latch then enterHeld c (q.pos + 1) 0 s
  else stepStart c (q.pos + 1) s

/-- The step timer has reached 0 (R55, R59). -/
def timerExpired (c : Chamber) (s : State) : State :=
  let q := s.seq c
  if q.step.exitsTime then stepEnd c .time s
  else if q.step.abortsOnTimeout then deliverFault c .timeoutAbort q.stepIdx s
  else stepEnd c .timeout s

/-- The step timer decreases by one, and at 0 its exit mode decides (R53). -/
def timerTick (c : Chamber) (s : State) : State :=
  let s := showWord c .timer (s.modSeq c fun q => { q with timer := q.timer - 1, timerMark := s.now })
  if (s.seq c).timer = 0 then timerExpired c s else s

/-- Whether an event of the step's own tap at this moment counts for the step timer (R53). -/
def timerCounts (s : State) (c : Chamber) : Bool :=
  let q := s.seq c
  decide (q.run = .step ∧ 0 < q.timer) && s.after q.timerMark &&
    (match q.step.tap? with
      | some tap => tapFalls tap s.now
      | none => false)

/-- Whether every item a STABLE step watches is stable (R57). -/
def allStable (s : State) (c : Chamber) : Bool :=
  let q := s.seq c
  (q.step.entries.all fun e => (s.line e.1).stable) && (decide (q.step.target = 0) || (s.press c).stable)

/-- A stability report ends a STABLE step that it leaves with no item not stable (R57). -/
def stableReport (c : Chamber) (s : State) : State :=
  let q := s.seq c
  if decide (q.run = .step) && q.step.exitsStable && allStable s c then stepEnd c .stable s else s

/-- Whether the endpoint is armed: the timer's count is at or below Duration Count − Endpoint Min Time (R56). -/
def endpointArmed (q : Seq) : Bool :=
  decide (q.run = .step) && q.step.exitsEndpoint && decide (q.timer ≤ q.step.duration - q.step.endpointMin)

/-- One endpoint sample at a T0 event (R56). -/
def endpointSampled (c : Chamber) (s : State) : State :=
  let q := s.seq c
  if endpointArmed q && s.after q.endpointMark then
    let n := if s.pins.endpoint[c] then q.endpointCount + 1 else 0
    let s := s.modSeq c fun q => { q with endpointCount := n, endpointMark := s.now }
    if q.step.endpointDwell < n then stepEnd c .endpoint s else s
  else s

/-- The pulse-loss timer's T1 event in a step on EXT (R54). -/
def pulseTick (c : Chamber) (s : State) : State :=
  let q := s.seq c
  if decide (q.run = .step) && q.step.onExt && s.after q.pulseMark then
    let s := s.modSeq c fun q => { q with pulse := q.pulse - 1, pulseMark := s.now }
    if (s.seq c).pulse = 0 then deliverFault c .pulseLost q.stepIdx s else s
  else s

/-- The gap timer's T3 event (R29). -/
def gapTick (c : Chamber) (s : State) : State :=
  let q := s.seq c
  if decide (q.run = .gap) && s.after q.gapMark then
    let s := s.modSeq c fun q => { q with gap := q.gap - 1, gapMark := s.now }
    if (s.seq c).gap = 0 then closeNow c .gapExpired 0 s else s
  else s

end Sys2Proof.Machine
end

