-- ==== Sys2Proof/Machine/PumpUnit.lean ====
section
/-! DEFINITION. The Pumping Unit: the pump machines, the Rough Line Arbiter and the foreline guard (spec/07). The vacuum
valves follow the pump state (R107). -/

namespace Sys2Proof.Machine

/-! ### Stages, entries and valves -/

/-- Puts a pump machine in its new state, showing what changed in the status block (R106). -/
def putPump (c : Chamber) (p : Pump) (s : State) : State :=
  let old := s.pump c
  let s := s.setPump c p
  let s := if old.st = p.st then s else showWord c .states s
  if old.paused = p.paused then s else showWord c .flags s

/-- The PUMP_STAGE entry of a change of pump state (R106). -/
def pumpEntry (c : Chamber) (fault : Nat) (s : State) : State :=
  let cfg := s.chamberCfg c
  let st := (s.pump c).st
  produce c
    { kind := .pumpStage, kindByte := st.code, fault := fault
      pressure := s.valueAt (if st = .pumped then cfg.manometer else cfg.roughGauge) } s

/-- A stage entered; only a change of pump state produces an entry (R106). -/
def stageTo (c : Chamber) (p : Pump) (s : State) : State :=
  let old := (s.pump c).st
  let s := putPump c p s
  if old = p.st then s else pumpEntry c 0 s

/-- A stage limit as loaded: a limit of 0 does not run (R109). -/
def loadLimit (n : Nat) : Option Nat := if n = 0 then none else some n

/-- The soft-rough valve (R107). -/
def State.softRoughOpen (s : State) (c : Chamber) : Bool :=
  decide ((s.pump c).st = .softRough ∨ (s.pump c).st = .fastRough) && !(s.pump c).paused
/-- The fast-rough valve (R107). -/
def State.fastRoughOpen (s : State) (c : Chamber) : Bool := decide ((s.pump c).st = .fastRough) && !(s.pump c).paused
/-- The gate valve (R107). -/
def State.gateOpen (s : State) (c : Chamber) : Bool := decide ((s.pump c).st = .highVac ∨ (s.pump c).st = .pumped)
/-- The vent valve (R107). -/
def State.ventOpen (s : State) (c : Chamber) : Bool := decide ((s.pump c).st = .venting) && (s.pump c).ventOpened

/-! ### The Rough Line Arbiter (R112 to R114) -/

/-- The foreline value, unless it is stale (R114, R116). -/
def State.foreline (s : State) : Option Nat := s.freshAt (s.chamberCfg 0).foreline

/-- Entry into SOFT_ROUGH with the Soft Rough Limit loaded (R114, R116). -/
def enterSoftRough (c : Chamber) (s : State) : State :=
  stageTo c { st := .softRough, limit := loadLimit (s.chamberCfg c).softRoughLimit, limitMark := s.now, mark := s.now } s

/-- Whether the guard lets a new holder begin (R114). -/
def forelineAllows (s : State) : Bool :=
  match s.foreline with
  | some v => decide (v ≤ (s.chamberCfg 0).forelineLimit)
  | none => false

/-- A chamber becomes the holder (R114): it begins roughing, or holds the line in ROUGH_WAIT with PAUSED. A waiter stays in
the stage it entered before, so that the guard still reads at a T1 event of this moment taken after the grant (R108,
R116). -/
def grantRough (c : Chamber) (s : State) : State :=
  let s := imageRough (s.setRough { s.rough with holder := some c })
  let p := s.pump c
  if forelineAllows s then enterSoftRough c s
  else stageTo c { st := .roughWait, paused := true, mark := if p.st = .roughWait then p.mark else s.now } s

/-- A request for the rough line (R112). -/
def requestRough (c : Chamber) (s : State) : State :=
  match s.rough.holder with
  | none => grantRough c s
  | some _ =>
    let s := imageRough (s.setRough { s.rough with queue := s.rough.queue ++ [c] })
    stageTo c { st := .roughWait, mark := s.now } s

/-- The holder releases the line, and the oldest waiter is granted (R113). -/
def releaseRough (s : State) : State :=
  match s.rough.queue with
  | [] => imageRough (s.setRough { holder := none, queue := [] })
  | next :: rest => grantRough next (s.setRough { holder := none, queue := rest })

/-- A machine gives up the rough line: as the holder it releases it, as a waiter it leaves the queue (R113). -/
def leaveRough (c : Chamber) (s : State) : State :=
  if s.rough.holder = some c then releaseRough s
  else if s.rough.queue.contains c then
    imageRough (s.setRough { s.rough with queue := s.rough.queue.filter fun x => decide (x ≠ c) })
  else s

/-! ### FAULT_HOLD, turbo loss, abort (R110, R119, R121) -/

/-- A machine put in FAULT_HOLD with a cause and the Outcome Detail of a pump order it ends, its entry not made yet
(R110). -/
def putFaultHold (c : Chamber) (cause : Code) (detail : Nat) (s : State) : State :=
  let s := leaveRough c (putPump c { st := .faultHold, mark := s.now } s)
  raise (.fault c) (doneHeld c SlotHold.isPump cause detail 0 s)

/-- Entry into FAULT_HOLD (R110). -/
def enterFaultHold (c : Chamber) (cause : Code) (detail : Nat) (s : State) : State :=
  pumpEntry c cause.code (putFaultHold c cause detail s)

/-- PUMPING_LOST delivered to a run, with the stages that a machine no longer PUMPED ends (R119, R155, R156). -/
def losePumping (c : Chamber) (s : State) : State :=
  checkStage c (deliverFault c .pumpingLost (s.seq c).stepIdx s)

/-- A turbo loss: FAULT_HOLD with TURBO_LOST, and PUMPING_LOST to a run that is not IDLE (R119). Where the Pumping Unit's
entry stands among the Chamber Sequencer's is left open (R165; log 10): before them, after them, or, where a run ends from
STARTING, between its FAULT and its RUN_END. -/
def turboLoss (c : Chamber) (s : State) : State :=
  let s := putFaultHold c .turboLost (s.pump c).st.code s
  let entry := pumpEntry c Code.turboLost.code
  if (s.seq c).run = .idle then entry s
  else
    let place := Config.pumpEntryPlace s.uses
    let s := s.bumpUses
    if place = 0 then losePumping c (entry s)
    else if place = 1 ∧ (s.seq c).run = .starting then
      finishRun c 0 0 (clearLatch c (entry (beginEnd c .pumpingLost (s.seq c).stepIdx s)))
    else entry (losePumping c s)

/-- An ABORT of a pump order (R39, R121). -/
def abortPump (c : Chamber) (s : State) : State :=
  let detail := (s.pump c).st.code
  if ((s.seq c).slotWith SlotHold.isWakePump).isSome then doneHeld c SlotHold.isPump .abortedHost detail 0 s
  else
    let s := pumpEntry c 0 (leaveRough c (putPump c { st := .isolated, mark := s.now } s))
    doneHeld c SlotHold.isPump .abortedHost detail 0 s

/-! ### Pumpdown and venting (R111, R115, R120) -/

/-- Entry into CROSSOVER (R111, R115): the High-Vac Limit and the Crossover Delay are loaded. -/
def crossoverPump (cfg : ChamberCfg) (now : Moment) : Pump :=
  { st := .crossover, limit := loadLimit cfg.highVacLimit, limitMark := now, delay := some cfg.crossoverDelay, mark := now }

/-- A rough gauge value that is not stale and is at or below a threshold. -/
def roughAtOrBelow (s : State) (c : Chamber) (threshold : Nat) : Bool :=
  match s.freshAt (s.chamberCfg c).roughGauge with
  | some v => decide (v ≤ threshold)
  | none => false

/-- A pumpdown starts at the take of a PUMP_DOWN (R111). -/
def startPumpdown (c : Chamber) (s : State) : State :=
  if roughAtOrBelow s c (s.chamberCfg c).crossoverPressure then
    stageTo c (crossoverPump (s.chamberCfg c) s.now) s
  else requestRough c s

/-- A vent starts at the take of a VENT (R120). -/
def startVent (c : Chamber) (s : State) : State :=
  let cfg := s.chamberCfg c
  stageTo c
    { st := .venting, limit := loadLimit cfg.ventLimit, limitMark := s.now, delay := some cfg.gateCloseDelay
      mark := s.now } s

/-- A holder leaves roughing for CROSSOVER: the rough valves close, the line is released, the limits are loaded
(R115). -/
def leaveRoughing (c : Chamber) (s : State) : State :=
  leaveRough c (stageTo c (crossoverPump (s.chamberCfg c) s.now) s)

/-! ### The T1 event (R108) -/

/-- The threshold test of SOFT_ROUGH and FAST_ROUGH (R115). -/
def roughTest (c : Chamber) (s : State) : State :=
  let cfg := s.chamberCfg c
  if roughAtOrBelow s c cfg.crossoverPressure then leaveRoughing c s
  else if (s.pump c).st = .softRough ∧ roughAtOrBelow s c cfg.softRoughPressure = true then
    stageTo c { st := .fastRough, limit := loadLimit cfg.fastRoughLimit, limitMark := s.now, mark := s.now } s
  else s

/-- Whether the guard ends a pause (R116). -/
def forelineResumes (s : State) : Bool :=
  match s.foreline with
  | some v => decide (v ≤ (s.chamberCfg 0).forelineResume ∧ v ≤ (s.chamberCfg 0).forelineLimit)
  | none => false

/-- The foreline guard's work for the holder, and the threshold test that follows it where the holder is not PAUSED
(R108, R116). -/
def guardAndTest (c : Chamber) (s : State) : State :=
  let p := s.pump c
  if p.paused then
    if forelineResumes s then
      if p.st = .roughWait then enterSoftRough c s else roughTest c (putPump c { p with paused := false } s)
    else s
  else if forelineAllows s then roughTest c s
  else putPump c { p with paused := true } s

/-- The work of CROSSOVER (R117): the delay decreases, and once it is met the turbo input is sampled. -/
def crossoverWork (c : Chamber) (turbo : Bool) (s : State) : State :=
  let p := s.pump c
  let n := p.delay.getD 0 - 1
  if n = 0 ∧ turbo = true then stageTo c { p with st := .highVac, delay := none, mark := s.now } s
  else s.setPump c { p with delay := some n }

/-- The work of HIGH_VAC after its turbo test (R118). -/
def highVacTest (c : Chamber) (s : State) : State :=
  let cfg := s.chamberCfg c
  match s.freshAt cfg.manometer with
  | some v =>
    if v ≤ cfg.basePressure then
      let s := putPump c { st := .pumped, mark := s.now } s
      let s := doneHeld c SlotHold.isPump .complete PumpState.pumped.code 0 s
      pumpEntry c 0 (raise (.pump c) s)
    else s
  | none => s

/-- The work of VENTING (R120): the delay, and from the event after the vent valve opens the threshold test. -/
def ventWork (c : Chamber) (s : State) : State :=
  let p := s.pump c
  let cfg := s.chamberCfg c
  if p.ventOpened then
    match s.freshAt cfg.roughGauge with
    | some v =>
      if cfg.atmosphere ≤ v then
        let s := putPump c { st := .vented, mark := s.now } s
        let s := doneHeld c SlotHold.isPump .complete PumpState.vented.code 0 s
        pumpEntry c 0 (raise (.pump c) s)
      else s
    | none => s
  else
    let n := p.delay.getD 0 - 1
    if n = 0 then s.setPump c { p with delay := none, ventOpened := true } else s.setPump c { p with delay := some n }

/-- The work of a pump machine at a T1 event after the event that entered its stage, in the order of R108. -/
def pumpStageWork (c : Chamber) (turbo : Bool) (s : State) : State :=
  match (s.pump c).st with
  | .softRough => guardAndTest c s
  | .fastRough => guardAndTest c s
  | .roughWait => if s.rough.holder = some c then guardAndTest c s else s
  | .crossover => crossoverWork c turbo s
  | .highVac => if turbo then highVacTest c s else turboLoss c s
  | .pumped => if (s.econ c).mode = .active ∧ turbo = false then turboLoss c s else s
  | .venting => ventWork c s
  | _ => s

/-- The turbo-at-speed input of a chamber as an event finds it. -/
def samplePin (c : Chamber) (turbo : Bool) (s : State) : State :=
  s.setPins { s.pins with turbo := s.pins.turbo.set c turbo }

/-- One T1 event of a pump machine; a moment carries one T1 event, and one at the moment of the stage's entry is not
counted (R108). An event at the very moment of the end of a wake, taken after that end, is the event at which the turbo
test resumes (R119, R162; DESIGN CHOICE, log 15). -/
def pumpWork (c : Chamber) (turbo : Bool) (s : State) : State :=
  let s := samplePin c turbo s
  if s.after (s.pump c).mark then pumpStageWork c turbo (s.modPump c fun p => { p with mark := s.now }) else s

/-- Whether the stage limit counts at a T3 event (R109). -/
def limitRuns (s : State) (c : Chamber) : Bool :=
  (s.pump c).limit.isSome && s.after (s.pump c).limitMark

/-- The stage limit's T3 event; at 0 the machine enters FAULT_HOLD with PUMP_TIMEOUT. While PAUSED the event is not
counted (R109). -/
def limitTick (c : Chamber) (s : State) : State :=
  let p := s.pump c
  match p.limit with
  | none => s
  | some n =>
    if s.after p.limitMark then
      if p.paused then s.setPump c { p with limitMark := s.now }
      else if 1 < n then s.setPump c { p with limit := some (n - 1), limitMark := s.now }
      else enterFaultHold c .pumpTimeout p.st.code s
    else s

/-- Whether a T3 event brings the stage limit to 0. -/
def limitExpires (s : State) (c : Chamber) : Bool :=
  limitRuns s c && !(s.pump c).paused && decide ((s.pump c).limit.getD 0 ≤ 1)

end Sys2Proof.Machine
end

