-- ==== Sys2Proof/Machine/Economy.lean ====
section
/-! DEFINITION. The economy logic: mode, wake and the turbo-economy output (spec/11). -/

namespace Sys2Proof.Machine

/-- The turbo-economy output (R159). -/
def State.turboEconomy (s : State) (c : Chamber) : Bool :=
  decide ((s.econ c).mode = .economy ∧ (s.econ c).phase = .none)

/-- Enters a mode with a wake phase of NONE and both counts stopped, and shows it (R159). -/
def putMode (c : Chamber) (m : Mode) (s : State) : State :=
  showWord c .states (s.modEcon c fun e => { e with mode := m, phase := .none, limit := 0, dwell := 0 })

/-- The MODE entry and the PUMP flag of a change of mode (R159). -/
def modeEntry (c : Chamber) (cause : WakeCause) (fault flags : Nat) (s : State) : State :=
  raise (.pump c) (produce c { kind := .mode, kindByte := cause.code, fault := fault, flags := flags } s)

/-- Entry into ECONOMY (R160, R82). -/
def enterEconomy (c : Chamber) (s : State) : State :=
  let flow := (s.chamberCfg c).economyPurgeFlow
  let s := openPurge c .idlePurge flow (putMode c .economy s)
  modeEntry c .nil 0 (bitIf (purgeClamps s c flow) 1) s

/-- A wake begins, or its order joins the wake in progress (R161). -/
def beginWake (c : Chamber) (cause : WakeCause) (s : State) : State :=
  if (s.econ c).phase = .none then
    dropPurge c
      (s.modEcon c fun e =>
        { e with
          phase := .turboWait, cause := cause, limit := (s.chamberCfg c).recoveryLimit
          sampleMark := s.now, countMark := s.now })
  else s

/-- The end of a wake (R162). The mark of the pump machine stays, so that its T1 event of the same moment, taken after the
end, makes the turbo test (DESIGN CHOICE, log 15). -/
def endWake (c : Chamber) (s : State) : State :=
  let cause := (s.econ c).cause
  let s := putMode c .active (s.modEcon c fun e => { e with lastWake := cause })
  let s := modeEntry c cause 0 0 (showWord c .flags s)
  let detail := (s.pump c).st.code
  let s := if (s.seq c).run = .starting then stepStart c (s.seq c).pos s else s
  let s := doneHeld c SlotHold.isMode .complete detail 0 s
  doneHeld c SlotHold.isPump .already detail 0 s

/-- The failure of a wake (R162). -/
def failWake (c : Chamber) (s : State) : State :=
  let cause := (s.econ c).cause
  let detail := (s.pump c).st.code
  let s := turboLoss c (putMode c .active s)
  modeEntry c cause Code.turboLost.code 0 (doneHeld c SlotHold.isMode .turboLost detail 0 s)

/-- A VENT taken in ECONOMY returns the mode to ACTIVE (R163). -/
def leaveByVent (c : Chamber) (s : State) : State :=
  if (s.econ c).mode = .economy then modeEntry c .nil 0 0 (dropPurge c (putMode c .active s)) else s

/-- A FULL_SAFE trip returns the mode to ACTIVE, with no entry made yet (R163). -/
def leaveByTrip (c : Chamber) (item : Nat) (s : State) : State :=
  doneHeld c SlotHold.isMode .faultInterlock item 0 (putMode c .active s)

/-- The MODE entry of a FULL_SAFE trip (R163). -/
def tripModeEntry (c : Chamber) (s : State) : State := modeEntry c .nil Code.faultInterlock.code 0 s

/-- The PRESSURE wake of a T1 event in ECONOMY (R160). -/
def economyRead (c : Chamber) (s : State) : State :=
  let cfg := s.chamberCfg c
  if (s.econ c).mode = .economy ∧ (s.econ c).phase = .none ∧ bitSet cfg.wakeEnables 1 = true then
    match s.freshAt cfg.manometer with
    | some v => if cfg.economyRise < v then beginWake c .pressure s else s
    | none => s
  else s

/-- The turbo sample of a T1 event in a wake (R162). A change of phase moves the count's mark to its moment, so that a T3
event of that moment is not counted in the new phase (DEDUCED, log 15). -/
def wakeSample (c : Chamber) (turbo : Bool) (s : State) : State :=
  let s := samplePin c turbo s
  let e := s.econ c
  let dwell := (s.chamberCfg c).recoveryDwell
  if s.after e.sampleMark then
    match e.phase with
    | .none => s
    | .turboWait =>
      if turbo then
        if dwell = 0 then endWake c s
        else s.setEcon c { e with phase := .dwell, dwell := dwell, sampleMark := s.now, countMark := s.now }
      else s.setEcon c { e with sampleMark := s.now }
    | .dwell =>
      if turbo then s.setEcon c { e with sampleMark := s.now }
      else s.setEcon c { e with phase := .turboWait, dwell := 0, sampleMark := s.now, countMark := s.now }
  else s

/-- The count of a T3 event in a wake: the limit in TURBO_WAIT, the dwell in DWELL (R162). -/
def wakeTick (c : Chamber) (s : State) : State :=
  let e := s.econ c
  if s.after e.countMark then
    match e.phase with
    | .none => s
    | .turboWait =>
      if 1 < e.limit then s.setEcon c { e with limit := e.limit - 1, countMark := s.now } else failWake c s
    | .dwell =>
      if 1 < e.dwell then s.setEcon c { e with dwell := e.dwell - 1, countMark := s.now } else endWake c s
  else s

/-- Whether a T3 event brings the limit count to 0. -/
def wakeLimitExpires (s : State) (c : Chamber) : Bool :=
  decide ((s.econ c).phase = .turboWait ∧ (s.econ c).limit ≤ 1) && s.after (s.econ c).countMark

/-- Whether a T3 event brings the dwell count to 0. -/
def wakeDwellEnds (s : State) (c : Chamber) : Bool :=
  decide ((s.econ c).phase = .dwell ∧ (s.econ c).dwell ≤ 1) && s.after (s.econ c).countMark

end Sys2Proof.Machine
end

