-- ==== Sys2Proof/Machine/InterlockUnit.lean ====
section
/-! DEFINITION. The Interlock Unit: sampling, debounce, the latch of a trip and its acknowledgement (sections 10.1 to
10.3 of spec/10). -/

namespace Sys2Proof.Machine

/-- Whether an input is active at a level (R149). -/
def InterlockCfg.activeAt (e : InterlockCfg) (level : Bool) : Bool := level == decide (e.activeLevel = 1)

/-- An entry is in use when its Scope is not empty (R148). -/
def InterlockCfg.inUse (e : InterlockCfg) : Bool := e.scope != 0

/-- Sets a chamber's RF inhibit: RF goes off at once with the window closed (R129). -/
def setRfInhibit (c : Chamber) (s : State) : State := (rfOff c s).modRf c fun x => { x with inhibit := true }

/-- Sets a chamber's gas inhibit: every line of the chamber is dropped (R83). -/
def inhibitGas (c : Chamber) (s : State) : State := dropAll c (s.setGasInhibit c true)

/-- What a FULL_SAFE trip does to a chamber beyond its inhibits (R122, R163). A machine already in FAULT_HOLD stays
there, with no entry and no flag; which of the PUMP_STAGE and MODE entries comes first is left open (R165). -/
def fullSafe (c : Chamber) (item : Nat) (s : State) : State :=
  let hold := fun s => if (s.pump c).st = .faultHold then s else enterFaultHold c .faultInterlock item s
  if (s.econ c).mode = .economy then
    let first := Config.modeEntryFirst s.uses
    let s := leaveByTrip c item s.bumpUses
    if first then hold (tripModeEntry c s) else tripModeEntry c (hold s)
  else hold s

/-- The action of a trip on one chamber of its scope (R150). Another fault that a T1 event of this moment reaches is the
second fault, although the trip's inhibits stop its evaluation (R151; log 14). -/
def tripChamber (k : InputId) (c : Chamber) (s : State) : State :=
  let action := (s.ilkCfg k).action
  let item := k.val + 1
  let s := setRfInhibit c (reachFaults c s)
  let s := if 2 ≤ action then inhibitGas c s else s
  let s := if 3 ≤ action then fullSafe c item s else s
  checkStage c (deliverFault c .faultInterlock item (raiseRestriction c action s))

/-- The latch of a trip (R150). -/
def latchTrip (k : InputId) (s : State) : State :=
  let s := raise .interlock (imageInterlock (s.modIlk k fun x => { x with trip := true, count := 0 }))
  forChambers (fun c s => if (s.ilkCfg k).covers c then tripChamber k c s else s) s

/-- Whether an input is sampled at this moment (R149). -/
def sampled (s : State) (k : InputId) : Bool := (s.ilkCfg k).inUse && s.after (s.ilk k).mark

/-- The debounce count after a sample that found the input active or not (R149). -/
def Ilk.counted (x : Ilk) (active : Bool) : Nat := if active then (if x.trip then x.count else x.count + 1) else 0

/-- Whether a sample latches the trip (R149). -/
def sampleLatches (s : State) (k : InputId) (level : Bool) : Bool :=
  sampled s k && (s.ilkCfg k).activeAt level && !(s.ilk k).trip && decide ((s.ilkCfg k).debounce < (s.ilk k).count + 1)

/-- An interlock input's level as an event finds it. -/
def interlockPin (k : InputId) (level : Bool) (s : State) : State :=
  s.setPins { s.pins with interlock := s.pins.interlock.set k level }

/-- A sample of one input at a T0 event after the last apply (R149). A moment carries one T0 event. -/
def sampleInput (k : InputId) (level : Bool) (s : State) : State :=
  if sampled s k then
    let active := (s.ilkCfg k).activeAt level
    let old := s.ilk k
    let latches := sampleLatches s k level
    let s := (interlockPin k level s).setIlk k { old with raw := active, count := old.counted active, mark := s.now }
    let s := if old.raw = active then s else imageInterlock s
    if latches then latchTrip k s else s
  else s

/-- Whether an acknowledgement clears a trip (R152). -/
def acknowledges (s : State) (levels : Vector Bool 16) (k : InputId) : Bool :=
  (s.ilk k).trip && !(s.ilkCfg k).activeAt levels[k]

/-- Clears the acknowledged trips, reading the level of each input whose trip is latched (R152). -/
def clearTrips (levels : Vector Bool 16) (s : State) : State :=
  forInputs
    (fun k s =>
      if (s.ilk k).trip then
        let clears := acknowledges s levels k
        let s := interlockPin k levels[k] s
        if clears then s.modIlk k fun x => { x with trip := false, count := 0 } else s
      else s) s

/-- Derives the inhibits of a chamber again; a gas inhibit lifted in ECONOMY with no wake in progress opens the idle
purge again (R152, R82). -/
def liftInhibits (c : Chamber) (s : State) : State :=
  let s := s.modRf c fun x => { x with inhibit := x.inhibit && tripped s c 1 }
  if s.gasInhibit c ∧ tripped s c 2 = false then
    let s := s.setGasInhibit c false
    if (s.econ c).mode = .economy ∧ (s.econ c).phase = .none then
      openPurge c .idlePurge (s.chamberCfg c).economyPurgeFlow s
    else s
  else s

/-- ACK_TRIPS in RUNNING (R152); one that clears nothing changes nothing. -/
def acknowledge (levels : Vector Bool 16) (s : State) : State :=
  if (List.finRange 16).any (acknowledges s levels) then
    forChambers liftInhibits (raise .interlock (imageInterlock (clearTrips levels s)))
  else s

end Sys2Proof.Machine
end

