-- ==== Sys2Proof/Machine/Orders.lean ====
section
/-! DEFINITION. The slot scan: host requests, the examination of the expected slot, and the take, answer or refusal of
each order kind (sections 2.1, 2.2, 2.4 and 2.5 of spec/02). -/

namespace Sys2Proof.Machine

/-! ### Host requests (R33 to R39) -/

/-- Whether a request code is acted on in a run state (R33). -/
def requestActs (q : Seq) (code : Nat) : Bool :=
  match code, q.run with
  | 1, .waitLines => true
  | 1, .step => true
  | 2, .waitLines => true
  | 2, .step => true
  | 3, .held => true
  | 4, .held => true
  | 5, .starting => true
  | 5, .waitLines => true
  | 5, .step => true
  | 5, .gap => true
  | 5, .held => true
  | 5, .idle => q.pumpTaken
  | _, _ => false

/-- An RF fault that an evaluation has reached is not delivered (R134). -/
def dropRfDues (c : Chamber) (s : State) : State := s.modRf c fun x => { x with reflectDue := false, lostDue := false }

/-- HOLD_NOW (R34). A hold taken before the delivery of a reached RF fault turns RF off, and no fault follows (R134). -/
def holdNow (c : Chamber) (s : State) : State :=
  let s := dropRfDues c s
  let q := s.seq c
  if q.run = .step then enterHeld c q.pos q.timer s else enterHeld c q.pos 0 (leaveQueue c s)

/-- HOLD_AT_STEP_END (R35). -/
def latchHold (c : Chamber) (s : State) : State := showWord c .flags (s.modSeq c fun q => { q with latch := true })

/-- RELEASE (R37). -/
def releaseHeld (c : Chamber) (s : State) : State := stepStart c (s.seq c).pos (produce c { kind := .released } s)

/-- ABORT (R38, R39). -/
def abortRun (c : Chamber) (s : State) : State :=
  match (s.seq c).run with
  | .idle => abortPump c s
  | .starting => endStarting c .abortedHost 0 s
  | _ => closeNow c .abortedHost 0 s

/-- A request that is acted on. -/
def actRequest (c : Chamber) (code : Nat) (s : State) : State :=
  match code with
  | 1 => holdNow c s
  | 2 => latchHold c s
  | 3 => releaseHeld c s
  | 4 => closeNow c .abortedHost 0 s
  | _ => abortRun c s

/-- The first part of a slot scan: a new Request Number is taken and its code acted on (R33). -/
def hostRequest (c : Chamber) (s : State) : State :=
  let code := memField s.mem (controlAddr c) 2
  let number := memField s.mem (controlAddr c + 2) 2
  if number = (s.seq c).lastRequest then s
  else
    let acts := requestActs (s.seq c) code
    let s := showWord c .flags (s.modSeq c fun q => { q with lastRequest := number })
    let s := if acts then actRequest c code s else s
    raise (.order c)
      (showWord c .outcome (s.modSeq c fun q => { q with requestResult := if acts then 1 else 2 }))

/-! ### Answers to a posted slot (R19, R20) -/

/-- The expected pointer moves to the other slot and is shown (R17). -/
def turnPointer (c : Chamber) (s : State) : State :=
  showWord c .states (s.modSeq c fun q => { q with expected := if q.expected = 0 then 1 else 0 })

/-- A refusal (R19). -/
def refuse (c : Chamber) (code : Code) (detail : Nat) (s : State) : State :=
  turnPointer c (raise (.order c) (writeSlot c (s.seq c).expected code.code detail 0 4 s))

/-- An order that ends at once (R20). -/
def answerAtOnce (c : Chamber) (code : Code) (detail : Nat) (s : State) : State :=
  turnPointer c (doneSlot c (s.seq c).expected code detail 0 s)

/-- A take: State TAKEN over outcome fields of 0, and the slot holds its order (R20). -/
def takeSlot (c : Chamber) (h : SlotHold) (s : State) : State :=
  turnPointer c (holdSlot c (s.seq c).expected h (writeSlot c (s.seq c).expected 0 0 0 2 s))

/-! ### Runs (R22, R23, R26, R41, R42) -/

/-- The state checks of a RUN_NEW or RUN_RESUME (R22). -/
def runRefusal (s : State) (c : Chamber) : Option Code :=
  if (s.seq c).run ≠ .idle ∨ (s.seq c).pumpTaken = true ∨ (s.seq c).modeTaken = true then some .busy
  else if tripped s c 1 then some .interlocked
  else if (s.pump c).st ≠ .pumped then some .notPumped
  else if (s.econ c).mode = .economy ∧ bitSet (s.chamberCfg c).wakeEnables 0 = false then some .asleep
  else none

/-- The range and segment checks of a run or segment order (R23): the refusal and its detail. -/
def segmentRefusal (s : State) (c : Chamber) (resume : Bool) (o : Order) : Option (Code × Nat) :=
  match orderRangeFault s.tables.partition resume o with
  | some off => some (.badRange, off)
  | none => (firstBadRecord s.mem s.tables c o.first o.count).map fun idx => (.badStep, idx)

/-- Every check of a RUN_NEW or RUN_RESUME in order (R19): the refusal and its detail. -/
def runOrderRefusal (s : State) (c : Chamber) (resume : Bool) (o : Order) : Option (Code × Nat) :=
  match runRefusal s c with
  | some code => some (code, 0)
  | none =>
    match segmentRefusal s c resume o with
    | some r => some r
    | none =>
      if resume then (contextFault s.mem o (readContext s.mem (contextAddr c))).map fun off => (.badContext, off)
      else none

/-- The order's segment. -/
def Order.segment (o : Order) : Segment :=
  { first := o.first, count := o.count, isOpen := decide (o.closure = 1), gapLimit := o.gapLimit }

/-- A sequencer as the take of a RUN_NEW sets it up (R26). -/
def Seq.newRun (q : Seq) (o : Order) : Seq :=
  { q with
    run := .starting, seg := o.segment, pendingSeg := none
    segDone := 0, segLast := none, segClamped := false, segPclamped := false, segRclamped := false
    tag := o.tag, segNumber := 1, stepsRun := 0, rfTotal := 0, loop := [], pos := 0, stepIdx := o.first, saved := 0
    latch := false, outcome := .nil, item := 0, second := .nil, shownDepth := 0 }

/-- A sequencer as the take of a RUN_RESUME sets it up from the context (R42). -/
def Seq.resumedRun (q : Seq) (o : Order) (x : Context) : Seq :=
  { q.newRun o with
    stepsRun := x.steps, rfTotal := x.rfTotal
    loop := (x.loops.map fun e => { idx := e.1, rem := e.2 : LoopEntry }).reverse
    pos := x.next, stepIdx := o.first + x.next, saved := if o.resumeMode = 0 then x.remaining else 0 }

/-- Faults reached in an earlier run and never delivered are not kept for a new one (log 17). -/
def forgetDues (c : Chamber) (s : State) : State :=
  let s := dropRfDues c s
  let s := s.modPress c fun p => { p with faultDue := false }
  forLines (fun k s => s.modLine k fun l => if l.faultDue = some c then { l with faultDue := none } else l) s

/-- The take of a run order whose sequencer is set up by `setUp` (R22, R26, R42). -/
def takeRun (c : Chamber) (setUp : Seq → Seq) (s : State) : State :=
  let s := forgetDues c ((takeSlot c .current s).modSeq c setUp)
  let s := showWord c .flags (showWord c .states (showWord c .pending (showWord c .index s)))
  let s := showWord c .steps (showWord c .timer (showWord c .tag s))
  let s := produce c { kind := .runStart, rfOn := (s.seq c).rfTotal } (fixPages c s)
  if (s.econ c).mode = .economy then beginWake c .order s else stepStart c (s.seq c).pos s

/-- A posted RUN_NEW (R19, R22, R26). -/
def runNew (c : Chamber) (o : Order) (s : State) : State :=
  match runOrderRefusal s c false o with
  | some r => refuse c r.1 r.2 s
  | none => takeRun c (fun q => q.newRun o) s

/-- A posted RUN_RESUME (R19, R22, R41, R42). -/
def runResume (c : Chamber) (o : Order) (s : State) : State :=
  match runOrderRefusal s c true o with
  | some r => refuse c r.1 r.2 s
  | none => takeRun c (fun q => q.resumedRun o (readContext s.mem (contextAddr c))) s

/-! ### RUN_CONTINUE (R24, R27, R29) -/

/-- The state checks of a RUN_CONTINUE (R24). -/
def continueRefusal (q : Seq) (o : Order) : Option Code :=
  if q.run = .idle then some .noRun
  else if q.run = .closing ∨ q.seg.isOpen = false then some .closed
  else if o.tag ≠ q.tag then some .badTag
  else if q.run = .held then some .busy
  else none

/-- A continue taken in GAP becomes the current segment and starts at once (R29). -/
def continueFromGap (c : Chamber) (o : Order) (s : State) : State :=
  startSegment c (makeCurrent c o.segment (takeSlot c .current s))

/-- A continue taken while the current segment runs becomes the pending segment (R27). -/
def continuePending (c : Chamber) (o : Order) (s : State) : State :=
  showWord c .pending
    ((takeSlot c .pending s).modSeq c fun q => { q with pendingSeg := some o.segment, pendFirstShown := o.first })

/-- A posted RUN_CONTINUE (R19, R24). -/
def runContinue (c : Chamber) (o : Order) (s : State) : State :=
  match continueRefusal (s.seq c) o with
  | some code => refuse c code 0 s
  | none =>
    match segmentRefusal s c false o with
    | some r => refuse c r.1 r.2 s
    | none => if (s.seq c).run = .gap then continueFromGap c o s else continuePending c o s

/-! ### Pump and mode orders (R25) -/

/-- A pump state in which a pump order is in progress (R25). -/
def PumpState.inProgress : PumpState → Bool
  | .roughWait => true
  | .softRough => true
  | .fastRough => true
  | .crossover => true
  | .highVac => true
  | .venting => true
  | _ => false

/-- The refusals that PUMP_DOWN and VENT share, in order (R25). -/
def pumpRefusal (s : State) (c : Chamber) : Option Code :=
  if (s.seq c).run ≠ .idle ∨ (s.seq c).pumpTaken = true ∨ (s.seq c).modeTaken = true then some .busy
  else if tripped s c 3 then some .interlocked
  else if (s.pump c).st.inProgress then some .busy
  else none

/-- A posted PUMP_DOWN (R25, R111). -/
def pumpDown (c : Chamber) (s : State) : State :=
  match pumpRefusal s c with
  | some code => refuse c code 0 s
  | none =>
    if (s.pump c).st = .pumped then
      if (s.econ c).mode = .active then answerAtOnce c .already PumpState.pumped.code s
      else beginWake c .host (takeSlot c (.pump true) s)
    else startPumpdown c (takeSlot c (.pump false) s)

/-- A posted VENT (R25, R120, R163). -/
def vent (c : Chamber) (s : State) : State :=
  match pumpRefusal s c with
  | some code => refuse c code 0 s
  | none =>
    if (s.pump c).st = .vented then answerAtOnce c .already PumpState.vented.code s
    else startVent c (leaveByVent c (takeSlot c (.pump false) s))

/-- A posted SET_MODE (R25, R160, R161). -/
def setMode (c : Chamber) (o : Order) (s : State) : State :=
  let waking := (s.econ c).phase ≠ .none
  if (s.seq c).run ≠ .idle ∨ (s.seq c).pumpTaken = true ∨ (s.seq c).modeTaken = true then refuse c .busy 0 s
  else if (s.pump c).st ≠ .pumped then refuse c .notPumped 0 s
  else if 1 < o.targetMode then refuse c .badRange 7 s
  else if o.targetMode = 1 then
    if (s.econ c).mode = .active then
      answerAtOnce c .complete PumpState.pumped.code (enterEconomy c s)
    else if waking then refuse c .busy 0 s
    else answerAtOnce c .already PumpState.pumped.code s
  else if (s.econ c).mode = .active then answerAtOnce c .already PumpState.pumped.code s
  else beginWake c .host (takeSlot c .mode s)

/-! ### The slot scan (R18, R19) -/

/-- A posted order judged by its kind (R19). -/
def judgeOrder (c : Chamber) (o : Order) (s : State) : State :=
  match o.kind with
  | 1 => runNew c o s
  | 2 => runResume c o s
  | 3 => runContinue c o s
  | 4 => pumpDown c s
  | 5 => vent c s
  | 6 => setMode c o s
  | _ => refuse c .badKind 0 s

/-- The second part of a slot scan: the expected slot, when it is not-TAKEN and no pending segment is held, is taken or
refused if its State word reads POSTED (R18). -/
def examineSlot (c : Chamber) (s : State) : State :=
  let q := s.seq c
  let a := slotAddr c q.expected
  if q.slots[q.expected] = .free ∧ q.pendingSeg = none ∧ memField s.mem a 4 = 1 then judgeOrder c (readOrder s.mem a) s
  else s

/-- A chamber's slot scan (R18). -/
def slotScan (c : Chamber) (s : State) : State := scanPages c (examineSlot c (hostRequest c s))

end Sys2Proof.Machine
end

