-- ==== Sys2Proof/Machine/SequencerCommands.lean ====
section
/-! DEFINITION. The meanings of the Chamber Sequencer's events: the pulse edge, the slot scan, the step timer, the exit
conditions, the pulse-loss and gap timers (spec/02, spec/03). -/

namespace Sys2Proof.Machine

/-- Work done only under a condition on the state at the event. A row for the last of a count acts only at that last event
(log 13). -/
def workIf (p : State → Bool) (f : State → State) (s : State) : State := if p s then f s else s

/-- A pulse edge at the Chamber Sequencer (R45): in STEP on EXT it reloads the pulse-loss timer and decreases the step
timer. -/
def pulseEdge (c : Chamber) (s : State) : State :=
  let q := s.seq c
  if q.run = .step ∧ q.step.onExt = true then
    timerTick c (s.modSeq c fun q => { q with pulse := (s.chamberCfg c).pulseLossTime, pulseMark := s.now })
  else s

/-- EXT_EVENT (R45, R53, R54). -/
def execExtEvent (t : Moment) (c : Chamber) (s : State) : Result := atMoment t s (pulseEdge c)

/-- SLOT_SCAN (R18). -/
def execSlotScan (t : Moment) (c : Chamber) (s : State) : Result := atTap .t1 t s (slotScan c)

/-- STEP_TIMER_DECREMENT (R53): an event of the step's own tap. -/
def execStepTimerDecrement (t : Moment) (c : Chamber) (s : State) : Result :=
  atTap .t0 t s (workIf (fun s => timerCounts s c) (timerTick c))

/-- Whether an event of the step's tap brings the step timer to 0. -/
def timerEnds (s : State) (c : Chamber) : Bool := timerCounts s c && decide ((s.seq c).timer = 1)

/-- STEP_TIMER_EXPIRY (R55, R59): the decrement that brings the timer to 0, with the end or timeout it brings. -/
def execStepTimerExpiry (t : Moment) (c : Chamber) (s : State) : Result :=
  atTap .t0 t s (workIf (fun s => timerEnds s c) (timerTick c))

/-- An endpoint input as an event finds it. -/
def endpointPin (c : Chamber) (level : Bool) (s : State) : State :=
  s.setPins { s.pins with endpoint := s.pins.endpoint.set c level }

/-- ENDPOINT_SAMPLE (R56). -/
def execEndpointSample (t : Moment) (c : Chamber) (level : Bool) (s : State) : Result :=
  atTap .t0 t s (workIf (fun s => endpointArmed (s.seq c)) fun s => endpointSampled c (endpointPin c level s))

/-- Whether an asserted sample brings the dwell count above Endpoint Dwell (R56). -/
def endpointEnds (s : State) (c : Chamber) : Bool :=
  endpointArmed (s.seq c) && s.after (s.seq c).endpointMark &&
    decide ((s.seq c).step.endpointDwell < (s.seq c).endpointCount + 1)

/-- ENDPOINT_EXIT (R56): the asserted sample that ends the step. -/
def execEndpointExit (t : Moment) (c : Chamber) (s : State) : Result :=
  atTap .t0 t s (workIf (fun s => endpointEnds s c) fun s => endpointSampled c (endpointPin c true s))

/-- Whether a manometer read meets the PRESSURE_BELOW exit (R58). -/
def pressureBelow (s : State) (c : Chamber) : Bool :=
  decide ((s.seq c).run = .step) && (s.seq c).step.exitsPressure &&
    (match s.freshAt (s.chamberCfg c).manometer with
      | some v => decide (v ≤ (s.seq c).step.target * 100)
      | none => false)

/-- PRESSURE_BELOW_READ (R58). -/
def execPressureBelowRead (t : Moment) (c : Chamber) (s : State) : Result :=
  atTap .t1 t s (workIf (fun s => pressureBelow s c) (stepEnd c .pressureBelow))

/-- PULSE_LOSS_DECREMENT (R54). -/
def execPulseLossDecrement (t : Moment) (c : Chamber) (s : State) : Result := atTap .t1 t s (pulseTick c)

/-- Whether a T1 event brings the pulse-loss timer to 0 (R54). -/
def pulseEnds (s : State) (c : Chamber) : Bool :=
  decide ((s.seq c).run = .step ∧ (s.seq c).pulse ≤ 1) && (s.seq c).step.onExt && s.after (s.seq c).pulseMark

/-- PULSE_LOST (R54): the decrement that brings the pulse-loss timer to 0. -/
def execPulseLost (t : Moment) (c : Chamber) (s : State) : Result :=
  atTap .t1 t s (workIf (fun s => pulseEnds s c) (pulseTick c))

/-- GAP_TIMER_DECREMENT (R29). -/
def execGapTimerDecrement (t : Moment) (c : Chamber) (s : State) : Result := atTap .t3 t s (gapTick c)

/-- Whether a T3 event brings the gap timer to 0 (R29). -/
def gapEnds (s : State) (c : Chamber) : Bool :=
  decide ((s.seq c).run = .gap ∧ (s.seq c).gap ≤ 1) && s.after (s.seq c).gapMark

/-- GAP_EXPIRED (R29): the decrement that brings the gap timer to 0. -/
def execGapExpired (t : Moment) (c : Chamber) (s : State) : Result :=
  atTap .t3 t s (workIf (fun s => gapEnds s c) (gapTick c))

end Sys2Proof.Machine
end

