-- ==== Sys2Proof/Machine/CloseOutCommands.lean ====
section
/-! DEFINITION. The meanings of the close-out's events and of elapsed time (sections 10.4 and 10.5 of spec/10, R65). -/

namespace Sys2Proof.Machine

/-- Whether the close-out of a chamber is in a stage that an event of this moment counts for (R154 to R156). -/
def inStage (s : State) (c : Chamber) (stage : CloseStage) : Bool :=
  decide ((s.seq c).run = .closing ∧ (s.seq c).stage = stage) && s.after (s.seq c).stageMark

/-- GAS_OFF (R154): the first T1 event after the start of close-out. -/
def execGasOff (t : Moment) (c : Chamber) (s : State) : Result :=
  atTap .t1 t s (workIf (fun s => inStage s c .rfOff) (gasOffStage c))

/-- The purge timer's T1 event (R155). -/
def purgeTick (c : Chamber) (s : State) : State :=
  let s := s.modSeq c fun q => { q with purgeTimer := q.purgeTimer - 1, stageMark := s.now }
  if (s.seq c).purgeTimer = 0 then endPurge c s else s

/-- PURGE_TIMER_DECREMENT (R155). -/
def execPurgeTimerDecrement (t : Moment) (c : Chamber) (s : State) : Result :=
  atTap .t1 t s (workIf (fun s => inStage s c .purge) (purgeTick c))

/-- PURGE_END (R155): the decrement that brings the purge timer to 0. -/
def execPurgeEnd (t : Moment) (c : Chamber) (s : State) : Result :=
  atTap .t1 t s (workIf (fun s => inStage s c .purge && decide ((s.seq c).purgeTimer ≤ 1)) (purgeTick c))

/-- Whether a manometer read ends PUMP_OUT (R156). -/
def pumpOutReached (s : State) (c : Chamber) : Bool :=
  match s.freshAt (s.chamberCfg c).manometer with
  | some v => decide (v ≤ (s.chamberCfg c).closePressure)
  | none => false

/-- PUMP_OUT_READ (R156, R157). -/
def execPumpOutRead (t : Moment) (c : Chamber) (s : State) : Result :=
  atTap .t1 t s (workIf (fun s => inStage s c .pumpOut && pumpOutReached s c) (endStage c))

/-- Whether a T3 event counts for the close limit (R156). -/
def closeLimitCounts (s : State) (c : Chamber) : Bool :=
  decide ((s.seq c).run = .closing ∧ (s.seq c).stage = .pumpOut) && s.after (s.seq c).closeLimitMark

/-- The close limit's T3 event (R156). -/
def closeLimitTick (c : Chamber) (s : State) : State :=
  let s := s.modSeq c fun q => { q with closeLimit := q.closeLimit - 1, closeLimitMark := s.now }
  if (s.seq c).closeLimit = 0 then pumpOutFails c s else s

/-- CLOSE_LIMIT_DECREMENT (R156). -/
def execCloseLimitDecrement (t : Moment) (c : Chamber) (s : State) : Result :=
  atTap .t3 t s (workIf (fun s => closeLimitCounts s c) (closeLimitTick c))

/-- CLOSE_LIMIT_EXPIRY (R156): the decrement that brings the close limit to 0. -/
def execCloseLimitExpiry (t : Moment) (c : Chamber) (s : State) : Result :=
  atTap .t3 t s
    (workIf (fun s => closeLimitCounts s c && decide ((s.seq c).closeLimit ≤ 1)) (closeLimitTick c))

/-- The elapsed counts' T0 event: the running step's from its timer load, the close-out's from its start (R65, R158). -/
def elapsedTick (c : Chamber) (s : State) : State :=
  let q := s.seq c
  match q.run with
  | .step =>
    if s.after q.elapsedMark then s.setSeq c { q with elapsed := satSucc32 q.elapsed, elapsedMark := s.now } else s
  | .closing =>
    if s.after q.closeElapsedMark then
      s.setSeq c { q with closeElapsed := satSucc32 q.closeElapsed, closeElapsedMark := s.now }
    else s
  | _ => s

/-- ELAPSED_TIME_COUNT (R65, R158). -/
def execElapsedTimeCount (t : Moment) (c : Chamber) (s : State) : Result := atTap .t0 t s (elapsedTick c)

end Sys2Proof.Machine
end

