-- ==== Sys2Proof/Machine/FlowCommands.lean ====
section
/-! DEFINITION. The meanings of the events of the Flow Unit, the Pressure Channels and the Line Arbiter (spec/04,
spec/05, spec/06). -/

namespace Sys2Proof.Machine

/-- Whether a line's evaluation at this event makes it stable (R77). -/
def lineBecomesStable (s : State) (k : LineId) : Bool := !(s.line k).stable && ((lineWork k s).line k).stable

/-- A line's T1 event with the stability report it makes (R73, R76, R77). -/
def lineEvent (k : LineId) (s : State) : State :=
  match (s.line k).openTo with
  | some c => if lineBecomesStable s k then stableReport c (lineWork k s) else lineWork k s
  | none => s

/-- FLOW_EVALUATION (R73, R76 to R78). -/
def execFlowEvaluation (t : Moment) (k : LineId) (s : State) : Result := atTap .t1 t s (lineEvent k)

/-- LINE_STABLE (R77): the evaluation at which the in-band count reaches the dwell. -/
def execLineStable (t : Moment) (k : LineId) (s : State) : Result :=
  atTap .t1 t s (workIf (fun s => lineBecomesStable s k) (lineEvent k))

/-- A FLOW_FAULT that an evaluation has reached is delivered (R78, R79; log 14). -/
def deliverFlowFault (k : LineId) (s : State) : State :=
  match (s.line k).faultDue with
  | some c => (deliverFault c .flowFault (k.val + 1) s).modLine k fun l => { l with faultDue := none }
  | none => s

/-- The evaluation that a FLOW_FAULT rides when none has reached the fault yet. -/
def flowFaultEvent (k : LineId) (s : State) : State :=
  if (s.line k).faultDue.isSome then deliverFlowFault k s
  else if ((lineWork k s).line k).faultDue.isSome then deliverFlowFault k (lineWork k s)
  else s

/-- FLOW_FAULT (R78, R79). -/
def execFlowFault (t : Moment) (k : LineId) (s : State) : Result := atTap .t1 t s (flowFaultEvent k)

/-- Whether the pressure's evaluation at this event makes it stable (R102). -/
def pressureBecomesStable (s : State) (c : Chamber) : Bool :=
  !(s.press c).stable && ((pressureWork c s).press c).stable

/-- A Pressure Channel's T1 event with the stability report it makes (R101 to R103). -/
def pressureEvent (c : Chamber) (s : State) : State :=
  if pressureBecomesStable s c then stableReport c (pressureWork c s) else pressureWork c s

/-- PRESSURE_EVALUATION (R101 to R103). -/
def execPressureEvaluation (t : Moment) (c : Chamber) (s : State) : Result := atTap .t1 t s (pressureEvent c)

/-- Whether this event's settle count arms the pressure fault (R101). -/
def pressureArms (s : State) (c : Chamber) : Bool := !(s.press c).armed && ((pressureWork c s).press c).armed

/-- PRESSURE_FAULT_ARMED (R101): the evaluation at which the settle count reaches 0. -/
def execPressureFaultArmed (t : Moment) (c : Chamber) (s : State) : Result :=
  atTap .t1 t s (workIf (fun s => pressureArms s c) (pressureEvent c))

/-- PRESSURE_STABLE (R102): the evaluation at which the in-band count reaches the dwell. -/
def execPressureStable (t : Moment) (c : Chamber) (s : State) : Result :=
  atTap .t1 t s (workIf (fun s => pressureBecomesStable s c) (pressureEvent c))

/-- A PRESSURE_FAULT that an evaluation has reached is delivered with the current step (R103, R104; log 14). -/
def deliverPressureFault (c : Chamber) (s : State) : State :=
  if (s.press c).faultDue then
    (deliverFault c .pressureFault (s.seq c).stepIdx s).modPress c fun p => { p with faultDue := false }
  else s

/-- The evaluation that a PRESSURE_FAULT rides when none has reached the fault yet. -/
def pressureFaultEvent (c : Chamber) (s : State) : State :=
  if (s.press c).faultDue then deliverPressureFault c s
  else if ((pressureWork c s).press c).faultDue then deliverPressureFault c (pressureWork c s)
  else s

/-- PRESSURE_FAULT (R103, R104). -/
def execPressureFault (t : Moment) (c : Chamber) (s : State) : Result := atTap .t1 t s (pressureFaultEvent c)

/-- HANDOVER_TIMER_DECREMENT (R90). -/
def execHandoverTimerDecrement (t : Moment) (k : LineId) (s : State) : Result := atTap .t1 t s (handoverTick k)

/-- HANDOVER_PURGE_END (R90, R91): the decrement that brings the handover timer to 0. -/
def execHandoverPurgeEnd (t : Moment) (k : LineId) (s : State) : Result :=
  atTap .t1 t s (workIf (handoverEnds k) (handoverTick k))

end Sys2Proof.Machine
end

