-- ==== Sys2Proof/Machine/Apply.lean ====
section
/-! DEFINITION. The three resets and the layout apply (section 1.4 of spec/01, with the reset and apply rules of every
block: R43, R84, R85, R95, R96, R105, R123, R124, R136, R146 to R148, R159, R164, R171). -/

namespace Sys2Proof.Machine

/-! ### Resets (R16) -/

/-- Last Run Outcome after a reset input or SOFT_RESET (R43). -/
def outcomeAfterReset (s : State) (c : Chamber) : Code :=
  if (s.seq c).run = .idle then (s.seq c).lastOutcome else .lostByReset

/-- Every block in its reset state over the given memory contents (R16). Kept: the queue of commands, the input pins,
the data of the last register read and the counter of free choices, none of which the reset reaches (log 12). -/
def resetOver (last : Chamber → Code) (m : Memory) (s : State) : State :=
  { State.reset with
    pending := s.pending
    uses := s.uses
    mem := resetWrites last m
    port := { State.reset.port with dataOut := s.port.dataOut }
    pins := s.pins
    seqs := Vector.ofFn fun c : Fin 4 => { State.reset.seqs[c] with lastOutcome := last c } }

/-- A power-on reset: the Common Memory is undefined but for the words the part writes (R16, log 4). -/
def powerOn (s : State) : State := resetOver (fun _ => .nil) [] s

/-- The reset input and SOFT_RESET: the Common Memory is retained (R16). -/
def warmReset (s : State) : State := resetOver (outcomeAfterReset s) s.mem s

/-! ### The apply (R12 to R14) -/

/-- A pump state in which an apply in RUNNING is accepted (R14). -/
def PumpState.settled : PumpState → Bool
  | .isolated => true
  | .vented => true
  | .pumped => true
  | .faultHold => true
  | _ => false

/-- A chamber that is quiet (R14). -/
def chamberQuiet (s : State) (c : Chamber) : Bool :=
  decide ((s.seq c).run = .idle ∧ (s.econ c).mode = .active ∧ (s.econ c).phase = .none) && (s.pump c).st.settled

/-- Whether an apply in RUNNING is accepted (R14). -/
def quiet (s : State) : Bool :=
  ((List.finRange 4).all (chamberQuiet s)) && (List.finRange 16).all fun k => !(s.ilk k).trip

/-- The end of every APPLY_LAYOUT: the result recorded and LAYOUT set (R6, R10, R12). -/
def recordLayout (r : LayoutCode) (entry : Nat) (s : State) : State :=
  raise .layout (showLayout (s.setPort { s.port with result := r, resultEntry := entry }))

/-- A channel under a new table (R147): one that was in use keeps its last result and age, one newly in use starts with
age 65535, one not in use is written as at a reset. -/
def applyChannel (old : Tables) (k : ChannelId) (s : State) : State :=
  if (s.tables.channelEntry k.val).isSome then
    if (old.channelEntry k.val).isSome then s else s.setChan k {}
  else (s.setChan k {}).setMem (resetMeasurement s.mem k.val)

/-- The debounce of an input restarts from the apply with its raw level inactive (R148). -/
def applyInput (k : InputId) (s : State) : State :=
  s.modIlk k fun x => { x with raw := false, count := 0, mark := s.now }

/-- A Pressure Channel at an apply (R105): T = 0 with its outputs, Evaluating no and every count 0. Nothing else changes. -/
def applyPressure (c : Chamber) (s : State) : State :=
  s.modPress c fun p =>
    { p.driven 0 (s.chamberCfg c).valveSpan with evaluating := false, inCount := 0, settle := 0, outCount := 0 }

/-- What every successful apply does (R13, R14): the tables copied, the scanner in SETTLING, the debounces restarted,
the SHARED lines purging and the DEDICATED ones shown, the pressure targets 0. -/
def installTables (tab : Tables) (s : State) : State :=
  let old := s.tables
  let s := enterSettling (forChannels (applyChannel old) (s.setTables tab))
  forChambers applyPressure (forLines startPurge (imageInterlock (forInputs applyInput s)))

/-- A slot whose State word reads TAKEN at an apply from HALTED is answered LOST_BY_RESET (R13). -/
def loseSlot (c : Chamber) (i : Fin 2) (s : State) : State :=
  if memField s.mem (slotAddr c i) 4 = 2 then
    raise (.order c) (writeSlot c i Code.lostByReset.code 0 0 3 s)
  else s

/-- A chamber at a successful apply from HALTED (R13, R124): ISOLATED, ACTIVE, the expected slot 0, both slots
not-TAKEN, the Last Taken Request Number that of the control block, and TAKEN slots answered. -/
def startChamber (c : Chamber) (s : State) : State :=
  let number := memField s.mem (controlAddr c + 2) 2
  let s := s.setPump c {}
  let s := s.modEcon c fun e => { e with mode := .active, phase := .none, limit := 0, dwell := 0 }
  let s := s.modSeq c fun q =>
    { q with expected := 0, slots := Vector.replicate 2 .free, lastRequest := number }
  loseSlot c 1 (loseSlot c 0 (showWord c .flags (showWord c .states s)))

/-- The part becomes RUNNING. -/
def startRunning (s : State) : State := s.setPort { s.port with part := .running }

/-- A successful apply from HALTED (R13). -/
def applyFromHalted (tab : Tables) (s : State) : State :=
  recordLayout .ok 0 (startRunning (forChambers fixPages (forChambers startChamber (installTables tab s))))

/-- A successful apply in RUNNING (R14). -/
def applyWhileRunning (tab : Tables) (s : State) : State :=
  recordLayout .ok 0 (forChambers fixPages (installTables tab s))

/-- APPLY_LAYOUT (R12 to R14). -/
def applyTables (s : State) : State :=
  if s.port.part = .running ∧ quiet s = false then recordLayout .busy 0 s
  else
    let tab := readTables s.mem
    match checkTables tab with
    | some (code, entry) => recordLayout code entry s
    | none => if s.port.part = .running then applyWhileRunning tab s else applyFromHalted tab s

end Sys2Proof.Machine
end

