-- ==== Sys2Proof/Machine/PortCommands.lean ====
section
/-! DEFINITION. The meanings of the resets, the register commands and the host's accesses (spec/01). -/

namespace Sys2Proof.Machine

/-- POWER_ON_RESET (R16). -/
def execPowerOnReset (s : State) : Result := .next (powerOn s)

/-- RESET_INPUT (R16). -/
def execResetInput (s : State) : Result := .next (warmReset s)

/-- SOFT_RESET (R4, R16): the part resets as by the reset input. -/
def execSoftReset (s : State) : Result := .next (warmReset s)

/-- APPLY_LAYOUT (R12 to R14), a register write taken at a moment in either part state. -/
def execApplyLayout (t : Moment) (s : State) : Result := .next (applyTables (s.setNow (max s.now t)))

/-- ACK_TRIPS (R4, R152): no effect in HALTED. -/
def execAckTrips (levels : Vector Bool 16) (s : State) : Result :=
  if s.port.part = .running then .next (acknowledge levels s) else .next s

/-- EVENT_SUMMARY_READ (R1, R6): a word read returns the flags and clears them; a narrow read returns 0. -/
def execEventSummaryRead (w : Width) (s : State) : Result :=
  .next
    (s.setPort
      { s.port with
        dataOut := s.readReg .summary w
        summary := if w = .word then 0 else s.port.summary })

/-- EVENT_ENABLE_WRITE (R7). -/
def execEventEnableWrite (v : Word) (s : State) : Result := .next (s.setPort { s.port with enable := v.setWidth 18 })

/-- REGISTER_WRITE_IGNORED (R1, R3, R4, R6; log 24). -/
def execRegisterWriteIgnored (_addr : Word) (_w : Width) (_v : Word) (s : State) : Result := .next s

/-- HOST_MEMORY_WRITE (R1, R2), served alike in HALTED and RUNNING (R11). -/
def execHostMemoryWrite (addr : Word) (w : Width) (v : Word) (s : State) : Result :=
  .next (s.setMem (hostWrite s.mem addr w v))

end Sys2Proof.Machine
end

