-- ==== Sys2Proof/Machine/RfCommands.lean ====
section
/-! DEFINITION. The meanings of the events of the RF Supervisors (spec/08). -/

namespace Sys2Proof.Machine

/-- The Supervisor's T1 event in STRIKING or RETRY_PAUSE, with the STRIKE_FAIL of a last window delivered (R130,
R131). -/
def strikeEvent (c : Chamber) (s : State) : State :=
  let fails := decide ((s.rf c).phase = .striking ∧ ((rfWork c s).rf c).phase = .off)
  match (s.rf c).phase with
  | .striking =>
    if fails then deliverFault c .strikeFail (s.seq c).stepIdx (rfWork c s) else rfWork c s
  | .retryPause => rfWork c s
  | _ => s

/-- STRIKE_TEST (R127, R130, R131). -/
def execStrikeTest (t : Moment) (c : Chamber) (s : State) : Result := atTap .t1 t s (strikeEvent c)

/-- Whether this event's strike test is unmet with the window at its last count (R131). -/
def windowExpires (s : State) (c : Chamber) : Bool :=
  decide ((s.rf c).phase = .striking) && decide (((rfWork c s).rf c).phase = .off ∨ ((rfWork c s).rf c).phase = .retryPause)

/-- STRIKE_WINDOW_EXPIRY (R131): the strike test that closes the window unstruck. -/
def execStrikeWindowExpiry (t : Moment) (c : Chamber) (s : State) : Result :=
  atTap .t1 t s (workIf (fun s => windowExpires s c) (strikeEvent c))

/-- Whether this event ends the retry pause (R131). -/
def pauseEnds (s : State) (c : Chamber) : Bool :=
  decide ((s.rf c).phase = .retryPause ∧ (s.rf c).pause ≤ 1) && s.after (s.rf c).mark

/-- RETRY_PAUSE_END (R131): RF is enabled again. -/
def execRetryPauseEnd (t : Moment) (c : Chamber) (s : State) : Result :=
  atTap .t1 t s (workIf (fun s => pauseEnds s c) (strikeEvent c))

/-- The Supervisor's T1 event in STRUCK, with no fault delivered yet (R127, R133). -/
def struckEvent (c : Chamber) (s : State) : State := if (s.rf c).phase = .struck then rfWork c s else s

/-- STRUCK_EVALUATION (R127, R133). -/
def execStruckEvaluation (t : Moment) (c : Chamber) (s : State) : Result := atTap .t1 t s (struckEvent c)

/-- An RF_REFLECT that an evaluation has reached is delivered with the current step (R133; log 14). -/
def deliverReflect (c : Chamber) (s : State) : State :=
  if (s.rf c).reflectDue then
    (deliverFault c .rfReflect (s.seq c).stepIdx s).modRf c fun x => { x with reflectDue := false }
  else s

/-- A PLASMA_LOST that an evaluation has reached is delivered with the current step; an RF_REFLECT of the same
evaluation is delivered before it (R133). -/
def deliverLost (c : Chamber) (s : State) : State :=
  let s := deliverReflect c s
  if (s.rf c).lostDue then
    (deliverFault c .plasmaLost (s.seq c).stepIdx s).modRf c fun x => { x with lostDue := false }
  else s

/-- The evaluation that an RF_REFLECT rides when none has reached the fault yet. -/
def reflectEvent (c : Chamber) (s : State) : State :=
  if (s.rf c).reflectDue then deliverReflect c s
  else if ((struckEvent c s).rf c).reflectDue then deliverReflect c (struckEvent c s)
  else s

/-- The evaluation that a PLASMA_LOST rides when none has reached the fault yet. -/
def lostEvent (c : Chamber) (s : State) : State :=
  if (s.rf c).lostDue then deliverLost c s
  else if ((struckEvent c s).rf c).lostDue then deliverLost c (struckEvent c s)
  else s

/-- RF_REFLECT (R133, R134). -/
def execRfReflect (t : Moment) (c : Chamber) (s : State) : Result := atTap .t1 t s (reflectEvent c)

/-- PLASMA_LOST (R133, R134). -/
def execPlasmaLost (t : Moment) (c : Chamber) (s : State) : Result := atTap .t1 t s (lostEvent c)

/-- A T0 event of RF-on time (R135). A moment carries one T0 event. -/
def rfOnTick (c : Chamber) (s : State) : State :=
  let x := s.rf c
  if x.countsAt s.now && s.after x.countMark then
    (s.setRf c { x with stepRfOn := satSucc32 x.stepRfOn, countMark := s.now }).modSeq c fun q =>
      { q with rfTotal := satSucc32 q.rfTotal }
  else s

/-- RF_ON_COUNT (R135). -/
def execRfOnCount (t : Moment) (c : Chamber) (s : State) : Result := atTap .t0 t s (rfOnTick c)

end Sys2Proof.Machine
end

