-- ==== Sys2Proof/Machine/SupportCommands.lean ====
section
/-! DEFINITION. The meanings of the events of the Interlock Unit, the Measurement Scanner, the Pumping Unit and the
economy logic (spec/07, spec/09, sections 10.1 to 10.3 of spec/10, spec/11). -/

namespace Sys2Proof.Machine

/-! ### Interlock Unit -/

/-- INTERLOCK_SAMPLE (R149, R150): one input's sample, with the latch it may bring. -/
def execInterlockSample (t : Moment) (k : InputId) (level : Bool) (s : State) : Result :=
  atTap .t0 t s (sampleInput k level)

/-- The level at which an input is active. -/
def activeLevel (s : State) (k : InputId) : Bool := decide ((s.ilkCfg k).activeLevel = 1)

/-- TRIP_LATCH (R150): the active sample that latches the trip. -/
def execTripLatch (t : Moment) (k : InputId) (s : State) : Result :=
  atTap .t0 t s
    (workIf (fun s => sampleLatches s k (activeLevel s k)) fun s => sampleInput k (activeLevel s k) s)

/-! ### Measurement Scanner -/

/-- SCAN_PASS_T0 (R138, R141, R142, R144, R146). -/
def execScanPassT0 (t : Moment) (counts : Vector (BitVec 12) 48) (s : State) : Result :=
  atTap .t0 t s (scannerT0 counts)

/-- Whether a T0 event brings the settling count to 0 (R146). -/
def settlingEnds (s : State) : Bool :=
  decide (s.scan.rate = .settling ∧ s.scan.settling ≤ 1) && s.after s.scan.settleMark && s.after s.scan.passMark

/-- SETTLING_END (R146): the T0 event at which the rate becomes NORMAL. -/
def execSettlingEnd (t : Moment) (counts : Vector (BitVec 12) 48) (s : State) : Result :=
  atTap .t0 t s (workIf settlingEnds (scannerT0 counts))

/-- SCAN_PASS_T2 (R138). -/
def execScanPassT2 (t : Moment) (counts : Vector (BitVec 12) 48) (s : State) : Result :=
  atTap .t2 t s (scannerT2 counts)

/-! ### Pumping Unit -/

/-- PUMP_MACHINE_T1 (R108, R115 to R120). -/
def execPumpMachineT1 (t : Moment) (c : Chamber) (turbo : Bool) (s : State) : Result :=
  atTap .t1 t s (pumpWork c turbo)

/-- Whether a T1 event brings the Crossover Delay to 0 (R117). -/
def crossoverEnds (s : State) (c : Chamber) : Bool :=
  decide ((s.pump c).st = .crossover ∧ (s.pump c).delay = some 1) && s.after (s.pump c).mark

/-- CROSSOVER_DELAY_END (R117): the T1 event that meets the delay, at which the turbo input is sampled. -/
def execCrossoverDelayEnd (t : Moment) (c : Chamber) (turbo : Bool) (s : State) : Result :=
  atTap .t1 t s (workIf (fun s => crossoverEnds s c) (pumpWork c turbo))

/-- Whether a T1 event opens the vent valve (R120). -/
def gateCloseEnds (s : State) (c : Chamber) : Bool :=
  decide ((s.pump c).st = .venting ∧ (s.pump c).ventOpened = false ∧ (s.pump c).delay.getD 0 ≤ 1) &&
    s.after (s.pump c).mark

/-- GATE_CLOSE_DELAY_END (R120): the T1 event at which the vent valve opens. VENTING does not watch the turbo input. -/
def execGateCloseDelayEnd (t : Moment) (c : Chamber) (s : State) : Result :=
  atTap .t1 t s (workIf (fun s => gateCloseEnds s c) fun s => pumpWork c s.pins.turbo[c] s)

/-- STAGE_LIMIT_DECREMENT (R109). -/
def execStageLimitDecrement (t : Moment) (c : Chamber) (s : State) : Result := atTap .t3 t s (limitTick c)

/-- PUMP_TIMEOUT (R109, R110): the decrement that brings the stage limit to 0. -/
def execPumpTimeout (t : Moment) (c : Chamber) (s : State) : Result :=
  atTap .t3 t s (workIf (fun s => limitExpires s c) (limitTick c))

/-! ### Economy logic -/

/-- ECONOMY_PRESSURE_READ (R160, R161). -/
def execEconomyPressureRead (t : Moment) (c : Chamber) (s : State) : Result := atTap .t1 t s (economyRead c)

/-- WAKE_TURBO_SAMPLE (R162). -/
def execWakeTurboSample (t : Moment) (c : Chamber) (turbo : Bool) (s : State) : Result :=
  atTap .t1 t s (wakeSample c turbo)

/-- WAKE_COUNT_DECREMENT (R162). -/
def execWakeCountDecrement (t : Moment) (c : Chamber) (s : State) : Result := atTap .t3 t s (wakeTick c)

/-- WAKE_LIMIT_EXPIRY (R162): the decrement that brings the limit count to 0; the wake fails. -/
def execWakeLimitExpiry (t : Moment) (c : Chamber) (s : State) : Result :=
  atTap .t3 t s (workIf (fun s => wakeLimitExpires s c) (wakeTick c))

/-- WAKE_DWELL_END (R162): the decrement that brings the dwell count to 0; the wake ends. -/
def execWakeDwellEnd (t : Moment) (c : Chamber) (s : State) : Result :=
  atTap .t3 t s (workIf (fun s => wakeDwellEnds s c) (wakeTick c))

end Sys2Proof.Machine
end

