-- ==== Sys2Proof/Machine/Dispatch.lean ====
section
/-! DEFINITION. One arm per command of spec/opcode_table.json, each a direct call of its meaning. -/

namespace Sys2Proof.Machine

/-- The effect of a command on everything but the queue of waiting commands. -/
def exec (i : Instr) (s : State) : Host.Outcome State Fault Refusal :=
  match i with
  | .powerOnReset => Sys2Proof.Machine.execPowerOnReset s
  | .resetInput => Sys2Proof.Machine.execResetInput s
  | .softReset => Sys2Proof.Machine.execSoftReset s
  | .applyLayout t => Sys2Proof.Machine.execApplyLayout t s
  | .ackTrips levels => Sys2Proof.Machine.execAckTrips levels s
  | .eventSummaryRead w => Sys2Proof.Machine.execEventSummaryRead w s
  | .eventEnableWrite v => Sys2Proof.Machine.execEventEnableWrite v s
  | .registerWriteIgnored addr w v => Sys2Proof.Machine.execRegisterWriteIgnored addr w v s
  | .hostMemoryWrite addr w v => Sys2Proof.Machine.execHostMemoryWrite addr w v s
  | .extEvent t c => Sys2Proof.Machine.execExtEvent t c s
  | .slotScan t c => Sys2Proof.Machine.execSlotScan t c s
  | .stepTimerDecrement t c => Sys2Proof.Machine.execStepTimerDecrement t c s
  | .stepTimerExpiry t c => Sys2Proof.Machine.execStepTimerExpiry t c s
  | .endpointSample t c level => Sys2Proof.Machine.execEndpointSample t c level s
  | .endpointExit t c => Sys2Proof.Machine.execEndpointExit t c s
  | .pressureBelowRead t c => Sys2Proof.Machine.execPressureBelowRead t c s
  | .pulseLossDecrement t c => Sys2Proof.Machine.execPulseLossDecrement t c s
  | .pulseLost t c => Sys2Proof.Machine.execPulseLost t c s
  | .gapTimerDecrement t c => Sys2Proof.Machine.execGapTimerDecrement t c s
  | .gapExpired t c => Sys2Proof.Machine.execGapExpired t c s
  | .flowEvaluation t k => Sys2Proof.Machine.execFlowEvaluation t k s
  | .lineStable t k => Sys2Proof.Machine.execLineStable t k s
  | .flowFault t k => Sys2Proof.Machine.execFlowFault t k s
  | .pressureEvaluation t c => Sys2Proof.Machine.execPressureEvaluation t c s
  | .pressureFaultArmed t c => Sys2Proof.Machine.execPressureFaultArmed t c s
  | .pressureStable t c => Sys2Proof.Machine.execPressureStable t c s
  | .pressureFault t c => Sys2Proof.Machine.execPressureFault t c s
  | .strikeTest t c => Sys2Proof.Machine.execStrikeTest t c s
  | .strikeWindowExpiry t c => Sys2Proof.Machine.execStrikeWindowExpiry t c s
  | .retryPauseEnd t c => Sys2Proof.Machine.execRetryPauseEnd t c s
  | .struckEvaluation t c => Sys2Proof.Machine.execStruckEvaluation t c s
  | .rfReflect t c => Sys2Proof.Machine.execRfReflect t c s
  | .plasmaLost t c => Sys2Proof.Machine.execPlasmaLost t c s
  | .rfOnCount t c => Sys2Proof.Machine.execRfOnCount t c s
  | .interlockSample t k level => Sys2Proof.Machine.execInterlockSample t k level s
  | .tripLatch t k => Sys2Proof.Machine.execTripLatch t k s
  | .scanPassT0 t counts => Sys2Proof.Machine.execScanPassT0 t counts s
  | .settlingEnd t counts => Sys2Proof.Machine.execSettlingEnd t counts s
  | .scanPassT2 t counts => Sys2Proof.Machine.execScanPassT2 t counts s
  | .handoverTimerDecrement t k => Sys2Proof.Machine.execHandoverTimerDecrement t k s
  | .handoverPurgeEnd t k => Sys2Proof.Machine.execHandoverPurgeEnd t k s
  | .pumpMachineT1 t c turbo => Sys2Proof.Machine.execPumpMachineT1 t c turbo s
  | .crossoverDelayEnd t c turbo => Sys2Proof.Machine.execCrossoverDelayEnd t c turbo s
  | .gateCloseDelayEnd t c => Sys2Proof.Machine.execGateCloseDelayEnd t c s
  | .stageLimitDecrement t c => Sys2Proof.Machine.execStageLimitDecrement t c s
  | .pumpTimeout t c => Sys2Proof.Machine.execPumpTimeout t c s
  | .economyPressureRead t c => Sys2Proof.Machine.execEconomyPressureRead t c s
  | .wakeTurboSample t c turbo => Sys2Proof.Machine.execWakeTurboSample t c turbo s
  | .wakeCountDecrement t c => Sys2Proof.Machine.execWakeCountDecrement t c s
  | .wakeLimitExpiry t c => Sys2Proof.Machine.execWakeLimitExpiry t c s
  | .wakeDwellEnd t c => Sys2Proof.Machine.execWakeDwellEnd t c s
  | .gasOff t c => Sys2Proof.Machine.execGasOff t c s
  | .purgeTimerDecrement t c => Sys2Proof.Machine.execPurgeTimerDecrement t c s
  | .purgeEnd t c => Sys2Proof.Machine.execPurgeEnd t c s
  | .pumpOutRead t c => Sys2Proof.Machine.execPumpOutRead t c s
  | .closeLimitDecrement t c => Sys2Proof.Machine.execCloseLimitDecrement t c s
  | .closeLimitExpiry t c => Sys2Proof.Machine.execCloseLimitExpiry t c s
  | .elapsedTimeCount t c => Sys2Proof.Machine.execElapsedTimeCount t c s

end Sys2Proof.Machine
end

