-- ==== Sys2Proof/Machine/Outputs.lean ====
section
/-! DEFINITION. The 24 analog outputs (spec/00_scope.md, Signals). The other output pins are functions of the state beside
the blocks that drive them: the gas valves in Flow.lean, the vacuum valves in PumpUnit.lean, RF enable in RfUnit.lean,
turbo-economy in Economy.lean, throttle-open in the Pressure Channel, and the interrupt output in Flags.lean. -/

namespace Sys2Proof.Machine

/-- Outputs 0 to 15: the flow command of the line whose Command Channel the output is (R69). -/
def State.flowOutput (s : State) (n : Nat) : Nat :=
  ((List.finRange 16).find? fun k => (s.lineCfg k).command == n).elim 0 fun k => (s.line k).command

/-- Outputs 20 to 23: the RF power setpoint of the chamber whose RF Command Channel the output is (R126). -/
def State.rfOutput (s : State) (n : Nat) : Nat :=
  ((List.finRange 4).find? fun c => (s.chamberCfg c).rfCommand == n).elim 0 fun c => (s.rf c).output

/-- An analog output: 0 to 15 flow commands, 16 to 19 the pressure setpoints of chambers 1 to 4, 20 to 23 RF power
setpoints. -/
def State.analogOutput (s : State) (n : Fin 24) : Nat :=
  if n.val < 16 then s.flowOutput n.val
  else if h : n.val < 20 then (s.press ⟨n.val - 16, by omega⟩).output
  else s.rfOutput n.val

end Sys2Proof.Machine
end

