-- ==== Sys2Proof/WellFormed.lean ====
section
/-! DEFINITION. Well-formed commands: the moment of a Time Base event carries an event of the tap that the row's rule
counts (R44), and a REGISTER_WRITE_IGNORED is a register write that the System Port ignores (R1, R3, R4, R6). -/

namespace Sys2Proof

open Machine in
/-- Whether a command's operands are such as its row's rule allows. -/
def wellFormed : Instr → Bool
  | .powerOnReset => true
  | .resetInput => true
  | .softReset => true
  | .applyLayout _ => true
  | .ackTrips _ => true
  | .eventSummaryRead _ => true
  | .eventEnableWrite _ => true
  | .registerWriteIgnored addr w v => decide (readRegWrite addr w v = .ignored)
  | .hostMemoryWrite _ _ _ => true
  | .extEvent _ _ => true
  | .slotScan t _ => tapFalls .t1 t
  | .stepTimerDecrement t _ => tapFalls .t0 t
  | .stepTimerExpiry t _ => tapFalls .t0 t
  | .endpointSample t _ _ => tapFalls .t0 t
  | .endpointExit t _ => tapFalls .t0 t
  | .pressureBelowRead t _ => tapFalls .t1 t
  | .pulseLossDecrement t _ => tapFalls .t1 t
  | .pulseLost t _ => tapFalls .t1 t
  | .gapTimerDecrement t _ => tapFalls .t3 t
  | .gapExpired t _ => tapFalls .t3 t
  | .flowEvaluation t _ => tapFalls .t1 t
  | .lineStable t _ => tapFalls .t1 t
  | .flowFault t _ => tapFalls .t1 t
  | .pressureEvaluation t _ => tapFalls .t1 t
  | .pressureFaultArmed t _ => tapFalls .t1 t
  | .pressureStable t _ => tapFalls .t1 t
  | .pressureFault t _ => tapFalls .t1 t
  | .strikeTest t _ => tapFalls .t1 t
  | .strikeWindowExpiry t _ => tapFalls .t1 t
  | .retryPauseEnd t _ => tapFalls .t1 t
  | .struckEvaluation t _ => tapFalls .t1 t
  | .rfReflect t _ => tapFalls .t1 t
  | .plasmaLost t _ => tapFalls .t1 t
  | .rfOnCount t _ => tapFalls .t0 t
  | .interlockSample t _ _ => tapFalls .t0 t
  | .tripLatch t _ => tapFalls .t0 t
  | .scanPassT0 t _ => tapFalls .t0 t
  | .settlingEnd t _ => tapFalls .t0 t
  | .scanPassT2 t _ => tapFalls .t2 t
  | .handoverTimerDecrement t _ => tapFalls .t1 t
  | .handoverPurgeEnd t _ => tapFalls .t1 t
  | .pumpMachineT1 t _ _ => tapFalls .t1 t
  | .crossoverDelayEnd t _ _ => tapFalls .t1 t
  | .gateCloseDelayEnd t _ => tapFalls .t1 t
  | .stageLimitDecrement t _ => tapFalls .t3 t
  | .pumpTimeout t _ => tapFalls .t3 t
  | .economyPressureRead t _ => tapFalls .t1 t
  | .wakeTurboSample t _ _ => tapFalls .t1 t
  | .wakeCountDecrement t _ => tapFalls .t3 t
  | .wakeLimitExpiry t _ => tapFalls .t3 t
  | .wakeDwellEnd t _ => tapFalls .t3 t
  | .gasOff t _ => tapFalls .t1 t
  | .purgeTimerDecrement t _ => tapFalls .t1 t
  | .purgeEnd t _ => tapFalls .t1 t
  | .pumpOutRead t _ => tapFalls .t1 t
  | .closeLimitDecrement t _ => tapFalls .t3 t
  | .closeLimitExpiry t _ => tapFalls .t3 t
  | .elapsedTimeCount t _ => tapFalls .t0 t

end Sys2Proof
end

