-- ==== Sys2Proof/Safety.lean ====
section
/-! DEFINITION. The vocabulary of the statements: the parts of the state that a frame names, the bytes a command stores
to, the premise that an event of the Time Base reaches the block, and the safety properties of the block. -/

namespace Sys2Proof.Machine

/-! ### Frames -/

/-- The parts of the state outside the Common Memory. A frame names the parts that may change. -/
inductive Part where
  | pending
  | now
  | uses
  | partState
  | layoutResult
  | summary
  | enable
  | dataOut
  | tables
  | pins
  | waitQueue
  | rough
  | scan
  | seq (c : Chamber)
  | rf (c : Chamber)
  | press (c : Chamber)
  | pump (c : Chamber)
  | econ (c : Chamber)
  | rep (c : Chamber)
  | gasInhibit (c : Chamber)
  | line (k : LineId)
  | arb (k : LineId)
  | chan (k : ChannelId)
  | ilk (k : InputId)
  deriving DecidableEq, Repr

/-- Whether a part is the same in two states. -/
def Part.same (s s' : State) : Part → Prop
  | .pending => s'.pending = s.pending
  | .now => s'.now = s.now
  | .uses => s'.uses = s.uses
  | .partState => s'.port.part = s.port.part
  | .layoutResult => s'.port.result = s.port.result ∧ s'.port.resultEntry = s.port.resultEntry
  | .summary => s'.port.summary = s.port.summary
  | .enable => s'.port.enable = s.port.enable
  | .dataOut => s'.port.dataOut = s.port.dataOut
  | .tables => s'.tables = s.tables
  | .pins => s'.pins = s.pins
  | .waitQueue => s'.waitQueue = s.waitQueue
  | .rough => s'.rough = s.rough
  | .scan => s'.scan = s.scan
  | .seq c => s'.seq c = s.seq c
  | .rf c => s'.rf c = s.rf c
  | .press c => s'.press c = s.press c
  | .pump c => s'.pump c = s.pump c
  | .econ c => s'.econ c = s.econ c
  | .rep c => s'.rep c = s.rep c
  | .gasInhibit c => s'.gasInhibit c = s.gasInhibit c
  | .line k => s'.line k = s.line k
  | .arb k => s'.arb k = s.arb k
  | .chan k => s'.chan k = s.chan k
  | .ilk k => s'.ilk k = s.ilk k

/-- Every part of the state but those listed is the same. -/
def changesOnly (ps : List Part) (s s' : State) : Prop := ∀ p, p ∉ ps → p.same s s'

/-- A range of consecutive bytes of the Common Memory: its first address and its length. Addresses wrap (R1). -/
abbrev Bytes := Nat × Nat

/-- Whether an address lies in a range. -/
def inBytes (a : Nat) (r : Bytes) : Prop := ∃ i, i < r.2 ∧ a = (r.1 + i) % Config.memorySize

/-- Every byte of the Common Memory outside the ranges reads as before. -/
def storesOnly (rs : List Bytes) (s s' : State) : Prop :=
  ∀ a, a < Config.memorySize → (∀ r ∈ rs, ¬ inBytes a r) → memRead s'.mem a = memRead s.mem a

/-- Every byte of the Common Memory reads as before. -/
def keepsMemory (s s' : State) : Prop := ∀ a, a < Config.memorySize → memRead s'.mem a = memRead s.mem a

/-- The word that a range of 4 bytes holds. -/
def State.word (s : State) (a : Nat) : Nat := memField s.mem a 4

/-! ### Areas of the Common Memory that a chamber's work writes -/

/-- The Chamber Status Block of a chamber. -/
def statusBytes (c : Chamber) : Bytes := (statusAddr c, 128)
/-- The context record of a chamber. -/
def contextBytes (c : Chamber) : Bytes := (contextAddr c, 64)
/-- Both order slots of a chamber. -/
def slotBytes (c : Chamber) : Bytes := (slotAddr c 0, 128)
/-- The report area of a chamber (R8). -/
def reportBytes (n : Nat) (c : Chamber) : Bytes := (reportAddr n c, 1024 * (30 - n))
/-- The Global Status image. -/
def imageBytes : Bytes := (imageAddr 0, 256)

/-- Where the next report entry of a chamber is placed, if a page can take it (R166). -/
def nextEntryBytes (s : State) (c : Chamber) : List Bytes :=
  match (s.rep c).filling? with
  | some i => [(entryAddr s c i ((s.rep c).page i).count, 32)]
  | none =>
    match (s.rep c).empty? with
    | some i => [(entryAddr s c i 0, 32)]
    | none => []

/-! ### Premises -/

/-- An event of a tap reaches the block: the part is RUNNING, the moment is not past and carries an event of the tap
(R11, R44). -/
def eventAt (tap : Tap) (t : Moment) (s : State) : Prop := s.port.part = .running ∧ s.now ≤ t ∧ tapFalls tap t = true

/-- The command is one that the Time Base or a pin brings, which R11 gives no effect in HALTED. -/
def isEvent : Instr → Bool
  | .powerOnReset => false
  | .resetInput => false
  | .softReset => false
  | .applyLayout _ => false
  | .ackTrips _ => false
  | .eventSummaryRead _ => false
  | .eventEnableWrite _ => false
  | .registerWriteIgnored _ _ _ => false
  | .hostMemoryWrite _ _ _ => false
  | _ => true

/-- One of the three resets. -/
def isReset : Instr → Bool
  | .powerOnReset => true
  | .resetInput => true
  | .softReset => true
  | _ => false

/-- An APPLY_LAYOUT. -/
def isApply : Instr → Bool
  | .applyLayout _ => true
  | _ => false

/-- The command has a next state, and it is as `P` says. -/
def answers (i : Instr) (s : State) (P : State → Prop) : Prop := ∃ s', exec i s = .next s' ∧ P s'

/-- Every Event Summary flag but those listed is the same. -/
def flagsOnly (fs : List EventFlag) (s s' : State) : Prop := ∀ f, f ∉ fs → s'.flagSet f = s.flagSet f

/-- The chamber is not in the shared-line wait queue. -/
def notWaiting (s : State) (c : Chamber) : Prop := ∀ w ∈ s.waitQueue, w.chamber ≠ c

/-- The chamber owns no shared line. -/
def ownsNoLine (s : State) (c : Chamber) : Prop := ∀ k, s.arb k ≠ .owned c

/-- No line is open to the chamber. -/
def noLineOpen (s : State) (c : Chamber) : Prop := ∀ k, (s.line k).openTo ≠ some c

/-- The run states in which a run fault begins close-out (R30). -/
def RunState.faults : RunState → Bool
  | .waitLines => true
  | .step => true
  | .gap => true
  | .held => true
  | _ => false

/-- All sixteen lines, as parts of a frame. -/
def allLines : List Part := (List.finRange 16).map .line

/-! ### The slot scan -/

/-- A chamber's control block holds no new request (R33). -/
def noRequest (s : State) (c : Chamber) : Prop := memField s.mem (controlAddr c + 2) 2 = (s.seq c).lastRequest

/-- The order in a chamber's expected slot, as the slot stands. -/
def expectedOrder (s : State) (c : Chamber) : Order := readOrder s.mem (slotAddr c (s.seq c).expected)

/-- The slot scan examines the expected slot and finds POSTED (R18). -/
def posted (s : State) (c : Chamber) : Prop :=
  (s.seq c).slots[(s.seq c).expected] = .free ∧ (s.seq c).pendingSeg = none ∧
    s.word (slotAddr c (s.seq c).expected) = 1

/-- The third part of a slot scan finds nothing: no page is FULL and no entry is held (R168). -/
def pagesAtRest (s : State) (c : Chamber) : Prop :=
  (s.rep c).held = none ∧ ∀ i, ((s.rep c).page i).st ≠ .full

/-- A run, a pump order or a mode order occupies the chamber (R22, R25). -/
def occupied (s : State) (c : Chamber) : Prop :=
  (s.seq c).run ≠ .idle ∨ (s.seq c).pumpTaken = true ∨ (s.seq c).modeTaken = true

/-- The state-check rows of the order tables, in order, and BAD_KIND (R19, R22, R24, R25): the refusal each order meets. -/
inductive RefusedFor (s : State) (c : Chamber) (o : Order) : Code → Prop
  | kind (h : o.kind < 1 ∨ 6 < o.kind) : RefusedFor s c o .badKind
  | runBusy (k : o.kind = 1 ∨ o.kind = 2) (h : occupied s c) : RefusedFor s c o .busy
  | runInterlocked (k : o.kind = 1 ∨ o.kind = 2) (h : ¬ occupied s c) (g : tripped s c 1 = true) :
      RefusedFor s c o .interlocked
  | runNotPumped (k : o.kind = 1 ∨ o.kind = 2) (h : ¬ occupied s c) (g : tripped s c 1 = false)
      (p : (s.pump c).st ≠ .pumped) : RefusedFor s c o .notPumped
  | runAsleep (k : o.kind = 1 ∨ o.kind = 2) (h : ¬ occupied s c) (g : tripped s c 1 = false)
      (p : (s.pump c).st = .pumped) (m : (s.econ c).mode = .economy)
      (w : bitSet (s.chamberCfg c).wakeEnables 0 = false) : RefusedFor s c o .asleep
  | noRun (k : o.kind = 3) (h : (s.seq c).run = .idle) : RefusedFor s c o .noRun
  | closed (k : o.kind = 3) (h : (s.seq c).run ≠ .idle) (g : (s.seq c).run = .closing ∨ (s.seq c).seg.isOpen = false) :
      RefusedFor s c o .closed
  | badTag (k : o.kind = 3) (h : (s.seq c).run ≠ .idle) (g : (s.seq c).run ≠ .closing)
      (j : (s.seq c).seg.isOpen = true) (p : o.tag ≠ (s.seq c).tag) : RefusedFor s c o .badTag
  | heldBusy (k : o.kind = 3) (g : (s.seq c).run = .held) (j : (s.seq c).seg.isOpen = true)
      (p : o.tag = (s.seq c).tag) : RefusedFor s c o .busy
  | pumpOccupied (k : o.kind = 4 ∨ o.kind = 5) (h : occupied s c) : RefusedFor s c o .busy
  | pumpInterlocked (k : o.kind = 4 ∨ o.kind = 5) (h : ¬ occupied s c) (g : tripped s c 3 = true) :
      RefusedFor s c o .interlocked
  | pumpBusy (k : o.kind = 4 ∨ o.kind = 5) (h : ¬ occupied s c) (g : tripped s c 3 = false)
      (p : (s.pump c).st.inProgress = true) : RefusedFor s c o .busy
  | modeBusy (k : o.kind = 6) (h : occupied s c) : RefusedFor s c o .busy
  | modeNotPumped (k : o.kind = 6) (h : ¬ occupied s c) (p : (s.pump c).st ≠ .pumped) : RefusedFor s c o .notPumped
  | modeRange (k : o.kind = 6) (h : ¬ occupied s c) (p : (s.pump c).st = .pumped) (g : 1 < o.targetMode) :
      RefusedFor s c o .badRange
  | economyWaking (k : o.kind = 6) (h : ¬ occupied s c) (p : (s.pump c).st = .pumped) (g : o.targetMode = 1)
      (m : (s.econ c).mode = .economy) (w : (s.econ c).phase ≠ .none) : RefusedFor s c o .busy

/-- A slot as the part answers it (R2, R20): State, Outcome, Outcome Detail and Steps Executed. -/
def slotReads (s : State) (a state outcome detail steps : Nat) : Prop :=
  s.word a = state ∧ s.word (a + 20) = outcome ∧ s.word (a + 24) = detail ∧ s.word (a + 28) = steps

/-- The bytes of a slot that the part writes: Outcome, Outcome Detail, Steps Executed, and State. -/
def answerBytes (c : Chamber) (i : Fin 2) : List Bytes := [(slotAddr c i + 20, 12), (slotAddr c i, 4)]

/-- The other of the two slots. -/
def otherSlot (i : Fin 2) : Fin 2 := if i = 0 then 1 else 0

/-- What the start of a chamber's close-out leaves (R31, R40, R99, R128, R153, R154). The position and remaining count are
those of the context record. -/
structure ClosesOut (c : Chamber) (cause : Code) (item pos remaining : Nat) (s s' : State) : Prop where
  run : (s'.seq c).run = .closing
  stage : (s'.seq c).stage = .rfOff
  outcome : (s'.seq c).outcome = cause
  item : (s'.seq c).item = item
  latch : (s'.seq c).latch = false
  restriction : (s'.seq c).restriction = restrictionNow s c
  shown : memField s'.mem (statusAddr c) 1 = RunState.closing.code
  rf : (s'.rf c).phase = .off ∧ (s'.rf c).output = 0 ∧ (s'.rf c).power = 0 ∧ (s'.rf c).ramp = none
  pressure : (s'.press c).evaluating = false ∧ (s'.press c).target = (s.press c).target ∧
    (s'.press c).output = (s.press c).output ∧ (s'.press c).throttleOpen = (s.press c).throttleOpen
  context : s'.word (contextAddr c) = (s.seq c).tag % 4294967296 ∧
    memField s'.mem (contextAddr c + 8) 2 = pos % 65536 ∧
    memField s'.mem (contextAddr c + 10) 2 = (s.seq c).loop.length % 65536 ∧
    memField s'.mem (contextAddr c + 12) 2 = remaining % 65536 ∧
    memField s'.mem (contextAddr c + 14) 2 = cause.code
  fault : cause.reportsFault = true → s'.flagSet (.fault c) = true
  noFault : cause.reportsFault = false → s'.flagSet (.fault c) = s.flagSet (.fault c)

/-- The parts of the state that the start of a chamber's close-out changes, the wait queue apart. -/
def closeParts (c : Chamber) : List Part := [.now, .summary, .seq c, .rf c, .press c, .rep c]

/-- The lines whose own T1 event at this moment would reach FLOW_FAULT for a chamber: a fault or an ABORT of the same moment
finds that fault due (R30, R79; log 14). -/
def reachedLines (s : State) (c : Chamber) : List Part :=
  ((List.finRange 16).filter fun k => tapFalls .t1 s.now && lineReaches s k c).map .line

/-- The bytes that the start of a chamber's close-out stores to. -/
def closeBytes (s : State) (c : Chamber) : List Bytes :=
  [statusBytes c, contextBytes c, reportBytes s.tables.partition c]

/-- A step that ends is counted (R64) and reported when its record says so (R65). -/
structure CountsStep (c : Chamber) (s s' : State) : Prop where
  run : (s'.seq c).stepsRun = (s.seq c).stepsRun + 1
  segment : (s'.seq c).segDone = (s.seq c).segDone + 1
  last : (s'.seq c).segLast = some (s.seq c).stepIdx
  shown : s'.word (statusAddr c + 24) = shownCount 32 ((s.seq c).stepsRun + 1) % 4294967296
  entry : (s'.rep c).next = if (s.seq c).step.reports then ((s.rep c).next + 1) % 65536 else (s.rep c).next

/-- What the end of a run leaves at the END stage (R32, R99, R157): IDLE, the slot of the current segment answered DONE. -/
structure EndsRun (c : Chamber) (s s' : State) : Prop where
  run : (s'.seq c).run = .idle
  loop : (s'.seq c).loop = []
  pending : (s'.seq c).pendingSeg = none
  outcome : (s'.seq c).lastOutcome = (s.seq c).outcome
  shownRun : memField s'.mem (statusAddr c) 1 = 0
  shownOutcome : memField s'.mem (statusAddr c + 10) 2 = (s.seq c).outcome.code
  shownDepth : memField s'.mem (statusAddr c + 18) 2 = 0
  shownPending : memField s'.mem (statusAddr c + 62) 2 = 0
  entry : (s'.rep c).next = ((s.rep c).next + 1) % 65536
  pressure : (s'.press c).target = 0 ∧ (s'.press c).output = 0 ∧ (s'.press c).throttleOpen = true
  slot : ∀ i, (s.seq c).slotWith SlotHold.isCurrent = some i →
    (s'.seq c).slots[i] = .free ∧ s'.word (slotAddr c i) = 3 ∧ s'.word (slotAddr c i + 20) = (s.seq c).outcome.code ∧
      s'.flagSet (.order c) = true

/-- The bytes that the end of a run stores to. -/
def endBytes (s : State) (c : Chamber) : List Bytes := [statusBytes c, slotBytes c, reportBytes s.tables.partition c]

/-- An RF run fault's close-out (R133, R134): the cause, with the current step as its item. -/
def rfClosesOut (c : Chamber) (cause : Code) (s s' : State) : Prop :=
  ClosesOut c cause (s.seq c).stepIdx (s.seq c).closePoint.1 (s.seq c).closePoint.2 s s' ∧
    (s'.rep c).next = ((s.rep c).next + 1) % 65536 ∧ flagsOnly [.fault c, .report c] s s' ∧
    changesOnly (closeParts c ++ reachedLines (s.setNow s'.now) c) s s' ∧ storesOnly (closeBytes s c) s s'

/-! ### The scanner -/

/-- What the condition of REDUCED asks of one chamber (R144). -/
def scanQuiet (s : State) (c : Chamber) : Prop :=
  (s.seq c).run = .idle ∧ (s.seq c).pumpTaken = false ∧
    (((s.econ c).mode = .economy ∧ (s.econ c).phase = .none) ∨ (s.pump c).st = .isolated ∨ (s.pump c).st = .vented ∨
      (s.pump c).st = .faultHold)

/-- A channel published at a moment from its counts (R138 to R140). -/
def freshChan (tab : Tables) (e : ScanCfg) (k : ChannelId) (raw : Nat) (t : Moment) : Chan :=
  { raw := raw, value := (convertChannel tab e k.val raw).1, conv := (convertChannel tab e k.val raw).2
    lineValues := lineFlows tab k.val raw, age := 0, published := t, shownStale := false }

/-- A channel in use that a T0 event did not publish: one older when its last publish lies before the event, and marked
STALE above the limit of its class at the rate then in force (R141 to R143). -/
def agedChan (e : ScanCfg) (rate : ScanRate) (t : Moment) (ch : Chan) : Chan :=
  let age := if ch.published < t ∧ ch.age < 65535 then ch.age + 1 else ch.age
  { ch with age := age, shownStale := ch.shownStale || decide ((if e.cls = 1 ∧ rate ≠ .reduced then 3 else 300) < age) }

/-- The Measurement Table shows a channel as it was published (R141). -/
def measured (s : State) (k : ChannelId) : Prop :=
  s.word (measurementAddr k.val) = (s.chan k).value % 4294967296 ∧
    s.word (measurementAddr k.val + 4) = (s.chan k).raw % 65536 ∧
    s.word (measurementAddr k.val + 8) = (s.chan k).conv.code ∧ s.word (measurementAddr k.val + 12) = 0

/-- The parts of the state that a pass of the scanner changes. -/
def scanParts : List Part := [.now, .pins, .scan] ++ (List.finRange 48).map .chan

/-! ### Safety -/

/-- The safe values of the outputs (R11). -/
def safeOutputs (s : State) : Prop :=
  (∀ n, s.analogOutput n = 0) ∧
  (∀ k, s.shutoffOpen k = false ∧ s.purgeValveOpen k = false ∧ ∀ c, s.divertOpen k c = false) ∧
  (∀ c, s.softRoughOpen c = false ∧ s.fastRoughOpen c = false ∧ s.gateOpen c = false ∧ s.ventOpen c = false) ∧
  (∀ c, s.rfEnable c = false ∧ s.turboEconomy c = false ∧ (s.press c).throttleOpen = false)

/-- In HALTED the outputs stand at their safe values (R11), because every block that drives one is at rest. -/
def HaltedAtRest (s : State) : Prop :=
  s.port.part = .halted →
    (∀ k, (s.line k).openTo = none ∧ (s.line k).command = 0 ∧ s.arb k = .absent) ∧
    (∀ c, (s.pump c).st = .isolated ∧ (s.rf c).phase = .off ∧ (s.rf c).output = 0 ∧ (s.press c).output = 0 ∧
      (s.press c).throttleOpen = false ∧ (s.econ c).mode = .active) ∧
    s.rough.holder = none ∧ s.rough.queue = [] ∧ (∀ k, (s.ilk k).trip = false)

/-- Pump states and the Rough Line Arbiter agree (R112, R113): only the holder's machine roughs, the holder's machine is
in ROUGH_WAIT, SOFT_ROUGH or FAST_ROUGH, the waiters are the other machines in ROUGH_WAIT, each once, and nobody waits
while nobody holds. -/
def roughAgrees (st : Chamber → PumpState) (r : Rough) : Prop :=
  (∀ c, st c = .softRough ∨ st c = .fastRough → r.holder = some c) ∧
  (∀ c, r.holder = some c → st c = .roughWait ∨ st c = .softRough ∨ st c = .fastRough) ∧
  (∀ c, c ∈ r.queue ↔ st c = .roughWait ∧ r.holder ≠ some c) ∧
  r.queue.Nodup ∧
  (r.holder = none → r.queue = [])

/-- The rough line's law for a state. -/
def RoughLineLaw (s : State) : Prop := roughAgrees (fun c => (s.pump c).st) s.rough

/-- A latched trip whose Scope includes a chamber holds RF off there, and with an action of GAS_INHIBIT or FULL_SAFE every
line of the chamber closed (R83, R129, R150). -/
def InterlockLaw (s : State) : Prop :=
  (∀ c, tripped s c 1 = true → (s.rf c).inhibit = true) ∧
  (∀ c, (s.rf c).inhibit = true → (s.rf c).phase = .off) ∧
  (∀ c, tripped s c 2 = true → s.gasInhibit c = true) ∧
  (∀ c, s.gasInhibit c = true → ∀ k, (s.line k).openTo ≠ some c)

/-- The pages of a Report Writer lie in the chamber's report area under a partition number, and a FILLING page has room
for an entry (R8, R164). -/
def Rep.fits (n : Nat) (r : Rep) : Prop :=
  r.pages = 0 ∨
    (1 ≤ r.size ∧ r.pages ≤ 2 ∧ r.pages * r.size ≤ areaEntries n ∧
      ∀ i, r.inUse i = true → (r.page i).st = .filling → (r.page i).count < r.size)

/-- The applied partition number is one that R12 allows, and every chamber's report pages fit its report area. -/
def PagesFit (s : State) : Prop :=
  6 ≤ s.tables.partition ∧ s.tables.partition ≤ 26 ∧ ∀ c, (s.rep c).fits s.tables.partition

/-- The bytes that the memory map gives to the host alone under a partition number (section 1.3): Partition N, the host
tables, the Chamber Control Blocks, the Scan and Conversion Table, the host's scratch and the recipe area. -/
def hostOwned (n a : Nat) : Bool :=
  decide ((8 ≤ a ∧ a < 12) ∨ (0x200 ≤ a ∧ a < 0x800) ∨ (0x1000 ≤ a ∧ a < 0x2000 + 4096 * n))

/-- The loop stack holds at most four entries (R61), and an IDLE run holds neither loops nor a pending segment (R32). -/
def LoopLaw (s : State) : Prop :=
  ∀ c, (s.seq c).loop.length ≤ 4 ∧ ((s.seq c).run = .idle → (s.seq c).loop = [] ∧ (s.seq c).pendingSeg = none)

end Sys2Proof.Machine
end

