-- ==== Sys2Proof/Certificates/Slice0/Obligations.lean ====
section
/-! DEFINITION. The statements for the provers, chapter by chapter of the manual. Each docstring names the rules of spec/
that it rests on; where a statement rests on a choice of the model, it names the log entry. -/

open Sys2Proof Sys2Proof.Machine

/-! ### The queue and the System Port (spec/01) -/

/-- A step takes the command at the front of the queue and runs it with the queue's rest. That a step on an empty queue
idles is the model's choice (log 3). -/
def Obligations.StepRunsTheFrontCommand : Prop :=
  (∀ (i : Instr) (rest : List Instr) (s : State), s.pending = i :: rest → step s = exec i { s with pending := rest }) ∧
    ∀ s : State, s.pending = [] → step s = .next s

/-- No rule stops the block: every command of the table has a next state in every state, and leaves the queue alone, which
is the model's choice (log 3, log 24). In
HALTED an event of the Time Base, of a pin or of the pulse input changes nothing (R11). -/
def Obligations.EveryCommandAnswersNext : Prop :=
  (∀ (i : Instr) (s : State), answers i s fun s' => s'.pending = s.pending) ∧
  ∀ (i : Instr) (s : State), isEvent i = true → s.port.part = .halted → exec i s = .next s

/-- R3. The Identity register and the Identity and Layout block's copy and revision byte. -/
def Obligations.IdentityRegister : Prop :=
  (∀ s : State, s.readReg .identity .word = 0x5A470440#32) ∧
    (∀ (s : State) (addr v : Word) (w : Width), selectReg addr = .identity →
      wellFormed (.registerWriteIgnored addr w v) = true ∧ exec (.registerWriteIgnored addr w v) s = .next s) ∧
    ∀ (i : Instr) (s : State), isReset i = true →
      answers i s fun s' => s'.word 0x00 = 0x5A470440 ∧ memField s'.mem 0x04 1 = 0x01

/-- R4. The commands of Command/State by bits 0 to 7 of a word write, and what each reaches. -/
def Obligations.CommandRegister : Prop :=
  (∀ addr v : Word, selectReg addr = .command →
    readRegWrite addr .word v =
      if v.toNat % 256 = 1 then .applyLayout
      else if v.toNat % 256 = 2 then .ackTrips
      else if v.toNat % 256 = 3 then .softReset
      else .ignored) ∧
    (∀ (s : State) (addr v : Word) (w : Width), wellFormed (.registerWriteIgnored addr w v) = true →
      exec (.registerWriteIgnored addr w v) s = .next s) ∧
    (∀ (s : State) (t : Moment), answers (.applyLayout t) s fun s' => s'.flagSet .layout = true) ∧
    (∀ (s : State) (levels : Vector Bool 16), s.port.part = .halted → exec (.ackTrips levels) s = .next s) ∧
    (∀ (s : State) (levels : Vector Bool 16), s.port.part = .running →
      answers (.ackTrips levels) s fun s' =>
        ∀ k, (s'.ilk k).trip = ((s.ilk k).trip && (s.ilkCfg k).activeAt levels[k])) ∧
    ∀ s : State, exec .softReset s = exec .resetInput s

/-- R5. What a read of Command/State returns, the codes, and which commands change it. -/
def Obligations.CommandStateReads : Prop :=
  (∀ s : State, (s.readReg .command .word).toNat =
    s.port.part.code + 256 * s.port.result.code + 65536 * (s.port.resultEntry % 256)) ∧
    (PartState.halted.code = 0 ∧ PartState.running.code = 1) ∧
    ([LayoutCode.noApply, .ok, .busy, .badPartition, .badScan, .badConversion, .badLine, .badChamber, .badPurgeLine,
      .badInterlock].map LayoutCode.code = [0, 1, 2, 3, 4, 5, 6, 7, 8, 9]) ∧
    (∀ (s : State) (t : Moment), answers (.applyLayout t) s fun s' =>
      match s'.port.result with
      | .noApply => False
      | .ok => s'.port.resultEntry = 0
      | .busy => s'.port.resultEntry = 0
      | .badPartition => s'.port.resultEntry = 0
      | .badScan => ∃ j : Fin 48, s'.port.resultEntry = j.val ∧ checkScan (readTables s.mem) j = some .badScan
      | .badConversion =>
        ∃ j : Fin 48, s'.port.resultEntry = j.val ∧ checkScan (readTables s.mem) j = some .badConversion
      | .badLine => ∃ k : LineId, s'.port.resultEntry = k.val + 1 ∧ checkLine (readTables s.mem) k = some .badLine
      | .badChamber =>
        ∃ c : Chamber, s'.port.resultEntry = c.val + 1 ∧ checkChamber (readTables s.mem) c = some .badChamber
      | .badPurgeLine =>
        ∃ c : Chamber, s'.port.resultEntry = c.val + 1 ∧ checkChamber (readTables s.mem) c = some .badPurgeLine
      | .badInterlock =>
        ∃ k : InputId, s'.port.resultEntry = k.val + 1 ∧ checkInterlock (readTables s.mem) k = some .badInterlock) ∧
    (∀ (i : Instr) (s : State), isReset i = true →
      answers i s fun s' => s'.port.part = .halted ∧ s'.port.result = .noApply ∧ s'.port.resultEntry = 0) ∧
    ∀ (i : Instr) (s : State), isReset i = false → isApply i = false →
      answers i s fun s' =>
        s'.port.part = s.port.part ∧ s'.port.result = s.port.result ∧ s'.port.resultEntry = s.port.resultEntry

/-- R6. The 18 flags, their setting, the read that clears what it returns, and the accesses that clear nothing. A narrow
read clears nothing by R1. -/
def Obligations.EventSummaryRegister : Prop :=
  (∀ c : Chamber, (EventFlag.order c).bit.val = 4 * c.val ∧ (EventFlag.report c).bit.val = 4 * c.val + 1 ∧
    (EventFlag.fault c).bit.val = 4 * c.val + 2 ∧ (EventFlag.pump c).bit.val = 4 * c.val + 3) ∧
    (EventFlag.layout.bit.val = 16 ∧ EventFlag.interlock.bit.val = 17) ∧
    (∀ (s : State) (f : EventFlag), (s.readReg .summary .word).getLsbD f.bit.val = s.flagSet f) ∧
    (∀ (s : State) (i : Nat), 18 ≤ i → (s.readReg .summary .word).getLsbD i = false) ∧
    (∀ (s : State) (f g : EventFlag), (raise f s).flagSet g = (decide (g = f) || s.flagSet g)) ∧
    (∀ (s : State) (t : Moment), answers (.applyLayout t) s fun s' => s'.flagSet .layout = true) ∧
    (∀ s : State, answers (.eventSummaryRead .word) s fun s' =>
      s'.port.dataOut = s.port.summary.setWidth 32 ∧ (∀ f, s'.flagSet f = false) ∧
        changesOnly [.summary, .dataOut] s s' ∧ keepsMemory s s') ∧
    (∀ (s : State) (w : Width), w ≠ .word → answers (.eventSummaryRead w) s fun s' =>
      s'.port.dataOut = 0 ∧ changesOnly [.dataOut] s s' ∧ keepsMemory s s') ∧
    (∀ (s : State) (addr v : Word) (w : Width), selectReg addr = .summary →
      wellFormed (.registerWriteIgnored addr w v) = true ∧ exec (.registerWriteIgnored addr w v) s = .next s) ∧
    ∀ (i : Instr) (s : State) (f : EventFlag), isReset i = true → answers i s fun s' => s'.flagSet f = false

/-- R7. The enable bits, what a write stores and a read returns, and the interrupt output. -/
def Obligations.EventEnableAndInterrupt : Prop :=
  (∀ (s : State) (v : Word), answers (.eventEnableWrite v) s fun s' =>
    (∀ i, (s'.readReg .enable .word).getLsbD i = (decide (i < 18) && v.getLsbD i)) ∧
      changesOnly [.enable] s s' ∧ keepsMemory s s') ∧
    (∀ s : State, s.interrupt = true ↔ ∃ f : EventFlag, s.flagSet f = true ∧ s.port.enable.getLsbD f.bit.val = true) ∧
    (∀ (s : State) (f : EventFlag), (raise f s).flagSet f = true ∧ (raise f s).port.enable = s.port.enable) ∧
    (∀ s : State, answers (.eventSummaryRead .word) s fun s' => s'.interrupt = false) ∧
    ∀ (i : Instr) (s : State), isReset i = true → answers i s fun s' => s'.port.enable = 0 ∧ s'.interrupt = false

/-- R1, R2. A host write stores the access's bytes at its aligned address, wrapped, and nothing else; a host read returns
them. It is served alike in HALTED and RUNNING (R11). That a byte or halfword access carries its value in the low bits of the
32-bit data, and that a narrow read returns 0 in the others, is the model's choice (log 27). -/
def Obligations.HostWritesItsBytes : Prop :=
  ∀ (s : State) (addr v : Word) (w : Width),
    answers (.hostMemoryWrite addr w v) s fun s' =>
      (∀ i, i < widthBytes w →
        (memRead s'.mem (addr.toNat / widthBytes w * widthBytes w + i)).toNat = v.toNat / 256 ^ i % 256) ∧
        (s'.hostRead addr w).toNat = v.toNat % 256 ^ widthBytes w ∧
        changesOnly [] s s' ∧ storesOnly [(addr.toNat / widthBytes w * widthBytes w, widthBytes w)] s s'

/-- R12. A table set passes the apply's checks exactly when it meets every condition of the table of R12. -/
def Obligations.ApplyChecksAreTheRangesOfTheTable : Prop :=
  ∀ tab : Tables, checkTables tab = none ↔
    (6 ≤ tab.partition ∧ tab.partition ≤ 26) ∧
      (∀ j : Fin 48, tab.scan[j].cls ≤ 2 ∧
        (tab.scan[j].cls ≠ 0 →
          tab.scan[j].channel ≤ 47 ∧
            (∀ i : Fin 48, i < j → tab.scan[i].cls ≠ 0 → tab.scan[i].channel ≠ tab.scan[j].channel) ∧
            ((∀ k : LineId, tab.lines[k].readback ≠ tab.scan[j].channel) →
              2 ≤ tab.scan[j].count ∧ tab.scan[j].count ≤ 8 ∧ (∀ p ∈ tab.scan[j].usedPoints, p.1 ≤ 4095) ∧
                (tab.scan[j].usedPoints.map Prod.fst).Pairwise (· < ·)))) ∧
      (∀ k : LineId,
        (tab.lines[k].use = 1 ∨ tab.lines[k].use = 2) ∧
          (tab.lines[k].use = 1 → 1 ≤ tab.lines[k].chamber ∧ tab.lines[k].chamber ≤ 4) ∧ tab.lines[k].fullScale ≠ 0 ∧
          (100 ≤ tab.lines[k].gcf ∧ tab.lines[k].gcf ≤ 4000) ∧
          (5 ≤ tab.lines[k].tolerance ∧ tab.lines[k].tolerance ≤ 200) ∧
          (1 ≤ tab.lines[k].faultTime ∧ tab.lines[k].faultTime ≤ 6000) ∧ tab.lines[k].command ≤ 15 ∧
          (∀ i : LineId, i < k → tab.lines[i].command ≠ tab.lines[k].command) ∧
          tab.channelOk tab.lines[k].readback = true ∧ (tab.lines[k].use = 2 → tab.lines[k].handover ≤ 500)) ∧
      (∀ c : Chamber,
        (tab.channelOk tab.chambers[c].manometer = true ∧ tab.channelOk tab.chambers[c].roughGauge = true ∧
          tab.channelOk tab.chambers[c].forward = true ∧ tab.channelOk tab.chambers[c].reflected = true ∧
          (c = 0 → tab.channelOk tab.chambers[c].foreline = true)) ∧
          (20 ≤ tab.chambers[c].rfCommand ∧ tab.chambers[c].rfCommand ≤ 23) ∧
          (∀ i : Chamber, i < c → tab.chambers[i].rfCommand ≠ tab.chambers[c].rfCommand) ∧
          tab.chambers[c].valveSpan ≠ 0 ∧
          (10 ≤ tab.chambers[c].pressureTolerance ∧ tab.chambers[c].pressureTolerance ≤ 500) ∧
          (100 ≤ tab.chambers[c].rfSpan ∧ tab.chambers[c].rfSpan ≤ 5000) ∧
          (500 ≤ tab.chambers[c].strikeRatio ∧ tab.chambers[c].strikeRatio ≤ 1000) ∧
          (1 ≤ tab.chambers[c].strikeWindow ∧ tab.chambers[c].strikeWindow ≤ 500) ∧
          (1 ≤ tab.chambers[c].reflectTime ∧ tab.chambers[c].reflectTime ≤ 500) ∧
          tab.chambers[c].strikeRetries ≤ 3 ∧ tab.chambers[c].recoveryDwell ≤ 600 ∧
          (10 ≤ tab.chambers[c].recoveryLimit ∧ tab.chambers[c].recoveryLimit ≤ 1800) ∧
          (tab.chambers[c].purgeLine ≠ 0 →
            ∃ k : LineId, k.val + 1 = tab.chambers[c].purgeLine ∧ tab.lines[k].use = 1 ∧
              tab.lines[k].chamber = c.val + 1)) ∧
      ∀ k : InputId, tab.interlocks[k].scope ≤ 15 ∧
        (tab.interlocks[k].scope ≠ 0 →
          tab.interlocks[k].activeLevel ≤ 1 ∧ 1 ≤ tab.interlocks[k].action ∧ tab.interlocks[k].action ≤ 3)

/-- R12 to R14. An apply that is refused with BUSY, or whose check fails, records its result and changes nothing else. -/
def Obligations.RefusedApplyOnlyRecordsItsResult : Prop :=
  (∀ (s : State) (t : Moment), s.port.part = .running →
    ((∃ c, (s.seq c).run ≠ .idle ∨ (s.econ c).mode ≠ .active ∨ (s.econ c).phase ≠ .none ∨
      ¬ ((s.pump c).st = .isolated ∨ (s.pump c).st = .vented ∨ (s.pump c).st = .pumped ∨ (s.pump c).st = .faultHold)) ∨
      ∃ k, (s.ilk k).trip = true) →
    answers (.applyLayout t) s fun s' =>
      s'.port.result = .busy ∧ s'.port.resultEntry = 0 ∧ s'.flagSet .layout = true ∧ flagsOnly [.layout] s s' ∧
        s'.word 0x0C = 2 ∧ changesOnly [.now, .layoutResult, .summary] s s' ∧ storesOnly [(0x0C, 12)] s s') ∧
    ∀ (s : State) (t : Moment) (code : LayoutCode) (entry : Nat), s.port.part = .halted ∨ quiet s = true →
      checkTables (readTables s.mem) = some (code, entry) →
      answers (.applyLayout t) s fun s' =>
        s'.port.result = code ∧ s'.port.resultEntry = entry ∧ s'.flagSet .layout = true ∧ flagsOnly [.layout] s s' ∧
          s'.word 0x0C = code.code + 256 * entry ∧ changesOnly [.now, .layoutResult, .summary] s s' ∧
          storesOnly [(0x0C, 12)] s s'

/-- R13, R95, R105, R124, R146, R148. A successful apply from HALTED: the part RUNNING with result OK, the tables copied, the
scanner in SETTLING, the debounces restarted, each SHARED line purging or FREE, each chamber ISOLATED and ACTIVE with both
slots not-TAKEN, its Last Taken Request Number and its pages taken from its control block. A slot whose State word reads
TAKEN is answered LOST_BY_RESET and no other slot is written. The areas of the host alone keep their bytes. -/
def Obligations.ApplyFromHaltedStartsThePart : Prop :=
  ∀ (s : State) (t : Moment), s.port.part = .halted → checkTables (readTables s.mem) = none →
    answers (.applyLayout t) s fun s' =>
      (s'.port.part = .running ∧ s'.port.result = .ok ∧ s'.port.resultEntry = 0 ∧ s'.flagSet .layout = true) ∧
        s'.tables = readTables s.mem ∧
        (s'.word 0x0C = 1 ∧ s'.word 0x10 = 1 ∧ s'.word 0x14 = s'.tables.partition) ∧
        (s'.scan.rate = .settling ∧ s'.scan.settling = 2) ∧
        (∀ k, (s'.ilk k).raw = false ∧ (s'.ilk k).count = 0 ∧ (s'.ilk k).trip = (s.ilk k).trip) ∧
        (∀ k, s'.arb k =
          if (s'.lineCfg k).use = 2 then
            (if (s'.lineCfg k).handover = 0 then .free else .purging (s'.lineCfg k).handover s'.now)
          else .absent) ∧
        (∀ c, (s'.pump c).st = .isolated ∧ (s'.econ c).mode = .active ∧ (s'.econ c).phase = .none ∧
          (s'.seq c).expected = 0 ∧ (s'.seq c).slots = Vector.replicate 2 .free ∧
          (s'.seq c).lastRequest = memField s.mem (controlAddr c + 2) 2 ∧
          (s'.press c).target = 0 ∧ (s'.press c).output = 0 ∧ (s'.press c).throttleOpen = true ∧
          (s'.rep c).size = pageSizeFor (memField s.mem (controlAddr c + 4) 2) s'.tables.partition ∧
          (s'.rep c).pages = pageCountFor (s'.rep c).size s'.tables.partition) ∧
        (∀ c i, s.word (slotAddr c i) = 2 → slotReads s' (slotAddr c i) 3 5 0 0 ∧ s'.flagSet (.order c) = true) ∧
        (∀ c i, s.word (slotAddr c i) ≠ 2 → ∀ j, j < 64 →
          memRead s'.mem (slotAddr c i + j) = memRead s.mem (slotAddr c i + j)) ∧
        (∀ c k, s'.rf c = s.rf c ∧ s'.gasInhibit c = s.gasInhibit c ∧ s'.line k = s.line k) ∧
        s'.waitQueue = s.waitQueue ∧ s'.rough = s.rough ∧ s'.pins = s.pins ∧ s'.port.enable = s.port.enable ∧
        ∀ a, a < Config.memorySize → hostOwned s'.tables.partition a = true → memRead s'.mem a = memRead s.mem a

/-- R14, R15, R95, R105, R124. A successful apply in RUNNING: the new copies replace the old and every chamber keeps its
pump state, its slots and its run's records. -/
def Obligations.ApplyWhileRunningKeepsTheChambers : Prop :=
  ∀ (s : State) (t : Moment), s.port.part = .running → quiet s = true → checkTables (readTables s.mem) = none →
    answers (.applyLayout t) s fun s' =>
      (s'.port.part = .running ∧ s'.port.result = .ok ∧ s'.port.resultEntry = 0 ∧ s'.flagSet .layout = true) ∧
        s'.tables = readTables s.mem ∧
        (s'.scan.rate = .settling ∧ s'.scan.settling = 2) ∧
        (∀ k, (s'.ilk k).raw = false ∧ (s'.ilk k).count = 0 ∧ (s'.ilk k).trip = false) ∧
        (∀ k, s'.arb k =
          if (s'.lineCfg k).use = 2 then
            (if (s'.lineCfg k).handover = 0 then .free else .purging (s'.lineCfg k).handover s'.now)
          else .absent) ∧
        (∀ c, s'.pump c = s.pump c ∧ s'.econ c = s.econ c ∧ s'.seq c = s.seq c ∧ s'.rf c = s.rf c ∧
          s'.press c = { s.press c with
            target := 0, output := 0, throttleOpen := true, evaluating := false, inCount := 0, settle := 0
            outCount := 0 } ∧
          (s'.rep c).size = pageSizeFor (memField s.mem (controlAddr c + 4) 2) s'.tables.partition ∧
          (s'.rep c).pages = pageCountFor (s'.rep c).size s'.tables.partition ∧ (s'.rep c).next = (s.rep c).next) ∧
        (∀ k, s'.line k = s.line k) ∧ s'.waitQueue = s.waitQueue ∧ s'.rough = s.rough ∧
        ∀ a, a < Config.memorySize → hostOwned s'.tables.partition a = true → memRead s'.mem a = memRead s.mem a

/-- R16, R43, R44, R84, R96, R97, R123, R136, R147, R148, R159, R171. The state of every block after each of the three
resets. That the block keeps the queue of commands and the levels its pins had is the model's choice (log 3, log 5). -/
def Obligations.ResetsClearEveryBlock : Prop :=
  ∀ (i : Instr) (s : State), isReset i = true →
    answers i s fun s' =>
      (s'.port.part = .halted ∧ s'.port.result = .noApply ∧ s'.port.resultEntry = 0 ∧ s'.port.summary = 0 ∧
        s'.port.enable = 0 ∧ s'.tables.partition = 14 ∧ s'.now = 0) ∧
        (∀ c, (s'.seq c).run = .idle ∧ (s'.seq c).pendingSeg = none ∧ (s'.seq c).loop = [] ∧ (s'.seq c).timer = 0 ∧
          (s'.seq c).latch = false ∧ (s'.seq c).expected = 0 ∧ (s'.seq c).slots = Vector.replicate 2 .free ∧
          (s'.seq c).tag = 0 ∧ (s'.seq c).segNumber = 0 ∧ (s'.seq c).stepsRun = 0 ∧ (s'.seq c).rfTotal = 0 ∧
          (s'.seq c).lastOutcome =
            if i = .powerOnReset then .nil else if (s.seq c).run = .idle then (s.seq c).lastOutcome else .lostByReset) ∧
        (∀ c, (s'.rf c).phase = .off ∧ (s'.rf c).power = 0 ∧ (s'.rf c).output = 0 ∧ (s'.rf c).inhibit = false ∧
          (s'.press c).target = 0 ∧ (s'.press c).output = 0 ∧ (s'.press c).throttleOpen = false ∧
          (s'.press c).evaluating = false ∧ s'.gasInhibit c = false) ∧
        (∀ c, (s'.pump c).st = .isolated ∧ (s'.pump c).paused = false ∧ (s'.pump c).limit = none ∧
          (s'.pump c).delay = none ∧ (s'.econ c).mode = .active ∧ (s'.econ c).phase = .none) ∧
        (∀ c, (s'.rep c).size = 0 ∧ (s'.rep c).pages = 0 ∧ (s'.rep c).held = none ∧ (s'.rep c).skipped = 0 ∧
          (s'.rep c).next = 0 ∧ ∀ j, (s'.rep c).page j = {}) ∧
        (∀ k, (s'.line k).openTo = none ∧ (s'.line k).source = .none ∧ (s'.line k).setpoint = 0 ∧
          (s'.line k).ramp = none ∧ (s'.line k).command = 0 ∧ s'.arb k = .absent) ∧
        (s'.waitQueue = [] ∧ s'.rough.holder = none ∧ s'.rough.queue = [] ∧ s'.scan.rate = .stopped ∧
          s'.scan.settling = 0) ∧
        (∀ k, (s'.chan k).age = 65535) ∧
        (∀ k, (s'.ilk k).raw = false ∧ (s'.ilk k).count = 0 ∧ (s'.ilk k).trip = false) ∧
        s'.pending = s.pending ∧ s'.pins = s.pins

/-- R10, R16, R43, R123, R147, R159, R171. The words the part writes on entering HALTED; the reset input and SOFT_RESET
retain every other byte. -/
def Obligations.ResetsWriteTheirWordsAndRetainTheRest : Prop :=
  ∀ (i : Instr) (s : State), isReset i = true →
    answers i s fun s' =>
      (s'.word 0x00 = 0x5A470440 ∧ s'.word 0x04 = 1 ∧ s'.word 0x0C = 0 ∧ s'.word 0x10 = 0 ∧ s'.word 0x14 = 14) ∧
        (∀ j, j < 64 → s'.word (0x100 + 4 * j) = 0) ∧
        (∀ k, k < 48 → s'.word (0x0D00 + 16 * k) = 0 ∧ s'.word (0x0D04 + 16 * k) = 65535 * 65536 ∧
          s'.word (0x0D08 + 16 * k) = 1 ∧ s'.word (0x0D0C + 16 * k) = 0) ∧
        (∀ (c : Chamber) (j : Nat), j < 32 → s'.word (statusAddr c + 4 * j) =
          if j = 2 then 65536 * (s'.seq c).lastOutcome.code else 0) ∧
        (i ≠ .powerOnReset →
          storesOnly [(0x00, 8), (0x0C, 12), (0x100, 256), (0xA00, 512), (0xD00, 768)] s s')

/-! ### Orders and runs (spec/02) -/

/-- R19, R22, R24, R25. A POSTED order that fails its kind or a state check is refused with the table's first code: the
slot's fields, ORDER, and the expected pointer on the other slot. R33. A request that does not apply in the run state, or
whose code is outside 1 to 5, is answered IGNORED_STATE. Nothing else changes. -/
def Obligations.RefusalsAndIgnoredRequestsChangeNothingElse : Prop :=
  (∀ (s : State) (t : Moment) (c : Chamber) (code : Code), eventAt .t1 t s → noRequest s c → posted s c →
     pagesAtRest s c → RefusedFor s c (expectedOrder s c) code →
     answers (.slotScan t c) s fun s' =>
       slotReads s' (slotAddr c (s.seq c).expected) 4 code.code (if code = .badRange then 7 else 0) 0 ∧
         s'.flagSet (.order c) = true ∧ flagsOnly [.order c] s s' ∧
         s'.seq c = { s.seq c with expected := otherSlot (s.seq c).expected } ∧
         memField s'.mem (statusAddr c + 3) 1 = (otherSlot (s.seq c).expected).val ∧
         changesOnly [.now, .summary, .seq c] s s' ∧
         storesOnly (answerBytes c (s.seq c).expected ++ [(statusAddr c, 4)]) s s') ∧
  ∀ (s : State) (t : Moment) (c : Chamber), eventAt .t1 t s → ¬ noRequest s c →
    (match memField s.mem (controlAddr c) 2 with
      | 1 => (s.seq c).run ≠ .waitLines ∧ (s.seq c).run ≠ .step
      | 2 => (s.seq c).run ≠ .waitLines ∧ (s.seq c).run ≠ .step
      | 3 => (s.seq c).run ≠ .held
      | 4 => (s.seq c).run ≠ .held
      | 5 => (s.seq c).run = .closing ∨ ((s.seq c).run = .idle ∧ (s.seq c).pumpTaken = false)
      | _ => True) → ¬ posted s c → pagesAtRest s c →
    answers (.slotScan t c) s fun s' =>
      s'.seq c = { s.seq c with lastRequest := memField s.mem (controlAddr c + 2) 2, requestResult := 2 } ∧
        memField s'.mem (statusAddr c + 8) 2 = 2 ∧
        memField s'.mem (statusAddr c + 6) 2 = memField s.mem (controlAddr c + 2) 2 ∧
        s'.flagSet (.order c) = true ∧ flagsOnly [.order c] s s' ∧ changesOnly [.now, .summary, .seq c] s s' ∧
        storesOnly [(statusAddr c + 4, 8)] s s'

/-- R19, R20, R22, R26, R46 to R52. A RUN_NEW that passes every check in ACTIVE, whose first record is no LOOP_BACK and
names no SHARED line, is taken, and its first step is running at the end of the event. -/
def Obligations.RunNewStartsItsFirstStep : Prop :=
  ∀ (s : State) (t : Moment) (c : Chamber) (o : Order) (r : StepRec), eventAt .t1 t s → PagesFit s → noRequest s c →
    posted s c → pagesAtRest s c → o = expectedOrder s c → o.kind = 1 → runOrderRefusal s c false o = none →
    (s.econ c).mode = .active → r = readStep s.mem o.first → r.isLoop = false → requestedLines s r = [] →
    noLineOpen s c → ownsNoLine s c →
    answers (.slotScan t c) s fun s' =>
      slotReads s' (slotAddr c (s.seq c).expected) 2 0 0 0 ∧
        (s'.seq c).slots[(s.seq c).expected] = .current ∧ (s'.seq c).expected = otherSlot (s.seq c).expected ∧
        ((s'.seq c).run = .step ∧ (s'.seq c).step = r ∧ (s'.seq c).pos = 0 ∧ (s'.seq c).stepIdx = o.first ∧
          (s'.seq c).timer = r.duration ∧ (s'.seq c).elapsed = 0 ∧ (s'.seq c).loop = [] ∧ (s'.seq c).saved = 0) ∧
        ((s'.seq c).seg = o.segment ∧ (s'.seq c).pendingSeg = none ∧ (s'.seq c).tag = o.tag ∧
          (s'.seq c).segNumber = 1 ∧ (s'.seq c).stepsRun = 0 ∧ (s'.seq c).rfTotal = 0 ∧ (s'.seq c).latch = false ∧
          (s'.seq c).second = .nil) ∧
        (memField s'.mem (statusAddr c) 1 = RunState.step.code ∧ s'.word (statusAddr c + 12) = o.tag ∧
          memField s'.mem (statusAddr c + 16) 2 = o.first ∧ memField s'.mem (statusAddr c + 20) 2 = r.duration) ∧
        (s'.rep c).next = ((s.rep c).next + 1) % 65536 ∧
        flagsOnly [.report c] s s' ∧
        changesOnly ([.now, .summary, .seq c, .rf c, .press c, .rep c] ++ allLines) s s' ∧
        storesOnly (answerBytes c (s.seq c).expected ++ [statusBytes c, reportBytes s.tables.partition c]) s s'

/-- R20, R24, R27. A RUN_CONTINUE that passes every check while the run is in STARTING, WAIT_LINES or STEP becomes the
pending segment. -/
def Obligations.ContinueBecomesThePendingSegment : Prop :=
  ∀ (s : State) (t : Moment) (c : Chamber) (o : Order), eventAt .t1 t s → noRequest s c → posted s c → pagesAtRest s c →
    o = expectedOrder s c → o.kind = 3 →
    (s.seq c).run = .starting ∨ (s.seq c).run = .waitLines ∨ (s.seq c).run = .step →
    (s.seq c).seg.isOpen = true → o.tag = (s.seq c).tag → segmentRefusal s c false o = none →
    answers (.slotScan t c) s fun s' =>
      slotReads s' (slotAddr c (s.seq c).expected) 2 0 0 0 ∧
        s'.seq c = { s.seq c with
          slots := (s.seq c).slots.set (s.seq c).expected .pending
          expected := otherSlot (s.seq c).expected
          pendingSeg := some o.segment
          pendFirstShown := o.first } ∧
        memField s'.mem (statusAddr c + 60) 2 = o.first ∧ memField s'.mem (statusAddr c + 62) 2 = o.count ∧
        changesOnly [.now, .seq c] s s' ∧
        storesOnly (answerBytes c (s.seq c).expected ++ [(statusAddr c, 4), (statusAddr c + 60, 4)]) s s'

/-- R20, R25, R111, R112, R114. A PUMP_DOWN taken from ISOLATED, VENTED or FAULT_HOLD: to CROSSOVER below Crossover
Pressure; else to SOFT_ROUGH where the rough line is free and the foreline is low; else to the end of the queue. -/
def Obligations.PumpDownBeginsRoughingOrCrossesOver : Prop :=
  ∀ (s : State) (t : Moment) (c : Chamber), eventAt .t1 t s → PagesFit s → noRequest s c → posted s c → pagesAtRest s c →
    (expectedOrder s c).kind = 4 → ¬ occupied s c → tripped s c 3 = false →
    (s.pump c).st = .isolated ∨ (s.pump c).st = .vented ∨ (s.pump c).st = .faultHold →
    answers (.slotScan t c) s fun s' =>
      slotReads s' (slotAddr c (s.seq c).expected) 2 0 0 0 ∧
        (s'.seq c).slots[(s.seq c).expected] = .pump false ∧ (s'.seq c).expected = otherSlot (s.seq c).expected ∧
        (if roughAtOrBelow s c (s.chamberCfg c).crossoverPressure then
          (s'.pump c).st = .crossover ∧ (s'.pump c).delay = some (s.chamberCfg c).crossoverDelay ∧
            (s'.pump c).limit = loadLimit (s.chamberCfg c).highVacLimit ∧ s'.rough = s.rough
        else if s.rough.holder = none then
          s'.rough = { s.rough with holder := some c } ∧
            (if forelineAllows s then
              (s'.pump c).st = .softRough ∧ (s'.pump c).paused = false ∧
                (s'.pump c).limit = loadLimit (s.chamberCfg c).softRoughLimit
            else (s'.pump c).st = .roughWait ∧ (s'.pump c).paused = true ∧ (s'.pump c).limit = none)
        else
          s'.rough = { s.rough with queue := s.rough.queue ++ [c] } ∧ (s'.pump c).st = .roughWait ∧
            (s'.pump c).paused = false ∧ (s'.pump c).limit = none) ∧
        memField s'.mem (statusAddr c + 1) 1 = (s'.pump c).st.code ∧
        (s'.rep c).next = ((s.rep c).next + 1) % 65536 ∧ flagsOnly [.report c] s s' ∧
        changesOnly [.now, .summary, .seq c, .pump c, .rep c, .rough] s s' ∧
        storesOnly (answerBytes c (s.seq c).expected ++
          [statusBytes c, (0x120, 8), reportBytes s.tables.partition c]) s s'

/-- R20, R25, R120. A VENT taken in ACTIVE from ISOLATED, PUMPED or FAULT_HOLD: VENTING with the gate and the vent valve
closed, the Vent Limit and the Gate Close Delay loaded. -/
def Obligations.VentBeginsWithTheValvesClosed : Prop :=
  ∀ (s : State) (t : Moment) (c : Chamber), eventAt .t1 t s → PagesFit s → noRequest s c → posted s c → pagesAtRest s c →
    (expectedOrder s c).kind = 5 → ¬ occupied s c → tripped s c 3 = false → (s.econ c).mode = .active →
    (s.pump c).st = .isolated ∨ (s.pump c).st = .pumped ∨ (s.pump c).st = .faultHold →
    answers (.slotScan t c) s fun s' =>
      slotReads s' (slotAddr c (s.seq c).expected) 2 0 0 0 ∧
        (s'.seq c).slots[(s.seq c).expected] = .pump false ∧ (s'.seq c).expected = otherSlot (s.seq c).expected ∧
        s'.pump c = { st := .venting, limit := loadLimit (s.chamberCfg c).ventLimit, limitMark := t
                      delay := some (s.chamberCfg c).gateCloseDelay, mark := t } ∧
        (s'.gateOpen c = false ∧ s'.ventOpen c = false) ∧ memField s'.mem (statusAddr c + 1) 1 = 8 ∧
        (s'.rep c).next = ((s.rep c).next + 1) % 65536 ∧ flagsOnly [.report c] s s' ∧
        changesOnly [.now, .summary, .seq c, .pump c, .rep c] s s' ∧
        storesOnly (answerBytes c (s.seq c).expected ++ [statusBytes c, reportBytes s.tables.partition c]) s s'

/-- R25, R82, R159, R160. A SET_MODE to ECONOMY taken in ACTIVE: the turbo-economy output asserted, the idle purge open
unless the gas inhibit stands or there is no purge line, PUMP set, the slot DONE with COMPLETE and Detail 7. -/
def Obligations.SetModeEntersEconomy : Prop :=
  ∀ (s : State) (t : Moment) (c : Chamber), eventAt .t1 t s → PagesFit s → noRequest s c → posted s c → pagesAtRest s c →
    (expectedOrder s c).kind = 6 → (expectedOrder s c).targetMode = 1 → ¬ occupied s c → (s.pump c).st = .pumped →
    (s.econ c).mode = .active →
    answers (.slotScan t c) s fun s' =>
      slotReads s' (slotAddr c (s.seq c).expected) 3 1 7 0 ∧ (s'.seq c).expected = otherSlot (s.seq c).expected ∧
        s'.turboEconomy c = true ∧ (s'.econ c).mode = .economy ∧ (s'.econ c).phase = .none ∧
        memField s'.mem (statusAddr c + 2) 1 = 1 ∧
        (∀ k, s'.line k =
          if s.purgeLine c = some k ∧ s.gasInhibit c = false then
            { s.line k with
              openTo := some c, source := .idlePurge, setpoint := (s.chamberCfg c).economyPurgeFlow, ramp := none
              command := commandCount (s.chamberCfg c).economyPurgeFlow (s.lineCfg k) }
          else s.line k) ∧
        (s'.flagSet (.pump c) = true ∧ s'.flagSet (.order c) = true ∧ flagsOnly [.pump c, .order c, .report c] s s') ∧
        (s'.rep c).next = ((s.rep c).next + 1) % 65536 ∧
        changesOnly ([.now, .summary, .seq c, .econ c, .rep c] ++ allLines) s s' ∧
        storesOnly (answerBytes c (s.seq c).expected ++ [statusBytes c, reportBytes s.tables.partition c]) s s'

/-- R33, R34, R36. HOLD_NOW in STEP, for a chamber that owns no shared line and whose expected slot is not POSTED: the
remaining count saved, RF off, every line of the chamber closed, the throttle open, the context record, HELD. -/
def Obligations.HoldNowFreezesTheStep : Prop :=
  ∀ (s : State) (t : Moment) (c : Chamber), eventAt .t1 t s → PagesFit s → ¬ noRequest s c →
    memField s.mem (controlAddr c) 2 = 1 → (s.seq c).run = .step → ¬ posted s c → pagesAtRest s c → ownsNoLine s c →
    answers (.slotScan t c) s fun s' =>
      ((s'.seq c).run = .held ∧ (s'.seq c).saved = (s.seq c).timer ∧ (s'.seq c).pos = (s.seq c).pos ∧
        (s'.seq c).loop = (s.seq c).loop ∧ (s'.seq c).latch = false ∧
        (s'.seq c).lastRequest = memField s.mem (controlAddr c + 2) 2 ∧ (s'.seq c).requestResult = 1) ∧
        ((s'.rf c).phase = .off ∧ (s'.rf c).output = 0 ∧ s'.rfEnable c = false) ∧
        ((s'.press c).target = 0 ∧ (s'.press c).throttleOpen = true ∧ (s'.press c).evaluating = false) ∧
        (∀ k, s'.line k = if (s.line k).openTo = some c then (s.line k).shut else s.line k) ∧
        (memField s'.mem (contextAddr c + 8) 2 = (s.seq c).pos % 65536 ∧
          memField s'.mem (contextAddr c + 12) 2 = (s.seq c).timer % 65536 ∧
          memField s'.mem (contextAddr c + 14) 2 = 48) ∧
        (memField s'.mem (statusAddr c) 1 = RunState.held.code ∧ memField s'.mem (statusAddr c + 8) 2 = 1) ∧
        (s'.rep c).next = ((s.rep c).next + 1) % 65536 ∧ s'.flagSet (.order c) = true ∧
        flagsOnly [.order c, .report c] s s' ∧
        changesOnly ([.now, .summary, .seq c, .rf c, .press c, .rep c] ++ allLines) s s' ∧
        storesOnly (closeBytes s c) s s'

/-- R29. A T3 event after the entry into GAP takes one from the gap timer; at its last count close-out begins with
GAP_EXPIRED and the segment's end as the context's position. R30, R31, R33, R38. ABORT in STEP, GAP or HELD, for a chamber
whose expected slot is not POSTED, begins close-out with ABORTED_HOST: no FAULT flag and no entry; that a line's fault that
the same T1 event reaches is then due is the model's reading (log 14). -/
def Obligations.GapExpiryAndAbortBeginCloseOut : Prop :=
  ((∀ (s : State) (t : Moment) (c : Chamber), eventAt .t3 t s → (s.seq c).run = .gap → 1 < (s.seq c).gap →
     (s.seq c).gapMark < t →
     answers (.gapTimerDecrement t c) s fun s' =>
       s'.seq c = { s.seq c with gap := (s.seq c).gap - 1, gapMark := t } ∧ changesOnly [.now, .seq c] s s' ∧
         keepsMemory s s') ∧
     (∀ (s : State) (t : Moment) (c : Chamber), eventAt .t3 t s → (s.seq c).run ≠ .gap ∨ t ≤ (s.seq c).gapMark →
       answers (.gapTimerDecrement t c) s fun s' => changesOnly [.now] s s' ∧ keepsMemory s s') ∧
     ∀ (i : Instr) (s : State) (t : Moment) (c : Chamber), i = .gapExpired t c ∨ i = .gapTimerDecrement t c →
       eventAt .t3 t s → PagesFit s → notWaiting s c → (s.seq c).run = .gap → (s.seq c).gap ≤ 1 → (s.seq c).gapMark < t →
       answers i s fun s' =>
         ClosesOut c .gapExpired 0 (s.seq c).seg.count 0 s s' ∧ (s'.rep c).next = ((s.rep c).next + 1) % 65536 ∧
           flagsOnly [.fault c, .report c] s s' ∧ changesOnly (closeParts c) s s' ∧ storesOnly (closeBytes s c) s s') ∧
  ∀ (s : State) (t : Moment) (c : Chamber), eventAt .t1 t s → ¬ noRequest s c → memField s.mem (controlAddr c) 2 = 5 →
    (s.seq c).run = .step ∨ (s.seq c).run = .gap ∨ (s.seq c).run = .held → notWaiting s c → ¬ posted s c →
    pagesAtRest s c →
    answers (.slotScan t c) s fun s' =>
      ClosesOut c .abortedHost 0 (s.seq c).closePoint.1 (s.seq c).closePoint.2 s s' ∧
        (s'.seq c).requestResult = 1 ∧ memField s'.mem (statusAddr c + 8) 2 = 1 ∧ s'.flagSet (.order c) = true ∧
        flagsOnly [.order c] s s' ∧
        changesOnly ([.now, .summary, .seq c, .rf c, .press c] ++ reachedLines (s.setNow t) c) s s' ∧
        storesOnly [statusBytes c, contextBytes c] s s'

/-! ### Steps, time bases and loops (spec/03) -/

/-- R45, R53, R54. A pulse edge in STEP on EXT takes one from the step timer and reloads the pulse-loss timer; in any other
condition it changes nothing. R56. While the endpoint is armed, an asserted sample at or below the dwell raises the count
by one and a sample not asserted clears it; while it is not armed nothing is sampled. -/
def Obligations.PulseEdgesAndEndpointSamplesCount : Prop :=
  ((∀ (s : State) (t : Moment) (c : Chamber), s.port.part = .running → (s.seq c).run = .step →
     (s.seq c).step.onExt = true → 1 < (s.seq c).timer →
     answers (.extEvent t c) s fun s' =>
       s'.seq c = { s.seq c with
         timer := (s.seq c).timer - 1, timerMark := max s.now t
         pulse := (s.chamberCfg c).pulseLossTime, pulseMark := max s.now t } ∧
         memField s'.mem (statusAddr c + 20) 2 = ((s.seq c).timer - 1) % 65536 ∧
         changesOnly [.now, .seq c] s s' ∧ storesOnly [(statusAddr c + 20, 4)] s s') ∧
     ∀ (s : State) (t : Moment) (c : Chamber),
       s.port.part = .halted ∨ (s.seq c).run ≠ .step ∨ (s.seq c).step.onExt = false →
       answers (.extEvent t c) s fun s' => changesOnly [.now] s s' ∧ keepsMemory s s') ∧
  (∀ (s : State) (t : Moment) (c : Chamber) (level : Bool), eventAt .t0 t s → (s.seq c).run = .step →
    (s.seq c).step.exitsEndpoint = true →
    (s.seq c).timer ≤ (s.seq c).step.duration - (s.seq c).step.endpointMin → (s.seq c).endpointMark < t →
    level = false ∨ (s.seq c).endpointCount + 1 ≤ (s.seq c).step.endpointDwell →
    answers (.endpointSample t c level) s fun s' =>
      s'.seq c = { s.seq c with
        endpointCount := if level then (s.seq c).endpointCount + 1 else 0, endpointMark := t } ∧
        s'.pins = { s.pins with endpoint := s.pins.endpoint.set c level } ∧
        changesOnly [.now, .seq c, .pins] s s' ∧ keepsMemory s s') ∧
    ∀ (s : State) (t : Moment) (c : Chamber) (level : Bool), eventAt .t0 t s →
      (s.seq c).run ≠ .step ∨ (s.seq c).step.exitsEndpoint = false ∨
        (s.seq c).step.duration - (s.seq c).step.endpointMin < (s.seq c).timer →
      answers (.endpointSample t c level) s fun s' => changesOnly [.now] s s' ∧ keepsMemory s s'

/-- R44. T0 falls at every moment after the reset, T1 at every tenth T0 event, T2 at every tenth T1 event, T3 at every
tenth T2 event. R53. An event of the step's own tap after the load takes one from the step timer and shows it; an event of
another tap, or at the moment of the load, is not counted. That a command carries its moment is the model's choice
(log 2). -/
def Obligations.StepTimerCountsItsOwnTap : Prop :=
  (∀ t : Moment, (tapFalls .t0 t = true ↔ 0 < t) ∧ (tapFalls .t1 t = true ↔ tapFalls .t0 t = true ∧ 10 ∣ t) ∧
     (tapFalls .t2 t = true ↔ tapFalls .t1 t = true ∧ 100 ∣ t) ∧ (tapFalls .t3 t = true ↔ tapFalls .t2 t = true ∧ 1000 ∣ t)) ∧
  (∀ (s : State) (t : Moment) (c : Chamber) (tap : Tap), eventAt .t0 t s → (s.seq c).run = .step →
    (s.seq c).step.tap? = some tap → tapFalls tap t = true → (s.seq c).timerMark < t → 1 < (s.seq c).timer →
    answers (.stepTimerDecrement t c) s fun s' =>
      s'.seq c = { s.seq c with timer := (s.seq c).timer - 1, timerMark := t } ∧
        memField s'.mem (statusAddr c + 20) 2 = ((s.seq c).timer - 1) % 65536 ∧
        changesOnly [.now, .seq c] s s' ∧ storesOnly [(statusAddr c + 20, 4)] s s') ∧
    ∀ (s : State) (t : Moment) (c : Chamber), eventAt .t0 t s →
      (s.seq c).run ≠ .step ∨ t ≤ (s.seq c).timerMark ∨ (∀ tap, (s.seq c).step.tap? = some tap → tapFalls tap t = false) →
      answers (.stepTimerDecrement t c) s fun s' => changesOnly [.now] s s' ∧ keepsMemory s s'

/-- R28, R31, R52 to R59, R64, R65, R77, R102. The end of a step by its exit mode: a TIME step at its last count, a
timed-out step without ABORT_ON_TIMEOUT, an ENDPOINT step at its last asserted sample, a PRESSURE_BELOW step at a low read,
and a STABLE step at the report that leaves every item stable. At the last position of a FINAL segment close-out then
begins with COMPLETE. Which rows carry a count's last event is the model's reading (log 13). -/
def Obligations.StepEndAtTheLastPositionClosesOutComplete : Prop :=
  (∀ (s : State) (t : Moment) (c : Chamber) (i : Instr), PagesFit s → notWaiting s c → (s.seq c).run = .step →
     (s.seq c).seg.isOpen = false → (s.seq c).seg.count ≤ (s.seq c).pos + 1 →
     ((i = .stepTimerExpiry t c ∨ i = .stepTimerDecrement t c) ∧ eventAt .t0 t s ∧ (s.seq c).timer = 1 ∧
         (s.seq c).timerMark < t ∧ (∃ tap, (s.seq c).step.tap? = some tap ∧ tapFalls tap t = true) ∧
         ((s.seq c).step.exitsTime = true ∨ (s.seq c).step.abortsOnTimeout = false)) ∨
       ((i = .endpointExit t c ∨ i = .endpointSample t c true) ∧ eventAt .t0 t s ∧ (s.seq c).step.exitsEndpoint = true ∧
         (s.seq c).timer ≤ (s.seq c).step.duration - (s.seq c).step.endpointMin ∧ (s.seq c).endpointMark < t ∧
         (s.seq c).step.endpointDwell < (s.seq c).endpointCount + 1) ∨
       (i = .pressureBelowRead t c ∧ eventAt .t1 t s ∧ (s.seq c).step.exitsPressure = true ∧
         ∃ v, s.freshAt (s.chamberCfg c).manometer = some v ∧ v ≤ (s.seq c).step.target * 100) →
     answers i s fun s' =>
       ClosesOut c .complete 0 (s.seq c).seg.count 0 s s' ∧ CountsStep c s s' ∧ flagsOnly [.report c] s s' ∧
         changesOnly (.pins :: closeParts c) s s' ∧ storesOnly (closeBytes s c) s s') ∧
  (∀ (s : State) (t : Moment) (c : Chamber) (k : LineId) (d : Nat) (i : Instr), PagesFit s → notWaiting s c →
    eventAt .t1 t s → (i = .lineStable t k ∨ i = .flowEvaluation t k) → (s.seq c).run = .step →
    (s.seq c).seg.isOpen = false → (s.seq c).seg.count ≤ (s.seq c).pos + 1 → (s.seq c).step.exitsStable = true →
    (s.line k).openTo = some c → (s.line k).source = .step → (s.line k).ramp = none → (s.line k).mark < t →
    (s.seq c).step.names k = true → (s.line k).dwell = some d → max d 1 ≤ (s.line k).inCount + 1 →
    (s.line k).stable = false → lineInBand s k = true →
    (∀ e ∈ (s.seq c).step.entries, e.1 ≠ k → (s.line e.1).stable = true) →
    (s.seq c).step.target = 0 ∨ (s.press c).stable = true →
    answers i s fun s' =>
      (s'.line k).stable = true ∧ ClosesOut c .complete 0 (s.seq c).seg.count 0 s s' ∧ CountsStep c s s' ∧
        flagsOnly [.report c] s s' ∧ changesOnly (.line k :: closeParts c) s s' ∧ storesOnly (closeBytes s c) s s') ∧
    ∀ (s : State) (t : Moment) (c : Chamber) (d : Nat) (i : Instr), PagesFit s → notWaiting s c → eventAt .t1 t s →
      (i = .pressureStable t c ∨ i = .pressureEvaluation t c) → (s.seq c).run = .step →
      (s.seq c).seg.isOpen = false → (s.seq c).seg.count ≤ (s.seq c).pos + 1 → (s.seq c).step.exitsStable = true →
      (s.press c).evaluating = true → (s.press c).mark < t → (s.press c).dwell = some d →
      max d 1 ≤ (s.press c).inCount + 1 → (s.press c).stable = false → pressureInBand s c = true →
      (∀ e ∈ (s.seq c).step.entries, (s.line e.1).stable = true) →
      answers i s fun s' =>
        (s'.press c).stable = true ∧ ClosesOut c .complete 0 (s.seq c).seg.count 0 s s' ∧ CountsStep c s s' ∧
          flagsOnly [.report c] s s' ∧ changesOnly (closeParts c) s s' ∧ storesOnly (closeBytes s c) s s'

/-- R47 to R52, R55, R64, R68, R73, R98. A TIME step that is not the last ends, and the next record, a GAS, PLASMA or
PUMP_OUT record that passes its tests and names no SHARED line, is running at the end of the event. Stated for a step
without REPORT, and for a chamber that has no line open but those the new record names and owns no shared line. -/
def Obligations.TimeStepEndStartsTheNextStep : Prop :=
  ∀ (s : State) (t : Moment) (c : Chamber) (tap : Tap) (r : StepRec), eventAt .t0 t s → (s.seq c).run = .step →
    (s.seq c).timer = 1 → (s.seq c).timerMark < t → (s.seq c).step.tap? = some tap → tapFalls tap t = true →
    (s.seq c).step.exitsTime = true → (s.seq c).step.reports = false → (s.seq c).latch = false →
    (s.seq c).pos + 1 < (s.seq c).seg.count → (s.seq c).seg.first + (s.seq c).seg.count ≤ 3328 →
    r = readStep s.mem ((s.seq c).seg.first + ((s.seq c).pos + 1)) →
    stepOk s.tables c (s.seq c).seg.first ((s.seq c).seg.first + ((s.seq c).pos + 1)) r = true → r.isLoop = false →
    requestedLines s r = [] → (∀ k, (s.line k).openTo = some c → r.names k = true) → ownsNoLine s c →
    s.gasInhibit c = false →
    answers (.stepTimerExpiry t c) s fun s' =>
      ((s'.seq c).run = .step ∧ (s'.seq c).step = r ∧ (s'.seq c).pos = (s.seq c).pos + 1 ∧
        (s'.seq c).stepIdx = (s.seq c).seg.first + ((s.seq c).pos + 1) ∧ (s'.seq c).loop = (s.seq c).loop ∧
        (s'.seq c).timer = (if (s.seq c).saved ≠ 0 then (s.seq c).saved else r.duration) ∧ (s'.seq c).saved = 0 ∧
        (s'.seq c).elapsed = 0 ∧ (s'.seq c).endpointCount = 0) ∧
        CountsStep c s s' ∧
        memField s'.mem (statusAddr c + 16) 2 = ((s.seq c).seg.first + ((s.seq c).pos + 1)) % 65536 ∧
        memField s'.mem (statusAddr c + 20) 2 = (s'.seq c).timer % 65536 ∧
        (∀ e ∈ r.entries, (s'.line e.1).openTo = some c ∧ (s'.line e.1).source = .step ∧
          (s'.line e.1).setpoint =
            (if r.flowRamp = 0 then e.2 else if (s.line e.1).openTo = some c then (s.line e.1).setpoint else 0) ∧
          (s'.line e.1).command = commandCount (s'.line e.1).setpoint (s.lineCfg e.1) ∧
          (s'.line e.1).inCount = 0 ∧ (s'.line e.1).stable = false ∧ (s'.line e.1).outCount = 0) ∧
        (∀ k, r.names k = false → s'.line k = s.line k) ∧
        ((s'.press c).target = (if r.isPumpOut then 0 else r.target) ∧
          (s'.press c).throttleOpen = decide ((s'.press c).target = 0) ∧
          (s'.press c).evaluating = decide ((s'.press c).target ≠ 0)) ∧
        (r.isPlasma = false → (s'.rf c).phase = .off ∧ (s'.rf c).output = 0) ∧
        changesOnly ([.now, .seq c, .rf c, .press c] ++ allLines) s s' ∧ storesOnly [statusBytes c] s s'

/-- R54. A T1 event in STEP on EXT takes one from the pulse-loss timer; at its last count PULSE_LOST begins close-out with
the step as its item. R31, R59. A timed-out step with ABORT_ON_TIMEOUT does not end: TIMEOUT_ABORT begins close-out, the
step is not counted, and the context holds its position with Remaining Count 0. That both make due the faults that a T1
event of the same moment reaches at the chamber's lines is the model's reading (log 14). -/
def Obligations.PulseLossAndTimeoutAbortCloseTheRunOut : Prop :=
  ((∀ (s : State) (t : Moment) (c : Chamber), eventAt .t1 t s → (s.seq c).run = .step → (s.seq c).step.onExt = true →
     (s.seq c).pulseMark < t → 1 < (s.seq c).pulse →
     answers (.pulseLossDecrement t c) s fun s' =>
       s'.seq c = { s.seq c with pulse := (s.seq c).pulse - 1, pulseMark := t } ∧ changesOnly [.now, .seq c] s s' ∧
         keepsMemory s s') ∧
     ∀ (i : Instr) (s : State) (t : Moment) (c : Chamber), i = .pulseLost t c ∨ i = .pulseLossDecrement t c →
       eventAt .t1 t s → PagesFit s → notWaiting s c → (s.seq c).run = .step → (s.seq c).step.onExt = true →
       (s.seq c).pulseMark < t → (s.seq c).pulse ≤ 1 →
       answers i s fun s' =>
         ClosesOut c .pulseLost (s.seq c).stepIdx (s.seq c).pos (s.seq c).timer s s' ∧
           (s'.rep c).next = ((s.rep c).next + 1) % 65536 ∧ flagsOnly [.fault c, .report c] s s' ∧
           changesOnly (closeParts c ++ reachedLines (s.setNow t) c) s s' ∧ storesOnly (closeBytes s c) s s') ∧
  ∀ (s : State) (t : Moment) (c : Chamber) (tap : Tap), eventAt .t0 t s → PagesFit s → notWaiting s c →
    (s.seq c).run = .step → (s.seq c).timer = 1 → (s.seq c).timerMark < t → (s.seq c).step.tap? = some tap →
    tapFalls tap t = true → (s.seq c).step.exitsTime = false → (s.seq c).step.abortsOnTimeout = true →
    answers (.stepTimerExpiry t c) s fun s' =>
      ClosesOut c .timeoutAbort (s.seq c).stepIdx (s.seq c).pos 0 s s' ∧ (s'.seq c).timer = 0 ∧
        (s'.seq c).stepsRun = (s.seq c).stepsRun ∧ (s'.seq c).segDone = (s.seq c).segDone ∧
        (s'.rep c).next = ((s.rep c).next + 1) % 65536 ∧ flagsOnly [.fault c, .report c] s s' ∧
        changesOnly (closeParts c ++ reachedLines (s.setNow t) c) s s' ∧ storesOnly (closeBytes s c) s s'

/-! ### Gas lines (spec/04) -/

/-- R73, R127. The ramp formula stays between its ends, and is exactly its end value at its last event. R69, R98, R126. The
three output scalings are quotients rounded half up: floor(x + 1/2), with the flow and pressure counts held at 4095. -/
def Obligations.RampsAndOutputScalings : Prop :=
  (∀ start stop k n : Nat, 0 < n → k ≤ n →
     min start stop ≤ rampValue start stop k n ∧ rampValue start stop k n ≤ max start stop ∧
       rampValue start stop n n = stop) ∧
  (∀ (setpoint : Nat) (cfg : LineCfg), 0 < cfg.gcf * cfg.fullScale →
    commandCount setpoint cfg ≤ 4095 ∧
      ∀ q, (2 * q * (cfg.gcf * cfg.fullScale) ≤ 2 * setpoint * 4095000 + cfg.gcf * cfg.fullScale ∧
        2 * setpoint * 4095000 + cfg.gcf * cfg.fullScale < 2 * (q + 1) * (cfg.gcf * cfg.fullScale)) →
        commandCount setpoint cfg = min q 4095 ∧ commandClamps setpoint cfg = decide (4095 < q)) ∧
    (∀ target span : Nat, 0 < span →
      pressureOutput target span ≤ 4095 ∧
        ∀ q, (2 * q * span ≤ 2 * target * 409500 + span ∧ 2 * target * 409500 + span < 2 * (q + 1) * span) →
          0 < target →
          pressureOutput target span = min q 4095 ∧ pressureClamps target span = decide (4095 < q)) ∧
    ∀ power span : Nat, 0 < span → power ≤ span →
      rfCount power span ≤ 4095 ∧ 2 * rfCount power span * span ≤ 2 * power * 4095 + span ∧
        2 * power * 4095 + span < 2 * (rfCount power span + 1) * span

/-- R67. The valves of a line follow its Open-to and the Line Arbiter's state. R107. The vacuum valves follow the pump
state, with the law between them. -/
def Obligations.ValvesFollowTheirBlocks : Prop :=
  (∀ (s : State) (k : LineId),
     (s.shutoffOpen k = true ↔ ∃ c, (s.line k).openTo = some c) ∧
       (∀ c, s.divertOpen k c = true ↔ (s.lineCfg k).use = 2 ∧ (s.line k).openTo = some c) ∧
       (s.purgeValveOpen k = true ↔ ∃ n m, s.arb k = .purging n m) ∧
       ∀ c d, s.divertOpen k c = true → s.divertOpen k d = true → c = d) ∧
  ∀ (s : State) (c : Chamber),
    (s.softRoughOpen c = true ↔ ((s.pump c).st = .softRough ∨ (s.pump c).st = .fastRough) ∧ (s.pump c).paused = false) ∧
      (s.fastRoughOpen c = true ↔ (s.pump c).st = .fastRough ∧ (s.pump c).paused = false) ∧
      (s.gateOpen c = true ↔ (s.pump c).st = .highVac ∨ (s.pump c).st = .pumped) ∧
      (s.ventOpen c = true ↔ (s.pump c).st = .venting ∧ (s.pump c).ventOpened = true) ∧
      (s.gateOpen c = true → s.softRoughOpen c = false ∧ s.fastRoughOpen c = false ∧ s.ventOpen c = false) ∧
      (s.ventOpen c = true → s.softRoughOpen c = false ∧ s.fastRoughOpen c = false)

/-- R75. The band, the judgement against it, and the evaluation that uses it at the setpoint of that moment. -/
def Obligations.FlowBandJudgesEachEvaluation : Prop :=
  (∀ (s : State) (k : LineId),
    flowBand (s.line k).setpoint (s.lineCfg k) =
      max ((s.line k).setpoint * (s.lineCfg k).tolerance / 1000) ((s.lineCfg k).fullScale / 200)) ∧
    (∀ cfg : LineCfg, flowBand 0 cfg = cfg.fullScale / 200) ∧
    (∀ (s : State) (k : LineId), lineInBand s k = true ↔
      s.staleAt (s.lineCfg k).readback = false ∧
        ((s.flowAt k : Int) - (s.line k).setpoint).natAbs ≤ flowBand (s.line k).setpoint (s.lineCfg k)) ∧
    ∀ (s : State) (t : Moment) (c : Chamber) (k : LineId), eventAt .t1 t s → (s.line k).openTo = some c →
      (s.line k).source = .step → (s.line k).ramp = none → (s.line k).mark < t → (s.seq c).run = .step →
      (s.seq c).step.names k = true → (s.line k).dwell = none → 0 < (s.lineCfg k).faultTime →
      answers (.flowEvaluation t k) s fun s' => (s'.line k).outCount = 0 ↔ lineInBand s k = true

/-- R73, R76, R78. A line's T1 event: while the ramp has more than one event left, its next value and command; with no ramp,
one evaluation that clears the out-of-band count or raises it, with the fault due when it reaches Fault Time. That the
evaluation only marks the fault due, and another row delivers it, is the model's reading (log 14). R77. In a STABLE step the
evaluation that brings the in-band count to max(d, 1) makes the line stable; while another item is not stable the step runs
on. -/
def Obligations.FlowEventRampsOrEvaluates : Prop :=
  ((∀ (s : State) (t : Moment) (c : Chamber) (k : LineId) (r : Ramp), eventAt .t1 t s → (s.line k).openTo = some c →
     (s.line k).mark < t → (s.line k).ramp = some r → r.taken + 1 < r.len →
     answers (.flowEvaluation t k) s fun s' =>
       s'.line k = { s.line k with
         setpoint := rampValue r.start r.stop (r.taken + 1) r.len
         ramp := some { r with taken := r.taken + 1 }
         command := commandCount (rampValue r.start r.stop (r.taken + 1) r.len) (s.lineCfg k)
         clamped := (s.line k).clamped ||
           (decide ((s.line k).source = .step ∧ (s.seq c).run = .step) &&
             commandClamps (rampValue r.start r.stop (r.taken + 1) r.len) (s.lineCfg k))
         mark := t } ∧ changesOnly [.now, .line k] s s' ∧ keepsMemory s s') ∧
     (∀ (s : State) (t : Moment) (c : Chamber) (k : LineId), eventAt .t1 t s → (s.line k).openTo = some c →
       (s.line k).source = .step → (s.line k).ramp = none → (s.line k).mark < t → (s.seq c).run = .step →
       (s.seq c).step.names k = true → (s.line k).dwell = none →
       answers (.flowEvaluation t k) s fun s' =>
         s'.line k =
           (if lineInBand s k then { s.line k with outCount := 0, mark := t }
           else
             { s.line k with
               outCount := min ((s.line k).outCount + 1) (s.lineCfg k).faultTime
               faultDue :=
                 if min ((s.line k).outCount + 1) (s.lineCfg k).faultTime = (s.lineCfg k).faultTime then some c
                 else (s.line k).faultDue
               mark := t }) ∧ changesOnly [.now, .line k] s s' ∧ keepsMemory s s') ∧
     ∀ (s : State) (t : Moment) (k : LineId), eventAt .t1 t s → (s.line k).openTo = none ∨ t ≤ (s.line k).mark →
       answers (.flowEvaluation t k) s fun s' => changesOnly [.now] s s' ∧ keepsMemory s s') ∧
  ∀ (s : State) (t : Moment) (c : Chamber) (k m : LineId) (d : Nat) (i : Instr), eventAt .t1 t s →
    i = .lineStable t k ∨ i = .flowEvaluation t k → (s.line k).openTo = some c → (s.line k).source = .step →
    (s.line k).ramp = none → (s.line k).mark < t → (s.seq c).run = .step → (s.seq c).step.names k = true →
    (s.line k).dwell = some d → max d 1 ≤ (s.line k).inCount + 1 → (s.line k).stable = false → lineInBand s k = true →
    m ≠ k → (s.seq c).step.names m = true → (s.line m).stable = false →
    answers i s fun s' =>
      s'.line k = { s.line k with
        outCount := 0, inCount := min ((s.line k).inCount + 1) 255, stable := true, mark := t } ∧
        changesOnly [.now, .line k] s s' ∧ keepsMemory s s'

/-! ### Shared lines (spec/05) -/

/-- R90, R94. A T1 event after the release takes one from a PURGING line's handover timer; at its last count, with no
chamber waiting, the line becomes FREE and the image shows it. R50, R91. The walk at a purge's end grants the oldest waiter
whose whole set is then FREE: its lines OWNED, its entry gone, its step running with the Duration Count of the record that
it waited with. The grant is stated for one waiter. -/
def Obligations.HandoverPurgeEndsInAFreeLineOrAGrant : Prop :=
  ((∀ (s : State) (t : Moment) (k : LineId) (n : Nat) (m : Moment), eventAt .t1 t s → s.arb k = .purging n m → m < t →
     1 < n →
     answers (.handoverTimerDecrement t k) s fun s' =>
       s'.arb k = .purging (n - 1) t ∧ s'.purgeValveOpen k = true ∧ changesOnly [.now, .arb k] s s' ∧ keepsMemory s s') ∧
     (∀ (i : Instr) (s : State) (t : Moment) (k : LineId) (n : Nat) (m : Moment),
       i = .handoverPurgeEnd t k ∨ i = .handoverTimerDecrement t k → eventAt .t1 t s → s.arb k = .purging n m → m < t →
       n ≤ 1 → s.waitQueue = [] →
       answers i s fun s' =>
         s'.arb k = .free ∧ s'.purgeValveOpen k = false ∧ memField s'.mem (0x100 + 2 * k.val) 2 = 0 ∧
           changesOnly [.now, .arb k] s s' ∧ storesOnly [(0x100 + 4 * (k.val / 2), 4)] s s') ∧
     ∀ (s : State) (t : Moment) (k : LineId), eventAt .t1 t s → (∀ n m, s.arb k = .purging n m → t ≤ m) →
       answers (.handoverTimerDecrement t k) s fun s' => changesOnly [.now] s s' ∧ keepsMemory s s') ∧
  ∀ (s : State) (t : Moment) (k : LineId) (n : Nat) (m : Moment) (w : WaitEntry), eventAt .t1 t s →
    s.arb k = .purging n m → m < t → n ≤ 1 → s.waitQueue = [w] → k ∈ w.set →
    (∀ j ∈ w.set, j ≠ k → s.arb j = .free) → (s.seq w.chamber).saved = 0 →
    answers (.handoverPurgeEnd t k) s fun s' =>
      (∀ j, s'.arb j = if j ∈ w.set then .owned w.chamber else s.arb j) ∧ s'.waitQueue = [] ∧
        s'.word 0x128 = 0 ∧ s'.word 0x12C = 0 ∧
        (∀ j ∈ w.set, memField s'.mem (0x100 + 2 * j.val) 2 = 1 + 256 * (w.chamber.val + 1)) ∧
        ((s'.seq w.chamber).run = .step ∧ (s'.seq w.chamber).step = (s.seq w.chamber).step ∧
          (s'.seq w.chamber).timer = (s.seq w.chamber).step.duration) ∧
        memField s'.mem (statusAddr w.chamber) 1 = RunState.step.code ∧
        changesOnly ([.now, .waitQueue, .seq w.chamber, .rf w.chamber, .press w.chamber] ++ allLines ++
          (List.finRange 16).map .arb) s s' ∧
        storesOnly [(0x100, 32), (0x128, 8), statusBytes w.chamber] s s'

/-! ### Chamber pressure (spec/06) -/

/-- R101, R103. A Pressure Channel's T1 event while Evaluating, in a step that is not STABLE: the settle count first, which
arms the fault at its last count; then the evaluation, counted only while armed. That the evaluation at which the count
reaches Pressure Fault Time only marks the fault due, and another row delivers it, is the model's reading (log 14). R100.
The band of a target and the judgement against it, which the evaluation uses. -/
def Obligations.PressureEvaluationSettlesThenJudges : Prop :=
  ((∀ (s : State) (t : Moment) (c : Chamber) (i : Instr) (armed : Bool) (n : Nat), eventAt .t1 t s →
     (i = .pressureEvaluation t c ∨
       (i = .pressureFaultArmed t c ∧ (s.press c).settle = 1 ∧ (s.press c).armed = false ∧
         (s.chamberCfg c).pressureFaultTime ≠ 0)) →
     (s.press c).evaluating = true → (s.press c).mark < t → (s.press c).dwell = none →
     armed = ((s.press c).armed || decide ((s.press c).settle = 1 ∧ (s.chamberCfg c).pressureFaultTime ≠ 0)) →
     n = (if armed then min ((s.press c).outCount + 1) (s.chamberCfg c).pressureFaultTime else (s.press c).outCount) →
     answers i s fun s' =>
       s'.press c =
         (if pressureInBand s c then
           { s.press c with
             settle := if (s.press c).armed then (s.press c).settle else (s.press c).settle - 1
             armed := armed
             outCount := if armed then 0 else (s.press c).outCount
             mark := t }
         else
           { s.press c with
             settle := if (s.press c).armed then (s.press c).settle else (s.press c).settle - 1
             armed := armed
             outCount := n
             faultDue := (s.press c).faultDue || (armed && decide (n = (s.chamberCfg c).pressureFaultTime))
             evaluating := !(armed && decide (n = (s.chamberCfg c).pressureFaultTime))
             mark := t }) ∧
         changesOnly [.now, .press c] s s' ∧ keepsMemory s s') ∧
     ∀ (s : State) (t : Moment) (c : Chamber), eventAt .t1 t s → (s.press c).evaluating = false ∨ t ≤ (s.press c).mark →
       answers (.pressureEvaluation t c) s fun s' => changesOnly [.now] s s' ∧ keepsMemory s s') ∧
  (∀ (target : Nat) (cfg : ChamberCfg),
    pressureBand target cfg = max (target * 100 * cfg.pressureTolerance / 1000) cfg.minimumBand) ∧
    (∀ (s : State) (c : Chamber), pressureInBand s c = true ↔
      s.staleAt (s.chamberCfg c).manometer = false ∧
        ((s.valueAt (s.chamberCfg c).manometer : Int) - (s.press c).target * 100).natAbs ≤
          pressureBand (s.press c).target (s.chamberCfg c)) ∧
    ∀ (s : State) (t : Moment) (c : Chamber) (d : Nat), eventAt .t1 t s → (s.press c).evaluating = true →
      (s.press c).mark < t → (s.press c).dwell = some d → (s.press c).stable = true → (s.press c).armed = false →
      answers (.pressureEvaluation t c) s fun s' => (s'.press c).stable = pressureInBand s c

/-- R30, R78, R79, R103, R104. A FLOW_FAULT or PRESSURE_FAULT that an evaluation has reached begins close-out, with the
line or the current step as its item; another line's fault that the same T1 event reaches is then due, and a run that is
CLOSING records it as its second fault. That the fault's row delivers it, and makes such a fault of its event due, is the
model's reading (log 14). -/
def Obligations.FlowAndPressureFaultsCloseTheRunOut : Prop :=
  ((∀ (s : State) (t : Moment) (c : Chamber) (k : LineId), eventAt .t1 t s → PagesFit s → notWaiting s c →
     (s.line k).faultDue = some c → (s.seq c).run.faults = true →
     answers (.flowFault t k) s fun s' =>
       ClosesOut c .flowFault (k.val + 1) (s.seq c).closePoint.1 (s.seq c).closePoint.2 s s' ∧
         (s'.line k).faultDue = none ∧ (s'.rep c).next = ((s.rep c).next + 1) % 65536 ∧
         (∀ j, lineReaches (s.setNow t) j c = true → (s'.line j).faultDue = some c) ∧
         flagsOnly [.fault c, .report c] s s' ∧
         changesOnly (.line k :: closeParts c ++ reachedLines (s.setNow t) c) s s' ∧ storesOnly (closeBytes s c) s s') ∧
     ∀ (s : State) (t : Moment) (c : Chamber) (k : LineId), eventAt .t1 t s → (s.line k).faultDue = some c →
       (s.seq c).run = .closing →
       answers (.flowFault t k) s fun s' =>
         s'.seq c = { s.seq c with second := if (s.seq c).second = .nil then .flowFault else (s.seq c).second } ∧
           s'.line k = { s.line k with faultDue := none } ∧ changesOnly [.now, .seq c, .line k] s s' ∧ keepsMemory s s') ∧
  (∀ (s : State) (t : Moment) (c : Chamber), eventAt .t1 t s → PagesFit s → notWaiting s c →
    (s.press c).faultDue = true → (s.seq c).run.faults = true →
    answers (.pressureFault t c) s fun s' =>
      ClosesOut c .pressureFault (s.seq c).stepIdx (s.seq c).closePoint.1 (s.seq c).closePoint.2 s s' ∧
        (s'.press c).faultDue = false ∧ (s'.rep c).next = ((s.rep c).next + 1) % 65536 ∧
        (∀ j, lineReaches (s.setNow t) j c = true → (s'.line j).faultDue = some c) ∧
        flagsOnly [.fault c, .report c] s s' ∧
        changesOnly (closeParts c ++ reachedLines (s.setNow t) c) s s' ∧ storesOnly (closeBytes s c) s s') ∧
    ∀ (s : State) (t : Moment) (c : Chamber), eventAt .t1 t s → (s.press c).faultDue = true →
      (s.seq c).run = .closing →
      answers (.pressureFault t c) s fun s' =>
        s'.seq c = { s.seq c with second := if (s.seq c).second = .nil then .pressureFault else (s.seq c).second } ∧
          s'.press c = { s.press c with faultDue := false } ∧ changesOnly [.now, .seq c, .press c] s s' ∧
          keepsMemory s s'

/-! ### Pumpdown, rough line and venting (spec/07) -/

/-- R106, R108, R115, R118. The threshold tests of a pump machine's T1 event, the foreline low and the turbo at speed:
SOFT_ROUGH to FAST_ROUGH, either to CROSSOVER with the rough line released (stated with no chamber waiting), and HIGH_VAC
to PUMPED with PUMP set. -/
def Obligations.PumpdownPassesItsThresholds : Prop :=
  (∀ (s : State) (t : Moment) (c : Chamber) (turbo : Bool) (v : Nat), eventAt .t1 t s → PagesFit s →
    (s.pump c).mark < t → (s.pump c).st = .softRough → (s.pump c).paused = false → forelineAllows s = true →
    s.freshAt (s.chamberCfg c).roughGauge = some v → (s.chamberCfg c).crossoverPressure < v →
    v ≤ (s.chamberCfg c).softRoughPressure →
    answers (.pumpMachineT1 t c turbo) s fun s' =>
      s'.pump c = { st := .fastRough, limit := loadLimit (s.chamberCfg c).fastRoughLimit, limitMark := t, mark := t } ∧
        memField s'.mem (statusAddr c + 1) 1 = 4 ∧ (s'.rep c).next = ((s.rep c).next + 1) % 65536 ∧
        flagsOnly [.report c] s s' ∧ changesOnly [.now, .pins, .summary, .pump c, .rep c] s s' ∧
        storesOnly [statusBytes c, reportBytes s.tables.partition c] s s') ∧
    (∀ (s : State) (t : Moment) (c : Chamber) (turbo : Bool) (v : Nat), eventAt .t1 t s → PagesFit s →
      (s.pump c).mark < t → (s.pump c).st = .softRough ∨ (s.pump c).st = .fastRough → (s.pump c).paused = false →
      forelineAllows s = true → s.freshAt (s.chamberCfg c).roughGauge = some v →
      v ≤ (s.chamberCfg c).crossoverPressure → s.rough = { holder := some c, queue := [] } →
      answers (.pumpMachineT1 t c turbo) s fun s' =>
        s'.pump c = { st := .crossover, limit := loadLimit (s.chamberCfg c).highVacLimit, limitMark := t
                      delay := some (s.chamberCfg c).crossoverDelay, mark := t } ∧
          s'.rough = { holder := none, queue := [] } ∧ s'.word 0x120 = 0 ∧ s'.word 0x124 = 0 ∧
          memField s'.mem (statusAddr c + 1) 1 = 5 ∧ (s'.rep c).next = ((s.rep c).next + 1) % 65536 ∧
          flagsOnly [.report c] s s' ∧ changesOnly [.now, .pins, .summary, .pump c, .rep c, .rough] s s' ∧
          storesOnly [statusBytes c, (0x120, 8), reportBytes s.tables.partition c] s s') ∧
    ∀ (s : State) (t : Moment) (c : Chamber) (v : Nat), eventAt .t1 t s → PagesFit s → (s.pump c).mark < t →
      (s.pump c).st = .highVac → s.freshAt (s.chamberCfg c).manometer = some v → v ≤ (s.chamberCfg c).basePressure →
      answers (.pumpMachineT1 t c true) s fun s' =>
        (s'.pump c).st = .pumped ∧ (s'.pump c).limit = none ∧ s'.gateOpen c = true ∧ s'.flagSet (.pump c) = true ∧
          memField s'.mem (statusAddr c + 1) 1 = 7 ∧ (s'.rep c).next = ((s.rep c).next + 1) % 65536 ∧
          (∀ i, (s.seq c).slotWith SlotHold.isPump = some i →
            slotReads s' (slotAddr c i) 3 1 7 0 ∧ (s'.seq c).slots[i] = .free ∧ s'.flagSet (.order c) = true) ∧
          flagsOnly [.pump c, .order c, .report c] s s' ∧
          changesOnly [.now, .pins, .summary, .seq c, .pump c, .rep c] s s' ∧
          storesOnly [statusBytes c, slotBytes c, reportBytes s.tables.partition c] s s'

/-- R108, R109, R116. The foreline guard pauses a roughing machine when the foreline is stale or above Foreline Limit, with
its pump state and its limit count kept and its rough valves closed, and leaves it paused until the foreline has fallen to
both Foreline Resume and Foreline Limit. R110, R119. A turbo loss in PUMPED with the mode ACTIVE puts the machine in
FAULT_HOLD with the gate closed and FAULT set; in ECONOMY the input is not watched. The loss is stated for a chamber outside
the rough line whose run is IDLE, with no pump order TAKEN. -/
def Obligations.ForelineGuardAndTurboLoss : Prop :=
  ((∀ (s : State) (t : Moment) (c : Chamber) (turbo : Bool), eventAt .t1 t s → (s.pump c).mark < t →
     (s.pump c).st = .softRough ∨ (s.pump c).st = .fastRough → (s.pump c).paused = false → forelineAllows s = false →
     answers (.pumpMachineT1 t c turbo) s fun s' =>
       s'.pump c = { s.pump c with paused := true, mark := t } ∧ s'.softRoughOpen c = false ∧
         s'.fastRoughOpen c = false ∧ memField s'.mem (statusAddr c + 4) 1 % 2 = 1 ∧
         changesOnly [.now, .pins, .pump c] s s' ∧ storesOnly [(statusAddr c + 4, 4)] s s') ∧
     ∀ (s : State) (t : Moment) (c : Chamber) (turbo : Bool), eventAt .t1 t s → (s.pump c).mark < t →
       (s.pump c).st = .softRough ∨ (s.pump c).st = .fastRough → (s.pump c).paused = true →
       (∀ v, s.foreline = some v → (s.chamberCfg 0).forelineResume < v ∨ (s.chamberCfg 0).forelineLimit < v) →
       answers (.pumpMachineT1 t c turbo) s fun s' =>
         s'.pump c = { s.pump c with mark := t } ∧ changesOnly [.now, .pins, .pump c] s s' ∧ keepsMemory s s') ∧
  (∀ (s : State) (t : Moment) (c : Chamber), eventAt .t1 t s → PagesFit s → (s.pump c).mark < t →
    (s.pump c).st = .pumped → (s.econ c).mode = .active → (s.seq c).run = .idle →
    (s.seq c).slotWith SlotHold.isPump = none → s.rough.holder ≠ some c → c ∉ s.rough.queue →
    answers (.pumpMachineT1 t c false) s fun s' =>
      s'.pump c = { st := .faultHold, mark := t } ∧ s'.gateOpen c = false ∧ s'.flagSet (.fault c) = true ∧
        memField s'.mem (statusAddr c + 1) 1 = 9 ∧ (s'.rep c).next = ((s.rep c).next + 1) % 65536 ∧
        flagsOnly [.fault c, .report c] s s' ∧ changesOnly [.now, .pins, .summary, .pump c, .rep c] s s' ∧
        storesOnly [statusBytes c, reportBytes s.tables.partition c] s s') ∧
    ∀ (s : State) (t : Moment) (c : Chamber) (turbo : Bool), eventAt .t1 t s → (s.pump c).mark < t →
      (s.pump c).st = .pumped → (s.econ c).mode = .economy →
      answers (.pumpMachineT1 t c turbo) s fun s' =>
        s'.pump c = { s.pump c with mark := t } ∧ changesOnly [.now, .pins, .pump c] s s' ∧ keepsMemory s s'

/-- R117, R120. The T1 event that meets the Crossover Delay opens the gate when the turbo is at speed and waits when it is
not; the one that meets the Gate Close Delay opens the vent valve. R109, R110. A T3 event after the load takes one from the
stage limit, none while PAUSED; at its last count the machine enters FAULT_HOLD with the TAKEN order answered PUMP_TIMEOUT
and the stage's code. The timeout is stated for a machine outside the rough line. -/
def Obligations.PumpDelaysAndLimitsCount : Prop :=
  ((∀ (i : Instr) (s : State) (t : Moment) (c : Chamber), i = .crossoverDelayEnd t c true ∨ i = .pumpMachineT1 t c true →
     eventAt .t1 t s → PagesFit s → (s.pump c).mark < t → (s.pump c).st = .crossover → (s.pump c).delay = some 1 →
     answers i s fun s' =>
       (s'.pump c).st = .highVac ∧ (s'.pump c).limit = (s.pump c).limit ∧ s'.gateOpen c = true ∧
         memField s'.mem (statusAddr c + 1) 1 = 6 ∧ (s'.rep c).next = ((s.rep c).next + 1) % 65536 ∧
         flagsOnly [.report c] s s' ∧ changesOnly [.now, .pins, .summary, .pump c, .rep c] s s' ∧
         storesOnly [statusBytes c, reportBytes s.tables.partition c] s s') ∧
     (∀ (i : Instr) (s : State) (t : Moment) (c : Chamber),
       i = .crossoverDelayEnd t c false ∨ i = .pumpMachineT1 t c false → eventAt .t1 t s → (s.pump c).mark < t →
       (s.pump c).st = .crossover → (s.pump c).delay = some 1 →
       answers i s fun s' =>
         s'.pump c = { s.pump c with delay := some 0, mark := t } ∧ changesOnly [.now, .pins, .pump c] s s' ∧
           keepsMemory s s') ∧
     ∀ (s : State) (t : Moment) (c : Chamber), eventAt .t1 t s → (s.pump c).mark < t → (s.pump c).st = .venting →
       (s.pump c).ventOpened = false → (s.pump c).delay = some 1 ∨ (s.pump c).delay = some 0 →
       answers (.gateCloseDelayEnd t c) s fun s' =>
         s'.pump c = { s.pump c with delay := none, ventOpened := true, mark := t } ∧ s'.ventOpen c = true ∧
           changesOnly [.now, .pump c] s s' ∧ keepsMemory s s') ∧
  (∀ (s : State) (t : Moment) (c : Chamber) (n : Nat), eventAt .t3 t s → (s.pump c).limit = some n →
    (s.pump c).limitMark < t → 1 < n ∨ (s.pump c).paused = true →
    answers (.stageLimitDecrement t c) s fun s' =>
      s'.pump c = { s.pump c with limit := some (if (s.pump c).paused then n else n - 1), limitMark := t } ∧
        changesOnly [.now, .pump c] s s' ∧ keepsMemory s s') ∧
    (∀ (s : State) (t : Moment) (c : Chamber), eventAt .t3 t s →
      (s.pump c).limit = none ∨ t ≤ (s.pump c).limitMark →
      answers (.stageLimitDecrement t c) s fun s' => changesOnly [.now] s s' ∧ keepsMemory s s') ∧
    ∀ (i : Instr) (s : State) (t : Moment) (c : Chamber) (n : Nat), i = .pumpTimeout t c ∨ i = .stageLimitDecrement t c →
      eventAt .t3 t s → PagesFit s → (s.pump c).limit = some n → n ≤ 1 → (s.pump c).limitMark < t →
      (s.pump c).paused = false → (s.pump c).st ≠ .faultHold → s.rough.holder ≠ some c → c ∉ s.rough.queue →
      answers i s fun s' =>
        s'.pump c = { st := .faultHold, mark := t } ∧ s'.flagSet (.fault c) = true ∧
          memField s'.mem (statusAddr c + 1) 1 = 9 ∧ (s'.rep c).next = ((s.rep c).next + 1) % 65536 ∧
          (∀ j, (s.seq c).slotWith SlotHold.isPump = some j →
            slotReads s' (slotAddr c j) 3 19 (s.pump c).st.code 0 ∧ (s'.seq c).slots[j] = .free ∧
              s'.flagSet (.order c) = true) ∧
          flagsOnly [.fault c, .order c, .report c] s s' ∧
          changesOnly [.now, .summary, .seq c, .pump c, .rep c] s s' ∧
          storesOnly [statusBytes c, slotBytes c, reportBytes s.tables.partition c] s s'

/-! ### RF and plasma (spec/08) -/

/-- R127, R130. A T1 event in STRIKING: the ramp's step first, then the test of the forward power against
floor(E × Strike Ratio / 1000) and of the reflected power against its limit. Met, the plasma is STRUCK with RF on; not met,
the window is one test shorter. -/
def Obligations.StrikeTestStrikesOrCountsTheWindow : Prop :=
  (∀ (x : Rf) (span : Nat) (t : Moment),
    (x.ramp = none ∨ t ≤ x.rampMark → x.ramped span t = x) ∧
      ∀ r, x.ramp = some r → x.rampMark < t →
        x.ramped span t = { x with
          power := rampValue r.start r.stop (r.taken + 1) r.len
          ramp := if r.taken + 1 < r.len then some { r with taken := r.taken + 1 } else none
          output := (rampValue r.start r.stop (r.taken + 1) r.len * 4095 + span / 2) / span }) ∧
    (∀ (s : State) (t : Moment) (c : Chamber) (x : Rf), eventAt .t1 t s → (s.rf c).phase = .striking →
      (s.rf c).mark < t → x = (s.rf c).ramped (s.chamberCfg c).rfSpan t →
      ((∃ f r, s.freshAt (s.chamberCfg c).forward = some f ∧ s.freshAt (s.chamberCfg c).reflected = some r ∧
          x.power * (s.chamberCfg c).strikeRatio / 1000 ≤ f ∧ r ≤ (s.chamberCfg c).reflectedLimit) →
        answers (.strikeTest t c) s fun s' =>
          s'.rf c = { x with phase := .struck, window := 0, mark := t } ∧ s'.rfEnable c = true ∧
            changesOnly [.now, .rf c] s s' ∧ keepsMemory s s') ∧
        (¬ (∃ f r, s.freshAt (s.chamberCfg c).forward = some f ∧ s.freshAt (s.chamberCfg c).reflected = some r ∧
            x.power * (s.chamberCfg c).strikeRatio / 1000 ≤ f ∧ r ≤ (s.chamberCfg c).reflectedLimit) →
          1 < (s.rf c).window →
          answers (.strikeTest t c) s fun s' =>
            s'.rf c = { x with window := (s.rf c).window - 1, mark := t } ∧ s'.rfEnable c = true ∧
              changesOnly [.now, .rf c] s s' ∧ keepsMemory s s')) ∧
    ∀ (s : State) (t : Moment) (c : Chamber), eventAt .t1 t s →
      (s.rf c).phase = .off ∨ (s.rf c).phase = .struck ∨ t ≤ (s.rf c).mark →
      answers (.strikeTest t c) s fun s' => changesOnly [.now] s s' ∧ keepsMemory s s'

/-- R131. The unmet test that closes the window turns RF off: into a pause of 10 while a retry is left, else STRIKE_FAIL
begins close-out with the current step. The pause counts one at each T1 event, and its end enables RF with a full window
and a ramp from 0. That STRIKE_FAIL makes due the faults that its T1 event reaches at the chamber's lines is the model's
reading (log 14). -/
def Obligations.StrikeWindowsRetryAndFail : Prop :=
  (∀ (i : Instr) (s : State) (t : Moment) (c : Chamber), i = .strikeWindowExpiry t c ∨ i = .strikeTest t c →
    eventAt .t1 t s → (s.rf c).phase = .striking → (s.rf c).mark < t → (s.rf c).window ≤ 1 →
    strikeMet s c ((s.rf c).ramped (s.chamberCfg c).rfSpan t).power = false →
    ((s.rf c).retries < (s.chamberCfg c).strikeRetries →
      answers i s fun s' =>
        (s'.rf c).phase = .retryPause ∧ (s'.rf c).pause = 10 ∧ (s'.rf c).retries = (s.rf c).retries + 1 ∧
          (s'.rf c).stepRetries = (s.rf c).stepRetries + 1 ∧ (s'.rf c).power = 0 ∧ (s'.rf c).output = 0 ∧
          (s'.rf c).ramp = none ∧ (s'.rf c).target = (s.rf c).target ∧ (s'.rf c).rampLen = (s.rf c).rampLen ∧
          (s'.rf c).mark = t ∧ s'.rfEnable c = false ∧ changesOnly [.now, .rf c] s s' ∧ keepsMemory s s') ∧
      ((s.chamberCfg c).strikeRetries ≤ (s.rf c).retries → PagesFit s → notWaiting s c →
        (s.seq c).run.faults = true →
        answers i s fun s' => s'.rfEnable c = false ∧ rfClosesOut c .strikeFail s s')) ∧
    (∀ (i : Instr) (s : State) (t : Moment) (c : Chamber), i = .retryPauseEnd t c ∨ i = .strikeTest t c →
      eventAt .t1 t s → (s.rf c).phase = .retryPause → (s.rf c).mark < t → (s.rf c).pause ≤ 1 →
      answers i s fun s' =>
        (s'.rf c).phase = .striking ∧ (s'.rf c).window = (s.chamberCfg c).strikeWindow ∧ (s'.rf c).pause = 0 ∧
          (s'.rf c).reflect = 0 ∧ (s'.rf c).lost = 0 ∧ (s'.rf c).retries = (s.rf c).retries ∧
          (s'.rf c).target = (s.rf c).target ∧
          (s'.rf c).power = (if (s.rf c).rampLen = 0 then (s.rf c).target else 0) ∧
          (s'.rf c).ramp =
            (if (s.rf c).rampLen = 0 then none
            else some { start := 0, stop := (s.rf c).target, len := (s.rf c).rampLen, taken := 0 }) ∧
          (s'.rf c).output = ((s'.rf c).power * 4095 + (s.chamberCfg c).rfSpan / 2) / (s.chamberCfg c).rfSpan ∧
          (s'.rf c).mark = t ∧ (s'.rf c).rampMark = t ∧ s'.rfEnable c = true ∧ changesOnly [.now, .rf c] s s' ∧
          keepsMemory s s') ∧
    ∀ (s : State) (t : Moment) (c : Chamber), eventAt .t1 t s → (s.rf c).phase = .retryPause → (s.rf c).mark < t →
      1 < (s.rf c).pause →
      answers (.strikeTest t c) s fun s' =>
        s'.rf c = { s.rf c with pause := (s.rf c).pause - 1, mark := t } ∧ s'.rfEnable c = false ∧
          changesOnly [.now, .rf c] s s' ∧ keepsMemory s s'

/-- R133, R134. A struck evaluation raises the reflect and the lost count or clears them, up to Reflect Time, where the
fault is due. A due RF_REFLECT or PLASMA_LOST begins close-out with the current step; in CLOSING it is the second fault.
That the fault's row delivers it, and makes due the faults that its T1 event reaches at the chamber's lines, is the model's
reading (log 14). -/
def Obligations.StruckEvaluationsCountAndFault : Prop :=
  (∀ (s : State) (t : Moment) (c : Chamber) (x : Rf) (badR badF : Bool) (n m : Nat), eventAt .t1 t s →
    (s.rf c).phase = .struck → (s.rf c).mark < t → x = (s.rf c).ramped (s.chamberCfg c).rfSpan t →
    (badR = false ↔
      ∃ r, s.freshAt (s.chamberCfg c).reflected = some r ∧ r ≤ (s.chamberCfg c).reflectedLimit) →
    (badF = false ↔
      ∃ f, s.freshAt (s.chamberCfg c).forward = some f ∧ x.power * (s.chamberCfg c).strikeRatio / 1000 ≤ f) →
    n = (if badR then min ((s.rf c).reflect + 1) (s.chamberCfg c).reflectTime else 0) →
    m = (if badF then min ((s.rf c).lost + 1) (s.chamberCfg c).reflectTime else 0) →
    answers (.struckEvaluation t c) s fun s' =>
      s'.rf c = { x with
        reflect := n
        lost := m
        reflectDue := (s.rf c).reflectDue || (badR && decide (n = (s.chamberCfg c).reflectTime))
        lostDue := (s.rf c).lostDue || (badF && decide (m = (s.chamberCfg c).reflectTime))
        mark := t } ∧ s'.rfEnable c = true ∧ changesOnly [.now, .rf c] s s' ∧ keepsMemory s s') ∧
    (∀ (s : State) (t : Moment) (c : Chamber), eventAt .t1 t s → (s.rf c).phase ≠ .struck ∨ t ≤ (s.rf c).mark →
      answers (.struckEvaluation t c) s fun s' => changesOnly [.now] s s' ∧ keepsMemory s s') ∧
    (∀ (s : State) (t : Moment) (c : Chamber), eventAt .t1 t s → PagesFit s → notWaiting s c →
      (s.seq c).run.faults = true →
      ((s.rf c).reflectDue = true →
        answers (.rfReflect t c) s fun s' => (s'.rf c).reflectDue = false ∧ rfClosesOut c .rfReflect s s') ∧
        ((s.rf c).reflectDue = false → (s.rf c).lostDue = true →
          answers (.plasmaLost t c) s fun s' => (s'.rf c).lostDue = false ∧ rfClosesOut c .plasmaLost s s')) ∧
    ∀ (s : State) (t : Moment) (c : Chamber), eventAt .t1 t s → (s.seq c).run = .closing →
      ((s.rf c).reflectDue = true →
        answers (.rfReflect t c) s fun s' =>
          s'.seq c = { s.seq c with second := if (s.seq c).second = .nil then .rfReflect else (s.seq c).second } ∧
            s'.rf c = { s.rf c with reflectDue := false } ∧ changesOnly [.now, .seq c, .rf c] s s' ∧
            keepsMemory s s') ∧
        ((s.rf c).reflectDue = false → (s.rf c).lostDue = true →
          answers (.plasmaLost t c) s fun s' =>
            s'.seq c = { s.seq c with second := if (s.seq c).second = .nil then .plasmaLost else (s.seq c).second } ∧
              s'.rf c = { s.rf c with lostDue := false } ∧ changesOnly [.now, .seq c, .rf c] s s' ∧ keepsMemory s s')

/-- R135. A T0 event after an enabling of RF and not after the disabling that follows raises both RF-on counts. R65, R158.
A T0 event raises the Elapsed count of the running step, or of the close-out; that one at the moment of the load or start
is left out is the model's reading (log 16). Each saturates at 4,294,967,295. -/
def Obligations.RfOnAndElapsedCountsRise : Prop :=
  (∀ (s : State) (t : Moment) (c : Chamber), eventAt .t0 t s → (s.rf c).countMark < t →
    (∃ e, (s.rf c).onSince = some e ∧ e < t) ∨ (∃ e, (s.rf c).lastOn = some (e, t) ∧ e < t) →
    answers (.rfOnCount t c) s fun s' =>
      s'.rf c = { s.rf c with stepRfOn := min ((s.rf c).stepRfOn + 1) 4294967295, countMark := t } ∧
        s'.seq c = { s.seq c with rfTotal := min ((s.seq c).rfTotal + 1) 4294967295 } ∧
        changesOnly [.now, .rf c, .seq c] s s' ∧ keepsMemory s s') ∧
    (∀ (s : State) (t : Moment) (c : Chamber), eventAt .t0 t s →
      t ≤ (s.rf c).countMark ∨
        ((∀ e, (s.rf c).onSince = some e → t ≤ e) ∧ ∀ e, (s.rf c).lastOn = some (e, t) → t ≤ e) →
      answers (.rfOnCount t c) s fun s' => changesOnly [.now] s s' ∧ keepsMemory s s') ∧
    (∀ (s : State) (t : Moment) (c : Chamber), eventAt .t0 t s → (s.seq c).run = .step → (s.seq c).elapsedMark < t →
      answers (.elapsedTimeCount t c) s fun s' =>
        s'.seq c = { s.seq c with elapsed := min ((s.seq c).elapsed + 1) 4294967295, elapsedMark := t } ∧
          changesOnly [.now, .seq c] s s' ∧ keepsMemory s s') ∧
    (∀ (s : State) (t : Moment) (c : Chamber), eventAt .t0 t s → (s.seq c).run = .closing →
      (s.seq c).closeElapsedMark < t →
      answers (.elapsedTimeCount t c) s fun s' =>
        s'.seq c = { s.seq c with closeElapsed := min ((s.seq c).closeElapsed + 1) 4294967295, closeElapsedMark := t } ∧
          changesOnly [.now, .seq c] s s' ∧ keepsMemory s s') ∧
    ∀ (s : State) (t : Moment) (c : Chamber), eventAt .t0 t s → (s.seq c).run ≠ .step → (s.seq c).run ≠ .closing →
      answers (.elapsedTimeCount t c) s fun s' => changesOnly [.now] s s' ∧ keepsMemory s s'

/-! ### Measurement Scanner (spec/09) -/

/-- R139. Conversion through breakpoints: UNDER below the first count, OVER above the last, and between them the truncated
interpolation from the largest index below the last whose count is reached. A published value is the converted one, and it
is what a block reads. That a block reads it also from the readback channel of several lines is the model's choice
(log 29). -/
def Obligations.BreakpointConversion : Prop :=
  (∀ (raw : Nat) (pts : List (Nat × Nat)), 2 ≤ pts.length → pts.length ≤ 8 → (pts.map Prod.fst).Pairwise (· < ·) →
     (∀ p, pts.head? = some p → raw < p.1 → convertPoints raw pts = (p.2, .under)) ∧
       (∀ p, pts.getLast? = some p → p.1 < raw → convertPoints raw pts = (p.2, .over)) ∧
       (∀ (i : Nat) (p q : Nat × Nat), pts[i]? = some p → pts[i + 1]? = some q → p.1 ≤ raw →
         raw < q.1 ∨ (i + 2 = pts.length ∧ raw = q.1) →
         ((convertPoints raw pts).1 : Int) =
             (p.2 : Int) + Int.tdiv (((raw : Int) - p.1) * ((q.2 : Int) - p.2)) ((q.1 : Int) - p.1) ∧
           (convertPoints raw pts).2 = .valid ∧
           min p.2 q.2 ≤ (convertPoints raw pts).1 ∧ (convertPoints raw pts).1 ≤ max p.2 q.2) ∧
       (∀ p ∈ pts, raw = p.1 → convertPoints raw pts = (p.2, .valid)) ∧
       ∀ lo hi, (∀ p ∈ pts, lo ≤ p.2 ∧ p.2 ≤ hi) → lo ≤ (convertPoints raw pts).1 ∧ (convertPoints raw pts).1 ≤ hi) ∧
    ∀ (s : State) (k : ChannelId) (e : ScanCfg) (raw : Nat), s.valueAt k.val = (s.chan k).value ∧
      (s.tables.readbackLines k.val = [] →
        (freshChan s.tables e k raw s.now).value = (convertPoints raw e.usedPoints).1 ∧
          (freshChan s.tables e k raw s.now).conv = (convertPoints raw e.usedPoints).2)

/-- R137, R138, R141 to R146. A T0 event of the scanner: the rate after its examination, the FAST channels published in
NORMAL, every other channel in use aged and marked STALE above its limit, and no other channel touched. SETTLING_END is the
T0 event that brings the settling count to 0. A T2 event publishes the SLOW channels in NORMAL, every channel in use in
REDUCED, and nothing in SETTLING; it neither ages nor changes the rate. -/
def Obligations.ScanPassesAtT0AndT2 : Prop :=
  (∀ (i : Instr) (s : State) (t : Moment) (counts : Vector (BitVec 12) 48) (quiets : Bool) (rate : ScanRate),
     i = .scanPassT0 t counts ∨
       (i = .settlingEnd t counts ∧ s.scan.rate = .settling ∧ s.scan.settling ≤ 1 ∧ s.scan.settleMark < t) →
     eventAt .t0 t s → s.scan.passMark < t → s.scan.rate ≠ .stopped → (quiets = true ↔ ∀ c, scanQuiet s c) →
     rate =
       (match s.scan.rate with
       | .stopped => .stopped
       | .normal => if quiets then .reduced else .normal
       | .reduced => if quiets then .reduced else .settling
       | .settling => if s.scan.settleMark < t ∧ s.scan.settling ≤ 1 then .normal else .settling) →
     answers i s fun s' =>
       s'.scan.rate = rate ∧
         s'.scan.settling =
           (if s.scan.rate = .settling ∧ s.scan.settleMark < t then s.scan.settling - 1
           else if s.scan.rate = .reduced ∧ quiets = false then 2
           else s.scan.settling) ∧
         (rate ≠ s.scan.rate → s'.word 0x134 = rate.code) ∧
         (∀ k e, s.tables.channelEntry k.val = some e → s.scan.rate = .normal → quiets = false → e.cls = 1 →
           s'.chan k = freshChan s.tables e k counts[k].toNat t ∧ measured s' k) ∧
         (∀ k e, s.tables.channelEntry k.val = some e → s.scan.rate ≠ .normal ∨ quiets = true ∨ e.cls ≠ 1 →
           s'.chan k = agedChan e rate t (s.chan k)) ∧
         (∀ k, s.tables.channelEntry k.val = none → s'.chan k = s.chan k) ∧
         s'.pins = { s.pins with analog := counts } ∧ changesOnly scanParts s s' ∧
         storesOnly [(0xD00, 768), (0x134, 4)] s s') ∧
  ∀ (s : State) (t : Moment) (counts : Vector (BitVec 12) 48), eventAt .t2 t s → s.scan.slowMark < t →
    answers (.scanPassT2 t counts) s fun s' =>
      s'.scan = { s.scan with slowMark := t } ∧
        (∀ k e, s.tables.channelEntry k.val = some e →
          (s.scan.rate = .normal ∧ e.cls = 2) ∨ s.scan.rate = .reduced →
          s'.chan k = freshChan s.tables e k counts[k].toNat t ∧ measured s' k) ∧
        (∀ k, (∀ e, s.tables.channelEntry k.val = some e →
            ¬ ((s.scan.rate = .normal ∧ e.cls = 2) ∨ s.scan.rate = .reduced)) →
          s'.chan k = s.chan k) ∧
        s'.pins = { s.pins with analog := counts } ∧ changesOnly scanParts s s' ∧ storesOnly [(0xD00, 768)] s s'

/-! ### Interlocks and close-out (spec/10) -/

/-- R149. A sample counts consecutive active levels while the trip is clear, clears the count at an inactive level, and
writes the raw bits where the level has changed; an input whose Scope is empty is not sampled. Stated for a sample that
latches no trip. -/
def Obligations.InterlockSamplesDebounce : Prop :=
  (∀ (s : State) (t : Moment) (k : InputId) (level act : Bool), eventAt .t0 t s → (s.ilkCfg k).scope ≠ 0 →
    (s.ilk k).mark < t → (act = true ↔ (level = true ↔ (s.ilkCfg k).activeLevel = 1)) →
    act = false ∨ (s.ilk k).trip = true ∨ (s.ilk k).count + 1 ≤ (s.ilkCfg k).debounce →
    answers (.interlockSample t k level) s fun s' =>
      s'.ilk k = { s.ilk k with
        raw := act
        count := if act then (if (s.ilk k).trip then (s.ilk k).count else (s.ilk k).count + 1) else 0
        mark := t } ∧
        s'.pins = { s.pins with interlock := s.pins.interlock.set k level } ∧
        (act ≠ (s.ilk k).raw →
          ∀ j : InputId, (s'.word 0x130).testBit j.val = (s'.ilk j).raw ∧
            (s'.word 0x130).testBit (j.val + 16) = (s'.ilk j).trip) ∧
        (act = (s.ilk k).raw → keepsMemory s s') ∧
        changesOnly [.now, .pins, .ilk k] s s' ∧ storesOnly [(0x130, 4)] s s') ∧
    ∀ (s : State) (t : Moment) (k : InputId) (level : Bool), eventAt .t0 t s →
      (s.ilkCfg k).scope = 0 ∨ t ≤ (s.ilk k).mark →
      answers (.interlockSample t k level) s fun s' => changesOnly [.now] s s' ∧ keepsMemory s s'

/-- R83, R122, R129, R149, R150, R163. The (Debounce + 1)-th consecutive active sample latches the trip. In every chamber
of the Scope RF is off and inhibited; from GAS_INHIBIT on every line of the chamber is closed and inhibited; at FULL_SAFE
the pump machine is in FAULT_HOLD and the mode ACTIVE; a run in WAIT_LINES, STEP, GAP or HELD closes out with the input as
its item. No other chamber's inhibits change. An RF_INHIBIT trip over IDLE runs changes nothing else at all. -/
def Obligations.TripsActOnTheirScope : Prop :=
  (∀ (i : Instr) (s : State) (t : Moment) (k : InputId),
    i = .tripLatch t k ∨ i = .interlockSample t k (decide ((s.ilkCfg k).activeLevel = 1)) → eventAt .t0 t s →
    PagesFit s → RoughLineLaw s → (s.ilkCfg k).scope ≠ 0 → (s.ilk k).mark < t → (s.ilk k).trip = false →
    (s.ilkCfg k).debounce < (s.ilk k).count + 1 →
    answers i s fun s' =>
      ((s'.ilk k).trip = true ∧ (s'.ilk k).raw = true ∧ (s'.ilk k).count = 0 ∧ s'.flagSet .interlock = true ∧
        (s'.word 0x130).testBit (k.val + 16) = true) ∧
        (∀ c, (s.ilkCfg k).covers c = true →
          ((s'.rf c).inhibit = true ∧ (s'.rf c).phase = .off ∧ (s'.rf c).output = 0 ∧ s'.rfEnable c = false) ∧
            (2 ≤ (s.ilkCfg k).action → s'.gasInhibit c = true ∧ ∀ j, (s'.line j).openTo ≠ some c) ∧
            (3 ≤ (s.ilkCfg k).action → (s'.pump c).st = .faultHold ∧ (s'.econ c).mode = .active) ∧
            ((s.seq c).run.faults = true →
              (s'.seq c).run = .closing ∧ (s'.seq c).outcome = .faultInterlock ∧ (s'.seq c).item = k.val + 1 ∧
                s'.flagSet (.fault c) = true)) ∧
        (∀ c, (s.ilkCfg k).covers c = false →
          (s'.rf c).inhibit = (s.rf c).inhibit ∧ s'.gasInhibit c = s.gasInhibit c ∧ s'.econ c = s.econ c) ∧
        (∀ j, j ≠ k → s'.ilk j = s.ilk j) ∧ (∀ j, s'.chan j = s.chan j) ∧
        (∀ p ∈ [Part.pending, .partState, .layoutResult, .enable, .dataOut, .tables, .scan], p.same s s') ∧
        ∀ a, a < Config.memorySize → hostOwned s.tables.partition a = true → memRead s'.mem a = memRead s.mem a) ∧
    ∀ (s : State) (t : Moment) (k : InputId), eventAt .t0 t s → (s.ilkCfg k).scope ≠ 0 → (s.ilk k).mark < t →
      (s.ilk k).trip = false → (s.ilkCfg k).debounce < (s.ilk k).count + 1 → (s.ilkCfg k).action = 1 →
      (∀ c, (s.seq c).run = .idle) →
      answers (.tripLatch t k) s fun s' =>
        flagsOnly [.interlock] s s' ∧
          changesOnly ([.now, .pins, .summary, .ilk k] ++
            ((List.finRange 4).filter fun c => (s.ilkCfg k).covers c).map .rf) s s' ∧
          storesOnly [(0x130, 4)] s s'

/-- R82, R152. ACK_TRIPS in RUNNING clears the latched trips whose input is inactive and derives the inhibits again from
those that remain; a gas inhibit lifted in ECONOMY with no wake opens the idle purge again. One that clears nothing changes
nothing. -/
def Obligations.AcknowledgementClearsInactiveTrips : Prop :=
  (∀ (s : State) (levels : Vector Bool 16), s.port.part = .running →
    (∃ k, (s.ilk k).trip = true ∧ (s.ilkCfg k).activeAt levels[k] = false) →
    answers (.ackTrips levels) s fun s' =>
      (∀ k, s'.ilk k =
        if (s.ilk k).trip = true ∧ (s.ilkCfg k).activeAt levels[k] = false then
          { s.ilk k with trip := false, count := 0 }
        else s.ilk k) ∧
        (∀ j : InputId, (s'.word 0x130).testBit (j.val + 16) = (s'.ilk j).trip) ∧ s'.flagSet .interlock = true ∧
        (∀ c, s'.rf c = { s.rf c with inhibit := (s.rf c).inhibit && tripped s' c 1 } ∧
          s'.gasInhibit c = (s.gasInhibit c && tripped s' c 2)) ∧
        (∀ c k, s.gasInhibit c = true → s'.gasInhibit c = false → (s.econ c).mode = .economy →
          (s.econ c).phase = .none → s.purgeLine c = some k → (∀ d, d ≠ c → s.purgeLine d ≠ some k) →
          s'.line k = { s.line k with
            openTo := some c, source := .idlePurge, setpoint := (s.chamberCfg c).economyPurgeFlow, ramp := none
            command := commandCount (s.chamberCfg c).economyPurgeFlow (s.lineCfg k) }) ∧
        (∀ k, (∀ c, s.purgeLine c = some k → s.turboEconomy c = false ∨ s.gasInhibit c = s'.gasInhibit c) →
          s'.line k = s.line k) ∧
        flagsOnly [.interlock] s s' ∧
        changesOnly ([.pins, .summary] ++ (List.finRange 16).map .ilk ++ (List.finRange 4).map .rf ++
          (List.finRange 4).map .gasInhibit ++ allLines) s s' ∧
        storesOnly [(0x130, 4)] s s') ∧
    ∀ (s : State) (levels : Vector Bool 16),
      (∀ k, (s.ilk k).trip = true → (s.ilkCfg k).activeAt levels[k] = true) →
      exec (.ackTrips levels) s = .next s

/-- R70, R81, R99, R154 to R156. The first T1 event after the start of close-out drops every line of the chamber and opens
the throttle, and close-out goes on in PURGE with the purge line open, in PUMP_OUT, or at END. Stated for a chamber that
owns no shared line. -/
def Obligations.GasOffDropsTheLinesAndGoesOn : Prop :=
  (∀ (s : State) (t : Moment) (c : Chamber) (k : LineId), eventAt .t1 t s → (s.seq c).run = .closing →
    (s.seq c).stage = .rfOff → (s.seq c).stageMark < t → ownsNoLine s c → (s.seq c).restriction = .none →
    (s.pump c).st = .pumped → s.purgeLine c = some k → (s.chamberCfg c).purgeTime ≠ 0 → s.gasInhibit c = false →
    answers (.gasOff t c) s fun s' =>
      s'.seq c = { s.seq c with
        stage := .purge, purgeTimer := (s.chamberCfg c).purgeTime, stageMark := t
        closeClamped := (s.seq c).closeClamped || commandClamps (s.chamberCfg c).purgeFlow (s.lineCfg k) } ∧
        (∀ j, s'.line j =
          if j = k then
            { s.line k with
              openTo := some c, source := .purge, setpoint := (s.chamberCfg c).purgeFlow, ramp := none
              command := commandCount (s.chamberCfg c).purgeFlow (s.lineCfg k) }
          else if (s.line j).openTo = some c then (s.line j).shut
          else s.line j) ∧
        ((s'.press c).target = 0 ∧ (s'.press c).output = 0 ∧ (s'.press c).throttleOpen = true ∧
          (s'.press c).evaluating = false) ∧
        changesOnly ([.now, .seq c, .press c] ++ allLines) s s' ∧ keepsMemory s s') ∧
    (∀ (s : State) (t : Moment) (c : Chamber), eventAt .t1 t s → (s.seq c).run = .closing →
      (s.seq c).stage = .rfOff → (s.seq c).stageMark < t → ownsNoLine s c →
      (s.seq c).restriction = .noPurge ∨
        ((s.seq c).restriction = .none ∧ ((s.chamberCfg c).purgeLine = 0 ∨ (s.chamberCfg c).purgeTime = 0)) →
      (s.pump c).st = .pumped → (s.chamberCfg c).closeLimit ≠ 0 →
      answers (.gasOff t c) s fun s' =>
        s'.seq c = { s.seq c with
          stage := .pumpOut, closeLimit := (s.chamberCfg c).closeLimit, closeLimitMark := t, stageMark := t } ∧
          (∀ j, s'.line j = if (s.line j).openTo = some c then (s.line j).shut else s.line j) ∧
          ((s'.press c).target = 0 ∧ (s'.press c).output = 0 ∧ (s'.press c).throttleOpen = true) ∧
          changesOnly ([.now, .seq c, .press c] ++ allLines) s s' ∧ keepsMemory s s') ∧
    (∀ (s : State) (t : Moment) (c : Chamber), eventAt .t1 t s → PagesFit s → (s.seq c).run = .closing →
      (s.seq c).stage = .rfOff → (s.seq c).stageMark < t → ownsNoLine s c →
      (s.seq c).restriction = .noPurgeNoPumpOut ∨ (s.pump c).st ≠ .pumped →
      answers (.gasOff t c) s fun s' =>
        EndsRun c s s' ∧ (∀ j, s'.line j = if (s.line j).openTo = some c then (s.line j).shut else s.line j) ∧
          flagsOnly [.order c, .report c] s s' ∧
          changesOnly ([.now, .summary, .seq c, .press c, .rep c] ++ allLines) s s' ∧
          storesOnly (endBytes s c) s s') ∧
    ∀ (s : State) (t : Moment) (c : Chamber), eventAt .t1 t s →
      (s.seq c).run ≠ .closing ∨ (s.seq c).stage ≠ .rfOff ∨ t ≤ (s.seq c).stageMark →
      answers (.gasOff t c) s fun s' => changesOnly [.now] s s' ∧ keepsMemory s s'

/-- R32, R155 to R157. The purge timer and the close limit count down; the purge's end drops the purge line and judges
PUMP_OUT; PUMP_OUT ends the run at a low read, and at its limit with PUMPOUT_INCOMPLETE. Stated for a chamber that owns no
shared line. -/
def Obligations.CloseOutStagesCountDownAndEndTheRun : Prop :=
  (∀ (s : State) (t : Moment) (c : Chamber), eventAt .t1 t s → (s.seq c).run = .closing → (s.seq c).stage = .purge →
    (s.seq c).stageMark < t → 1 < (s.seq c).purgeTimer →
    answers (.purgeTimerDecrement t c) s fun s' =>
      s'.seq c = { s.seq c with purgeTimer := (s.seq c).purgeTimer - 1, stageMark := t } ∧
        changesOnly [.now, .seq c] s s' ∧ keepsMemory s s') ∧
    (∀ (i : Instr) (s : State) (t : Moment) (c : Chamber), i = .purgeEnd t c ∨ i = .purgeTimerDecrement t c →
      eventAt .t1 t s → PagesFit s → (s.seq c).run = .closing → (s.seq c).stage = .purge →
      (s.seq c).stageMark < t → (s.seq c).purgeTimer ≤ 1 → ownsNoLine s c →
      answers i s fun s' =>
        (∀ j, s'.line j =
          if (s.line j).openTo = some c ∧ ((s.line j).source = .purge ∨ (s.line j).source = .idlePurge) then
            (s.line j).shut
          else s.line j) ∧
          (if (s.seq c).restriction ≠ .noPurgeNoPumpOut ∧ (s.pump c).st = .pumped ∧ (s.chamberCfg c).closeLimit ≠ 0 then
            (s'.seq c).run = .closing ∧ (s'.seq c).stage = .pumpOut ∧
              (s'.seq c).closeLimit = (s.chamberCfg c).closeLimit ∧ (s'.seq c).closeLimitMark = t ∧
              changesOnly ([.now, .seq c] ++ allLines) s s' ∧ keepsMemory s s'
          else
            EndsRun c s s' ∧ flagsOnly [.order c, .report c] s s' ∧
              changesOnly ([.now, .summary, .seq c, .press c, .rep c] ++ allLines) s s' ∧
              storesOnly (endBytes s c) s s')) ∧
    (∀ (s : State) (t : Moment) (c : Chamber) (v : Nat), eventAt .t1 t s → PagesFit s → (s.seq c).run = .closing →
      (s.seq c).stage = .pumpOut → (s.seq c).stageMark < t → s.freshAt (s.chamberCfg c).manometer = some v →
      v ≤ (s.chamberCfg c).closePressure →
      answers (.pumpOutRead t c) s fun s' =>
        EndsRun c s s' ∧ (s'.seq c).pumpOutIncomplete = (s.seq c).pumpOutIncomplete ∧
          flagsOnly [.order c, .report c] s s' ∧ changesOnly [.now, .summary, .seq c, .press c, .rep c] s s' ∧
          storesOnly (endBytes s c) s s') ∧
    (∀ (s : State) (t : Moment) (c : Chamber), eventAt .t1 t s →
      (∀ v, s.freshAt (s.chamberCfg c).manometer = some v → (s.chamberCfg c).closePressure < v) →
      answers (.pumpOutRead t c) s fun s' => changesOnly [.now] s s' ∧ keepsMemory s s') ∧
    (∀ (s : State) (t : Moment) (c : Chamber), eventAt .t3 t s → (s.seq c).run = .closing →
      (s.seq c).stage = .pumpOut → (s.seq c).closeLimitMark < t → 1 < (s.seq c).closeLimit →
      answers (.closeLimitDecrement t c) s fun s' =>
        s'.seq c = { s.seq c with closeLimit := (s.seq c).closeLimit - 1, closeLimitMark := t } ∧
          changesOnly [.now, .seq c] s s' ∧ keepsMemory s s') ∧
    ∀ (i : Instr) (s : State) (t : Moment) (c : Chamber), i = .closeLimitExpiry t c ∨ i = .closeLimitDecrement t c →
      eventAt .t3 t s → PagesFit s → (s.seq c).run = .closing → (s.seq c).stage = .pumpOut →
      (s.seq c).closeLimitMark < t → (s.seq c).closeLimit ≤ 1 →
      answers i s fun s' =>
        EndsRun c s s' ∧ (s'.seq c).pumpOutIncomplete = true ∧ flagsOnly [.order c, .report c] s s' ∧
          changesOnly [.now, .summary, .seq c, .press c, .rep c] s s' ∧ storesOnly (endBytes s c) s s'

/-! ### Economy mode (spec/11) -/

/-- R160 to R162. A manometer above Economy Rise begins a PRESSURE wake, with the turbo-economy output released and the
idle purge dropped; a turbo sample moves the wake between TURBO_WAIT and DWELL, the limit count frozen in DWELL; a T3 event
takes one from the count of the phase. The wake's begin is stated for a chamber that owns no shared line, and the turbo
sample for a Recovery Dwell other than 0 (with 0 an asserted sample ends the wake, which this statement leaves out). It is
the model's choice (DEDUCED, log 15), where R162 says only that the counts decrease at T3 events after the entry, that a T3
event at the moment of the wake's begin or of a change of phase is not counted: those events set `countMark` to their
moment, and the count takes only later ones. -/
def Obligations.WakesBeginAndWaitForTheTurbo : Prop :=
  (∀ (s : State) (t : Moment) (c : Chamber) (v : Nat), eventAt .t1 t s → (s.econ c).mode = .economy →
    (s.econ c).phase = .none → bitSet (s.chamberCfg c).wakeEnables 1 = true →
    s.freshAt (s.chamberCfg c).manometer = some v → (s.chamberCfg c).economyRise < v → ownsNoLine s c →
    answers (.economyPressureRead t c) s fun s' =>
      s'.econ c = { s.econ c with
        phase := .turboWait, cause := .pressure, limit := (s.chamberCfg c).recoveryLimit, sampleMark := t
        countMark := t } ∧
        s'.turboEconomy c = false ∧
        (∀ j, s'.line j =
          if (s.line j).openTo = some c ∧ ((s.line j).source = .purge ∨ (s.line j).source = .idlePurge) then
            (s.line j).shut
          else s.line j) ∧
        changesOnly ([.now, .econ c] ++ allLines) s s' ∧ keepsMemory s s') ∧
    (∀ (s : State) (t : Moment) (c : Chamber), eventAt .t1 t s →
      (s.econ c).mode = .active ∨ (s.econ c).phase ≠ .none ∨ bitSet (s.chamberCfg c).wakeEnables 1 = false ∨
        (∀ v, s.freshAt (s.chamberCfg c).manometer = some v → v ≤ (s.chamberCfg c).economyRise) →
      answers (.economyPressureRead t c) s fun s' => changesOnly [.now] s s' ∧ keepsMemory s s') ∧
    (∀ (s : State) (t : Moment) (c : Chamber) (turbo : Bool), eventAt .t1 t s → (s.econ c).sampleMark < t →
      (s.econ c).phase ≠ .none → (s.chamberCfg c).recoveryDwell ≠ 0 →
      answers (.wakeTurboSample t c turbo) s fun s' =>
        s'.econ c =
          (if (s.econ c).phase = .turboWait ∧ turbo = true then
            { s.econ c with
              phase := .dwell, dwell := (s.chamberCfg c).recoveryDwell, sampleMark := t, countMark := t }
          else if (s.econ c).phase = .dwell ∧ turbo = false then
            { s.econ c with phase := .turboWait, dwell := 0, sampleMark := t, countMark := t }
          else { s.econ c with sampleMark := t }) ∧
          s'.pins = { s.pins with turbo := s.pins.turbo.set c turbo } ∧
          changesOnly [.now, .pins, .econ c] s s' ∧ keepsMemory s s') ∧
    (∀ (s : State) (t : Moment) (c : Chamber), eventAt .t3 t s → (s.econ c).countMark < t →
      ((s.econ c).phase = .turboWait → 1 < (s.econ c).limit →
        answers (.wakeCountDecrement t c) s fun s' =>
          s'.econ c = { s.econ c with limit := (s.econ c).limit - 1, countMark := t } ∧
            changesOnly [.now, .econ c] s s' ∧ keepsMemory s s') ∧
        ((s.econ c).phase = .dwell → 1 < (s.econ c).dwell →
          answers (.wakeCountDecrement t c) s fun s' =>
            s'.econ c = { s.econ c with dwell := (s.econ c).dwell - 1, countMark := t } ∧
              changesOnly [.now, .econ c] s s' ∧ keepsMemory s s')) ∧
    ∀ (s : State) (t : Moment) (c : Chamber), eventAt .t3 t s → (s.econ c).phase = .none ∨ t ≤ (s.econ c).countMark →
      answers (.wakeCountDecrement t c) s fun s' => changesOnly [.now] s s' ∧ keepsMemory s s'

/-- R110, R119, R162. The end of the dwell ends the wake: ACTIVE, Last Wake Cause written, a MODE entry, PUMP set, a TAKEN
SET_MODE answered COMPLETE and a TAKEN PUMP_DOWN answered ALREADY. The end of the limit fails it: ACTIVE, the pump machine
in FAULT_HOLD, two entries, PUMP and FAULT set, TAKEN orders answered TURBO_LOST. Stated for an IDLE run, and the failure
for a machine outside the rough line. -/
def Obligations.WakesEndOrFail : Prop :=
  (∀ (i : Instr) (s : State) (t : Moment) (c : Chamber), i = .wakeDwellEnd t c ∨ i = .wakeCountDecrement t c →
    eventAt .t3 t s → PagesFit s → (s.econ c).phase = .dwell → (s.econ c).dwell ≤ 1 → (s.econ c).countMark < t →
    (s.seq c).run = .idle →
    answers i s fun s' =>
      ((s'.econ c).mode = .active ∧ (s'.econ c).phase = .none ∧ (s'.econ c).lastWake = (s.econ c).cause ∧
        s'.flagSet (.pump c) = true) ∧
        (memField s'.mem (statusAddr c + 2) 1 = 0 ∧ memField s'.mem (statusAddr c + 5) 1 = (s.econ c).cause.code) ∧
        (s'.rep c).next = ((s.rep c).next + 1) % 65536 ∧
        (∀ j, (s.seq c).slotWith SlotHold.isMode = some j →
          slotReads s' (slotAddr c j) 3 1 (s.pump c).st.code 0 ∧ (s'.seq c).slots[j] = .free) ∧
        (∀ j, (s.seq c).slotWith SlotHold.isPump = some j →
          slotReads s' (slotAddr c j) 3 3 (s.pump c).st.code 0 ∧ (s'.seq c).slots[j] = .free) ∧
        flagsOnly [.pump c, .order c, .report c] s s' ∧ changesOnly [.now, .summary, .seq c, .econ c, .rep c] s s' ∧
        storesOnly (endBytes s c) s s') ∧
    ∀ (i : Instr) (s : State) (t : Moment) (c : Chamber), i = .wakeLimitExpiry t c ∨ i = .wakeCountDecrement t c →
      eventAt .t3 t s → PagesFit s → (s.econ c).phase = .turboWait → (s.econ c).limit ≤ 1 → (s.econ c).countMark < t →
      (s.seq c).run = .idle → s.rough.holder ≠ some c → c ∉ s.rough.queue →
      answers i s fun s' =>
        ((s'.econ c).mode = .active ∧ (s'.econ c).phase = .none ∧ (s'.econ c).lastWake = (s.econ c).lastWake) ∧
          (s'.pump c = { st := .faultHold, mark := t } ∧ s'.gateOpen c = false ∧ s'.turboEconomy c = false) ∧
          (s'.flagSet (.pump c) = true ∧ s'.flagSet (.fault c) = true) ∧
          (memField s'.mem (statusAddr c + 1) 1 = 9 ∧ memField s'.mem (statusAddr c + 2) 1 = 0) ∧
          (s'.rep c).next = ((s.rep c).next + 2) % 65536 ∧
          (∀ j, (s.seq c).slotWith SlotHold.isMode = some j ∨ (s.seq c).slotWith SlotHold.isPump = some j →
            slotReads s' (slotAddr c j) 3 20 (s.pump c).st.code 0 ∧ (s'.seq c).slots[j] = .free) ∧
          flagsOnly [.pump c, .fault c, .order c, .report c] s s' ∧
          changesOnly [.now, .summary, .seq c, .pump c, .econ c, .rep c] s s' ∧ storesOnly (endBytes s c) s s'

/-! ### Reports and events (spec/12) -/

/-- R165 to R167. An entry takes the next sequence number; it is written behind the entries of the FILLING page, or opens
the lowest EMPTY page, or is held, the older held entry counted as skipped. A page at its last entry is FULL with REPORT
set. R168. The slot scan returns a FULL page whose state word reads EMPTY, its headers standing, and answers any other
value but FULL with FULL; the return is stated for page 0 with no entry held and page 1 not FULL. -/
def Obligations.EntriesArePlacedAndPagesReturned : Prop :=
  (∀ (s : State) (c : Chamber) (e : Entry), PagesFit s →
     ((produce c e s).rep c).next = ((s.rep c).next + 1) % 65536 ∧
       memField (produce c e s).mem (statusAddr c + 58) 2 = ((s.rep c).next + 1) % 65536 ∧
       (∀ i, (s.rep c).filling? = some i →
         (produce c e s).word (entryAddr s c i ((s.rep c).page i).count) =
             e.kind.code + 256 * (c.val + 1) + 65536 * ((s.rep c).next % 65536) ∧
           ((produce c e s).rep c).page i =
             { (s.rep c).page i with
               count := ((s.rep c).page i).count + 1
               st := if (s.rep c).size ≤ ((s.rep c).page i).count + 1 then .full else .filling } ∧
           ((s.rep c).size ≤ ((s.rep c).page i).count + 1 ∨ (s.rep c).perEntry = true →
             (produce c e s).flagSet (.report c) = true) ∧
           storesOnly [statusBytes c, (entryAddr s c i ((s.rep c).page i).count, 32)] s (produce c e s)) ∧
       (∀ i, (s.rep c).filling? = none → (s.rep c).empty? = some i →
         (produce c e s).word (entryAddr s c i 0) =
             e.kind.code + 256 * (c.val + 1) + 65536 * ((s.rep c).next % 65536) ∧
           ((produce c e s).rep c).page i =
             { st := if (s.rep c).size ≤ 1 then .full else .filling, count := 1, first := (s.rep c).next
               skipped := (s.rep c).skipped } ∧
           ((produce c e s).rep c).skipped = 0 ∧
           ((s.rep c).size ≤ 1 ∨ (s.rep c).perEntry = true → (produce c e s).flagSet (.report c) = true) ∧
           storesOnly [statusBytes c, (entryAddr s c i 0, 32)] s (produce c e s)) ∧
       ((s.rep c).filling? = none → (s.rep c).empty? = none →
         (∃ h, ((produce c e s).rep c).held = some h ∧ h.kind = e.kind ∧ h.sequence = (s.rep c).next) ∧
           ((produce c e s).rep c).skipped =
             (if (s.rep c).held.isSome then min ((s.rep c).skipped + 1) 65535 else (s.rep c).skipped) ∧
           (∀ f, (produce c e s).flagSet f = s.flagSet f) ∧ storesOnly [statusBytes c] s (produce c e s)) ∧
       flagsOnly [.report c] s (produce c e s) ∧ changesOnly [.summary, .rep c] s (produce c e s)) ∧
  ∀ (s : State) (t : Moment) (c : Chamber), eventAt .t1 t s → noRequest s c → ¬ posted s c → 1 ≤ (s.rep c).pages →
    (s.rep c).page0.st = .full → (s.rep c).page1.st ≠ .full → (s.rep c).held = none →
    answers (.slotScan t c) s fun s' =>
      s'.rep c =
        (if s.word (statusAddr c + 28) = 0 then
          { s.rep c with page0 := { (s.rep c).page0 with st := .empty } }
        else s.rep c) ∧
        s'.word (statusAddr c + 28) = (if s.word (statusAddr c + 28) = 0 then 0 else 2) ∧
        changesOnly [.now, .rep c] s s' ∧ storesOnly [(statusAddr c + 28, 4)] s s'

/-! ### What every step keeps -/

/-- R10, R11, R16. The state right after a power-on reset meets every law that the statements below say each step keeps. -/
def Obligations.ResetMeetsEveryLaw : Prop :=
  State.reset.mem.wf = true ∧ PagesFit State.reset ∧ HaltedAtRest State.reset ∧ RoughLineLaw State.reset ∧
    InterlockLaw State.reset ∧ LoopLaw State.reset

/-- R1. Every step keeps the Common Memory in its canonical form, which makes equal memories equal data. The form is the
model's own (log 4). -/
def Obligations.EveryStepKeepsTheMemoryCanonical : Prop :=
  ∀ s s' : State, step s = .next s' → s.mem.wf = true → s'.mem.wf = true

/-- R8, R12, R164. Every step keeps the partition number in its range and every chamber's report pages inside its report
area. No command but a host write and a power-on reset changes a byte of the areas that the memory map of section 1.3 gives
to the host alone. -/
def Obligations.EveryStepKeepsTheReportPagesOffTheHostsAreas : Prop :=
  ∀ s s' : State, step s = .next s' → PagesFit s →
    PagesFit s' ∧
      ∀ i rest, s.pending = i :: rest → i ≠ .powerOnReset → (∀ addr w v, i ≠ .hostMemoryWrite addr w v) →
        ∀ a, a < Config.memorySize → hostOwned s'.tables.partition a = true → memRead s'.mem a = memRead s.mem a

/-- R11, R16, R67, R107. Every step keeps each block that drives an output at rest while the part is HALTED, and in every
such state all outputs stand at their safe values. -/
def Obligations.EveryStepKeepsTheHaltedOutputsSafe : Prop :=
  (∀ s s' : State, step s = .next s' → HaltedAtRest s → HaltedAtRest s') ∧
    ∀ s : State, HaltedAtRest s → s.port.part = .halted → safeOutputs s

/-- R112 to R114. Every step keeps the rough line's law: at most one chamber roughs, it is the holder, and the queue holds
exactly the other machines in ROUGH_WAIT, each once. -/
def Obligations.EveryStepKeepsTheRoughLineLaw : Prop :=
  ∀ s s' : State, step s = .next s' → HaltedAtRest s → RoughLineLaw s → RoughLineLaw s'

/-- R83, R129, R148, R150. Every step keeps RF off under every latched trip that covers the chamber, and every line of the
chamber closed under each GAS_INHIBIT or FULL_SAFE trip. -/
def Obligations.EveryStepKeepsTheInterlockLaw : Prop :=
  ∀ s s' : State, step s = .next s' → HaltedAtRest s → InterlockLaw s → InterlockLaw s'

/-- R32, R61 to R63. Every step keeps each loop stack at four entries or fewer, and an IDLE run without loops and without a
pending segment. -/
def Obligations.EveryStepKeepsTheLoopLaw : Prop :=
  ∀ s s' : State, step s = .next s' → LoopLaw s → LoopLaw s'

/-- R5 to R7, R15, R150, R152. Resets apart, only a word read of Event Summary clears a flag, only ACK_TRIPS clears a trip,
only APPLY_LAYOUT changes the applied copies, the part state and the layout result, only a write changes Event Enable, and
the Time Base never goes back. -/
def Obligations.OnlyTheirCommandsClearFlagsTripsAndCopies : Prop :=
  ∀ (i : Instr) (rest : List Instr) (s s' : State), s.pending = i :: rest → step s = .next s' → isReset i = false →
    (i ≠ .eventSummaryRead .word → ∀ f, s.flagSet f = true → s'.flagSet f = true) ∧
      ((∀ levels, i ≠ .ackTrips levels) → ∀ k, (s.ilk k).trip = true → (s'.ilk k).trip = true) ∧
      (isApply i = false → s'.tables = s.tables ∧ s'.port.part = s.port.part ∧ s'.port.result = s.port.result) ∧
      ((∀ v, i ≠ .eventEnableWrite v) → s'.port.enable = s.port.enable) ∧
      s.now ≤ s'.now
end

