-- ==== Sys2Proof/Laws/Memory.lean ====
section
/-! SUPPORT. The laws of the Common Memory: a read after a write, a read elsewhere, and the canonical form, kept by every
memory operation. -/

namespace Sys2Proof.Machine

/-! ### One byte -/

theorem memLookup_memErase (m : Memory) (a x : Nat) :
    memLookup (memErase m a) x = if x = a then powerOnByte else memLookup m x := by
  induction m with
  | nil => simp [memErase, memLookup]
  | cons cell rest ih =>
    simp only [memErase]
    split
    · rename_i h
      rw [ih]
      by_cases hx : x = a
      · simp [hx]
      · have : ¬ cell.1 = x := fun e => hx (by rw [← e, h])
        simp [hx, memLookup, this]
    · rename_i h
      simp only [memLookup, ih]
      by_cases hc : cell.1 = x
      · have : x ≠ a := fun e => h (by rw [hc, e])
        simp [hc, this]
      · simp [hc]

theorem memLookup_memInsert (m : Memory) (a x : Nat) (b : Byte) (h : ∀ c ∈ m, c.1 ≠ a) :
    memLookup (memInsert m a b) x = if x = a then b else memLookup m x := by
  induction m with
  | nil =>
    simp only [memInsert, memLookup]
    by_cases hx : x = a
    · simp [hx]
    · have : ¬ a = x := fun e => hx e.symm
      simp [hx, this]
  | cons cell rest ih =>
    have hcell : cell.1 ≠ a := h cell (by simp)
    simp only [memInsert]
    split
    · by_cases hx : x = a
      · simp [memLookup, hx]
      · have : ¬ a = x := fun e => hx e.symm
        simp [memLookup, hx, this]
    · simp only [memLookup, ih (fun c hc => h c (by simp [hc]))]
      by_cases hc : cell.1 = x
      · have : x ≠ a := fun e => hcell (by rw [hc, e])
        simp [hc, this]
      · simp [hc]

theorem memErase_ne (m : Memory) (a : Nat) : ∀ c ∈ memErase m a, c.1 ≠ a := by
  induction m with
  | nil => simp [memErase]
  | cons cell rest ih =>
    simp only [memErase]
    split
    · exact ih
    · rename_i h
      intro c hc
      rcases List.mem_cons.mp hc with rfl | hc
      · exact h
      · exact ih c hc

/-- A read after a write: the byte written at its address, the old byte at every other. -/
theorem memRead_memWrite (m : Memory) (a x : Nat) (b : Byte) :
    memRead (memWrite m a b) x =
      if x % Config.memorySize = a % Config.memorySize then b else memRead m x := by
  simp only [memRead, memWrite]
  split
  · rename_i h
    rw [memLookup_memErase, h]
  · rw [memLookup_memInsert _ _ _ _ (memErase_ne _ _), memLookup_memErase]
    split <;> rfl

theorem memRead_nil (x : Nat) : memRead [] x = powerOnByte := rfl

/-! ### Fields and words -/

/-- A field leaves every byte outside it as it was. -/
theorem memRead_memPutField_outside (m : Memory) (a v n x : Nat)
    (h : ∀ i < n, x % Config.memorySize ≠ (a + i) % Config.memorySize) :
    memRead (memPutField m a v n) x = memRead m x := by
  induction n generalizing m a v with
  | zero => rfl
  | succ n ih =>
    rw [memPutField, ih, memRead_memWrite]
    · simp [show ¬ x % Config.memorySize = a % Config.memorySize from by simpa using h 0 (by omega)]
    · intro i hi
      have := h (i + 1) (by omega)
      rwa [show a + 1 + i = a + (i + 1) by omega]

/-- Whether `x` lies in the field of `n` bytes at `a`, with addresses below the memory's end. -/
theorem memRead_memPutField_disjoint (m : Memory) (a v n x : Nat) (hx : x < Config.memorySize)
    (ha : a + n ≤ Config.memorySize) (h : x < a ∨ a + n ≤ x) :
    memRead (memPutField m a v n) x = memRead m x := by
  apply memRead_memPutField_outside
  intro i hi
  rw [Nat.mod_eq_of_lt hx, Nat.mod_eq_of_lt (by omega)]
  omega

/-- The bytes of a field that fits the memory. -/
theorem memRead_memPutField_inside (m : Memory) (a v n i : Nat) (hn : n ≤ Config.memorySize) (hi : i < n) :
    memRead (memPutField m a v n) (a + i) = BitVec.ofNat 8 (v / 256 ^ i) := by
  induction n generalizing m a v i with
  | zero => omega
  | succ n ih =>
    rw [memPutField]
    cases i with
    | zero =>
      rw [memRead_memPutField_outside, memRead_memWrite]
      · simp
      · intro i hi h
        simp only [Config.memorySize] at *
        omega
    | succ i =>
      rw [show a + (i + 1) = a + 1 + i by omega, ih _ _ _ _ (by omega) (by omega), Nat.div_div_eq_div_mul, pow_succ']

theorem memField_congr (m m' : Memory) (a n : Nat) (h : ∀ i < n, memRead m' (a + i) = memRead m (a + i)) :
    memField m' a n = memField m a n := by
  induction n generalizing a with
  | zero => rfl
  | succ n ih =>
    have h0 := h 0 (by omega)
    simp only [Nat.add_zero] at h0
    rw [memField, memField, h0, ih (a + 1)]
    intro i hi
    have := h (i + 1) (by omega)
    rwa [show a + 1 + i = a + (i + 1) by omega]

/-- A field read after a write of a field that it does not meet. -/
theorem memField_memPutField_disjoint (m : Memory) (a v n b k : Nat) (hb : b + k ≤ Config.memorySize)
    (ha : a + n ≤ Config.memorySize) (h : b + k ≤ a ∨ a + n ≤ b) :
    memField (memPutField m a v n) b k = memField m b k := by
  apply memField_congr
  intro i hi
  exact memRead_memPutField_disjoint _ _ _ _ _ (by omega) ha (by omega)

/-- A field reads back as it was written. -/
theorem memField_memPutField_same (m : Memory) (a v n : Nat) (hn : n ≤ Config.memorySize) :
    memField (memPutField m a v n) a n = v % 256 ^ n := by
  have key : ∀ (k : Nat) (m' : Memory) (b u : Nat), (∀ i < k, memRead m' (b + i) = BitVec.ofNat 8 (u / 256 ^ i)) →
      memField m' b k = u % 256 ^ k := by
    intro k
    induction k with
    | zero => intro m' b u _; simp [memField, Nat.mod_one]
    | succ k ih =>
      intro m' b u h
      have h0 := h 0 (by omega)
      simp only [Nat.add_zero, pow_zero, Nat.div_one] at h0
      rw [memField, h0, ih m' (b + 1) (u / 256)]
      · simp only [BitVec.toNat_ofNat]
        rw [show 256 ^ (k + 1) = 256 * 256 ^ k from pow_succ' 256 k, Nat.mod_mul]
      · intro i hi
        have := h (i + 1) (by omega)
        rw [show b + 1 + i = b + (i + 1) by omega, this, Nat.div_div_eq_div_mul, pow_succ']
  exact key n _ a v fun i hi => memRead_memPutField_inside m a v n i hn hi

/-- A word reads back. -/
theorem memField_memPutWord_same (m : Memory) (a v : Nat) : memField (memPutWord m a v) a 4 = v % 4294967296 := by
  have := memField_memPutField_same m a v 4 (by simp [Config.memorySize])
  rwa [show (256 : Nat) ^ 4 = 4294967296 by norm_num] at this

/-- A word write leaves the bytes outside it. -/
theorem memRead_memPutWord_outside (m : Memory) (a v x : Nat) (hx : x < Config.memorySize)
    (ha : a + 4 ≤ Config.memorySize) (h : x < a ∨ a + 4 ≤ x) : memRead (memPutWord m a v) x = memRead m x :=
  memRead_memPutField_disjoint m a v 4 x hx ha h

/-- A field that a word write does not meet. -/
theorem memField_memPutWord_outside (m : Memory) (a v b k : Nat) (hb : b + k ≤ Config.memorySize)
    (ha : a + 4 ≤ Config.memorySize) (h : b + k ≤ a ∨ a + 4 ≤ b) :
    memField (memPutWord m a v) b k = memField m b k :=
  memField_memPutField_disjoint m a v 4 b k hb ha h

/-- Consecutive word writes leave the bytes outside them. -/
theorem memRead_memPutWords_outside (m : Memory) (a : Nat) (vs : List Nat) (x : Nat) (hx : x < Config.memorySize)
    (ha : a + 4 * vs.length ≤ Config.memorySize) (h : x < a ∨ a + 4 * vs.length ≤ x) :
    memRead (memPutWords m a vs) x = memRead m x := by
  induction vs generalizing m a with
  | nil => rfl
  | cons v rest ih =>
    simp only [List.length_cons] at ha h
    rw [memPutWords, ih, memRead_memPutWord_outside _ _ _ _ hx (by omega) (by omega)]
    · omega
    · omega

/-- A field that consecutive word writes do not meet. -/
theorem memField_memPutWords_outside (m : Memory) (a : Nat) (vs : List Nat) (b k : Nat)
    (hb : b + k ≤ Config.memorySize) (ha : a + 4 * vs.length ≤ Config.memorySize)
    (h : b + k ≤ a ∨ a + 4 * vs.length ≤ b) : memField (memPutWords m a vs) b k = memField m b k := by
  apply memField_congr
  intro i hi
  exact memRead_memPutWords_outside _ _ _ _ (by omega) ha (by omega)

/-- The `i`-th of consecutive word writes reads back. -/
theorem memField_memPutWords_inside (m : Memory) (a : Nat) (vs : List Nat) (i : Nat) (hi : i < vs.length)
    (ha : a + 4 * vs.length ≤ Config.memorySize) :
    memField (memPutWords m a vs) (a + 4 * i) 4 = vs[i] % 4294967296 := by
  induction vs generalizing m a i with
  | nil => simp at hi
  | cons v rest ih =>
    simp only [List.length_cons] at ha hi
    rw [memPutWords]
    cases i with
    | zero =>
      rw [memField_memPutWords_outside]
      · simpa using memField_memPutWord_same m a v
      · omega
      · omega
      · omega
    | succ i =>
      rw [show a + 4 * (i + 1) = a + 4 + 4 * i by omega, ih _ _ _ (by omega) (by omega)]
      simp

/-! ### The canonical form -/

theorem memWfFrom_le (m : Memory) (lo lo' : Nat) (h : lo' ≤ lo) (hm : memWfFrom lo m = true) :
    memWfFrom lo' m = true := by
  cases m with
  | nil => rfl
  | cons cell rest =>
    simp only [memWfFrom, Bool.and_eq_true, decide_eq_true_eq] at hm ⊢
    exact ⟨⟨⟨by omega, hm.1.1.2⟩, hm.1.2⟩, hm.2⟩

theorem memWfFrom_memErase (m : Memory) (lo a : Nat) (hm : memWfFrom lo m = true) :
    memWfFrom lo (memErase m a) = true := by
  induction m generalizing lo with
  | nil => rfl
  | cons cell rest ih =>
    simp only [memWfFrom, Bool.and_eq_true, decide_eq_true_eq] at hm
    simp only [memErase]
    split
    · exact memWfFrom_le _ _ _ (by omega) (ih _ hm.2)
    · simp only [memWfFrom, Bool.and_eq_true, decide_eq_true_eq]
      exact ⟨hm.1, ih _ hm.2⟩

theorem memWfFrom_memInsert (m : Memory) (lo a : Nat) (b : Byte) (hm : memWfFrom lo m = true)
    (hne : ∀ c ∈ m, c.1 ≠ a) (hlo : lo ≤ a) (ha : a < Config.memorySize) (hb : b ≠ powerOnByte) :
    memWfFrom lo (memInsert m a b) = true := by
  induction m generalizing lo with
  | nil => simp [memInsert, memWfFrom, hlo, ha, hb]
  | cons cell rest ih =>
    have hcell : cell.1 ≠ a := hne cell (by simp)
    simp only [memWfFrom, Bool.and_eq_true, decide_eq_true_eq] at hm
    simp only [memInsert]
    split
    · simp only [memWfFrom, Bool.and_eq_true, decide_eq_true_eq]
      exact ⟨⟨⟨hlo, ha⟩, hb⟩, ⟨⟨by omega, hm.1.1.2⟩, hm.1.2⟩, hm.2⟩
    · simp only [memWfFrom, Bool.and_eq_true, decide_eq_true_eq]
      exact ⟨hm.1, ih _ hm.2 (fun c hc => hne c (by simp [hc])) (by omega)⟩

/-- A byte write keeps the canonical form. -/
theorem wf_memWrite (m : Memory) (a : Nat) (b : Byte) (h : m.wf = true) : Memory.wf (memWrite m a b) = true := by
  simp only [Memory.wf, memWrite] at *
  split
  · exact memWfFrom_memErase _ _ _ h
  · rename_i hb
    exact memWfFrom_memInsert _ _ _ _ (memWfFrom_memErase _ _ _ h) (memErase_ne _ _) (Nat.zero_le _)
      (Nat.mod_lt _ (by simp [Config.memorySize])) hb

/-- A field write keeps the canonical form. -/
theorem wf_memPutField (m : Memory) (a v n : Nat) (h : m.wf = true) : Memory.wf (memPutField m a v n) = true := by
  induction n generalizing m a v with
  | zero => exact h
  | succ n ih => exact ih _ _ _ (wf_memWrite _ _ _ h)

/-- A word write keeps the canonical form. -/
theorem wf_memPutWord (m : Memory) (a v : Nat) (h : m.wf = true) : Memory.wf (memPutWord m a v) = true :=
  wf_memPutField m a v 4 h

/-- Word writes keep the canonical form. -/
theorem wf_memPutWords (m : Memory) (a : Nat) (vs : List Nat) (h : m.wf = true) :
    Memory.wf (memPutWords m a vs) = true := by
  induction vs generalizing m a with
  | nil => exact h
  | cons v rest ih => exact ih _ _ (wf_memPutWord _ _ _ h)

/-- A host write keeps the canonical form. -/
theorem wf_hostWrite (m : Memory) (addr : Word) (w : Width) (v : Word) (h : m.wf = true) :
    Memory.wf (hostWrite m addr w v) = true :=
  wf_memPutField _ _ _ _ h

end Sys2Proof.Machine
end

