-- ==== Sys2Proof/Laws/State.lean ====
section
/-! SUPPORT. One lemma per accessor per update of State, so that no proof unfolds a record update. -/

namespace Sys2Proof.Machine

variable (s : State)


/-! ### setSeq -/

@[simp] theorem State.setSeq_seq_same (c : Chamber) (x : Seq) : (s.setSeq c x).seq c = x := by simp [State.setSeq, State.seq]
theorem State.setSeq_seq_ne (c : Chamber) (x : Seq) (d : Chamber) (h : d ≠ c) : (s.setSeq c x).seq d = s.seq d := by
  simp only [State.setSeq, State.seq, Fin.getElem_fin]
  exact Vector.getElem_set_ne _ _ (fun e => h (Fin.ext e.symm))
theorem State.setSeq_seq (c : Chamber) (x : Seq) (d : Chamber) : (s.setSeq c x).seq d = if d = c then x else s.seq d := by
  by_cases h : d = c
  · subst h; simp
  · simp [h, State.setSeq_seq_ne]
@[simp] theorem State.setSeq_pending (c : Chamber) (x : Seq) : (s.setSeq c x).pending = s.pending := rfl
@[simp] theorem State.setSeq_now (c : Chamber) (x : Seq) : (s.setSeq c x).now = s.now := rfl
@[simp] theorem State.setSeq_uses (c : Chamber) (x : Seq) : (s.setSeq c x).uses = s.uses := rfl
@[simp] theorem State.setSeq_mem (c : Chamber) (x : Seq) : (s.setSeq c x).mem = s.mem := rfl
@[simp] theorem State.setSeq_port (c : Chamber) (x : Seq) : (s.setSeq c x).port = s.port := rfl
@[simp] theorem State.setSeq_tables (c : Chamber) (x : Seq) : (s.setSeq c x).tables = s.tables := rfl
@[simp] theorem State.setSeq_pins (c : Chamber) (x : Seq) : (s.setSeq c x).pins = s.pins := rfl
@[simp] theorem State.setSeq_waitQueue (c : Chamber) (x : Seq) : (s.setSeq c x).waitQueue = s.waitQueue := rfl
@[simp] theorem State.setSeq_rough (c : Chamber) (x : Seq) : (s.setSeq c x).rough = s.rough := rfl
@[simp] theorem State.setSeq_scan (c : Chamber) (x : Seq) : (s.setSeq c x).scan = s.scan := rfl
@[simp] theorem State.setSeq_rf (c : Chamber) (x : Seq) (i : Chamber) : (s.setSeq c x).rf i = s.rf i := rfl
@[simp] theorem State.setSeq_press (c : Chamber) (x : Seq) (i : Chamber) : (s.setSeq c x).press i = s.press i := rfl
@[simp] theorem State.setSeq_pump (c : Chamber) (x : Seq) (i : Chamber) : (s.setSeq c x).pump i = s.pump i := rfl
@[simp] theorem State.setSeq_econ (c : Chamber) (x : Seq) (i : Chamber) : (s.setSeq c x).econ i = s.econ i := rfl
@[simp] theorem State.setSeq_rep (c : Chamber) (x : Seq) (i : Chamber) : (s.setSeq c x).rep i = s.rep i := rfl
@[simp] theorem State.setSeq_line (c : Chamber) (x : Seq) (i : LineId) : (s.setSeq c x).line i = s.line i := rfl
@[simp] theorem State.setSeq_arb (c : Chamber) (x : Seq) (i : LineId) : (s.setSeq c x).arb i = s.arb i := rfl
@[simp] theorem State.setSeq_chan (c : Chamber) (x : Seq) (i : ChannelId) : (s.setSeq c x).chan i = s.chan i := rfl
@[simp] theorem State.setSeq_ilk (c : Chamber) (x : Seq) (i : InputId) : (s.setSeq c x).ilk i = s.ilk i := rfl
@[simp] theorem State.setSeq_gasInhibit (c : Chamber) (x : Seq) (i : Chamber) : (s.setSeq c x).gasInhibit i = s.gasInhibit i := rfl
@[simp] theorem State.setSeq_chamberCfg (c : Chamber) (x : Seq) (i : Chamber) : (s.setSeq c x).chamberCfg i = s.chamberCfg i := rfl
@[simp] theorem State.setSeq_lineCfg (c : Chamber) (x : Seq) (i : LineId) : (s.setSeq c x).lineCfg i = s.lineCfg i := rfl
@[simp] theorem State.setSeq_ilkCfg (c : Chamber) (x : Seq) (i : InputId) : (s.setSeq c x).ilkCfg i = s.ilkCfg i := rfl

/-! ### setRf -/

@[simp] theorem State.setRf_rf_same (c : Chamber) (x : Rf) : (s.setRf c x).rf c = x := by simp [State.setRf, State.rf]
theorem State.setRf_rf_ne (c : Chamber) (x : Rf) (d : Chamber) (h : d ≠ c) : (s.setRf c x).rf d = s.rf d := by
  simp only [State.setRf, State.rf, Fin.getElem_fin]
  exact Vector.getElem_set_ne _ _ (fun e => h (Fin.ext e.symm))
theorem State.setRf_rf (c : Chamber) (x : Rf) (d : Chamber) : (s.setRf c x).rf d = if d = c then x else s.rf d := by
  by_cases h : d = c
  · subst h; simp
  · simp [h, State.setRf_rf_ne]
@[simp] theorem State.setRf_pending (c : Chamber) (x : Rf) : (s.setRf c x).pending = s.pending := rfl
@[simp] theorem State.setRf_now (c : Chamber) (x : Rf) : (s.setRf c x).now = s.now := rfl
@[simp] theorem State.setRf_uses (c : Chamber) (x : Rf) : (s.setRf c x).uses = s.uses := rfl
@[simp] theorem State.setRf_mem (c : Chamber) (x : Rf) : (s.setRf c x).mem = s.mem := rfl
@[simp] theorem State.setRf_port (c : Chamber) (x : Rf) : (s.setRf c x).port = s.port := rfl
@[simp] theorem State.setRf_tables (c : Chamber) (x : Rf) : (s.setRf c x).tables = s.tables := rfl
@[simp] theorem State.setRf_pins (c : Chamber) (x : Rf) : (s.setRf c x).pins = s.pins := rfl
@[simp] theorem State.setRf_waitQueue (c : Chamber) (x : Rf) : (s.setRf c x).waitQueue = s.waitQueue := rfl
@[simp] theorem State.setRf_rough (c : Chamber) (x : Rf) : (s.setRf c x).rough = s.rough := rfl
@[simp] theorem State.setRf_scan (c : Chamber) (x : Rf) : (s.setRf c x).scan = s.scan := rfl
@[simp] theorem State.setRf_seq (c : Chamber) (x : Rf) (i : Chamber) : (s.setRf c x).seq i = s.seq i := rfl
@[simp] theorem State.setRf_press (c : Chamber) (x : Rf) (i : Chamber) : (s.setRf c x).press i = s.press i := rfl
@[simp] theorem State.setRf_pump (c : Chamber) (x : Rf) (i : Chamber) : (s.setRf c x).pump i = s.pump i := rfl
@[simp] theorem State.setRf_econ (c : Chamber) (x : Rf) (i : Chamber) : (s.setRf c x).econ i = s.econ i := rfl
@[simp] theorem State.setRf_rep (c : Chamber) (x : Rf) (i : Chamber) : (s.setRf c x).rep i = s.rep i := rfl
@[simp] theorem State.setRf_line (c : Chamber) (x : Rf) (i : LineId) : (s.setRf c x).line i = s.line i := rfl
@[simp] theorem State.setRf_arb (c : Chamber) (x : Rf) (i : LineId) : (s.setRf c x).arb i = s.arb i := rfl
@[simp] theorem State.setRf_chan (c : Chamber) (x : Rf) (i : ChannelId) : (s.setRf c x).chan i = s.chan i := rfl
@[simp] theorem State.setRf_ilk (c : Chamber) (x : Rf) (i : InputId) : (s.setRf c x).ilk i = s.ilk i := rfl
@[simp] theorem State.setRf_gasInhibit (c : Chamber) (x : Rf) (i : Chamber) : (s.setRf c x).gasInhibit i = s.gasInhibit i := rfl
@[simp] theorem State.setRf_chamberCfg (c : Chamber) (x : Rf) (i : Chamber) : (s.setRf c x).chamberCfg i = s.chamberCfg i := rfl
@[simp] theorem State.setRf_lineCfg (c : Chamber) (x : Rf) (i : LineId) : (s.setRf c x).lineCfg i = s.lineCfg i := rfl
@[simp] theorem State.setRf_ilkCfg (c : Chamber) (x : Rf) (i : InputId) : (s.setRf c x).ilkCfg i = s.ilkCfg i := rfl

/-! ### setPress -/

@[simp] theorem State.setPress_press_same (c : Chamber) (x : Press) : (s.setPress c x).press c = x := by simp [State.setPress, State.press]
theorem State.setPress_press_ne (c : Chamber) (x : Press) (d : Chamber) (h : d ≠ c) : (s.setPress c x).press d = s.press d := by
  simp only [State.setPress, State.press, Fin.getElem_fin]
  exact Vector.getElem_set_ne _ _ (fun e => h (Fin.ext e.symm))
theorem State.setPress_press (c : Chamber) (x : Press) (d : Chamber) : (s.setPress c x).press d = if d = c then x else s.press d := by
  by_cases h : d = c
  · subst h; simp
  · simp [h, State.setPress_press_ne]
@[simp] theorem State.setPress_pending (c : Chamber) (x : Press) : (s.setPress c x).pending = s.pending := rfl
@[simp] theorem State.setPress_now (c : Chamber) (x : Press) : (s.setPress c x).now = s.now := rfl
@[simp] theorem State.setPress_uses (c : Chamber) (x : Press) : (s.setPress c x).uses = s.uses := rfl
@[simp] theorem State.setPress_mem (c : Chamber) (x : Press) : (s.setPress c x).mem = s.mem := rfl
@[simp] theorem State.setPress_port (c : Chamber) (x : Press) : (s.setPress c x).port = s.port := rfl
@[simp] theorem State.setPress_tables (c : Chamber) (x : Press) : (s.setPress c x).tables = s.tables := rfl
@[simp] theorem State.setPress_pins (c : Chamber) (x : Press) : (s.setPress c x).pins = s.pins := rfl
@[simp] theorem State.setPress_waitQueue (c : Chamber) (x : Press) : (s.setPress c x).waitQueue = s.waitQueue := rfl
@[simp] theorem State.setPress_rough (c : Chamber) (x : Press) : (s.setPress c x).rough = s.rough := rfl
@[simp] theorem State.setPress_scan (c : Chamber) (x : Press) : (s.setPress c x).scan = s.scan := rfl
@[simp] theorem State.setPress_seq (c : Chamber) (x : Press) (i : Chamber) : (s.setPress c x).seq i = s.seq i := rfl
@[simp] theorem State.setPress_rf (c : Chamber) (x : Press) (i : Chamber) : (s.setPress c x).rf i = s.rf i := rfl
@[simp] theorem State.setPress_pump (c : Chamber) (x : Press) (i : Chamber) : (s.setPress c x).pump i = s.pump i := rfl
@[simp] theorem State.setPress_econ (c : Chamber) (x : Press) (i : Chamber) : (s.setPress c x).econ i = s.econ i := rfl
@[simp] theorem State.setPress_rep (c : Chamber) (x : Press) (i : Chamber) : (s.setPress c x).rep i = s.rep i := rfl
@[simp] theorem State.setPress_line (c : Chamber) (x : Press) (i : LineId) : (s.setPress c x).line i = s.line i := rfl
@[simp] theorem State.setPress_arb (c : Chamber) (x : Press) (i : LineId) : (s.setPress c x).arb i = s.arb i := rfl
@[simp] theorem State.setPress_chan (c : Chamber) (x : Press) (i : ChannelId) : (s.setPress c x).chan i = s.chan i := rfl
@[simp] theorem State.setPress_ilk (c : Chamber) (x : Press) (i : InputId) : (s.setPress c x).ilk i = s.ilk i := rfl
@[simp] theorem State.setPress_gasInhibit (c : Chamber) (x : Press) (i : Chamber) : (s.setPress c x).gasInhibit i = s.gasInhibit i := rfl
@[simp] theorem State.setPress_chamberCfg (c : Chamber) (x : Press) (i : Chamber) : (s.setPress c x).chamberCfg i = s.chamberCfg i := rfl
@[simp] theorem State.setPress_lineCfg (c : Chamber) (x : Press) (i : LineId) : (s.setPress c x).lineCfg i = s.lineCfg i := rfl
@[simp] theorem State.setPress_ilkCfg (c : Chamber) (x : Press) (i : InputId) : (s.setPress c x).ilkCfg i = s.ilkCfg i := rfl

/-! ### setPump -/

@[simp] theorem State.setPump_pump_same (c : Chamber) (x : Pump) : (s.setPump c x).pump c = x := by simp [State.setPump, State.pump]
theorem State.setPump_pump_ne (c : Chamber) (x : Pump) (d : Chamber) (h : d ≠ c) : (s.setPump c x).pump d = s.pump d := by
  simp only [State.setPump, State.pump, Fin.getElem_fin]
  exact Vector.getElem_set_ne _ _ (fun e => h (Fin.ext e.symm))
theorem State.setPump_pump (c : Chamber) (x : Pump) (d : Chamber) : (s.setPump c x).pump d = if d = c then x else s.pump d := by
  by_cases h : d = c
  · subst h; simp
  · simp [h, State.setPump_pump_ne]
@[simp] theorem State.setPump_pending (c : Chamber) (x : Pump) : (s.setPump c x).pending = s.pending := rfl
@[simp] theorem State.setPump_now (c : Chamber) (x : Pump) : (s.setPump c x).now = s.now := rfl
@[simp] theorem State.setPump_uses (c : Chamber) (x : Pump) : (s.setPump c x).uses = s.uses := rfl
@[simp] theorem State.setPump_mem (c : Chamber) (x : Pump) : (s.setPump c x).mem = s.mem := rfl
@[simp] theorem State.setPump_port (c : Chamber) (x : Pump) : (s.setPump c x).port = s.port := rfl
@[simp] theorem State.setPump_tables (c : Chamber) (x : Pump) : (s.setPump c x).tables = s.tables := rfl
@[simp] theorem State.setPump_pins (c : Chamber) (x : Pump) : (s.setPump c x).pins = s.pins := rfl
@[simp] theorem State.setPump_waitQueue (c : Chamber) (x : Pump) : (s.setPump c x).waitQueue = s.waitQueue := rfl
@[simp] theorem State.setPump_rough (c : Chamber) (x : Pump) : (s.setPump c x).rough = s.rough := rfl
@[simp] theorem State.setPump_scan (c : Chamber) (x : Pump) : (s.setPump c x).scan = s.scan := rfl
@[simp] theorem State.setPump_seq (c : Chamber) (x : Pump) (i : Chamber) : (s.setPump c x).seq i = s.seq i := rfl
@[simp] theorem State.setPump_rf (c : Chamber) (x : Pump) (i : Chamber) : (s.setPump c x).rf i = s.rf i := rfl
@[simp] theorem State.setPump_press (c : Chamber) (x : Pump) (i : Chamber) : (s.setPump c x).press i = s.press i := rfl
@[simp] theorem State.setPump_econ (c : Chamber) (x : Pump) (i : Chamber) : (s.setPump c x).econ i = s.econ i := rfl
@[simp] theorem State.setPump_rep (c : Chamber) (x : Pump) (i : Chamber) : (s.setPump c x).rep i = s.rep i := rfl
@[simp] theorem State.setPump_line (c : Chamber) (x : Pump) (i : LineId) : (s.setPump c x).line i = s.line i := rfl
@[simp] theorem State.setPump_arb (c : Chamber) (x : Pump) (i : LineId) : (s.setPump c x).arb i = s.arb i := rfl
@[simp] theorem State.setPump_chan (c : Chamber) (x : Pump) (i : ChannelId) : (s.setPump c x).chan i = s.chan i := rfl
@[simp] theorem State.setPump_ilk (c : Chamber) (x : Pump) (i : InputId) : (s.setPump c x).ilk i = s.ilk i := rfl
@[simp] theorem State.setPump_gasInhibit (c : Chamber) (x : Pump) (i : Chamber) : (s.setPump c x).gasInhibit i = s.gasInhibit i := rfl
@[simp] theorem State.setPump_chamberCfg (c : Chamber) (x : Pump) (i : Chamber) : (s.setPump c x).chamberCfg i = s.chamberCfg i := rfl
@[simp] theorem State.setPump_lineCfg (c : Chamber) (x : Pump) (i : LineId) : (s.setPump c x).lineCfg i = s.lineCfg i := rfl
@[simp] theorem State.setPump_ilkCfg (c : Chamber) (x : Pump) (i : InputId) : (s.setPump c x).ilkCfg i = s.ilkCfg i := rfl

/-! ### setEcon -/

@[simp] theorem State.setEcon_econ_same (c : Chamber) (x : Econ) : (s.setEcon c x).econ c = x := by simp [State.setEcon, State.econ]
theorem State.setEcon_econ_ne (c : Chamber) (x : Econ) (d : Chamber) (h : d ≠ c) : (s.setEcon c x).econ d = s.econ d := by
  simp only [State.setEcon, State.econ, Fin.getElem_fin]
  exact Vector.getElem_set_ne _ _ (fun e => h (Fin.ext e.symm))
theorem State.setEcon_econ (c : Chamber) (x : Econ) (d : Chamber) : (s.setEcon c x).econ d = if d = c then x else s.econ d := by
  by_cases h : d = c
  · subst h; simp
  · simp [h, State.setEcon_econ_ne]
@[simp] theorem State.setEcon_pending (c : Chamber) (x : Econ) : (s.setEcon c x).pending = s.pending := rfl
@[simp] theorem State.setEcon_now (c : Chamber) (x : Econ) : (s.setEcon c x).now = s.now := rfl
@[simp] theorem State.setEcon_uses (c : Chamber) (x : Econ) : (s.setEcon c x).uses = s.uses := rfl
@[simp] theorem State.setEcon_mem (c : Chamber) (x : Econ) : (s.setEcon c x).mem = s.mem := rfl
@[simp] theorem State.setEcon_port (c : Chamber) (x : Econ) : (s.setEcon c x).port = s.port := rfl
@[simp] theorem State.setEcon_tables (c : Chamber) (x : Econ) : (s.setEcon c x).tables = s.tables := rfl
@[simp] theorem State.setEcon_pins (c : Chamber) (x : Econ) : (s.setEcon c x).pins = s.pins := rfl
@[simp] theorem State.setEcon_waitQueue (c : Chamber) (x : Econ) : (s.setEcon c x).waitQueue = s.waitQueue := rfl
@[simp] theorem State.setEcon_rough (c : Chamber) (x : Econ) : (s.setEcon c x).rough = s.rough := rfl
@[simp] theorem State.setEcon_scan (c : Chamber) (x : Econ) : (s.setEcon c x).scan = s.scan := rfl
@[simp] theorem State.setEcon_seq (c : Chamber) (x : Econ) (i : Chamber) : (s.setEcon c x).seq i = s.seq i := rfl
@[simp] theorem State.setEcon_rf (c : Chamber) (x : Econ) (i : Chamber) : (s.setEcon c x).rf i = s.rf i := rfl
@[simp] theorem State.setEcon_press (c : Chamber) (x : Econ) (i : Chamber) : (s.setEcon c x).press i = s.press i := rfl
@[simp] theorem State.setEcon_pump (c : Chamber) (x : Econ) (i : Chamber) : (s.setEcon c x).pump i = s.pump i := rfl
@[simp] theorem State.setEcon_rep (c : Chamber) (x : Econ) (i : Chamber) : (s.setEcon c x).rep i = s.rep i := rfl
@[simp] theorem State.setEcon_line (c : Chamber) (x : Econ) (i : LineId) : (s.setEcon c x).line i = s.line i := rfl
@[simp] theorem State.setEcon_arb (c : Chamber) (x : Econ) (i : LineId) : (s.setEcon c x).arb i = s.arb i := rfl
@[simp] theorem State.setEcon_chan (c : Chamber) (x : Econ) (i : ChannelId) : (s.setEcon c x).chan i = s.chan i := rfl
@[simp] theorem State.setEcon_ilk (c : Chamber) (x : Econ) (i : InputId) : (s.setEcon c x).ilk i = s.ilk i := rfl
@[simp] theorem State.setEcon_gasInhibit (c : Chamber) (x : Econ) (i : Chamber) : (s.setEcon c x).gasInhibit i = s.gasInhibit i := rfl
@[simp] theorem State.setEcon_chamberCfg (c : Chamber) (x : Econ) (i : Chamber) : (s.setEcon c x).chamberCfg i = s.chamberCfg i := rfl
@[simp] theorem State.setEcon_lineCfg (c : Chamber) (x : Econ) (i : LineId) : (s.setEcon c x).lineCfg i = s.lineCfg i := rfl
@[simp] theorem State.setEcon_ilkCfg (c : Chamber) (x : Econ) (i : InputId) : (s.setEcon c x).ilkCfg i = s.ilkCfg i := rfl

/-! ### setRep -/

@[simp] theorem State.setRep_rep_same (c : Chamber) (x : Rep) : (s.setRep c x).rep c = x := by simp [State.setRep, State.rep]
theorem State.setRep_rep_ne (c : Chamber) (x : Rep) (d : Chamber) (h : d ≠ c) : (s.setRep c x).rep d = s.rep d := by
  simp only [State.setRep, State.rep, Fin.getElem_fin]
  exact Vector.getElem_set_ne _ _ (fun e => h (Fin.ext e.symm))
theorem State.setRep_rep (c : Chamber) (x : Rep) (d : Chamber) : (s.setRep c x).rep d = if d = c then x else s.rep d := by
  by_cases h : d = c
  · subst h; simp
  · simp [h, State.setRep_rep_ne]
@[simp] theorem State.setRep_pending (c : Chamber) (x : Rep) : (s.setRep c x).pending = s.pending := rfl
@[simp] theorem State.setRep_now (c : Chamber) (x : Rep) : (s.setRep c x).now = s.now := rfl
@[simp] theorem State.setRep_uses (c : Chamber) (x : Rep) : (s.setRep c x).uses = s.uses := rfl
@[simp] theorem State.setRep_mem (c : Chamber) (x : Rep) : (s.setRep c x).mem = s.mem := rfl
@[simp] theorem State.setRep_port (c : Chamber) (x : Rep) : (s.setRep c x).port = s.port := rfl
@[simp] theorem State.setRep_tables (c : Chamber) (x : Rep) : (s.setRep c x).tables = s.tables := rfl
@[simp] theorem State.setRep_pins (c : Chamber) (x : Rep) : (s.setRep c x).pins = s.pins := rfl
@[simp] theorem State.setRep_waitQueue (c : Chamber) (x : Rep) : (s.setRep c x).waitQueue = s.waitQueue := rfl
@[simp] theorem State.setRep_rough (c : Chamber) (x : Rep) : (s.setRep c x).rough = s.rough := rfl
@[simp] theorem State.setRep_scan (c : Chamber) (x : Rep) : (s.setRep c x).scan = s.scan := rfl
@[simp] theorem State.setRep_seq (c : Chamber) (x : Rep) (i : Chamber) : (s.setRep c x).seq i = s.seq i := rfl
@[simp] theorem State.setRep_rf (c : Chamber) (x : Rep) (i : Chamber) : (s.setRep c x).rf i = s.rf i := rfl
@[simp] theorem State.setRep_press (c : Chamber) (x : Rep) (i : Chamber) : (s.setRep c x).press i = s.press i := rfl
@[simp] theorem State.setRep_pump (c : Chamber) (x : Rep) (i : Chamber) : (s.setRep c x).pump i = s.pump i := rfl
@[simp] theorem State.setRep_econ (c : Chamber) (x : Rep) (i : Chamber) : (s.setRep c x).econ i = s.econ i := rfl
@[simp] theorem State.setRep_line (c : Chamber) (x : Rep) (i : LineId) : (s.setRep c x).line i = s.line i := rfl
@[simp] theorem State.setRep_arb (c : Chamber) (x : Rep) (i : LineId) : (s.setRep c x).arb i = s.arb i := rfl
@[simp] theorem State.setRep_chan (c : Chamber) (x : Rep) (i : ChannelId) : (s.setRep c x).chan i = s.chan i := rfl
@[simp] theorem State.setRep_ilk (c : Chamber) (x : Rep) (i : InputId) : (s.setRep c x).ilk i = s.ilk i := rfl
@[simp] theorem State.setRep_gasInhibit (c : Chamber) (x : Rep) (i : Chamber) : (s.setRep c x).gasInhibit i = s.gasInhibit i := rfl
@[simp] theorem State.setRep_chamberCfg (c : Chamber) (x : Rep) (i : Chamber) : (s.setRep c x).chamberCfg i = s.chamberCfg i := rfl
@[simp] theorem State.setRep_lineCfg (c : Chamber) (x : Rep) (i : LineId) : (s.setRep c x).lineCfg i = s.lineCfg i := rfl
@[simp] theorem State.setRep_ilkCfg (c : Chamber) (x : Rep) (i : InputId) : (s.setRep c x).ilkCfg i = s.ilkCfg i := rfl

/-! ### setLine -/

@[simp] theorem State.setLine_line_same (c : LineId) (x : Line) : (s.setLine c x).line c = x := by simp [State.setLine, State.line]
theorem State.setLine_line_ne (c : LineId) (x : Line) (d : LineId) (h : d ≠ c) : (s.setLine c x).line d = s.line d := by
  simp only [State.setLine, State.line, Fin.getElem_fin]
  exact Vector.getElem_set_ne _ _ (fun e => h (Fin.ext e.symm))
theorem State.setLine_line (c : LineId) (x : Line) (d : LineId) : (s.setLine c x).line d = if d = c then x else s.line d := by
  by_cases h : d = c
  · subst h; simp
  · simp [h, State.setLine_line_ne]
@[simp] theorem State.setLine_pending (c : LineId) (x : Line) : (s.setLine c x).pending = s.pending := rfl
@[simp] theorem State.setLine_now (c : LineId) (x : Line) : (s.setLine c x).now = s.now := rfl
@[simp] theorem State.setLine_uses (c : LineId) (x : Line) : (s.setLine c x).uses = s.uses := rfl
@[simp] theorem State.setLine_mem (c : LineId) (x : Line) : (s.setLine c x).mem = s.mem := rfl
@[simp] theorem State.setLine_port (c : LineId) (x : Line) : (s.setLine c x).port = s.port := rfl
@[simp] theorem State.setLine_tables (c : LineId) (x : Line) : (s.setLine c x).tables = s.tables := rfl
@[simp] theorem State.setLine_pins (c : LineId) (x : Line) : (s.setLine c x).pins = s.pins := rfl
@[simp] theorem State.setLine_waitQueue (c : LineId) (x : Line) : (s.setLine c x).waitQueue = s.waitQueue := rfl
@[simp] theorem State.setLine_rough (c : LineId) (x : Line) : (s.setLine c x).rough = s.rough := rfl
@[simp] theorem State.setLine_scan (c : LineId) (x : Line) : (s.setLine c x).scan = s.scan := rfl
@[simp] theorem State.setLine_seq (c : LineId) (x : Line) (i : Chamber) : (s.setLine c x).seq i = s.seq i := rfl
@[simp] theorem State.setLine_rf (c : LineId) (x : Line) (i : Chamber) : (s.setLine c x).rf i = s.rf i := rfl
@[simp] theorem State.setLine_press (c : LineId) (x : Line) (i : Chamber) : (s.setLine c x).press i = s.press i := rfl
@[simp] theorem State.setLine_pump (c : LineId) (x : Line) (i : Chamber) : (s.setLine c x).pump i = s.pump i := rfl
@[simp] theorem State.setLine_econ (c : LineId) (x : Line) (i : Chamber) : (s.setLine c x).econ i = s.econ i := rfl
@[simp] theorem State.setLine_rep (c : LineId) (x : Line) (i : Chamber) : (s.setLine c x).rep i = s.rep i := rfl
@[simp] theorem State.setLine_arb (c : LineId) (x : Line) (i : LineId) : (s.setLine c x).arb i = s.arb i := rfl
@[simp] theorem State.setLine_chan (c : LineId) (x : Line) (i : ChannelId) : (s.setLine c x).chan i = s.chan i := rfl
@[simp] theorem State.setLine_ilk (c : LineId) (x : Line) (i : InputId) : (s.setLine c x).ilk i = s.ilk i := rfl
@[simp] theorem State.setLine_gasInhibit (c : LineId) (x : Line) (i : Chamber) : (s.setLine c x).gasInhibit i = s.gasInhibit i := rfl
@[simp] theorem State.setLine_chamberCfg (c : LineId) (x : Line) (i : Chamber) : (s.setLine c x).chamberCfg i = s.chamberCfg i := rfl
@[simp] theorem State.setLine_lineCfg (c : LineId) (x : Line) (i : LineId) : (s.setLine c x).lineCfg i = s.lineCfg i := rfl
@[simp] theorem State.setLine_ilkCfg (c : LineId) (x : Line) (i : InputId) : (s.setLine c x).ilkCfg i = s.ilkCfg i := rfl

/-! ### setArb -/

@[simp] theorem State.setArb_arb_same (c : LineId) (x : Arb) : (s.setArb c x).arb c = x := by simp [State.setArb, State.arb]
theorem State.setArb_arb_ne (c : LineId) (x : Arb) (d : LineId) (h : d ≠ c) : (s.setArb c x).arb d = s.arb d := by
  simp only [State.setArb, State.arb, Fin.getElem_fin]
  exact Vector.getElem_set_ne _ _ (fun e => h (Fin.ext e.symm))
theorem State.setArb_arb (c : LineId) (x : Arb) (d : LineId) : (s.setArb c x).arb d = if d = c then x else s.arb d := by
  by_cases h : d = c
  · subst h; simp
  · simp [h, State.setArb_arb_ne]
@[simp] theorem State.setArb_pending (c : LineId) (x : Arb) : (s.setArb c x).pending = s.pending := rfl
@[simp] theorem State.setArb_now (c : LineId) (x : Arb) : (s.setArb c x).now = s.now := rfl
@[simp] theorem State.setArb_uses (c : LineId) (x : Arb) : (s.setArb c x).uses = s.uses := rfl
@[simp] theorem State.setArb_mem (c : LineId) (x : Arb) : (s.setArb c x).mem = s.mem := rfl
@[simp] theorem State.setArb_port (c : LineId) (x : Arb) : (s.setArb c x).port = s.port := rfl
@[simp] theorem State.setArb_tables (c : LineId) (x : Arb) : (s.setArb c x).tables = s.tables := rfl
@[simp] theorem State.setArb_pins (c : LineId) (x : Arb) : (s.setArb c x).pins = s.pins := rfl
@[simp] theorem State.setArb_waitQueue (c : LineId) (x : Arb) : (s.setArb c x).waitQueue = s.waitQueue := rfl
@[simp] theorem State.setArb_rough (c : LineId) (x : Arb) : (s.setArb c x).rough = s.rough := rfl
@[simp] theorem State.setArb_scan (c : LineId) (x : Arb) : (s.setArb c x).scan = s.scan := rfl
@[simp] theorem State.setArb_seq (c : LineId) (x : Arb) (i : Chamber) : (s.setArb c x).seq i = s.seq i := rfl
@[simp] theorem State.setArb_rf (c : LineId) (x : Arb) (i : Chamber) : (s.setArb c x).rf i = s.rf i := rfl
@[simp] theorem State.setArb_press (c : LineId) (x : Arb) (i : Chamber) : (s.setArb c x).press i = s.press i := rfl
@[simp] theorem State.setArb_pump (c : LineId) (x : Arb) (i : Chamber) : (s.setArb c x).pump i = s.pump i := rfl
@[simp] theorem State.setArb_econ (c : LineId) (x : Arb) (i : Chamber) : (s.setArb c x).econ i = s.econ i := rfl
@[simp] theorem State.setArb_rep (c : LineId) (x : Arb) (i : Chamber) : (s.setArb c x).rep i = s.rep i := rfl
@[simp] theorem State.setArb_line (c : LineId) (x : Arb) (i : LineId) : (s.setArb c x).line i = s.line i := rfl
@[simp] theorem State.setArb_chan (c : LineId) (x : Arb) (i : ChannelId) : (s.setArb c x).chan i = s.chan i := rfl
@[simp] theorem State.setArb_ilk (c : LineId) (x : Arb) (i : InputId) : (s.setArb c x).ilk i = s.ilk i := rfl
@[simp] theorem State.setArb_gasInhibit (c : LineId) (x : Arb) (i : Chamber) : (s.setArb c x).gasInhibit i = s.gasInhibit i := rfl
@[simp] theorem State.setArb_chamberCfg (c : LineId) (x : Arb) (i : Chamber) : (s.setArb c x).chamberCfg i = s.chamberCfg i := rfl
@[simp] theorem State.setArb_lineCfg (c : LineId) (x : Arb) (i : LineId) : (s.setArb c x).lineCfg i = s.lineCfg i := rfl
@[simp] theorem State.setArb_ilkCfg (c : LineId) (x : Arb) (i : InputId) : (s.setArb c x).ilkCfg i = s.ilkCfg i := rfl

/-! ### setChan -/

@[simp] theorem State.setChan_chan_same (c : ChannelId) (x : Chan) : (s.setChan c x).chan c = x := by simp [State.setChan, State.chan]
theorem State.setChan_chan_ne (c : ChannelId) (x : Chan) (d : ChannelId) (h : d ≠ c) : (s.setChan c x).chan d = s.chan d := by
  simp only [State.setChan, State.chan, Fin.getElem_fin]
  exact Vector.getElem_set_ne _ _ (fun e => h (Fin.ext e.symm))
theorem State.setChan_chan (c : ChannelId) (x : Chan) (d : ChannelId) : (s.setChan c x).chan d = if d = c then x else s.chan d := by
  by_cases h : d = c
  · subst h; simp
  · simp [h, State.setChan_chan_ne]
@[simp] theorem State.setChan_pending (c : ChannelId) (x : Chan) : (s.setChan c x).pending = s.pending := rfl
@[simp] theorem State.setChan_now (c : ChannelId) (x : Chan) : (s.setChan c x).now = s.now := rfl
@[simp] theorem State.setChan_uses (c : ChannelId) (x : Chan) : (s.setChan c x).uses = s.uses := rfl
@[simp] theorem State.setChan_mem (c : ChannelId) (x : Chan) : (s.setChan c x).mem = s.mem := rfl
@[simp] theorem State.setChan_port (c : ChannelId) (x : Chan) : (s.setChan c x).port = s.port := rfl
@[simp] theorem State.setChan_tables (c : ChannelId) (x : Chan) : (s.setChan c x).tables = s.tables := rfl
@[simp] theorem State.setChan_pins (c : ChannelId) (x : Chan) : (s.setChan c x).pins = s.pins := rfl
@[simp] theorem State.setChan_waitQueue (c : ChannelId) (x : Chan) : (s.setChan c x).waitQueue = s.waitQueue := rfl
@[simp] theorem State.setChan_rough (c : ChannelId) (x : Chan) : (s.setChan c x).rough = s.rough := rfl
@[simp] theorem State.setChan_scan (c : ChannelId) (x : Chan) : (s.setChan c x).scan = s.scan := rfl
@[simp] theorem State.setChan_seq (c : ChannelId) (x : Chan) (i : Chamber) : (s.setChan c x).seq i = s.seq i := rfl
@[simp] theorem State.setChan_rf (c : ChannelId) (x : Chan) (i : Chamber) : (s.setChan c x).rf i = s.rf i := rfl
@[simp] theorem State.setChan_press (c : ChannelId) (x : Chan) (i : Chamber) : (s.setChan c x).press i = s.press i := rfl
@[simp] theorem State.setChan_pump (c : ChannelId) (x : Chan) (i : Chamber) : (s.setChan c x).pump i = s.pump i := rfl
@[simp] theorem State.setChan_econ (c : ChannelId) (x : Chan) (i : Chamber) : (s.setChan c x).econ i = s.econ i := rfl
@[simp] theorem State.setChan_rep (c : ChannelId) (x : Chan) (i : Chamber) : (s.setChan c x).rep i = s.rep i := rfl
@[simp] theorem State.setChan_line (c : ChannelId) (x : Chan) (i : LineId) : (s.setChan c x).line i = s.line i := rfl
@[simp] theorem State.setChan_arb (c : ChannelId) (x : Chan) (i : LineId) : (s.setChan c x).arb i = s.arb i := rfl
@[simp] theorem State.setChan_ilk (c : ChannelId) (x : Chan) (i : InputId) : (s.setChan c x).ilk i = s.ilk i := rfl
@[simp] theorem State.setChan_gasInhibit (c : ChannelId) (x : Chan) (i : Chamber) : (s.setChan c x).gasInhibit i = s.gasInhibit i := rfl
@[simp] theorem State.setChan_chamberCfg (c : ChannelId) (x : Chan) (i : Chamber) : (s.setChan c x).chamberCfg i = s.chamberCfg i := rfl
@[simp] theorem State.setChan_lineCfg (c : ChannelId) (x : Chan) (i : LineId) : (s.setChan c x).lineCfg i = s.lineCfg i := rfl
@[simp] theorem State.setChan_ilkCfg (c : ChannelId) (x : Chan) (i : InputId) : (s.setChan c x).ilkCfg i = s.ilkCfg i := rfl

/-! ### setIlk -/

@[simp] theorem State.setIlk_ilk_same (c : InputId) (x : Ilk) : (s.setIlk c x).ilk c = x := by simp [State.setIlk, State.ilk]
theorem State.setIlk_ilk_ne (c : InputId) (x : Ilk) (d : InputId) (h : d ≠ c) : (s.setIlk c x).ilk d = s.ilk d := by
  simp only [State.setIlk, State.ilk, Fin.getElem_fin]
  exact Vector.getElem_set_ne _ _ (fun e => h (Fin.ext e.symm))
theorem State.setIlk_ilk (c : InputId) (x : Ilk) (d : InputId) : (s.setIlk c x).ilk d = if d = c then x else s.ilk d := by
  by_cases h : d = c
  · subst h; simp
  · simp [h, State.setIlk_ilk_ne]
@[simp] theorem State.setIlk_pending (c : InputId) (x : Ilk) : (s.setIlk c x).pending = s.pending := rfl
@[simp] theorem State.setIlk_now (c : InputId) (x : Ilk) : (s.setIlk c x).now = s.now := rfl
@[simp] theorem State.setIlk_uses (c : InputId) (x : Ilk) : (s.setIlk c x).uses = s.uses := rfl
@[simp] theorem State.setIlk_mem (c : InputId) (x : Ilk) : (s.setIlk c x).mem = s.mem := rfl
@[simp] theorem State.setIlk_port (c : InputId) (x : Ilk) : (s.setIlk c x).port = s.port := rfl
@[simp] theorem State.setIlk_tables (c : InputId) (x : Ilk) : (s.setIlk c x).tables = s.tables := rfl
@[simp] theorem State.setIlk_pins (c : InputId) (x : Ilk) : (s.setIlk c x).pins = s.pins := rfl
@[simp] theorem State.setIlk_waitQueue (c : InputId) (x : Ilk) : (s.setIlk c x).waitQueue = s.waitQueue := rfl
@[simp] theorem State.setIlk_rough (c : InputId) (x : Ilk) : (s.setIlk c x).rough = s.rough := rfl
@[simp] theorem State.setIlk_scan (c : InputId) (x : Ilk) : (s.setIlk c x).scan = s.scan := rfl
@[simp] theorem State.setIlk_seq (c : InputId) (x : Ilk) (i : Chamber) : (s.setIlk c x).seq i = s.seq i := rfl
@[simp] theorem State.setIlk_rf (c : InputId) (x : Ilk) (i : Chamber) : (s.setIlk c x).rf i = s.rf i := rfl
@[simp] theorem State.setIlk_press (c : InputId) (x : Ilk) (i : Chamber) : (s.setIlk c x).press i = s.press i := rfl
@[simp] theorem State.setIlk_pump (c : InputId) (x : Ilk) (i : Chamber) : (s.setIlk c x).pump i = s.pump i := rfl
@[simp] theorem State.setIlk_econ (c : InputId) (x : Ilk) (i : Chamber) : (s.setIlk c x).econ i = s.econ i := rfl
@[simp] theorem State.setIlk_rep (c : InputId) (x : Ilk) (i : Chamber) : (s.setIlk c x).rep i = s.rep i := rfl
@[simp] theorem State.setIlk_line (c : InputId) (x : Ilk) (i : LineId) : (s.setIlk c x).line i = s.line i := rfl
@[simp] theorem State.setIlk_arb (c : InputId) (x : Ilk) (i : LineId) : (s.setIlk c x).arb i = s.arb i := rfl
@[simp] theorem State.setIlk_chan (c : InputId) (x : Ilk) (i : ChannelId) : (s.setIlk c x).chan i = s.chan i := rfl
@[simp] theorem State.setIlk_gasInhibit (c : InputId) (x : Ilk) (i : Chamber) : (s.setIlk c x).gasInhibit i = s.gasInhibit i := rfl
@[simp] theorem State.setIlk_chamberCfg (c : InputId) (x : Ilk) (i : Chamber) : (s.setIlk c x).chamberCfg i = s.chamberCfg i := rfl
@[simp] theorem State.setIlk_lineCfg (c : InputId) (x : Ilk) (i : LineId) : (s.setIlk c x).lineCfg i = s.lineCfg i := rfl
@[simp] theorem State.setIlk_ilkCfg (c : InputId) (x : Ilk) (i : InputId) : (s.setIlk c x).ilkCfg i = s.ilkCfg i := rfl

/-! ### setGasInhibit -/

@[simp] theorem State.setGasInhibit_gasInhibit_same (c : Chamber) (x : Bool) : (s.setGasInhibit c x).gasInhibit c = x := by simp [State.setGasInhibit, State.gasInhibit]
theorem State.setGasInhibit_gasInhibit_ne (c : Chamber) (x : Bool) (d : Chamber) (h : d ≠ c) : (s.setGasInhibit c x).gasInhibit d = s.gasInhibit d := by
  simp only [State.setGasInhibit, State.gasInhibit, Fin.getElem_fin]
  exact Vector.getElem_set_ne _ _ (fun e => h (Fin.ext e.symm))
theorem State.setGasInhibit_gasInhibit (c : Chamber) (x : Bool) (d : Chamber) : (s.setGasInhibit c x).gasInhibit d = if d = c then x else s.gasInhibit d := by
  by_cases h : d = c
  · subst h; simp
  · simp [h, State.setGasInhibit_gasInhibit_ne]
@[simp] theorem State.setGasInhibit_pending (c : Chamber) (x : Bool) : (s.setGasInhibit c x).pending = s.pending := rfl
@[simp] theorem State.setGasInhibit_now (c : Chamber) (x : Bool) : (s.setGasInhibit c x).now = s.now := rfl
@[simp] theorem State.setGasInhibit_uses (c : Chamber) (x : Bool) : (s.setGasInhibit c x).uses = s.uses := rfl
@[simp] theorem State.setGasInhibit_mem (c : Chamber) (x : Bool) : (s.setGasInhibit c x).mem = s.mem := rfl
@[simp] theorem State.setGasInhibit_port (c : Chamber) (x : Bool) : (s.setGasInhibit c x).port = s.port := rfl
@[simp] theorem State.setGasInhibit_tables (c : Chamber) (x : Bool) : (s.setGasInhibit c x).tables = s.tables := rfl
@[simp] theorem State.setGasInhibit_pins (c : Chamber) (x : Bool) : (s.setGasInhibit c x).pins = s.pins := rfl
@[simp] theorem State.setGasInhibit_waitQueue (c : Chamber) (x : Bool) : (s.setGasInhibit c x).waitQueue = s.waitQueue := rfl
@[simp] theorem State.setGasInhibit_rough (c : Chamber) (x : Bool) : (s.setGasInhibit c x).rough = s.rough := rfl
@[simp] theorem State.setGasInhibit_scan (c : Chamber) (x : Bool) : (s.setGasInhibit c x).scan = s.scan := rfl
@[simp] theorem State.setGasInhibit_seq (c : Chamber) (x : Bool) (i : Chamber) : (s.setGasInhibit c x).seq i = s.seq i := rfl
@[simp] theorem State.setGasInhibit_rf (c : Chamber) (x : Bool) (i : Chamber) : (s.setGasInhibit c x).rf i = s.rf i := rfl
@[simp] theorem State.setGasInhibit_press (c : Chamber) (x : Bool) (i : Chamber) : (s.setGasInhibit c x).press i = s.press i := rfl
@[simp] theorem State.setGasInhibit_pump (c : Chamber) (x : Bool) (i : Chamber) : (s.setGasInhibit c x).pump i = s.pump i := rfl
@[simp] theorem State.setGasInhibit_econ (c : Chamber) (x : Bool) (i : Chamber) : (s.setGasInhibit c x).econ i = s.econ i := rfl
@[simp] theorem State.setGasInhibit_rep (c : Chamber) (x : Bool) (i : Chamber) : (s.setGasInhibit c x).rep i = s.rep i := rfl
@[simp] theorem State.setGasInhibit_line (c : Chamber) (x : Bool) (i : LineId) : (s.setGasInhibit c x).line i = s.line i := rfl
@[simp] theorem State.setGasInhibit_arb (c : Chamber) (x : Bool) (i : LineId) : (s.setGasInhibit c x).arb i = s.arb i := rfl
@[simp] theorem State.setGasInhibit_chan (c : Chamber) (x : Bool) (i : ChannelId) : (s.setGasInhibit c x).chan i = s.chan i := rfl
@[simp] theorem State.setGasInhibit_ilk (c : Chamber) (x : Bool) (i : InputId) : (s.setGasInhibit c x).ilk i = s.ilk i := rfl
@[simp] theorem State.setGasInhibit_chamberCfg (c : Chamber) (x : Bool) (i : Chamber) : (s.setGasInhibit c x).chamberCfg i = s.chamberCfg i := rfl
@[simp] theorem State.setGasInhibit_lineCfg (c : Chamber) (x : Bool) (i : LineId) : (s.setGasInhibit c x).lineCfg i = s.lineCfg i := rfl
@[simp] theorem State.setGasInhibit_ilkCfg (c : Chamber) (x : Bool) (i : InputId) : (s.setGasInhibit c x).ilkCfg i = s.ilkCfg i := rfl

/-! ### setMem -/

@[simp] theorem State.setMem_mem_same (x : Memory) : (s.setMem x).mem = x := rfl
@[simp] theorem State.setMem_pending (x : Memory) : (s.setMem x).pending = s.pending := rfl
@[simp] theorem State.setMem_now (x : Memory) : (s.setMem x).now = s.now := rfl
@[simp] theorem State.setMem_uses (x : Memory) : (s.setMem x).uses = s.uses := rfl
@[simp] theorem State.setMem_port (x : Memory) : (s.setMem x).port = s.port := rfl
@[simp] theorem State.setMem_tables (x : Memory) : (s.setMem x).tables = s.tables := rfl
@[simp] theorem State.setMem_pins (x : Memory) : (s.setMem x).pins = s.pins := rfl
@[simp] theorem State.setMem_waitQueue (x : Memory) : (s.setMem x).waitQueue = s.waitQueue := rfl
@[simp] theorem State.setMem_rough (x : Memory) : (s.setMem x).rough = s.rough := rfl
@[simp] theorem State.setMem_scan (x : Memory) : (s.setMem x).scan = s.scan := rfl
@[simp] theorem State.setMem_seq (x : Memory) (i : Chamber) : (s.setMem x).seq i = s.seq i := rfl
@[simp] theorem State.setMem_rf (x : Memory) (i : Chamber) : (s.setMem x).rf i = s.rf i := rfl
@[simp] theorem State.setMem_press (x : Memory) (i : Chamber) : (s.setMem x).press i = s.press i := rfl
@[simp] theorem State.setMem_pump (x : Memory) (i : Chamber) : (s.setMem x).pump i = s.pump i := rfl
@[simp] theorem State.setMem_econ (x : Memory) (i : Chamber) : (s.setMem x).econ i = s.econ i := rfl
@[simp] theorem State.setMem_rep (x : Memory) (i : Chamber) : (s.setMem x).rep i = s.rep i := rfl
@[simp] theorem State.setMem_line (x : Memory) (i : LineId) : (s.setMem x).line i = s.line i := rfl
@[simp] theorem State.setMem_arb (x : Memory) (i : LineId) : (s.setMem x).arb i = s.arb i := rfl
@[simp] theorem State.setMem_chan (x : Memory) (i : ChannelId) : (s.setMem x).chan i = s.chan i := rfl
@[simp] theorem State.setMem_ilk (x : Memory) (i : InputId) : (s.setMem x).ilk i = s.ilk i := rfl
@[simp] theorem State.setMem_gasInhibit (x : Memory) (i : Chamber) : (s.setMem x).gasInhibit i = s.gasInhibit i := rfl
@[simp] theorem State.setMem_chamberCfg (x : Memory) (i : Chamber) : (s.setMem x).chamberCfg i = s.chamberCfg i := rfl
@[simp] theorem State.setMem_lineCfg (x : Memory) (i : LineId) : (s.setMem x).lineCfg i = s.lineCfg i := rfl
@[simp] theorem State.setMem_ilkCfg (x : Memory) (i : InputId) : (s.setMem x).ilkCfg i = s.ilkCfg i := rfl

/-! ### setPort -/

@[simp] theorem State.setPort_port_same (x : Port) : (s.setPort x).port = x := rfl
@[simp] theorem State.setPort_pending (x : Port) : (s.setPort x).pending = s.pending := rfl
@[simp] theorem State.setPort_now (x : Port) : (s.setPort x).now = s.now := rfl
@[simp] theorem State.setPort_uses (x : Port) : (s.setPort x).uses = s.uses := rfl
@[simp] theorem State.setPort_mem (x : Port) : (s.setPort x).mem = s.mem := rfl
@[simp] theorem State.setPort_tables (x : Port) : (s.setPort x).tables = s.tables := rfl
@[simp] theorem State.setPort_pins (x : Port) : (s.setPort x).pins = s.pins := rfl
@[simp] theorem State.setPort_waitQueue (x : Port) : (s.setPort x).waitQueue = s.waitQueue := rfl
@[simp] theorem State.setPort_rough (x : Port) : (s.setPort x).rough = s.rough := rfl
@[simp] theorem State.setPort_scan (x : Port) : (s.setPort x).scan = s.scan := rfl
@[simp] theorem State.setPort_seq (x : Port) (i : Chamber) : (s.setPort x).seq i = s.seq i := rfl
@[simp] theorem State.setPort_rf (x : Port) (i : Chamber) : (s.setPort x).rf i = s.rf i := rfl
@[simp] theorem State.setPort_press (x : Port) (i : Chamber) : (s.setPort x).press i = s.press i := rfl
@[simp] theorem State.setPort_pump (x : Port) (i : Chamber) : (s.setPort x).pump i = s.pump i := rfl
@[simp] theorem State.setPort_econ (x : Port) (i : Chamber) : (s.setPort x).econ i = s.econ i := rfl
@[simp] theorem State.setPort_rep (x : Port) (i : Chamber) : (s.setPort x).rep i = s.rep i := rfl
@[simp] theorem State.setPort_line (x : Port) (i : LineId) : (s.setPort x).line i = s.line i := rfl
@[simp] theorem State.setPort_arb (x : Port) (i : LineId) : (s.setPort x).arb i = s.arb i := rfl
@[simp] theorem State.setPort_chan (x : Port) (i : ChannelId) : (s.setPort x).chan i = s.chan i := rfl
@[simp] theorem State.setPort_ilk (x : Port) (i : InputId) : (s.setPort x).ilk i = s.ilk i := rfl
@[simp] theorem State.setPort_gasInhibit (x : Port) (i : Chamber) : (s.setPort x).gasInhibit i = s.gasInhibit i := rfl
@[simp] theorem State.setPort_chamberCfg (x : Port) (i : Chamber) : (s.setPort x).chamberCfg i = s.chamberCfg i := rfl
@[simp] theorem State.setPort_lineCfg (x : Port) (i : LineId) : (s.setPort x).lineCfg i = s.lineCfg i := rfl
@[simp] theorem State.setPort_ilkCfg (x : Port) (i : InputId) : (s.setPort x).ilkCfg i = s.ilkCfg i := rfl

/-! ### setTables -/

@[simp] theorem State.setTables_tables_same (x : Tables) : (s.setTables x).tables = x := rfl
@[simp] theorem State.setTables_pending (x : Tables) : (s.setTables x).pending = s.pending := rfl
@[simp] theorem State.setTables_now (x : Tables) : (s.setTables x).now = s.now := rfl
@[simp] theorem State.setTables_uses (x : Tables) : (s.setTables x).uses = s.uses := rfl
@[simp] theorem State.setTables_mem (x : Tables) : (s.setTables x).mem = s.mem := rfl
@[simp] theorem State.setTables_port (x : Tables) : (s.setTables x).port = s.port := rfl
@[simp] theorem State.setTables_pins (x : Tables) : (s.setTables x).pins = s.pins := rfl
@[simp] theorem State.setTables_waitQueue (x : Tables) : (s.setTables x).waitQueue = s.waitQueue := rfl
@[simp] theorem State.setTables_rough (x : Tables) : (s.setTables x).rough = s.rough := rfl
@[simp] theorem State.setTables_scan (x : Tables) : (s.setTables x).scan = s.scan := rfl
@[simp] theorem State.setTables_seq (x : Tables) (i : Chamber) : (s.setTables x).seq i = s.seq i := rfl
@[simp] theorem State.setTables_rf (x : Tables) (i : Chamber) : (s.setTables x).rf i = s.rf i := rfl
@[simp] theorem State.setTables_press (x : Tables) (i : Chamber) : (s.setTables x).press i = s.press i := rfl
@[simp] theorem State.setTables_pump (x : Tables) (i : Chamber) : (s.setTables x).pump i = s.pump i := rfl
@[simp] theorem State.setTables_econ (x : Tables) (i : Chamber) : (s.setTables x).econ i = s.econ i := rfl
@[simp] theorem State.setTables_rep (x : Tables) (i : Chamber) : (s.setTables x).rep i = s.rep i := rfl
@[simp] theorem State.setTables_line (x : Tables) (i : LineId) : (s.setTables x).line i = s.line i := rfl
@[simp] theorem State.setTables_arb (x : Tables) (i : LineId) : (s.setTables x).arb i = s.arb i := rfl
@[simp] theorem State.setTables_chan (x : Tables) (i : ChannelId) : (s.setTables x).chan i = s.chan i := rfl
@[simp] theorem State.setTables_ilk (x : Tables) (i : InputId) : (s.setTables x).ilk i = s.ilk i := rfl
@[simp] theorem State.setTables_gasInhibit (x : Tables) (i : Chamber) : (s.setTables x).gasInhibit i = s.gasInhibit i := rfl
@[simp] theorem State.setTables_chamberCfg (x : Tables) (i : Chamber) : (s.setTables x).chamberCfg i = x.chambers[i] := rfl
@[simp] theorem State.setTables_lineCfg (x : Tables) (i : LineId) : (s.setTables x).lineCfg i = x.lines[i] := rfl
@[simp] theorem State.setTables_ilkCfg (x : Tables) (i : InputId) : (s.setTables x).ilkCfg i = x.interlocks[i] := rfl

/-! ### setPins -/

@[simp] theorem State.setPins_pins_same (x : Pins) : (s.setPins x).pins = x := rfl
@[simp] theorem State.setPins_pending (x : Pins) : (s.setPins x).pending = s.pending := rfl
@[simp] theorem State.setPins_now (x : Pins) : (s.setPins x).now = s.now := rfl
@[simp] theorem State.setPins_uses (x : Pins) : (s.setPins x).uses = s.uses := rfl
@[simp] theorem State.setPins_mem (x : Pins) : (s.setPins x).mem = s.mem := rfl
@[simp] theorem State.setPins_port (x : Pins) : (s.setPins x).port = s.port := rfl
@[simp] theorem State.setPins_tables (x : Pins) : (s.setPins x).tables = s.tables := rfl
@[simp] theorem State.setPins_waitQueue (x : Pins) : (s.setPins x).waitQueue = s.waitQueue := rfl
@[simp] theorem State.setPins_rough (x : Pins) : (s.setPins x).rough = s.rough := rfl
@[simp] theorem State.setPins_scan (x : Pins) : (s.setPins x).scan = s.scan := rfl
@[simp] theorem State.setPins_seq (x : Pins) (i : Chamber) : (s.setPins x).seq i = s.seq i := rfl
@[simp] theorem State.setPins_rf (x : Pins) (i : Chamber) : (s.setPins x).rf i = s.rf i := rfl
@[simp] theorem State.setPins_press (x : Pins) (i : Chamber) : (s.setPins x).press i = s.press i := rfl
@[simp] theorem State.setPins_pump (x : Pins) (i : Chamber) : (s.setPins x).pump i = s.pump i := rfl
@[simp] theorem State.setPins_econ (x : Pins) (i : Chamber) : (s.setPins x).econ i = s.econ i := rfl
@[simp] theorem State.setPins_rep (x : Pins) (i : Chamber) : (s.setPins x).rep i = s.rep i := rfl
@[simp] theorem State.setPins_line (x : Pins) (i : LineId) : (s.setPins x).line i = s.line i := rfl
@[simp] theorem State.setPins_arb (x : Pins) (i : LineId) : (s.setPins x).arb i = s.arb i := rfl
@[simp] theorem State.setPins_chan (x : Pins) (i : ChannelId) : (s.setPins x).chan i = s.chan i := rfl
@[simp] theorem State.setPins_ilk (x : Pins) (i : InputId) : (s.setPins x).ilk i = s.ilk i := rfl
@[simp] theorem State.setPins_gasInhibit (x : Pins) (i : Chamber) : (s.setPins x).gasInhibit i = s.gasInhibit i := rfl
@[simp] theorem State.setPins_chamberCfg (x : Pins) (i : Chamber) : (s.setPins x).chamberCfg i = s.chamberCfg i := rfl
@[simp] theorem State.setPins_lineCfg (x : Pins) (i : LineId) : (s.setPins x).lineCfg i = s.lineCfg i := rfl
@[simp] theorem State.setPins_ilkCfg (x : Pins) (i : InputId) : (s.setPins x).ilkCfg i = s.ilkCfg i := rfl

/-! ### setWaitQueue -/

@[simp] theorem State.setWaitQueue_waitQueue_same (x : List WaitEntry) : (s.setWaitQueue x).waitQueue = x := rfl
@[simp] theorem State.setWaitQueue_pending (x : List WaitEntry) : (s.setWaitQueue x).pending = s.pending := rfl
@[simp] theorem State.setWaitQueue_now (x : List WaitEntry) : (s.setWaitQueue x).now = s.now := rfl
@[simp] theorem State.setWaitQueue_uses (x : List WaitEntry) : (s.setWaitQueue x).uses = s.uses := rfl
@[simp] theorem State.setWaitQueue_mem (x : List WaitEntry) : (s.setWaitQueue x).mem = s.mem := rfl
@[simp] theorem State.setWaitQueue_port (x : List WaitEntry) : (s.setWaitQueue x).port = s.port := rfl
@[simp] theorem State.setWaitQueue_tables (x : List WaitEntry) : (s.setWaitQueue x).tables = s.tables := rfl
@[simp] theorem State.setWaitQueue_pins (x : List WaitEntry) : (s.setWaitQueue x).pins = s.pins := rfl
@[simp] theorem State.setWaitQueue_rough (x : List WaitEntry) : (s.setWaitQueue x).rough = s.rough := rfl
@[simp] theorem State.setWaitQueue_scan (x : List WaitEntry) : (s.setWaitQueue x).scan = s.scan := rfl
@[simp] theorem State.setWaitQueue_seq (x : List WaitEntry) (i : Chamber) : (s.setWaitQueue x).seq i = s.seq i := rfl
@[simp] theorem State.setWaitQueue_rf (x : List WaitEntry) (i : Chamber) : (s.setWaitQueue x).rf i = s.rf i := rfl
@[simp] theorem State.setWaitQueue_press (x : List WaitEntry) (i : Chamber) : (s.setWaitQueue x).press i = s.press i := rfl
@[simp] theorem State.setWaitQueue_pump (x : List WaitEntry) (i : Chamber) : (s.setWaitQueue x).pump i = s.pump i := rfl
@[simp] theorem State.setWaitQueue_econ (x : List WaitEntry) (i : Chamber) : (s.setWaitQueue x).econ i = s.econ i := rfl
@[simp] theorem State.setWaitQueue_rep (x : List WaitEntry) (i : Chamber) : (s.setWaitQueue x).rep i = s.rep i := rfl
@[simp] theorem State.setWaitQueue_line (x : List WaitEntry) (i : LineId) : (s.setWaitQueue x).line i = s.line i := rfl
@[simp] theorem State.setWaitQueue_arb (x : List WaitEntry) (i : LineId) : (s.setWaitQueue x).arb i = s.arb i := rfl
@[simp] theorem State.setWaitQueue_chan (x : List WaitEntry) (i : ChannelId) : (s.setWaitQueue x).chan i = s.chan i := rfl
@[simp] theorem State.setWaitQueue_ilk (x : List WaitEntry) (i : InputId) : (s.setWaitQueue x).ilk i = s.ilk i := rfl
@[simp] theorem State.setWaitQueue_gasInhibit (x : List WaitEntry) (i : Chamber) : (s.setWaitQueue x).gasInhibit i = s.gasInhibit i := rfl
@[simp] theorem State.setWaitQueue_chamberCfg (x : List WaitEntry) (i : Chamber) : (s.setWaitQueue x).chamberCfg i = s.chamberCfg i := rfl
@[simp] theorem State.setWaitQueue_lineCfg (x : List WaitEntry) (i : LineId) : (s.setWaitQueue x).lineCfg i = s.lineCfg i := rfl
@[simp] theorem State.setWaitQueue_ilkCfg (x : List WaitEntry) (i : InputId) : (s.setWaitQueue x).ilkCfg i = s.ilkCfg i := rfl

/-! ### setRough -/

@[simp] theorem State.setRough_rough_same (x : Rough) : (s.setRough x).rough = x := rfl
@[simp] theorem State.setRough_pending (x : Rough) : (s.setRough x).pending = s.pending := rfl
@[simp] theorem State.setRough_now (x : Rough) : (s.setRough x).now = s.now := rfl
@[simp] theorem State.setRough_uses (x : Rough) : (s.setRough x).uses = s.uses := rfl
@[simp] theorem State.setRough_mem (x : Rough) : (s.setRough x).mem = s.mem := rfl
@[simp] theorem State.setRough_port (x : Rough) : (s.setRough x).port = s.port := rfl
@[simp] theorem State.setRough_tables (x : Rough) : (s.setRough x).tables = s.tables := rfl
@[simp] theorem State.setRough_pins (x : Rough) : (s.setRough x).pins = s.pins := rfl
@[simp] theorem State.setRough_waitQueue (x : Rough) : (s.setRough x).waitQueue = s.waitQueue := rfl
@[simp] theorem State.setRough_scan (x : Rough) : (s.setRough x).scan = s.scan := rfl
@[simp] theorem State.setRough_seq (x : Rough) (i : Chamber) : (s.setRough x).seq i = s.seq i := rfl
@[simp] theorem State.setRough_rf (x : Rough) (i : Chamber) : (s.setRough x).rf i = s.rf i := rfl
@[simp] theorem State.setRough_press (x : Rough) (i : Chamber) : (s.setRough x).press i = s.press i := rfl
@[simp] theorem State.setRough_pump (x : Rough) (i : Chamber) : (s.setRough x).pump i = s.pump i := rfl
@[simp] theorem State.setRough_econ (x : Rough) (i : Chamber) : (s.setRough x).econ i = s.econ i := rfl
@[simp] theorem State.setRough_rep (x : Rough) (i : Chamber) : (s.setRough x).rep i = s.rep i := rfl
@[simp] theorem State.setRough_line (x : Rough) (i : LineId) : (s.setRough x).line i = s.line i := rfl
@[simp] theorem State.setRough_arb (x : Rough) (i : LineId) : (s.setRough x).arb i = s.arb i := rfl
@[simp] theorem State.setRough_chan (x : Rough) (i : ChannelId) : (s.setRough x).chan i = s.chan i := rfl
@[simp] theorem State.setRough_ilk (x : Rough) (i : InputId) : (s.setRough x).ilk i = s.ilk i := rfl
@[simp] theorem State.setRough_gasInhibit (x : Rough) (i : Chamber) : (s.setRough x).gasInhibit i = s.gasInhibit i := rfl
@[simp] theorem State.setRough_chamberCfg (x : Rough) (i : Chamber) : (s.setRough x).chamberCfg i = s.chamberCfg i := rfl
@[simp] theorem State.setRough_lineCfg (x : Rough) (i : LineId) : (s.setRough x).lineCfg i = s.lineCfg i := rfl
@[simp] theorem State.setRough_ilkCfg (x : Rough) (i : InputId) : (s.setRough x).ilkCfg i = s.ilkCfg i := rfl

/-! ### setScan -/

@[simp] theorem State.setScan_scan_same (x : Scan) : (s.setScan x).scan = x := rfl
@[simp] theorem State.setScan_pending (x : Scan) : (s.setScan x).pending = s.pending := rfl
@[simp] theorem State.setScan_now (x : Scan) : (s.setScan x).now = s.now := rfl
@[simp] theorem State.setScan_uses (x : Scan) : (s.setScan x).uses = s.uses := rfl
@[simp] theorem State.setScan_mem (x : Scan) : (s.setScan x).mem = s.mem := rfl
@[simp] theorem State.setScan_port (x : Scan) : (s.setScan x).port = s.port := rfl
@[simp] theorem State.setScan_tables (x : Scan) : (s.setScan x).tables = s.tables := rfl
@[simp] theorem State.setScan_pins (x : Scan) : (s.setScan x).pins = s.pins := rfl
@[simp] theorem State.setScan_waitQueue (x : Scan) : (s.setScan x).waitQueue = s.waitQueue := rfl
@[simp] theorem State.setScan_rough (x : Scan) : (s.setScan x).rough = s.rough := rfl
@[simp] theorem State.setScan_seq (x : Scan) (i : Chamber) : (s.setScan x).seq i = s.seq i := rfl
@[simp] theorem State.setScan_rf (x : Scan) (i : Chamber) : (s.setScan x).rf i = s.rf i := rfl
@[simp] theorem State.setScan_press (x : Scan) (i : Chamber) : (s.setScan x).press i = s.press i := rfl
@[simp] theorem State.setScan_pump (x : Scan) (i : Chamber) : (s.setScan x).pump i = s.pump i := rfl
@[simp] theorem State.setScan_econ (x : Scan) (i : Chamber) : (s.setScan x).econ i = s.econ i := rfl
@[simp] theorem State.setScan_rep (x : Scan) (i : Chamber) : (s.setScan x).rep i = s.rep i := rfl
@[simp] theorem State.setScan_line (x : Scan) (i : LineId) : (s.setScan x).line i = s.line i := rfl
@[simp] theorem State.setScan_arb (x : Scan) (i : LineId) : (s.setScan x).arb i = s.arb i := rfl
@[simp] theorem State.setScan_chan (x : Scan) (i : ChannelId) : (s.setScan x).chan i = s.chan i := rfl
@[simp] theorem State.setScan_ilk (x : Scan) (i : InputId) : (s.setScan x).ilk i = s.ilk i := rfl
@[simp] theorem State.setScan_gasInhibit (x : Scan) (i : Chamber) : (s.setScan x).gasInhibit i = s.gasInhibit i := rfl
@[simp] theorem State.setScan_chamberCfg (x : Scan) (i : Chamber) : (s.setScan x).chamberCfg i = s.chamberCfg i := rfl
@[simp] theorem State.setScan_lineCfg (x : Scan) (i : LineId) : (s.setScan x).lineCfg i = s.lineCfg i := rfl
@[simp] theorem State.setScan_ilkCfg (x : Scan) (i : InputId) : (s.setScan x).ilkCfg i = s.ilkCfg i := rfl

/-! ### setNow -/

@[simp] theorem State.setNow_now_same (x : Moment) : (s.setNow x).now = x := rfl
@[simp] theorem State.setNow_pending (x : Moment) : (s.setNow x).pending = s.pending := rfl
@[simp] theorem State.setNow_uses (x : Moment) : (s.setNow x).uses = s.uses := rfl
@[simp] theorem State.setNow_mem (x : Moment) : (s.setNow x).mem = s.mem := rfl
@[simp] theorem State.setNow_port (x : Moment) : (s.setNow x).port = s.port := rfl
@[simp] theorem State.setNow_tables (x : Moment) : (s.setNow x).tables = s.tables := rfl
@[simp] theorem State.setNow_pins (x : Moment) : (s.setNow x).pins = s.pins := rfl
@[simp] theorem State.setNow_waitQueue (x : Moment) : (s.setNow x).waitQueue = s.waitQueue := rfl
@[simp] theorem State.setNow_rough (x : Moment) : (s.setNow x).rough = s.rough := rfl
@[simp] theorem State.setNow_scan (x : Moment) : (s.setNow x).scan = s.scan := rfl
@[simp] theorem State.setNow_seq (x : Moment) (i : Chamber) : (s.setNow x).seq i = s.seq i := rfl
@[simp] theorem State.setNow_rf (x : Moment) (i : Chamber) : (s.setNow x).rf i = s.rf i := rfl
@[simp] theorem State.setNow_press (x : Moment) (i : Chamber) : (s.setNow x).press i = s.press i := rfl
@[simp] theorem State.setNow_pump (x : Moment) (i : Chamber) : (s.setNow x).pump i = s.pump i := rfl
@[simp] theorem State.setNow_econ (x : Moment) (i : Chamber) : (s.setNow x).econ i = s.econ i := rfl
@[simp] theorem State.setNow_rep (x : Moment) (i : Chamber) : (s.setNow x).rep i = s.rep i := rfl
@[simp] theorem State.setNow_line (x : Moment) (i : LineId) : (s.setNow x).line i = s.line i := rfl
@[simp] theorem State.setNow_arb (x : Moment) (i : LineId) : (s.setNow x).arb i = s.arb i := rfl
@[simp] theorem State.setNow_chan (x : Moment) (i : ChannelId) : (s.setNow x).chan i = s.chan i := rfl
@[simp] theorem State.setNow_ilk (x : Moment) (i : InputId) : (s.setNow x).ilk i = s.ilk i := rfl
@[simp] theorem State.setNow_gasInhibit (x : Moment) (i : Chamber) : (s.setNow x).gasInhibit i = s.gasInhibit i := rfl
@[simp] theorem State.setNow_chamberCfg (x : Moment) (i : Chamber) : (s.setNow x).chamberCfg i = s.chamberCfg i := rfl
@[simp] theorem State.setNow_lineCfg (x : Moment) (i : LineId) : (s.setNow x).lineCfg i = s.lineCfg i := rfl
@[simp] theorem State.setNow_ilkCfg (x : Moment) (i : InputId) : (s.setNow x).ilkCfg i = s.ilkCfg i := rfl

/-! ### bumpUses -/

@[simp] theorem State.bumpUses_uses_same : s.bumpUses.uses = s.uses + 1 := rfl
@[simp] theorem State.bumpUses_pending  : (s.bumpUses).pending = s.pending := rfl
@[simp] theorem State.bumpUses_now  : (s.bumpUses).now = s.now := rfl
@[simp] theorem State.bumpUses_mem  : (s.bumpUses).mem = s.mem := rfl
@[simp] theorem State.bumpUses_port  : (s.bumpUses).port = s.port := rfl
@[simp] theorem State.bumpUses_tables  : (s.bumpUses).tables = s.tables := rfl
@[simp] theorem State.bumpUses_pins  : (s.bumpUses).pins = s.pins := rfl
@[simp] theorem State.bumpUses_waitQueue  : (s.bumpUses).waitQueue = s.waitQueue := rfl
@[simp] theorem State.bumpUses_rough  : (s.bumpUses).rough = s.rough := rfl
@[simp] theorem State.bumpUses_scan  : (s.bumpUses).scan = s.scan := rfl
@[simp] theorem State.bumpUses_seq  (i : Chamber) : (s.bumpUses).seq i = s.seq i := rfl
@[simp] theorem State.bumpUses_rf  (i : Chamber) : (s.bumpUses).rf i = s.rf i := rfl
@[simp] theorem State.bumpUses_press  (i : Chamber) : (s.bumpUses).press i = s.press i := rfl
@[simp] theorem State.bumpUses_pump  (i : Chamber) : (s.bumpUses).pump i = s.pump i := rfl
@[simp] theorem State.bumpUses_econ  (i : Chamber) : (s.bumpUses).econ i = s.econ i := rfl
@[simp] theorem State.bumpUses_rep  (i : Chamber) : (s.bumpUses).rep i = s.rep i := rfl
@[simp] theorem State.bumpUses_line  (i : LineId) : (s.bumpUses).line i = s.line i := rfl
@[simp] theorem State.bumpUses_arb  (i : LineId) : (s.bumpUses).arb i = s.arb i := rfl
@[simp] theorem State.bumpUses_chan  (i : ChannelId) : (s.bumpUses).chan i = s.chan i := rfl
@[simp] theorem State.bumpUses_ilk  (i : InputId) : (s.bumpUses).ilk i = s.ilk i := rfl
@[simp] theorem State.bumpUses_gasInhibit  (i : Chamber) : (s.bumpUses).gasInhibit i = s.gasInhibit i := rfl
@[simp] theorem State.bumpUses_chamberCfg  (i : Chamber) : (s.bumpUses).chamberCfg i = s.chamberCfg i := rfl
@[simp] theorem State.bumpUses_lineCfg  (i : LineId) : (s.bumpUses).lineCfg i = s.lineCfg i := rfl
@[simp] theorem State.bumpUses_ilkCfg  (i : InputId) : (s.bumpUses).ilkCfg i = s.ilkCfg i := rfl

/-! ### putWord and putWords: a change of the memory alone -/

@[simp] theorem State.putWord_mem_same (a v : Nat) : (s.putWord a v).mem = memPutWord s.mem a v := rfl
@[simp] theorem State.putWord_pending (a v : Nat) : (s.putWord a v).pending = s.pending := rfl
@[simp] theorem State.putWord_now (a v : Nat) : (s.putWord a v).now = s.now := rfl
@[simp] theorem State.putWord_uses (a v : Nat) : (s.putWord a v).uses = s.uses := rfl
@[simp] theorem State.putWord_port (a v : Nat) : (s.putWord a v).port = s.port := rfl
@[simp] theorem State.putWord_tables (a v : Nat) : (s.putWord a v).tables = s.tables := rfl
@[simp] theorem State.putWord_pins (a v : Nat) : (s.putWord a v).pins = s.pins := rfl
@[simp] theorem State.putWord_waitQueue (a v : Nat) : (s.putWord a v).waitQueue = s.waitQueue := rfl
@[simp] theorem State.putWord_rough (a v : Nat) : (s.putWord a v).rough = s.rough := rfl
@[simp] theorem State.putWord_scan (a v : Nat) : (s.putWord a v).scan = s.scan := rfl
@[simp] theorem State.putWord_seq (a v : Nat) (i : Chamber) : (s.putWord a v).seq i = s.seq i := rfl
@[simp] theorem State.putWord_rf (a v : Nat) (i : Chamber) : (s.putWord a v).rf i = s.rf i := rfl
@[simp] theorem State.putWord_press (a v : Nat) (i : Chamber) : (s.putWord a v).press i = s.press i := rfl
@[simp] theorem State.putWord_pump (a v : Nat) (i : Chamber) : (s.putWord a v).pump i = s.pump i := rfl
@[simp] theorem State.putWord_econ (a v : Nat) (i : Chamber) : (s.putWord a v).econ i = s.econ i := rfl
@[simp] theorem State.putWord_rep (a v : Nat) (i : Chamber) : (s.putWord a v).rep i = s.rep i := rfl
@[simp] theorem State.putWord_line (a v : Nat) (i : LineId) : (s.putWord a v).line i = s.line i := rfl
@[simp] theorem State.putWord_arb (a v : Nat) (i : LineId) : (s.putWord a v).arb i = s.arb i := rfl
@[simp] theorem State.putWord_chan (a v : Nat) (i : ChannelId) : (s.putWord a v).chan i = s.chan i := rfl
@[simp] theorem State.putWord_ilk (a v : Nat) (i : InputId) : (s.putWord a v).ilk i = s.ilk i := rfl
@[simp] theorem State.putWord_gasInhibit (a v : Nat) (i : Chamber) : (s.putWord a v).gasInhibit i = s.gasInhibit i := rfl
@[simp] theorem State.putWord_chamberCfg (a v : Nat) (i : Chamber) : (s.putWord a v).chamberCfg i = s.chamberCfg i := rfl
@[simp] theorem State.putWord_lineCfg (a v : Nat) (i : LineId) : (s.putWord a v).lineCfg i = s.lineCfg i := rfl
@[simp] theorem State.putWord_ilkCfg (a v : Nat) (i : InputId) : (s.putWord a v).ilkCfg i = s.ilkCfg i := rfl
@[simp] theorem State.putWords_mem_same (a : Nat) (vs : List Nat) : (s.putWords a vs).mem = memPutWords s.mem a vs := rfl
@[simp] theorem State.putWords_pending (a : Nat) (vs : List Nat) : (s.putWords a vs).pending = s.pending := rfl
@[simp] theorem State.putWords_now (a : Nat) (vs : List Nat) : (s.putWords a vs).now = s.now := rfl
@[simp] theorem State.putWords_uses (a : Nat) (vs : List Nat) : (s.putWords a vs).uses = s.uses := rfl
@[simp] theorem State.putWords_port (a : Nat) (vs : List Nat) : (s.putWords a vs).port = s.port := rfl
@[simp] theorem State.putWords_tables (a : Nat) (vs : List Nat) : (s.putWords a vs).tables = s.tables := rfl
@[simp] theorem State.putWords_pins (a : Nat) (vs : List Nat) : (s.putWords a vs).pins = s.pins := rfl
@[simp] theorem State.putWords_waitQueue (a : Nat) (vs : List Nat) : (s.putWords a vs).waitQueue = s.waitQueue := rfl
@[simp] theorem State.putWords_rough (a : Nat) (vs : List Nat) : (s.putWords a vs).rough = s.rough := rfl
@[simp] theorem State.putWords_scan (a : Nat) (vs : List Nat) : (s.putWords a vs).scan = s.scan := rfl
@[simp] theorem State.putWords_seq (a : Nat) (vs : List Nat) (i : Chamber) : (s.putWords a vs).seq i = s.seq i := rfl
@[simp] theorem State.putWords_rf (a : Nat) (vs : List Nat) (i : Chamber) : (s.putWords a vs).rf i = s.rf i := rfl
@[simp] theorem State.putWords_press (a : Nat) (vs : List Nat) (i : Chamber) : (s.putWords a vs).press i = s.press i := rfl
@[simp] theorem State.putWords_pump (a : Nat) (vs : List Nat) (i : Chamber) : (s.putWords a vs).pump i = s.pump i := rfl
@[simp] theorem State.putWords_econ (a : Nat) (vs : List Nat) (i : Chamber) : (s.putWords a vs).econ i = s.econ i := rfl
@[simp] theorem State.putWords_rep (a : Nat) (vs : List Nat) (i : Chamber) : (s.putWords a vs).rep i = s.rep i := rfl
@[simp] theorem State.putWords_line (a : Nat) (vs : List Nat) (i : LineId) : (s.putWords a vs).line i = s.line i := rfl
@[simp] theorem State.putWords_arb (a : Nat) (vs : List Nat) (i : LineId) : (s.putWords a vs).arb i = s.arb i := rfl
@[simp] theorem State.putWords_chan (a : Nat) (vs : List Nat) (i : ChannelId) : (s.putWords a vs).chan i = s.chan i := rfl
@[simp] theorem State.putWords_ilk (a : Nat) (vs : List Nat) (i : InputId) : (s.putWords a vs).ilk i = s.ilk i := rfl
@[simp] theorem State.putWords_gasInhibit (a : Nat) (vs : List Nat) (i : Chamber) : (s.putWords a vs).gasInhibit i = s.gasInhibit i := rfl
@[simp] theorem State.putWords_chamberCfg (a : Nat) (vs : List Nat) (i : Chamber) : (s.putWords a vs).chamberCfg i = s.chamberCfg i := rfl
@[simp] theorem State.putWords_lineCfg (a : Nat) (vs : List Nat) (i : LineId) : (s.putWords a vs).lineCfg i = s.lineCfg i := rfl
@[simp] theorem State.putWords_ilkCfg (a : Nat) (vs : List Nat) (i : InputId) : (s.putWords a vs).ilkCfg i = s.ilkCfg i := rfl

/-! ### showWord: a change of the memory alone -/

@[simp] theorem showWord_mem_same (c : Chamber) (w : StatusWord) :
    (showWord c w s).mem = memPutWord s.mem (statusAddr c + w.offset) (statusValue s c w) := rfl
@[simp] theorem showWord_pending (c : Chamber) (w : StatusWord) : (showWord c w s).pending = s.pending := rfl
@[simp] theorem showWord_now (c : Chamber) (w : StatusWord) : (showWord c w s).now = s.now := rfl
@[simp] theorem showWord_uses (c : Chamber) (w : StatusWord) : (showWord c w s).uses = s.uses := rfl
@[simp] theorem showWord_port (c : Chamber) (w : StatusWord) : (showWord c w s).port = s.port := rfl
@[simp] theorem showWord_tables (c : Chamber) (w : StatusWord) : (showWord c w s).tables = s.tables := rfl
@[simp] theorem showWord_pins (c : Chamber) (w : StatusWord) : (showWord c w s).pins = s.pins := rfl
@[simp] theorem showWord_waitQueue (c : Chamber) (w : StatusWord) : (showWord c w s).waitQueue = s.waitQueue := rfl
@[simp] theorem showWord_rough (c : Chamber) (w : StatusWord) : (showWord c w s).rough = s.rough := rfl
@[simp] theorem showWord_scan (c : Chamber) (w : StatusWord) : (showWord c w s).scan = s.scan := rfl
@[simp] theorem showWord_seq (c : Chamber) (w : StatusWord) (i : Chamber) : (showWord c w s).seq i = s.seq i := rfl
@[simp] theorem showWord_rf (c : Chamber) (w : StatusWord) (i : Chamber) : (showWord c w s).rf i = s.rf i := rfl
@[simp] theorem showWord_press (c : Chamber) (w : StatusWord) (i : Chamber) : (showWord c w s).press i = s.press i := rfl
@[simp] theorem showWord_pump (c : Chamber) (w : StatusWord) (i : Chamber) : (showWord c w s).pump i = s.pump i := rfl
@[simp] theorem showWord_econ (c : Chamber) (w : StatusWord) (i : Chamber) : (showWord c w s).econ i = s.econ i := rfl
@[simp] theorem showWord_rep (c : Chamber) (w : StatusWord) (i : Chamber) : (showWord c w s).rep i = s.rep i := rfl
@[simp] theorem showWord_line (c : Chamber) (w : StatusWord) (i : LineId) : (showWord c w s).line i = s.line i := rfl
@[simp] theorem showWord_arb (c : Chamber) (w : StatusWord) (i : LineId) : (showWord c w s).arb i = s.arb i := rfl
@[simp] theorem showWord_chan (c : Chamber) (w : StatusWord) (i : ChannelId) : (showWord c w s).chan i = s.chan i := rfl
@[simp] theorem showWord_ilk (c : Chamber) (w : StatusWord) (i : InputId) : (showWord c w s).ilk i = s.ilk i := rfl
@[simp] theorem showWord_gasInhibit (c : Chamber) (w : StatusWord) (i : Chamber) : (showWord c w s).gasInhibit i = s.gasInhibit i := rfl
@[simp] theorem showWord_chamberCfg (c : Chamber) (w : StatusWord) (i : Chamber) : (showWord c w s).chamberCfg i = s.chamberCfg i := rfl
@[simp] theorem showWord_lineCfg (c : Chamber) (w : StatusWord) (i : LineId) : (showWord c w s).lineCfg i = s.lineCfg i := rfl
@[simp] theorem showWord_ilkCfg (c : Chamber) (w : StatusWord) (i : InputId) : (showWord c w s).ilkCfg i = s.ilkCfg i := rfl

/-! ### A change by a function is a change to its value -/

theorem State.modSeq_eq (c : Chamber) (f : Seq → Seq) : s.modSeq c f = s.setSeq c (f (s.seq c)) := rfl
theorem State.modRf_eq (c : Chamber) (f : Rf → Rf) : s.modRf c f = s.setRf c (f (s.rf c)) := rfl
theorem State.modPress_eq (c : Chamber) (f : Press → Press) : s.modPress c f = s.setPress c (f (s.press c)) := rfl
theorem State.modPump_eq (c : Chamber) (f : Pump → Pump) : s.modPump c f = s.setPump c (f (s.pump c)) := rfl
theorem State.modEcon_eq (c : Chamber) (f : Econ → Econ) : s.modEcon c f = s.setEcon c (f (s.econ c)) := rfl
theorem State.modRep_eq (c : Chamber) (f : Rep → Rep) : s.modRep c f = s.setRep c (f (s.rep c)) := rfl
theorem State.modLine_eq (c : LineId) (f : Line → Line) : s.modLine c f = s.setLine c (f (s.line c)) := rfl
theorem State.modIlk_eq (c : InputId) (f : Ilk → Ilk) : s.modIlk c f = s.setIlk c (f (s.ilk c)) := rfl

end Sys2Proof.Machine
end

