-- ==== Sys2Proof/Laws/Keeps.lean ====
section
/-! SUPPORT. What every operation of the part's own work keeps, whatever the operation: the applied copies, the queue of
commands, the System Port's registers (flags are only ever set), the latched trips, the inhibits, and each safety property
of Safety.lean. This file has the relation and the primitive updates. -/

namespace Sys2Proof.Machine

/-- What the part's own work keeps from one state to the next, the rough line's law apart. -/
structure Core (s s' : State) : Prop where
  pending : s'.pending = s.pending
  part : s'.port.part = s.port.part
  result : s'.port.result = s.port.result
  entry : s'.port.resultEntry = s.port.resultEntry
  enable : s'.port.enable = s.port.enable
  dataOut : s'.port.dataOut = s.port.dataOut
  tables : s'.tables = s.tables
  flags : ∀ i, s.port.summary.getLsbD i = true → s'.port.summary.getLsbD i = true
  trips : ∀ k, (s'.ilk k).trip = (s.ilk k).trip
  inhibits : ∀ c, (s.rf c).inhibit = true → (s'.rf c).inhibit = true
  gases : ∀ c, s.gasInhibit c = true → s'.gasInhibit c = true
  rfOff : ∀ c, (s.rf c).inhibit = true → (s.rf c).phase = .off → (s'.rf c).phase = .off
  gasShut : ∀ c, s.gasInhibit c = true → ∀ k, (s.line k).openTo ≠ some c → (s'.line k).openTo ≠ some c
  wf : s.mem.wf = true → s'.mem.wf = true
  fit : ∀ c, 6 ≤ s.tables.partition → s.tables.partition ≤ 26 → (s.rep c).fits s.tables.partition →
    (s'.rep c).fits s.tables.partition
  host : PagesFit s → ∀ a, a < Config.memorySize → hostOwned s.tables.partition a = true →
    memRead s'.mem a = memRead s.mem a

/-- What the part's own work keeps from one state to the next. -/
structure Keeps (s s' : State) : Prop where
  core : Core s s'
  rough : RoughLineLaw s → RoughLineLaw s'

theorem Core.refl (s : State) : Core s s := by
  constructor <;> first | rfl | (intros; rfl) | (intros; assumption)

theorem Keeps.refl (s : State) : Keeps s s := ⟨.refl s, id⟩

theorem Core.pagesFit {s s' : State} (h : Core s s') (g : PagesFit s) : PagesFit s' := by
  refine ⟨?_, ?_, fun c => ?_⟩ <;> rw [h.tables]
  · exact g.1
  · exact g.2.1
  · exact h.fit c g.1 g.2.1 (g.2.2 c)

theorem Core.trans {a b c : State} (h : Core a b) (g : Core b c) : Core a c where
  pending := g.pending.trans h.pending
  part := g.part.trans h.part
  result := g.result.trans h.result
  entry := g.entry.trans h.entry
  enable := g.enable.trans h.enable
  dataOut := g.dataOut.trans h.dataOut
  tables := g.tables.trans h.tables
  flags i x := g.flags i (h.flags i x)
  trips k := (g.trips k).trans (h.trips k)
  inhibits c x := g.inhibits c (h.inhibits c x)
  gases c x := g.gases c (h.gases c x)
  rfOff c i p := g.rfOff c (h.inhibits c i) (h.rfOff c i p)
  gasShut c i k o := g.gasShut c (h.gases c i) k (h.gasShut c i k o)
  wf x := g.wf (h.wf x)
  fit c x y z := by
    have := g.fit c
    rw [h.tables] at this
    exact this x y (h.fit c x y z)
  host x a l o := (g.host (h.pagesFit x) a l (h.tables ▸ o)).trans (h.host x a l o)

theorem Keeps.trans {a b c : State} (h : Keeps a b) (g : Keeps b c) : Keeps a c :=
  ⟨h.core.trans g.core, g.rough ∘ h.rough⟩

/-- A choice keeps what both alternatives keep. -/
theorem Keeps.ite {p : Prop} [Decidable p] {s a b : State} (ha : p → Keeps s a) (hb : ¬ p → Keeps s b) :
    Keeps s (if p then a else b) := by
  split
  · exact ha ‹_›
  · exact hb ‹_›

/-- The same in every part that Core speaks of. -/
theorem Core.of_same {s s' : State} (pending : s'.pending = s.pending) (port : s'.port = s.port)
    (tables : s'.tables = s.tables) (ilks : s'.ilks = s.ilks) (rfs : s'.rfs = s.rfs)
    (gas : s'.gasInhibits = s.gasInhibits) (lines : s'.lines = s.lines) (mem : s'.mem = s.mem)
    (reps : s'.reps = s.reps) : Core s s' := by
  cases s; cases s'; simp only at *; subst_vars
  constructor <;> first | rfl | (intros; rfl) | (intros; assumption)

/-! ### The primitive updates -/

section primitives
variable {s : State}

theorem Keeps.setSeq {c : Chamber} {x : Seq} : Keeps s (s.setSeq c x) :=
  ⟨.of_same rfl rfl rfl rfl rfl rfl rfl rfl rfl, id⟩
theorem Keeps.setPress {c : Chamber} {x : Press} : Keeps s (s.setPress c x) :=
  ⟨.of_same rfl rfl rfl rfl rfl rfl rfl rfl rfl, id⟩
theorem Keeps.setEcon {c : Chamber} {x : Econ} : Keeps s (s.setEcon c x) :=
  ⟨.of_same rfl rfl rfl rfl rfl rfl rfl rfl rfl, id⟩
theorem Keeps.setArb {k : LineId} {x : Arb} : Keeps s (s.setArb k x) :=
  ⟨.of_same rfl rfl rfl rfl rfl rfl rfl rfl rfl, id⟩
theorem Keeps.setChan {k : ChannelId} {x : Chan} : Keeps s (s.setChan k x) :=
  ⟨.of_same rfl rfl rfl rfl rfl rfl rfl rfl rfl, id⟩
theorem Keeps.setPins {x : Pins} : Keeps s (s.setPins x) :=
  ⟨.of_same rfl rfl rfl rfl rfl rfl rfl rfl rfl, id⟩
theorem Keeps.setWaitQueue {x : List WaitEntry} : Keeps s (s.setWaitQueue x) :=
  ⟨.of_same rfl rfl rfl rfl rfl rfl rfl rfl rfl, id⟩
theorem Keeps.setScan {x : Scan} : Keeps s (s.setScan x) :=
  ⟨.of_same rfl rfl rfl rfl rfl rfl rfl rfl rfl, id⟩
theorem Keeps.setNow {t : Moment} : Keeps s (s.setNow t) :=
  ⟨.of_same rfl rfl rfl rfl rfl rfl rfl rfl rfl, id⟩
theorem Keeps.bumpUses  : Keeps s (s.bumpUses) :=
  ⟨.of_same rfl rfl rfl rfl rfl rfl rfl rfl rfl, id⟩
theorem Core.setPump {c : Chamber} {x : Pump} : Core s (s.setPump c x) := .of_same rfl rfl rfl rfl rfl rfl rfl rfl rfl
theorem Core.setRough {r : Rough} : Core s (s.setRough r) := .of_same rfl rfl rfl rfl rfl rfl rfl rfl rfl
theorem Keeps.modSeq {c : Chamber} {f : Seq → Seq} : Keeps s (s.modSeq c f) := .setSeq
theorem Keeps.modPress {c : Chamber} {f : Press → Press} : Keeps s (s.modPress c f) := .setPress
theorem Keeps.modEcon {c : Chamber} {f : Econ → Econ} : Keeps s (s.modEcon c f) := .setEcon

/-- An RF Supervisor that keeps its inhibit and does not come on under it. -/
theorem Keeps.setRf {c : Chamber} {x : Rf} (hi : (s.rf c).inhibit = true → x.inhibit = true)
    (ho : (s.rf c).inhibit = true → (s.rf c).phase = .off → x.phase = .off) : Keeps s (s.setRf c x) := by
  refine ⟨?_, id⟩
  constructor <;> try first | rfl | (intros; rfl) | (intros; assumption)
  · intro d hd
    rw [State.setRf_rf]
    split
    · subst_vars; exact hi hd
    · exact hd
  · intro d hd hp
    rw [State.setRf_rf]
    split
    · subst_vars; exact ho hd hp
    · exact hp

/-- A line that is not newly open to a chamber whose gas is inhibited. -/
theorem Keeps.setLine {k : LineId} {x : Line}
    (h : ∀ c, x.openTo = some c → s.gasInhibit c = false ∨ (s.line k).openTo = some c) : Keeps s (s.setLine k x) := by
  refine ⟨?_, id⟩
  constructor <;> try first | rfl | (intros; rfl) | (intros; assumption)
  · intro c hc j hj
    rw [State.setLine_line]
    split
    · intro e
      subst_vars
      rcases h c e with h | h
      · simp [hc] at h
      · exact hj h
    · exact hj

/-- A gas inhibit set. -/
theorem Keeps.setGasInhibit_true {c : Chamber} : Keeps s (s.setGasInhibit c true) := by
  refine ⟨?_, id⟩
  constructor <;> try first | rfl | (intros; rfl) | (intros; assumption)
  · intro d hd
    rw [State.setGasInhibit_gasInhibit]
    split <;> simp_all

/-- An interlock input whose trip stays as it is. -/
theorem Keeps.setIlk {k : InputId} {x : Ilk} (h : x.trip = (s.ilk k).trip) : Keeps s (s.setIlk k x) := by
  refine ⟨?_, id⟩
  constructor <;> try first | rfl | (intros; rfl) | (intros; assumption)
  · intro j
    rw [State.setIlk_ilk]
    split
    · subst_vars; exact h
    · rfl

/-- A flag set. -/
theorem Keeps.raise {f : EventFlag} : Keeps s (raise f s) := by
  refine ⟨?_, id⟩
  constructor <;> try first | rfl | (intros; rfl) | (intros; assumption)
  · intro i h
    simp [Machine.raise, State.setPort, h]

/-- A Report Writer whose pages fit. -/
theorem Keeps.setRep {c : Chamber} {x : Rep}
    (h : 6 ≤ s.tables.partition → s.tables.partition ≤ 26 → (s.rep c).fits s.tables.partition →
    x.fits s.tables.partition) : Keeps s (s.setRep c x) := by
  refine ⟨?_, id⟩
  constructor <;> try first | rfl | (intros; rfl) | (intros; assumption)
  · intro d g1 g2 g3
    rw [State.setRep_rep]
    split
    · subst_vars; exact h g1 g2 g3
    · exact g3

/-- A pump machine that is as much in the rough line's states as before. -/
theorem Keeps.setPump {c : Chamber} {x : Pump}
    (h : x.st = (s.pump c).st ∨
      ((s.pump c).st ≠ .roughWait ∧ (s.pump c).st ≠ .softRough ∧ (s.pump c).st ≠ .fastRough ∧
        x.st ≠ .roughWait ∧ x.st ≠ .softRough ∧ x.st ≠ .fastRough)) : Keeps s (s.setPump c x) := by
  refine ⟨.setPump, ?_⟩
  rintro ⟨h1, h2, h3, h4, h5⟩
  refine ⟨fun d => ?_, fun d => ?_, fun d => ?_, h4, h5⟩ <;>
    (simp only [State.setPump_rough]; rw [State.setPump_pump]; split)
  · rcases h with h | h
    · subst_vars; rw [h]; exact h1 _
    · simp [h]
  · exact h1 d
  · subst_vars
    intro hh
    have := h2 _ hh
    rcases h with h | h
    · rw [h]; exact this
    · simp [h] at this
  · exact h2 d
  · subst_vars
    rcases h with h | h
    · rw [h]; exact h3 _
    · have := h3 d
      simp only [h, false_and, iff_false] at this ⊢
      exact this
  · exact h3 d

/-- A word that lies in the part's own areas below the recipe area. -/
theorem Keeps.putWord {a v : Nat} (h : (0x100 ≤ a ∧ a + 4 ≤ 0x200) ∨ (0x800 ≤ a ∧ a + 4 ≤ 0x1000)) :
    Keeps s (s.putWord a v) := by
  refine ⟨?_, id⟩
  constructor <;> try first | rfl | (intros; rfl) | (intros; assumption)
  · exact fun h => wf_memPutWord _ _ _ h
  · intro _ b hb ho
    simp only [hostOwned, decide_eq_true_eq] at ho
    refine memRead_memPutWord_outside _ _ _ _ hb ?_ ?_ <;> simp only [Config.memorySize] at * <;> omega

/-- Words that lie in the part's own areas below the recipe area. -/
theorem Keeps.putWords {a : Nat} {vs : List Nat}
    (h : (0x100 ≤ a ∧ a + 4 * vs.length ≤ 0x200) ∨ (0x800 ≤ a ∧ a + 4 * vs.length ≤ 0x1000)) :
    Keeps s (s.putWords a vs) := by
  refine ⟨?_, id⟩
  constructor <;> try first | rfl | (intros; rfl) | (intros; assumption)
  · exact fun h => wf_memPutWords _ _ _ h
  · intro _ b hb ho
    simp only [hostOwned, decide_eq_true_eq] at ho
    refine memRead_memPutWords_outside _ _ _ _ hb ?_ ?_ <;> simp only [Config.memorySize] at * <;> omega

/-- Words of a report entry that lie in the report areas. -/
theorem Keeps.putEntry {a : Nat} {e : Entry} (h : PagesFit s → 0x2000 + 4096 * s.tables.partition ≤ a ∧ a + 32 ≤ 0x20000) :
    Keeps s (s.putWords a e.words) := by
  refine ⟨?_, id⟩
  constructor <;> try first | rfl | (intros; rfl) | (intros; assumption)
  · exact fun h => wf_memPutWords _ _ _ h
  · intro g b hb ho
    have := h g
    have hl : e.words.length = 8 := rfl
    simp only [hostOwned, decide_eq_true_eq] at ho
    refine memRead_memPutWords_outside _ _ _ _ hb ?_ ?_ <;> simp only [Config.memorySize, hl] at * <;> omega

/-- A status word. -/
theorem Keeps.showWord {c : Chamber} {w : StatusWord} : Keeps s (showWord c w s) := by
  have : w.offset ≤ 60 := by cases w <;> simp [StatusWord.offset]
  exact .putWord (.inr (by simp only [statusAddr]; omega))

theorem Keeps.setRun {c : Chamber} {r : RunState} : Keeps s (setRun c r s) := Keeps.modSeq.trans .showWord

end primitives

/-! ### Folds -/

/-- A fold keeps what each of its steps keeps. -/
theorem Keeps.foldl {α : Type} {f : State → α → State} (h : ∀ s x, Keeps s (f s x)) (xs : List α) (s : State) :
    Keeps s (xs.foldl f s) := by
  induction xs generalizing s with
  | nil => exact .refl s
  | cons x xs ih => exact (h s x).trans (ih _)

theorem Keeps.forChambers {f : Chamber → State → State} {s : State} (h : ∀ c s, Keeps s (f c s)) :
    Keeps s (forChambers f s) := .foldl (fun s c => h c s) _ _
theorem Keeps.forLines {f : LineId → State → State} {s : State} (h : ∀ k s, Keeps s (f k s)) :
    Keeps s (forLines f s) := .foldl (fun s k => h k s) _ _
theorem Keeps.forInputs {f : InputId → State → State} {s : State} (h : ∀ k s, Keeps s (f k s)) :
    Keeps s (forInputs f s) := .foldl (fun s k => h k s) _ _
theorem Keeps.forChannels {f : ChannelId → State → State} {s : State} (h : ∀ k s, Keeps s (f k s)) :
    Keeps s (forChannels f s) := .foldl (fun s k => h k s) _ _

end Sys2Proof.Machine
end

