-- ==== Sys2Proof/Laws/KeepsReport.lean ====
section
/-! SUPPORT. The Report Writer keeps what Keeps says: entries land in the chamber's report area, and the pages stay within
it. -/

namespace Sys2Proof.Machine

variable {s : State} {c : Chamber}

theorem Rep.page_setPage (r : Rep) (i j : Fin 2) (p : Page) : (r.setPage i p).page j = if j = i then p else r.page j := by
  fin_cases i <;> fin_cases j <;> rfl
@[simp] theorem Rep.setPage_size (r : Rep) (i : Fin 2) (p : Page) : (r.setPage i p).size = r.size := by
  fin_cases i <;> rfl
@[simp] theorem Rep.setPage_pages (r : Rep) (i : Fin 2) (p : Page) : (r.setPage i p).pages = r.pages := by
  fin_cases i <;> rfl
@[simp] theorem Rep.setPage_held (r : Rep) (i : Fin 2) (p : Page) : (r.setPage i p).held = r.held := by
  fin_cases i <;> rfl
@[simp] theorem Rep.setPage_skipped (r : Rep) (i : Fin 2) (p : Page) : (r.setPage i p).skipped = r.skipped := by
  fin_cases i <;> rfl
@[simp] theorem Rep.setPage_next (r : Rep) (i : Fin 2) (p : Page) : (r.setPage i p).next = r.next := by
  fin_cases i <;> rfl
@[simp] theorem Rep.setPage_perEntry (r : Rep) (i : Fin 2) (p : Page) : (r.setPage i p).perEntry = r.perEntry := by
  fin_cases i <;> rfl
@[simp] theorem Rep.setPage_closeShort (r : Rep) (i : Fin 2) (p : Page) : (r.setPage i p).closeShort = r.closeShort := by
  fin_cases i <;> rfl
@[simp] theorem Rep.setPage_inUse (r : Rep) (i j : Fin 2) (p : Page) : (r.setPage i p).inUse j = r.inUse j := by
  simp [Rep.inUse]

/-- A page replaced by one that has room fits where the pages fitted. -/
theorem Rep.fits_setPage {n : Nat} {r : Rep} {i : Fin 2} {p : Page} (h : r.fits n)
    (hp : r.inUse i = true → p.st = .filling → p.count < r.size) : (r.setPage i p).fits n := by
  rcases h with h | ⟨h1, h2, h3, h4⟩
  · exact .inl (by simp [h])
  · refine .inr ⟨by simpa using h1, by simpa using h2, by simpa using h3, fun j hj hf => ?_⟩
    rw [Rep.page_setPage] at hf ⊢
    rw [Rep.setPage_inUse] at hj
    rw [Rep.setPage_size]
    split at hf
    · subst_vars; simp only [if_true]; exact hp hj hf
    · rw [if_neg ‹_›]; exact h4 j hj hf

/-- A page of a chamber changed to one that has room. -/
theorem Keeps.modPage {i : Fin 2} {f : Page → Page}
    (h : (s.rep c).fits s.tables.partition → (s.rep c).inUse i = true → (f ((s.rep c).page i)).st = .filling →
      (f ((s.rep c).page i)).count < (s.rep c).size) : Keeps s (s.modPage c i f) :=
  .setRep fun _ _ g => Rep.fits_setPage g (h g)

/-- A change that leaves the pages and their layout as they are. -/
theorem Keeps.modRep {f : Rep → Rep}
    (h : (f (s.rep c)).size = (s.rep c).size ∧ (f (s.rep c)).pages = (s.rep c).pages ∧
      (f (s.rep c)).page0 = (s.rep c).page0 ∧ (f (s.rep c)).page1 = (s.rep c).page1) : Keeps s (s.modRep c f) := by
  refine .setRep fun _ _ g => ?_
  obtain ⟨h1, h2, h3, h4⟩ := h
  have : ∀ i, (f (s.rep c)).page i = (s.rep c).page i := fun i => by simp [Rep.page, h3, h4]
  simpa [Rep.fits, Rep.inUse, *] using g

theorem Rep.filling?_spec {r : Rep} {i : Fin 2} (h : r.filling? = some i) :
    r.inUse i = true ∧ (r.page i).st = .filling := by
  have := List.find?_some h
  simpa using this

theorem Rep.empty?_spec {r : Rep} {i : Fin 2} (h : r.empty? = some i) :
    r.inUse i = true ∧ (r.page i).st = .empty := by
  have := List.find?_some h
  simpa using this

/-- Where an entry of a page in use lies (R8). -/
theorem entryAddr_bounds (g : PagesFit s) {i : Fin 2} {e : Nat} (hi : (s.rep c).inUse i = true)
    (he : e < (s.rep c).size) :
    reportAddr s.tables.partition c ≤ entryAddr s c i e ∧
      entryAddr s c i e + 32 ≤ reportAddr s.tables.partition c + 1024 * (30 - s.tables.partition) := by
  obtain ⟨g1, g2, g3⟩ := g
  have hi' : i.val < (s.rep c).pages := by simpa [Rep.inUse] using hi
  rcases g3 c with h | ⟨h1, h2, h3, -⟩
  · omega
  · simp only [entryAddr, areaEntries] at *
    have hn : (s.rep c).size * i.val + (s.rep c).size ≤ (s.rep c).pages * (s.rep c).size := by
      have : (s.rep c).size * (i.val + 1) ≤ (s.rep c).size * (s.rep c).pages := Nat.mul_le_mul_left _ (by omega)
      rw [Nat.mul_comm (s.rep c).pages]
      rw [Nat.mul_add] at this
      omega
    constructor
    · omega
    · omega

/-- A report area lies above the recipe area and within the Common Memory (R8). -/
theorem reportAddr_bounds {n : Nat} (h : n ≤ 30) :
    0x2000 + 4096 * n ≤ reportAddr n c ∧ reportAddr n c + 1024 * (30 - n) ≤ 0x20000 := by
  obtain ⟨c, hc⟩ := c
  simp only [reportAddr]
  have : c = 0 ∨ c = 1 ∨ c = 2 ∨ c = 3 := by omega
  rcases this with h | h | h | h <;> subst h <;> omega

theorem Keeps.placeWords {i : Fin 2} {k : Nat} {e : Entry} (hi : (s.rep c).inUse i = true)
    (hk : (s.rep c).fits s.tables.partition → k < (s.rep c).size) : Keeps s (s.putWords (entryAddr s c i k) e.words) := by
  refine .putEntry fun g => ?_
  have h1 := entryAddr_bounds g hi (hk (g.2.2 c))
  have h2 := reportAddr_bounds (c := c) (n := s.tables.partition) (by have := g.2.1; omega)
  omega

theorem Keeps.announceFull {i : Fin 2} : Keeps s (announceFull c i s) := Keeps.showWord.trans .raise

theorem Keeps.placementNotice : Keeps s (placementNotice c s) := .ite (fun _ => .raise) fun _ => .refl _

theorem Keeps.placeFilling {i : Fin 2} {e : Entry} (h : (s.rep c).filling? = some i) :
    Keeps s (placeFilling c i e s) := by
  obtain ⟨hi, hf⟩ := Rep.filling?_spec h
  have hc : (s.rep c).fits s.tables.partition → ((s.rep c).page i).count < (s.rep c).size := fun g => by
    rcases g with h | ⟨_, _, _, h⟩
    · simp [Rep.inUse, h] at hi
    · exact h i hi hf
  refine (Keeps.placeWords hi hc).trans (Keeps.trans (.modPage ?_) (Keeps.showWord.trans
    (Keeps.trans (.ite (fun _ => .announceFull) fun _ => .refl _) .placementNotice)))
  · intro g _ hst
    simp only [State.putWords_rep] at hst ⊢
    split at hst
    · simp at hst
    · simp only [decide_eq_true_eq] at *; omega

theorem Keeps.placeOpening {i : Fin 2} {e : Entry} (h : (s.rep c).empty? = some i) :
    Keeps s (placeOpening c i e s) := by
  obtain ⟨hi, hf⟩ := Rep.empty?_spec h
  have hc : (s.rep c).fits s.tables.partition → 0 < (s.rep c).size := fun g => by
    rcases g with h | ⟨h, _⟩
    · simp [Rep.inUse, h] at hi
    · exact h
  refine (Keeps.placeWords hi hc).trans (Keeps.trans (.modPage ?_) (Keeps.showWord.trans (Keeps.showWord.trans
    (Keeps.trans (.modRep ?_) (Keeps.showWord.trans
      (Keeps.trans (.ite (fun _ => .announceFull) fun _ => .showWord) .placementNotice))))))
  · intro g _ hst
    simp only [State.putWords_rep] at hst ⊢
    split at hst
    · simp at hst
    · simp only [decide_eq_true_eq] at *; omega
  · exact ⟨rfl, rfl, rfl, rfl⟩

theorem Keeps.holdEntry {e : Entry} : Keeps s (holdEntry c e s) :=
  .ite (fun _ => Keeps.trans (.modRep ⟨rfl, rfl, rfl, rfl⟩) .showWord) fun _ => .modRep ⟨rfl, rfl, rfl, rfl⟩

theorem Keeps.placeEntry {e : Entry} : Keeps s (placeEntry c e s) := by
  unfold Machine.placeEntry
  split
  · exact .placeFilling ‹_›
  · split
    · exact .placeOpening ‹_›
    · exact .holdEntry

theorem Keeps.produce {e : Entry} : Keeps s (produce c e s) :=
  Keeps.trans (.modRep ⟨rfl, rfl, rfl, rfl⟩) (Keeps.showWord.trans .placeEntry)

theorem Keeps.placeHeld : Keeps s (placeHeld c s) := by
  unfold Machine.placeHeld
  split
  · exact Keeps.trans (.modRep ⟨rfl, rfl, rfl, rfl⟩) .placeEntry
  · exact .refl _

theorem Keeps.showPage {i : Fin 2} : Keeps s (showPage c i s) := Keeps.showWord.trans (Keeps.showWord.trans .showWord)

/-- A FILLING page has room for an entry. -/
def Rep.roomy (r : Rep) : Prop :=
  r.pages = 0 ∨ ∀ i, r.inUse i = true → (r.page i).st = .filling → (r.page i).count < r.size

theorem Rep.fits.roomy {r : Rep} {n : Nat} (h : r.fits n) : r.roomy := h.imp id fun h => h.2.2.2

/-- The page layout of R164 fits the chamber's report area. -/
theorem Rep.fits_fixed {r : Rep} {n size notice short : Nat} (h1 : 6 ≤ n) (h2 : n ≤ 26) (h : r.roomy) :
    (r.fixed n size notice short).fits n := by
  have hp : 1 ≤ pageSizeFor size n ∧ pageSizeFor size n ≤ areaEntries n := by
    simp only [pageSizeFor, areaEntries]; split <;> omega
  have hq : pageCountFor (pageSizeFor size n) n ≤ 2 ∧
      pageCountFor (pageSizeFor size n) n * pageSizeFor size n ≤ areaEntries n ∧
      1 ≤ pageCountFor (pageSizeFor size n) n := by
    simp only [pageCountFor]; split <;> omega
  refine .inr ⟨hp.1, hq.1, hq.2.1, fun i hi hf => ?_⟩
  have hi : i.val < pageCountFor (pageSizeFor size n) n := by simpa [Rep.inUse, Rep.fixed] using hi
  simp only [Rep.fixed, Rep.page] at hf ⊢
  by_cases hk : r.size = pageSizeFor size n ∧ r.pages = pageCountFor (pageSizeFor size n) n ∧ r.partition = n
  · rcases h with h | h
    · omega
    · have := h i (by simp [Rep.inUse, hk, hi])
      simp only [hk, Rep.page, decide_true, if_true, and_self] at this hf ⊢
      exact this hf
  · simp only [hk, decide_false, Bool.false_eq_true, if_false, ite_self] at hf
    simp at hf

theorem Keeps.fixPages : Keeps s (fixPages c s) := by
  refine Keeps.trans (.setRep fun g1 g2 g3 => Rep.fits_fixed g1 g2 g3.roomy) (Keeps.showWord.trans (Keeps.showWord.trans
    (.ite (fun _ => .refl _) fun _ => Keeps.showPage.trans (Keeps.showPage.trans .placeHeld))))

theorem Keeps.scanPage {i : Fin 2} : Keeps s (scanPage c i s) := by
  unfold Machine.scanPage
  refine .ite (fun _ => ?_) fun _ => .refl _
  refine .ite (fun _ => .modPage ?_) fun _ => .ite (fun _ => .refl _) fun _ => .showWord
  simp

theorem Keeps.scanPages : Keeps s (scanPages c s) := Keeps.scanPage.trans (Keeps.scanPage.trans .placeHeld)

theorem Keeps.closeShort : Keeps s (closeShort c s) := by
  unfold Machine.closeShort
  refine .ite (fun _ => ?_) fun _ => .refl _
  split
  · exact Keeps.trans (.modPage (by simp)) .announceFull
  · exact .refl _

end Sys2Proof.Machine
end

