-- ==== Sys2Proof/Laws/KeepsWork.lean ====
section
/-! SUPPORT. The scanner, the flow, pressure and RF channels, the Line Arbiter and the Chamber Sequencer keep what Keeps
says. -/

namespace Sys2Proof.Machine

variable {s : State} {c : Chamber}

/-! ### Image words -/

theorem Keeps.imageLine {k : LineId} : Keeps s (imageLine k s) :=
  .putWord (.inl (by have := k.isLt; simp only [imageAddr]; omega))
theorem Keeps.imageWait : Keeps s (imageWait s) :=
  Keeps.trans (.putWord (.inl (by simp [imageAddr]))) (.putWord (.inl (by simp [imageAddr])))
theorem Keeps.imageRough : Keeps s (imageRough s) :=
  Keeps.trans (.putWord (.inl (by simp [imageAddr]))) (.putWord (.inl (by simp [imageAddr])))
theorem Keeps.imageInterlock : Keeps s (imageInterlock s) := .putWord (.inl (by simp [imageAddr]))
theorem Keeps.imageRate : Keeps s (imageRate s) := .putWord (.inl (by simp [imageAddr]))

/-! ### Scanner -/

theorem measurementAddr_bounds (k : ChannelId) : 0xD00 ≤ measurementAddr k.val ∧ measurementAddr k.val + 16 ≤ 0x1000 := by
  have := k.isLt; simp only [measurementAddr]; omega

theorem Keeps.publish {k : ChannelId} {e : ScanCfg} {raw : Nat} : Keeps s (publish k e raw s) :=
  Keeps.setChan.trans (.putWords (.inr (by have := measurementAddr_bounds k; simp only [List.length]; omega)))

theorem Keeps.publishPass {fast slow : Bool} : Keeps s (publishPass fast slow s) := by
  refine .forChannels fun k s => ?_
  split
  · exact .ite (fun _ => .publish) fun _ => .refl _
  · exact .refl _

theorem Keeps.ageChannel {k : ChannelId} : Keeps s (ageChannel k s) :=
  .ite (fun _ => Keeps.setChan.trans (.putWord (.inr (by have := measurementAddr_bounds k; omega)))) fun _ => .refl _
theorem Keeps.markStale {k : ChannelId} : Keeps s (markStale k s) :=
  .ite (fun _ => Keeps.setChan.trans (.putWord (.inr (by have := measurementAddr_bounds k; omega)))) fun _ => .refl _
theorem Keeps.setRate {r : ScanRate} : Keeps s (setRate r s) := Keeps.setScan.trans .imageRate
theorem Keeps.enterSettling : Keeps s (enterSettling s) := Keeps.setScan.trans .imageRate

theorem Keeps.scanT0 : Keeps s (scanT0 s) := by
  unfold Machine.scanT0
  split
  · exact .refl _
  · exact .ite (fun _ => .setRate) fun _ => .publishPass
  · exact .ite (fun _ => .refl _) fun _ => .enterSettling
  · exact .ite (fun _ => Keeps.setScan.trans (.ite (fun _ => .setRate) fun _ => .refl _)) fun _ => .refl _

theorem Keeps.scannerT0 {counts : Vector (BitVec 12) 48} : Keeps s (scannerT0 counts s) :=
  .ite (fun _ => Keeps.setPins.trans (Keeps.setScan.trans (Keeps.scanT0.trans
    (Keeps.trans (.forChannels fun _ _ => .ageChannel) (.forChannels fun _ _ => .markStale))))) fun _ => .refl _

theorem Keeps.scannerT2 {counts : Vector (BitVec 12) 48} : Keeps s (scannerT2 counts s) := by
  unfold Machine.scannerT2
  simp only []
  split
  · split
    · exact Keeps.setPins.trans (Keeps.setScan.trans .publishPass)
    · exact Keeps.setPins.trans (Keeps.setScan.trans .publishPass)
    · exact Keeps.setPins.trans .setScan
  · exact .refl _

/-! ### Flow Unit -/

/-- A line changed with its shutoff valve as it was. -/
theorem Keeps.setLine_same {k : LineId} {x : Line} (h : x.openTo = (s.line k).openTo) : Keeps s (s.setLine k x) :=
  .setLine fun _ hd => .inr (h ▸ hd)
theorem Keeps.modLine_same {k : LineId} {f : Line → Line} (h : ∀ l, (f l).openTo = l.openTo) :
    Keeps s (s.modLine k f) := .setLine_same (h _)
/-- A line that is shut. -/
theorem Keeps.modLine_shut {k : LineId} : Keeps s (s.modLine k Line.shut) := .setLine fun _ hd => by simp [Line.shut] at hd
/-- A line opened to a chamber whose gas is not inhibited. -/
theorem Keeps.modLine_open {k : LineId} {f : Line → Line} (h : (f (s.line k)).openTo = some c)
    (hg : ¬ s.gasInhibit c = true) : Keeps s (s.modLine k f) :=
  .setLine fun d hd => .inl (by rw [h] at hd; cases hd; simpa using hg)

theorem Keeps.handLine {r : StepRec} {e : LineId × Nat} : Keeps s (handLine c r e s) :=
  .ite (fun _ => .refl _) fun h => .modLine_open rfl h

theorem Keeps.openPurge {src : Source} {flow : Nat} : Keeps s (openPurge c src flow s) := by
  unfold Machine.openPurge
  split
  · exact .ite (fun _ => .refl _) fun h => .modLine_open rfl h
  · exact .refl _

@[simp] theorem Line.ramped_openTo (l : Line) (cfg : LineCfg) (b : Bool) : (l.ramped cfg b).openTo = l.openTo := by
  unfold Line.ramped; split <;> rfl
@[simp] theorem Line.judged_openTo (l : Line) (cfg : LineCfg) (b : Bool) : (l.judged cfg b).openTo = l.openTo := by
  unfold Line.judged; split
  · split <;> rfl
  · rfl

theorem Keeps.lineWork {k : LineId} : Keeps s (lineWork k s) := by
  unfold Machine.lineWork
  simp only []
  split
  · exact .refl _
  · exact .ite (fun _ => Keeps.trans (.setLine_same (by simp)) (.ite (fun _ => .modLine_same (by simp)) fun _ => .refl _))
      fun _ => .refl _

/-! ### Pressure Channels -/

theorem Keeps.openThrottle : Keeps s (openThrottle c s) := .modPress
theorem Keeps.stopPressure : Keeps s (stopPressure c s) := .modPress
theorem Keeps.handPressure {r : StepRec} : Keeps s (handPressure c r s) := .setPress
theorem Keeps.pressureWork : Keeps s (pressureWork c s) := .ite (fun _ => .setPress) fun _ => .refl _

/-! ### RF Supervisors -/

theorem Keeps.modRf {f : Rf → Rf} (hi : (s.rf c).inhibit = true → (f (s.rf c)).inhibit = true)
    (ho : (s.rf c).inhibit = true → (s.rf c).phase = .off → (f (s.rf c)).phase = .off) : Keeps s (s.modRf c f) :=
  .setRf hi ho

theorem Keeps.rfOff : Keeps s (rfOff c s) := .modRf id fun _ _ => rfl

@[simp] theorem Rf.released_inhibit (x : Rf) (p : RfPhase) (t : Moment) : (x.released p t).inhibit = x.inhibit := rfl
@[simp] theorem Rf.released_phase (x : Rf) (p : RfPhase) (t : Moment) : (x.released p t).phase = p := rfl
@[simp] theorem Rf.enabled_inhibit (x : Rf) (cfg : ChamberCfg) (t : Moment) : (x.enabled cfg t).inhibit = x.inhibit := rfl
@[simp] theorem Rf.enabled_phase (x : Rf) (cfg : ChamberCfg) (t : Moment) : (x.enabled cfg t).phase = .striking := rfl
@[simp] theorem Rf.rampFrom_inhibit (x : Rf) (a b d : Nat) (t : Moment) : (x.rampFrom a b d t).inhibit = x.inhibit := rfl
@[simp] theorem Rf.ramped_inhibit (x : Rf) (a : Nat) (t : Moment) : (x.ramped a t).inhibit = x.inhibit := by
  unfold Rf.ramped; split
  · rfl
  · split <;> rfl
@[simp] theorem Rf.judged_inhibit (x : Rf) (cfg : ChamberCfg) (a b : Bool) : (x.judged cfg a b).inhibit = x.inhibit := rfl
@[simp] theorem Rf.tested_inhibit (x : Rf) (cfg : ChamberCfg) (m : Bool) (t : Moment) :
    (x.tested cfg m t).inhibit = x.inhibit := by
  unfold Rf.tested; split
  · rfl
  · split
    · rfl
    · split <;> rfl
@[simp] theorem Rf.paused_inhibit (x : Rf) (cfg : ChamberCfg) (t : Moment) : (x.paused cfg t).inhibit = x.inhibit := by
  unfold Rf.paused; split <;> rfl
@[simp] theorem Rf.handedPlasma_inhibit (x : Rf) (cfg : ChamberCfg) (r : StepRec) (t : Moment) :
    (x.handedPlasma cfg r t).inhibit = x.inhibit := by
  unfold Rf.handedPlasma; simp only []
  split
  · rfl
  · split <;> rfl
/-- A hand-off to an inhibited Supervisor leaves it off (R129). -/
theorem Rf.handedPlasma_phase (x : Rf) (cfg : ChamberCfg) (r : StepRec) (t : Moment) (h : x.inhibit = true) :
    (x.handedPlasma cfg r t).phase = .off := by
  simp [Rf.handedPlasma, h]

theorem Keeps.handRf {r : StepRec} : Keeps s (handRf c r s) := by
  refine .modRf (fun h => ?_) fun h hp => ?_
  · simp only []; split <;> simpa using h
  · simp only []; split
    · exact Rf.handedPlasma_phase _ _ _ _ h
    · rfl

theorem Keeps.rfWork : Keeps s (rfWork c s) := by
  unfold Machine.rfWork
  simp only []
  refine .ite (fun _ => ?_) fun _ => .refl _
  split
  · exact .refl _
  all_goals
    rename_i hp
    refine .setRf (fun h => by simpa using h) fun _ h => ?_
    rw [h] at hp
    cases hp

/-! ### Hand-off and Line Arbiter -/

theorem Keeps.handSetpoints : Keeps s (handSetpoints c s) :=
  Keeps.trans (.foldl (fun _ _ => .handLine) _ _) (Keeps.handPressure.trans .handRf)
theorem Keeps.loadTimer : Keeps s (loadTimer c s) := Keeps.modSeq.trans (Keeps.setRun.trans (Keeps.showWord.trans .showWord))
theorem Keeps.handStep : Keeps s (handStep c s) := Keeps.handSetpoints.trans .loadTimer

theorem Keeps.putArb {k : LineId} {x : Arb} : Keeps s (putArb k x s) := Keeps.setArb.trans .imageLine
theorem Keeps.ownLines {set : List LineId} : Keeps s (ownLines c set s) :=
  .forLines fun _ _ => .ite (fun _ => .putArb) fun _ => .refl _
theorem Keeps.grantWaiting {e : WaitEntry} : Keeps s (grantWaiting e s) :=
  Keeps.setWaitQueue.trans (Keeps.imageWait.trans (Keeps.ownLines.trans .handStep))

theorem Keeps.walkFrom {q : List WaitEntry} {older : List LineId} : Keeps s (walkFrom q older s) := by
  induction q generalizing older s with
  | nil => exact .refl _
  | cons e rest ih => exact .ite (fun _ => Keeps.grantWaiting.trans ih) fun _ => ih

theorem Keeps.walk : Keeps s (walk s) := .walkFrom
theorem Keeps.freeLine {k : LineId} : Keeps s (freeLine k s) := Keeps.putArb.trans .walk
theorem Keeps.releaseLine {k : LineId} : Keeps s (releaseLine c k s) :=
  .ite (fun _ => .ite (fun _ => .freeLine) fun _ => .putArb) fun _ => .refl _
theorem Keeps.dropLine {k : LineId} : Keeps s (dropLine c k s) :=
  Keeps.trans (.ite (fun _ => .modLine_shut) fun _ => .refl _) .releaseLine
theorem Keeps.dropLines {p : LineId → Bool} : Keeps s (dropLines c p s) :=
  .forLines fun _ _ => .ite (fun _ => .dropLine) fun _ => .refl _
theorem Keeps.dropAll : Keeps s (dropAll c s) := .dropLines
theorem Keeps.dropShared : Keeps s (dropShared c s) := .dropLines
theorem Keeps.dropPurge : Keeps s (dropPurge c s) := .dropLines
theorem Keeps.leaveQueue : Keeps s (leaveQueue c s) :=
  .ite (fun _ => Keeps.setWaitQueue.trans (Keeps.imageWait.trans .walk)) fun _ => .refl _

theorem Keeps.handoverTick {k : LineId} : Keeps s (handoverTick k s) := by
  unfold Machine.handoverTick
  split
  · exact .ite (fun _ => .ite (fun _ => .setArb) fun _ => .freeLine) fun _ => .refl _
  · exact .refl _
theorem Keeps.startPurge {k : LineId} : Keeps s (startPurge k s) := .ite (fun _ => .putArb) fun _ => .putArb

/-! ### Slots, contexts, close-out -/

theorem slotAddr_bounds (i : Fin 2) : 0x800 ≤ slotAddr c i ∧ slotAddr c i + 64 ≤ 0xA00 := by
  have := c.isLt; have := i.isLt; simp only [slotAddr]; omega

theorem Keeps.holdSlot {i : Fin 2} {h : SlotHold} : Keeps s (holdSlot c i h s) := .modSeq
theorem Keeps.writeSlot {i : Fin 2} {o d n st : Nat} : Keeps s (writeSlot c i o d n st s) :=
  Keeps.trans (.putWords (.inr (by have := slotAddr_bounds (c := c) i; simp only [List.length]; omega)))
    (.putWord (.inr (by have := slotAddr_bounds (c := c) i; omega)))
theorem Keeps.doneSlot {i : Fin 2} {o : Code} {d n : Nat} : Keeps s (doneSlot c i o d n s) :=
  Keeps.writeSlot.trans (Keeps.holdSlot.trans .raise)
theorem Keeps.doneHeld {p : SlotHold → Bool} {o : Code} {d n : Nat} : Keeps s (doneHeld c p o d n s) := by
  unfold Machine.doneHeld
  split
  · exact .doneSlot
  · exact .refl _

theorem loopWords_length (l : List LoopEntry) : (loopWords l).length = 4 := by
  simp [loopWords]

theorem Keeps.writeContext {x : Code} {pos rem : Nat} : Keeps s (writeContext c x pos rem s) :=
  .putWords (.inr (by
    have := c.isLt
    simp only [contextAddr, List.length_append, List.length_cons, List.length_nil, loopWords_length,
      List.length_replicate]
    omega))
theorem Keeps.clearLatch : Keeps s (clearLatch c s) := .ite (fun _ => Keeps.modSeq.trans .showWord) fun _ => .refl _
theorem Keeps.closeBegin {x : Code} {item pos rem : Nat} : Keeps s (closeBegin c x item pos rem s) :=
  Keeps.modSeq.trans (Keeps.writeContext.trans (Keeps.clearLatch.trans (Keeps.leaveQueue.trans (Keeps.modSeq.trans
    (Keeps.setRun.trans (Keeps.rfOff.trans (Keeps.stopPressure.trans
      (.ite (fun _ => Keeps.raise.trans .produce) fun _ => .refl _))))))))
theorem Keeps.reachFaults : Keeps s (reachFaults c s) :=
  .ite (fun _ => Keeps.trans (.forLines fun _ _ => .ite (fun _ => .lineWork) fun _ => .refl _)
    (Keeps.trans (.ite (fun _ => .pressureWork) fun _ => .refl _) (.ite (fun _ => .rfWork) fun _ => .refl _)))
    fun _ => .refl _
theorem Keeps.closeNow {x : Code} {item : Nat} : Keeps s (closeNow c x item s) := Keeps.reachFaults.trans .closeBegin
theorem Keeps.finishRun {e f : Nat} : Keeps s (finishRun c e f s) :=
  Keeps.produce.trans (Keeps.closeShort.trans (Keeps.doneHeld.trans (Keeps.doneHeld.trans (Keeps.modSeq.trans
    (Keeps.setRun.trans (Keeps.showWord.trans (Keeps.showWord.trans .showWord)))))))
theorem Keeps.beginEnd {x : Code} {item : Nat} : Keeps s (beginEnd c x item s) :=
  Keeps.modSeq.trans (.ite (fun _ => Keeps.raise.trans .produce) fun _ => .refl _)
theorem Keeps.endStarting {x : Code} {item : Nat} : Keeps s (endStarting c x item s) :=
  Keeps.beginEnd.trans (Keeps.clearLatch.trans .finishRun)
theorem Keeps.deliverFault {x : Code} {item : Nat} : Keeps s (deliverFault c x item s) := by
  unfold Machine.deliverFault
  split
  · exact .refl _
  · exact .ite (fun _ => .endStarting) fun _ => .refl _
  · exact .modSeq
  · exact .closeNow
theorem Keeps.endStage : Keeps s (endStage c s) := Keeps.finishRun.trans .openThrottle
theorem Keeps.judgePumpOut : Keeps s (judgePumpOut c s) := .ite (fun _ => .modSeq) fun _ => .endStage
theorem Keeps.endPurge : Keeps s (endPurge c s) := Keeps.modSeq.trans (Keeps.dropPurge.trans .judgePumpOut)
theorem Keeps.judgePurge : Keeps s (judgePurge c s) :=
  .ite (fun _ => Keeps.modSeq.trans .openPurge) fun _ => .judgePumpOut
theorem Keeps.gasOffStage : Keeps s (gasOffStage c s) := Keeps.dropAll.trans (Keeps.openThrottle.trans .judgePurge)
theorem Keeps.pumpOutFails : Keeps s (pumpOutFails c s) := Keeps.modSeq.trans .endStage
theorem Keeps.checkStage : Keeps s (checkStage c s) := by
  unfold Machine.checkStage
  refine .ite (fun _ => ?_) fun _ => .refl _
  split
  · exact .ite (fun _ => .endPurge) fun _ => .refl _
  · exact .ite (fun _ => .endStage) fun _ => .ite (fun _ => .pumpOutFails) fun _ => .refl _
  · exact .refl _
theorem Keeps.raiseRestriction {a : Nat} : Keeps s (raiseRestriction c a s) := .ite (fun _ => .modSeq) fun _ => .refl _

/-! ### Steps and segments -/

theorem Keeps.setStep {pos : Nat} {l : List LoopEntry} : Keeps s (setStep c pos l s) := Keeps.modSeq.trans .showWord
theorem Keeps.enterWait {set : List LineId} : Keeps s (enterWait c set s) :=
  Keeps.setWaitQueue.trans (Keeps.imageWait.trans (Keeps.setRun.trans (Keeps.rfOff.trans
    (Keeps.stopPressure.trans .dropShared))))
theorem Keeps.enterStep {r : Resolved} : Keeps s (enterStep c r s) := by
  cases r with
  | segmentEnd _ => exact .refl _
  | fault code pos stack => exact Keeps.setStep.trans .closeBegin
  | run r pos stack =>
    exact Keeps.setStep.trans (Keeps.modSeq.trans (Keeps.dropLines.trans
      (.ite (fun _ => .handStep) fun _ => .ite (fun _ => Keeps.ownLines.trans .handStep) fun _ => .enterWait)))
theorem Keeps.enterHeld {pos rem : Nat} : Keeps s (enterHeld c pos rem s) :=
  Keeps.modSeq.trans (Keeps.rfOff.trans (Keeps.dropAll.trans (Keeps.openThrottle.trans (Keeps.clearLatch.trans
    (Keeps.writeContext.trans (Keeps.produce.trans .setRun))))))
theorem Keeps.makeCurrent {seg : Segment} : Keeps s (makeCurrent c seg s) :=
  Keeps.modSeq.trans (Keeps.showWord.trans .produce)
theorem Keeps.startSegment : Keeps s (startSegment c s) := .enterStep
theorem Keeps.enterGap : Keeps s (enterGap c s) :=
  Keeps.clearLatch.trans (Keeps.writeContext.trans (Keeps.modSeq.trans (Keeps.produce.trans (Keeps.rfOff.trans
    (Keeps.stopPressure.trans .setRun)))))
theorem Keeps.promoteSlot : Keeps s (promoteSlot c s) := by
  unfold Machine.promoteSlot
  split
  · exact .holdSlot
  · exact .refl _
theorem Keeps.segmentEnd : Keeps s (segmentEnd c s) := by
  unfold Machine.segmentEnd
  simp only []
  refine .ite (fun _ => ?_) fun _ => .closeBegin
  split
  · exact Keeps.doneHeld.trans (Keeps.promoteSlot.trans (Keeps.makeCurrent.trans (Keeps.showWord.trans
      (.ite (fun _ => .enterHeld) fun _ => .startSegment))))
  · exact Keeps.doneHeld.trans .enterGap
theorem Keeps.leaveLoops {l : List LoopEntry} : Keeps s (leaveLoops c l s) := Keeps.modSeq.trans .showWord
theorem Keeps.stepStart {pos : Nat} : Keeps s (stepStart c pos s) := by
  unfold Machine.stepStart
  split
  · exact Keeps.leaveLoops.trans .segmentEnd
  · exact .enterStep
theorem Keeps.stepEnd {x : ExitCause} : Keeps s (stepEnd c x s) :=
  Keeps.modSeq.trans (Keeps.showWord.trans (Keeps.trans (.ite (fun _ => .produce) fun _ => .refl _)
    (.ite (fun _ => .segmentEnd) fun _ => .ite (fun _ => .enterHeld) fun _ => .stepStart)))
theorem Keeps.timerExpired : Keeps s (timerExpired c s) :=
  .ite (fun _ => .stepEnd) fun _ => .ite (fun _ => .deliverFault) fun _ => .stepEnd
theorem Keeps.timerTick : Keeps s (timerTick c s) :=
  Keeps.modSeq.trans (Keeps.showWord.trans (.ite (fun _ => .timerExpired) fun _ => .refl _))
theorem Keeps.stableReport : Keeps s (stableReport c s) := .ite (fun _ => .stepEnd) fun _ => .refl _
theorem Keeps.endpointSampled : Keeps s (endpointSampled c s) :=
  .ite (fun _ => Keeps.modSeq.trans (.ite (fun _ => .stepEnd) fun _ => .refl _)) fun _ => .refl _
theorem Keeps.pulseTick : Keeps s (pulseTick c s) :=
  .ite (fun _ => Keeps.modSeq.trans (.ite (fun _ => .deliverFault) fun _ => .refl _)) fun _ => .refl _
theorem Keeps.gapTick : Keeps s (gapTick c s) :=
  .ite (fun _ => Keeps.modSeq.trans (.ite (fun _ => .closeNow) fun _ => .refl _)) fun _ => .refl _

end Sys2Proof.Machine
end

