-- ==== Sys2Proof/Laws/KeepsPump.lean ====
section
/-! SUPPORT. The Pumping Unit and the economy logic keep what Keeps says, the rough line's law among it. -/

namespace Sys2Proof.Machine

variable {s : State} {c : Chamber}

/-! ### The pump states and the rough line as an operation leaves them -/

/-- The same pump machines and the same Rough Line Arbiter. -/
structure SamePumps (s s' : State) : Prop where
  pumps : s'.pumps = s.pumps
  rough : s'.rough = s.rough

theorem SamePumps.refl (s : State) : SamePumps s s := ⟨rfl, rfl⟩
theorem SamePumps.trans {a b d : State} (h : SamePumps a b) (g : SamePumps b d) : SamePumps a d :=
  ⟨g.1.trans h.1, g.2.trans h.2⟩
theorem SamePumps.law {s s' : State} (h : SamePumps s s') (l : RoughLineLaw s) : RoughLineLaw s' := by
  unfold RoughLineLaw State.pump at *; rw [h.1, h.2]; exact l

theorem SamePumps.showWord {w : StatusWord} : SamePumps s (showWord c w s) := ⟨rfl, rfl⟩
theorem SamePumps.putWords {a : Nat} {vs : List Nat} : SamePumps s (s.putWords a vs) := ⟨rfl, rfl⟩
theorem SamePumps.modRep {f : Rep → Rep} : SamePumps s (s.modRep c f) := ⟨rfl, rfl⟩
theorem SamePumps.modPage {i : Fin 2} {f : Page → Page} : SamePumps s (s.modPage c i f) := ⟨rfl, rfl⟩
theorem SamePumps.raise {f : EventFlag} : SamePumps s (raise f s) := ⟨rfl, rfl⟩
theorem SamePumps.ite {p : Prop} [Decidable p] {a b : State} (ha : SamePumps s a) (hb : SamePumps s b) :
    SamePumps s (if p then a else b) := by split <;> assumption
theorem SamePumps.announceFull {i : Fin 2} : SamePumps s (announceFull c i s) := SamePumps.showWord.trans .raise
theorem SamePumps.placementNotice : SamePumps s (placementNotice c s) := .ite .raise (.refl _)

theorem SamePumps.placeEntry {e : Entry} : SamePumps s (placeEntry c e s) := by
  unfold Machine.placeEntry
  split
  · exact SamePumps.putWords.trans (SamePumps.modPage.trans (SamePumps.showWord.trans
      ((SamePumps.ite .announceFull (.refl _)).trans .placementNotice)))
  · split
    · exact SamePumps.putWords.trans (SamePumps.modPage.trans (SamePumps.showWord.trans (SamePumps.showWord.trans
        (SamePumps.modRep.trans (SamePumps.showWord.trans ((SamePumps.ite .announceFull .showWord).trans
          .placementNotice))))))
    · exact .ite (SamePumps.modRep.trans .showWord) .modRep

theorem SamePumps.produce {e : Entry} : SamePumps s (produce c e s) :=
  .trans (b := Machine.showWord c .counts (s.modRep c fun r => { r with next := (r.next + 1) % 65536 })) ⟨rfl, rfl⟩
    .placeEntry

theorem SamePumps.doneHeld {p : SlotHold → Bool} {o : Code} {d n : Nat} : SamePumps s (doneHeld c p o d n s) := by
  unfold Machine.doneHeld; split <;> exact ⟨rfl, rfl⟩

theorem SamePumps.imageRough : SamePumps s (imageRough s) := ⟨rfl, rfl⟩

/-- After a pump machine is put in a new state, it is in it and the rough line is as it was. -/
theorem SamePumps.putPump {p : Pump} : SamePumps (s.setPump c p) (putPump c p s) := by
  unfold Machine.putPump; simp only []
  split <;> split <;> exact ⟨rfl, rfl⟩

theorem SamePumps.stageTo {p : Pump} : SamePumps (s.setPump c p) (stageTo c p s) := by
  unfold Machine.stageTo; simp only []
  split
  · exact .putPump
  · exact .trans .putPump .produce

/-! ### Core of the pump operations -/

theorem Core.putPump {p : Pump} : Core s (putPump c p s) :=
  Core.setPump.trans (Keeps.trans (.ite (fun _ => .refl _) fun _ => .showWord)
    (.ite (fun _ => .refl _) fun _ => .showWord)).core
theorem Keeps.pumpEntry {f : Nat} : Keeps s (pumpEntry c f s) := .produce
theorem Core.stageTo {p : Pump} : Core s (stageTo c p s) :=
  Core.putPump.trans (Keeps.ite (fun _ => .refl _) fun _ => .pumpEntry).core

/-- A stage change that has nothing to do with the rough line, or that keeps the state. -/
theorem Keeps.putPump {p : Pump}
    (h : p.st = (s.pump c).st ∨
      ((s.pump c).st ≠ .roughWait ∧ (s.pump c).st ≠ .softRough ∧ (s.pump c).st ≠ .fastRough ∧
        p.st ≠ .roughWait ∧ p.st ≠ .softRough ∧ p.st ≠ .fastRough)) : Keeps s (putPump c p s) :=
  ⟨.putPump, fun l => SamePumps.putPump.law ((Keeps.setPump h).rough l)⟩
theorem Keeps.stage {p : Pump}
    (h : p.st = (s.pump c).st ∨
      ((s.pump c).st ≠ .roughWait ∧ (s.pump c).st ≠ .softRough ∧ (s.pump c).st ≠ .fastRough ∧
        p.st ≠ .roughWait ∧ p.st ≠ .softRough ∧ p.st ≠ .fastRough)) : Keeps s (stageTo c p s) :=
  ⟨.stageTo, fun l => SamePumps.stageTo.law ((Keeps.setPump h).rough l)⟩

theorem pump_setPump_st (p : Pump) :
    (fun d => ((s.setPump c p).pump d).st) = fun d => if d = c then p.st else (s.pump d).st := by
  funext d; rw [State.setPump_pump]; split <;> rfl

/-- A stage of the holder's within the rough line's states. -/
theorem Keeps.stageTo_holder {p : Pump} (hh : RoughLineLaw s → s.rough.holder = some c)
    (hp : p.st = .roughWait ∨ p.st = .softRough ∨ p.st = .fastRough) : Keeps s (Machine.stageTo c p s) := by
  refine ⟨.stageTo, fun l => SamePumps.stageTo.law ?_⟩
  have hc := hh l
  unfold RoughLineLaw at *
  rw [pump_setPump_st, State.setPump_rough]
  obtain ⟨h1, h2, h3, h4, h5⟩ := l
  refine ⟨fun d => ?_, fun d => ?_, fun d => ?_, h4, h5⟩ <;> by_cases e : d = c
  · subst e; exact fun _ => hc
  · simpa only [if_neg e] using h1 d
  · subst e; intro _; simpa only [if_true] using hp
  · simpa only [if_neg e] using h2 d
  · subst e
    have := h3 d
    simp only [hc, ne_eq, not_true_eq_false, and_false, iff_false] at this ⊢
    exact this
  · simpa only [if_neg e] using h3 d

/-! ### Grants and releases of the rough line -/

/-- What holds where the rough line can be granted to a chamber that does not wait: nobody holds it or roughs, and the
waiters are the other machines in ROUGH_WAIT. -/
def grantable (c : Chamber) (st : Chamber → PumpState) (q : List Chamber) : Prop :=
  (∀ d, d ≠ c → st d ≠ .softRough ∧ st d ≠ .fastRough) ∧ (∀ d, d ≠ c → (d ∈ q ↔ st d = .roughWait)) ∧ c ∉ q ∧ q.Nodup

theorem Core.grantRough : Core s (grantRough c s) := by
  unfold Machine.grantRough; simp only []
  refine Core.trans (b := imageRough (s.setRough { s.rough with holder := some c }))
    (Core.setRough.trans Keeps.imageRough.core) ?_
  split <;> exact .stageTo

theorem grantRough_law (h : grantable c (fun d => (s.pump d).st) s.rough.queue) : RoughLineLaw (grantRough c s) := by
  have key : ∀ p : Pump, (p.st = .roughWait ∨ p.st = .softRough) →
      RoughLineLaw ((imageRough (s.setRough { s.rough with holder := some c })).setPump c p) := by
    intro p hp
    unfold RoughLineLaw
    rw [pump_setPump_st]
    obtain ⟨h1, h2, h3, h4⟩ := h
    refine ⟨fun d => ?_, fun d => ?_, fun d => ?_, h4, fun h => by cases h⟩ <;> by_cases e : d = c
    · subst e; exact fun _ => rfl
    · simp only [if_neg e]; intro hd; exact absurd hd (by have := h1 d e; tauto)
    · subst e; intro _; simp only [if_true]; tauto
    · intro hd; exact absurd (Option.some.inj hd).symm e
    · subst e
      simp only [if_true]
      constructor
      · intro hd; exact absurd hd h3
      · rintro ⟨_, hd⟩; exact absurd rfl hd
    · simp only [if_neg e]
      constructor
      · intro hd; exact ⟨(h2 d e).1 hd, fun x => e (Option.some.inj x).symm⟩
      · rintro ⟨hd, _⟩; exact (h2 d e).2 hd
  unfold Machine.grantRough
  simp only []
  split
  · exact SamePumps.stageTo.law (key _ (.inr rfl))
  · exact SamePumps.stageTo.law (key _ (.inl rfl))

theorem Core.releaseRough : Core s (releaseRough s) := by
  unfold Machine.releaseRough
  split
  · exact Core.setRough.trans Keeps.imageRough.core
  · exact Core.setRough.trans .grantRough

theorem Core.leaveRough : Core s (leaveRough c s) := by
  unfold Machine.leaveRough
  split
  · exact .releaseRough
  · split
    · exact Core.setRough.trans Keeps.imageRough.core
    · exact .refl _

/-- A machine that has left the rough line's states gives up the line or its place in the queue (R113). -/
theorem leaveRough_law {p : Pump} {s₁ : State} (l : RoughLineLaw s) (hs : SamePumps (s.setPump c p) s₁)
    (hp : p.st ≠ .roughWait ∧ p.st ≠ .softRough ∧ p.st ≠ .fastRough) : RoughLineLaw (leaveRough c s₁) := by
  obtain ⟨h1, h2, h3, h4, h5⟩ := l
  have hr : s₁.rough = s.rough := hs.2
  have hst : (fun d => (s₁.pump d).st) = fun d => if d = c then p.st else (s.pump d).st := by
    rw [← pump_setPump_st]; unfold State.pump; rw [hs.1]
  have hst' : ∀ d, (s₁.pump d).st = if d = c then p.st else (s.pump d).st := fun d => congrFun hst d
  unfold Machine.leaveRough
  split
  · rename_i hh
    rw [hr] at hh
    have hc : c ∉ s.rough.queue := fun x => ((h3 c).1 x).2 hh
    have hns : ∀ d, d ≠ c → (s.pump d).st ≠ .softRough ∧ (s.pump d).st ≠ .fastRough := fun d hd =>
      ⟨fun x => hd (Option.some.inj ((h1 d (.inl x)).symm.trans hh)),
        fun x => hd (Option.some.inj ((h1 d (.inr x)).symm.trans hh))⟩
    have hq : ∀ d, d ≠ c → (d ∈ s.rough.queue ↔ (s.pump d).st = .roughWait) := fun d hd => by
      rw [h3 d, hh]; simp [Ne.symm hd]
    unfold Machine.releaseRough
    rw [hr]
    split
    · rename_i hnil
      refine SamePumps.imageRough.law ?_
      unfold RoughLineLaw
      simp only [State.setRough_pump, hst]
      refine ⟨fun d => ?_, fun d x => (by cases x), fun d => ?_, List.nodup_nil, fun _ => rfl⟩ <;> by_cases e : d = c
      · subst e; simp [hp]
      · have := hns d e; simp [e, this]
      · subst e; simp [State.setRough, hp]
      · have := hq d e; rw [hnil] at this
        simp only [List.not_mem_nil, false_iff] at this
        simp [State.setRough, e, this]
    · rename_i n rest hcons
      refine grantRough_law ?_
      rw [hcons] at hc hq h4
      have hn : n ∉ rest := (List.nodup_cons.1 h4).1
      have hnc : n ≠ c := fun x => hc (x ▸ List.mem_cons_self)
      refine ⟨fun d hd => ?_, fun d hd => ?_, hn, (List.nodup_cons.1 h4).2⟩ <;>
        simp only [State.setRough_pump, hst'] <;> by_cases e : d = c
      · subst e; simp [hp]
      · simpa [e] using hns d e
      · subst e
        simp only [if_true]
        constructor
        · intro x; exact absurd (List.mem_cons_of_mem _ x) hc
        · intro x; exact absurd x hp.1
      · simp only [if_neg e]
        rw [← hq d e]
        simp [State.setRough, hd]
  · rename_i hh
    rw [hr] at hh
    split
    · rename_i hm
      rw [hr, List.contains_iff_mem] at hm
      refine SamePumps.imageRough.law ?_
      unfold RoughLineLaw
      simp only [State.setRough_pump, hst, hr]
      change roughAgrees _ ⟨s.rough.holder, s.rough.queue.filter fun x => decide (x ≠ c)⟩
      refine ⟨fun d => ?_, fun d => ?_, fun d => ?_, h4.filter _, fun x => ?_⟩
      · by_cases e : d = c
        · subst e; simp [hp]
        · simpa only [if_neg e] using h1 d
      · by_cases e : d = c
        · subst e; intro x; exact absurd x hh
        · simpa only [if_neg e] using h2 d
      · by_cases e : d = c
        · subst e; simp [hp]
        · have := h3 d
          simp only [if_neg e]
          simp only at this
          rw [← this]
          simp [e]
      · simp [h5 x]
    · rename_i hm
      rw [hr, List.contains_iff_mem] at hm
      unfold RoughLineLaw
      rw [hst, hr]
      refine ⟨fun d => ?_, fun d => ?_, fun d => ?_, h4, h5⟩ <;> by_cases e : d = c
      · subst e; simp [hp]
      · simpa only [if_neg e] using h1 d
      · subst e; intro x; exact absurd x hh
      · simpa only [if_neg e] using h2 d
      · subst e; simp [hm, hp]
      · simpa only [if_neg e] using h3 d

theorem Keeps.putLeave {p : Pump} (hp : p.st ≠ .roughWait ∧ p.st ≠ .softRough ∧ p.st ≠ .fastRough) :
    Keeps s (Machine.leaveRough c (Machine.putPump c p s)) :=
  ⟨Core.putPump.trans .leaveRough, fun l => leaveRough_law l .putPump hp⟩
theorem Keeps.stageLeave {p : Pump} (hp : p.st ≠ .roughWait ∧ p.st ≠ .softRough ∧ p.st ≠ .fastRough) :
    Keeps s (Machine.leaveRough c (Machine.stageTo c p s)) :=
  ⟨Core.stageTo.trans .leaveRough, fun l => leaveRough_law l .stageTo hp⟩

/-- A request for the rough line by a machine that is outside the rough line's states (R112). -/
theorem Keeps.requestRough
    (h : (s.pump c).st ≠ .roughWait ∧ (s.pump c).st ≠ .softRough ∧ (s.pump c).st ≠ .fastRough) :
    Keeps s (requestRough c s) := by
  unfold Machine.requestRough
  split
  · rename_i hn
    refine ⟨.grantRough, fun l => grantRough_law ?_⟩
    obtain ⟨h1, h2, h3, h4, h5⟩ := l
    have hq := h5 hn
    refine ⟨fun d _ => ⟨fun x => ?_, fun x => ?_⟩, fun d _ => ?_, by simp [hq], h4⟩
    · have := h1 d (.inl x); rw [hn] at this; cases this
    · have := h1 d (.inr x); rw [hn] at this; cases this
    · rw [h3 d, hn]; simp
  · rename_i b hb
    refine ⟨Core.setRough.trans (Keeps.imageRough.core.trans .stageTo), fun l => SamePumps.stageTo.law ?_⟩
    obtain ⟨h1, h2, h3, h4, h5⟩ := l
    have hbc : b ≠ c := fun e => by
      have := h2 b hb; subst e; tauto
    have hc : c ∉ s.rough.queue := fun x => h.1 ((h3 c).1 x).1
    unfold RoughLineLaw
    rw [pump_setPump_st]
    change roughAgrees (fun d => if d = c then .roughWait else (s.pump d).st) ⟨s.rough.holder, s.rough.queue ++ [c]⟩
    refine ⟨fun d => ?_, fun d => ?_, fun d => ?_, ?_, fun x => ?_⟩
    · by_cases e : d = c
      · subst e; simp
      · simpa only [if_neg e] using h1 d
    · by_cases e : d = c
      · subst e; intro _; simp
      · simpa only [if_neg e] using h2 d
    · by_cases e : d = c
      · subst e
        simp only [if_true, true_and]
        constructor
        · intro _ x; exact hbc (Option.some.inj (hb.symm.trans x))
        · intro _; exact List.mem_append_right _ (List.mem_singleton.2 rfl)
      · simp only [if_neg e]
        have := h3 d
        rw [List.mem_append, List.mem_singleton]
        simp only [e, or_false]
        exact this
    · show (s.rough.queue ++ [c]).Nodup
      rw [List.nodup_append]
      exact ⟨h4, by simp, fun a ha b' hb' => by simp at hb'; subst hb'; exact fun e => hc (e ▸ ha)⟩
    · have : s.rough.holder = none := x
      rw [hb] at this; cases this

/-! ### The machine's work -/

theorem Keeps.putFaultHold {x : Code} {d : Nat} : Keeps s (putFaultHold c x d s) :=
  Keeps.trans (Keeps.putLeave (p := { st := .faultHold, mark := s.now }) (by simp)) (Keeps.doneHeld.trans .raise)
theorem Keeps.enterFaultHold {x : Code} {d : Nat} : Keeps s (enterFaultHold c x d s) :=
  Keeps.putFaultHold.trans .pumpEntry
theorem Keeps.losePumping : Keeps s (losePumping c s) :=
  Keeps.deliverFault.trans .checkStage
theorem Keeps.turboLoss : Keeps s (turboLoss c s) := by
  unfold Machine.turboLoss
  extract_lets s' entry place s''
  have h : Keeps s s' := .putFaultHold
  clear_value s'
  exact h.trans (.ite (fun _ => .pumpEntry) fun _ => Keeps.bumpUses.trans
    (.ite (fun _ => Keeps.pumpEntry.trans .losePumping) fun _ =>
      .ite (fun _ => Keeps.beginEnd.trans (Keeps.pumpEntry.trans (Keeps.clearLatch.trans .finishRun)))
        fun _ => Keeps.losePumping.trans .pumpEntry))
theorem Keeps.abortPump : Keeps s (abortPump c s) := by
  unfold Machine.abortPump; simp only []
  exact .ite (fun _ => .doneHeld) fun _ => Keeps.trans
    (Keeps.putLeave (p := { st := .isolated, mark := s.now }) (by simp)) (Keeps.pumpEntry.trans .doneHeld)

theorem Keeps.enterSoftRough (hh : RoughLineLaw s → s.rough.holder = some c) : Keeps s (enterSoftRough c s) :=
  .stageTo_holder hh (.inr (.inl rfl))

/-- A pumpdown by a machine that is outside the rough line's states (R111). -/
theorem Keeps.startPumpdown
    (h : (s.pump c).st ≠ .roughWait ∧ (s.pump c).st ≠ .softRough ∧ (s.pump c).st ≠ .fastRough) :
    Keeps s (startPumpdown c s) :=
  .ite (fun _ => .stage (.inr ⟨h.1, h.2.1, h.2.2, by simp [crossoverPump], by simp [crossoverPump],
    by simp [crossoverPump]⟩)) fun _ => .requestRough h
/-- A vent by a machine that is outside the rough line's states (R120). -/
theorem Keeps.startVent
    (h : (s.pump c).st ≠ .roughWait ∧ (s.pump c).st ≠ .softRough ∧ (s.pump c).st ≠ .fastRough) :
    Keeps s (startVent c s) :=
  .stage (.inr ⟨h.1, h.2.1, h.2.2, by simp, by simp, by simp⟩)

theorem Keeps.leaveRoughing : Keeps s (leaveRoughing c s) := .stageLeave (by simp [crossoverPump])

theorem Keeps.roughTest (hh : RoughLineLaw s → s.rough.holder = some c) : Keeps s (roughTest c s) :=
  .ite (fun _ => .leaveRoughing) fun _ => .ite (fun _ => .stageTo_holder hh (.inr (.inr rfl))) fun _ => .refl _

theorem Keeps.guardAndTest (hh : RoughLineLaw s → s.rough.holder = some c) : Keeps s (guardAndTest c s) := by
  unfold Machine.guardAndTest; simp only []
  refine .ite (fun _ => .ite (fun _ => .ite (fun _ => .enterSoftRough hh) fun _ => ?_) fun _ => .refl _) fun _ =>
    .ite (fun _ => .roughTest hh) fun _ => .putPump (.inl rfl)
  have k : Keeps s (Machine.putPump c { s.pump c with paused := false } s) := .putPump (.inl rfl)
  refine k.trans (.roughTest fun l => ?_)
  have hs : SamePumps (s.setPump c { s.pump c with paused := false }) (Machine.putPump c { s.pump c with paused := false } s) :=
    .putPump
  rw [hs.2]
  refine hh ?_
  have l' : RoughLineLaw (s.setPump c { s.pump c with paused := false }) :=
    SamePumps.law ⟨hs.1.symm, hs.2.symm⟩ l
  unfold RoughLineLaw at *
  rw [pump_setPump_st] at l'
  have e : (fun d => if d = c then (s.pump c).st else (s.pump d).st) = fun d => (s.pump d).st := by
    funext d; split
    · subst_vars; rfl
    · rfl
  simp only at l'
  rw [e] at l'
  exact l'

theorem Keeps.crossoverWork {b : Bool} (h : (s.pump c).st = .crossover) : Keeps s (crossoverWork c b s) :=
  .ite (fun _ => .stage (.inr (by simp [h]))) fun _ => .setPump (.inl rfl)
theorem Keeps.highVacTest (h : (s.pump c).st = .highVac) : Keeps s (highVacTest c s) := by
  unfold Machine.highVacTest; simp only []
  split
  · exact .ite (fun _ => Keeps.trans (.putPump (.inr (by simp [h]))) (Keeps.doneHeld.trans (Keeps.raise.trans .pumpEntry)))
      fun _ => .refl _
  · exact .refl _
theorem Keeps.ventWork (h : (s.pump c).st = .venting) : Keeps s (ventWork c s) := by
  unfold Machine.ventWork; simp only []
  refine .ite (fun _ => ?_) fun _ => .ite (fun _ => .setPump (.inl rfl)) fun _ => .setPump (.inl rfl)
  split
  · exact .ite (fun _ => Keeps.trans (.putPump (.inr (by simp [h]))) (Keeps.doneHeld.trans (Keeps.raise.trans .pumpEntry)))
      fun _ => .refl _
  · exact .refl _

theorem Keeps.pumpStageWork {b : Bool} : Keeps s (pumpStageWork c b s) := by
  unfold Machine.pumpStageWork
  split
  · rename_i h; exact .guardAndTest fun l => l.1 c (.inl h)
  · rename_i h; exact .guardAndTest fun l => l.1 c (.inr h)
  · exact .ite (fun h => .guardAndTest fun _ => h) fun _ => .refl _
  · rename_i h; exact .crossoverWork h
  · rename_i h; exact .ite (fun _ => .highVacTest h) fun _ => .turboLoss
  · exact .ite (fun _ => .turboLoss) fun _ => .refl _
  · rename_i h; exact .ventWork h
  · exact .refl _

theorem Keeps.samplePin {b : Bool} : Keeps s (samplePin c b s) := .setPins
theorem Keeps.pumpWork {b : Bool} : Keeps s (pumpWork c b s) := by
  refine Keeps.trans (b := Machine.samplePin c b s) .samplePin (.ite (fun _ => ?_) fun _ => .refl _)
  generalize Machine.samplePin c b s = s'
  exact Keeps.trans (b := s'.setPump c { s'.pump c with mark := s'.now }) (.setPump (.inl rfl)) .pumpStageWork
theorem Keeps.limitTick : Keeps s (limitTick c s) := by
  unfold Machine.limitTick; simp only []
  split
  · exact .refl _
  · exact .ite (fun _ => .ite (fun _ => .setPump (.inl rfl)) fun _ =>
      .ite (fun _ => .setPump (.inl rfl)) fun _ => .enterFaultHold) fun _ => .refl _

/-! ### Economy logic -/

theorem Keeps.putMode {m : Mode} : Keeps s (putMode c m s) := Keeps.modEcon.trans .showWord
theorem Keeps.modeEntry {x : WakeCause} {f g : Nat} : Keeps s (modeEntry c x f g s) := Keeps.produce.trans .raise
theorem Keeps.enterEconomy : Keeps s (enterEconomy c s) := Keeps.putMode.trans (Keeps.openPurge.trans .modeEntry)
theorem Keeps.beginWake {x : WakeCause} : Keeps s (beginWake c x s) :=
  .ite (fun _ => Keeps.modEcon.trans .dropPurge) fun _ => .refl _
theorem Keeps.endWake : Keeps s (endWake c s) := by
  unfold Machine.endWake
  extract_lets cause s1 s2 detail s3 s4
  have h1 : Keeps s s1 := Keeps.modEcon.trans .putMode
  have h2 : Keeps s1 s2 := Keeps.showWord.trans .modeEntry
  have h3 : Keeps s2 s3 := .ite (fun _ => .stepStart) fun _ => .refl _
  exact h1.trans (h2.trans (h3.trans (Keeps.doneHeld.trans .doneHeld)))
theorem Keeps.failWake : Keeps s (failWake c s) :=
  Keeps.putMode.trans (Keeps.turboLoss.trans (Keeps.doneHeld.trans .modeEntry))
theorem Keeps.leaveByVent : Keeps s (leaveByVent c s) :=
  .ite (fun _ => Keeps.putMode.trans (Keeps.dropPurge.trans .modeEntry)) fun _ => .refl _
theorem Keeps.leaveByTrip {i : Nat} : Keeps s (leaveByTrip c i s) := Keeps.putMode.trans .doneHeld
theorem Keeps.tripModeEntry : Keeps s (tripModeEntry c s) := .modeEntry
theorem Keeps.economyRead : Keeps s (economyRead c s) := by
  unfold Machine.economyRead; simp only []
  refine .ite (fun _ => ?_) fun _ => .refl _
  split
  · exact .ite (fun _ => .beginWake) fun _ => .refl _
  · exact .refl _
theorem Keeps.wakeSample {b : Bool} : Keeps s (wakeSample c b s) := by
  unfold Machine.wakeSample
  extract_lets s' e dwell
  have h : Keeps s s' := .samplePin
  refine h.trans ?_
  clear_value s'
  refine .ite (fun _ => ?_) fun _ => .refl _
  split
  · exact .refl _
  · exact .ite (fun _ => .ite (fun _ => .endWake) fun _ => .setEcon) fun _ => .setEcon
  · exact .ite (fun _ => .setEcon) fun _ => .setEcon
theorem Keeps.wakeTick : Keeps s (wakeTick c s) := by
  unfold Machine.wakeTick; simp only []
  refine .ite (fun _ => ?_) fun _ => .refl _
  split
  · exact .refl _
  · exact .ite (fun _ => .setEcon) fun _ => .failWake
  · exact .ite (fun _ => .setEcon) fun _ => .endWake

end Sys2Proof.Machine
end

