-- ==== Sys2Proof/Laws/KeepsCommands.lean ====
section
/-! SUPPORT. The Interlock Unit, the slot scan and every event of the Time Base keep what Keeps says; a trip that latches
keeps all of it but that it is one trip more. -/

namespace Sys2Proof.Machine

variable {s : State} {c : Chamber}

/-! ### A relation that lets trips latch -/

/-- What Keeps says, but that a trip may latch. -/
structure Works (s s' : State) : Prop where
  pending : s'.pending = s.pending
  part : s'.port.part = s.port.part
  result : s'.port.result = s.port.result
  entry : s'.port.resultEntry = s.port.resultEntry
  enable : s'.port.enable = s.port.enable
  dataOut : s'.port.dataOut = s.port.dataOut
  tables : s'.tables = s.tables
  flags : ∀ i, s.port.summary.getLsbD i = true → s'.port.summary.getLsbD i = true
  trips : ∀ k, (s.ilk k).trip = true → (s'.ilk k).trip = true
  inhibits : ∀ c, (s.rf c).inhibit = true → (s'.rf c).inhibit = true
  gases : ∀ c, s.gasInhibit c = true → s'.gasInhibit c = true
  rfOff : ∀ c, (s.rf c).inhibit = true → (s.rf c).phase = .off → (s'.rf c).phase = .off
  gasShut : ∀ c, s.gasInhibit c = true → ∀ k, (s.line k).openTo ≠ some c → (s'.line k).openTo ≠ some c
  wf : s.mem.wf = true → s'.mem.wf = true
  fit : ∀ c, 6 ≤ s.tables.partition → s.tables.partition ≤ 26 → (s.rep c).fits s.tables.partition →
    (s'.rep c).fits s.tables.partition
  host : PagesFit s → ∀ a, a < Config.memorySize → hostOwned s.tables.partition a = true →
    memRead s'.mem a = memRead s.mem a
  rough : RoughLineLaw s → RoughLineLaw s'

theorem Keeps.works {s s' : State} (h : Keeps s s') : Works s s' where
  pending := h.core.pending
  part := h.core.part
  result := h.core.result
  entry := h.core.entry
  enable := h.core.enable
  dataOut := h.core.dataOut
  tables := h.core.tables
  flags := h.core.flags
  trips k x := (h.core.trips k).trans x
  inhibits := h.core.inhibits
  gases := h.core.gases
  rfOff := h.core.rfOff
  gasShut := h.core.gasShut
  wf := h.core.wf
  fit := h.core.fit
  host := h.core.host
  rough := h.rough

theorem Works.pagesFit {s s' : State} (h : Works s s') (g : PagesFit s) : PagesFit s' := by
  refine ⟨?_, ?_, fun c => ?_⟩ <;> rw [h.tables]
  · exact g.1
  · exact g.2.1
  · exact h.fit c g.1 g.2.1 (g.2.2 c)

theorem Works.trans {a b d : State} (h : Works a b) (g : Works b d) : Works a d where
  pending := g.pending.trans h.pending
  part := g.part.trans h.part
  result := g.result.trans h.result
  entry := g.entry.trans h.entry
  enable := g.enable.trans h.enable
  dataOut := g.dataOut.trans h.dataOut
  tables := g.tables.trans h.tables
  flags i x := g.flags i (h.flags i x)
  trips k x := g.trips k (h.trips k x)
  inhibits c x := g.inhibits c (h.inhibits c x)
  gases c x := g.gases c (h.gases c x)
  rfOff c i p := g.rfOff c (h.inhibits c i) (h.rfOff c i p)
  gasShut c i k o := g.gasShut c (h.gases c i) k (h.gasShut c i k o)
  wf x := g.wf (h.wf x)
  fit c x y z := by
    have := g.fit c
    rw [h.tables] at this
    exact this x y (h.fit c x y z)
  host x a l o := (g.host (h.pagesFit x) a l (h.tables ▸ o)).trans (h.host x a l o)
  rough := g.rough ∘ h.rough

/-- A trip latched. -/
theorem Works.latch {k : InputId} {f : Ilk → Ilk} (h : (f (s.ilk k)).trip = true) : Works s (s.modIlk k f) := by
  constructor <;> try first | rfl | (intros; rfl) | (intros; assumption)
  · intro j hj
    rw [State.modIlk_eq, State.setIlk_ilk]
    split
    · exact h
    · exact hj

/-! ### Interlock Unit -/

theorem Keeps.setRfInhibit : Keeps s (setRfInhibit c s) := Keeps.rfOff.trans (.modRf (fun _ => rfl) fun _ h => h)
theorem Keeps.inhibitGas : Keeps s (inhibitGas c s) := Keeps.setGasInhibit_true.trans .dropAll
theorem Keeps.fullSafe {i : Nat} : Keeps s (fullSafe c i s) := by
  have hold : ∀ s, Keeps s (if (s.pump c).st = .faultHold then s else Machine.enterFaultHold c .faultInterlock i s) :=
    fun s => .ite (fun _ => .refl _) fun _ => .enterFaultHold
  unfold Machine.fullSafe
  refine .ite (fun _ => ?_) fun _ => hold s
  exact Keeps.bumpUses.trans (Keeps.leaveByTrip.trans (.ite (fun _ => Keeps.tripModeEntry.trans (hold _))
    fun _ => (hold _).trans .tripModeEntry))
theorem Keeps.tripChamber {k : InputId} : Keeps s (tripChamber k c s) := by
  unfold Machine.tripChamber
  extract_lets action item s1 s2 s3
  have h1 : Keeps s s1 := Keeps.reachFaults.trans .setRfInhibit
  have h2 : Keeps s1 s2 := .ite (fun _ => .inhibitGas) fun _ => .refl _
  have h3 : Keeps s2 s3 := .ite (fun _ => .fullSafe) fun _ => .refl _
  exact h1.trans (h2.trans (h3.trans (Keeps.raiseRestriction.trans (Keeps.deliverFault.trans .checkStage))))

theorem Works.latchTrip {k : InputId} : Works s (latchTrip k s) := by
  have h1 : Works s (s.modIlk k fun x => { x with trip := true, count := 0 }) := .latch rfl
  refine h1.trans (Keeps.works (Keeps.imageInterlock.trans (Keeps.raise.trans (.forChambers fun d t => ?_))))
  exact .ite (fun _ => .tripChamber) fun _ => .refl _

theorem Keeps.interlockPin {k : InputId} {b : Bool} : Keeps s (interlockPin k b s) := .setPins

theorem Works.sampleInput {k : InputId} {b : Bool} : Works s (sampleInput k b s) := by
  unfold Machine.sampleInput
  split
  · extract_lets active old latches s1 s2
    have h1 : Keeps s s1 := Keeps.interlockPin.trans (.setIlk rfl)
    have h2 : Keeps s1 s2 := .ite (fun _ => .refl _) fun _ => .imageInterlock
    split
    · exact (h1.trans h2).works.trans .latchTrip
    · exact (h1.trans h2).works
  · exact (Keeps.refl _).works

/-- A sample that latches nothing. -/
theorem Keeps.sampleInput {k : InputId} {b : Bool} (h : sampleLatches s k b = false) : Keeps s (sampleInput k b s) := by
  unfold Machine.sampleInput
  split
  · extract_lets active old latches s1 s2
    have h1 : Keeps s s1 := Keeps.interlockPin.trans (.setIlk rfl)
    have h2 : Keeps s1 s2 := .ite (fun _ => .refl _) fun _ => .imageInterlock
    rw [if_neg (by simp [latches, h])]
    exact h1.trans h2
  · exact .refl _

/-! ### The slot scan -/

theorem Keeps.dropRfDues : Keeps s (dropRfDues c s) := .modRf id fun _ h => h
theorem Keeps.holdNow : Keeps s (holdNow c s) :=
  Keeps.dropRfDues.trans (.ite (fun _ => .enterHeld) fun _ => Keeps.leaveQueue.trans .enterHeld)
theorem Keeps.latchHold : Keeps s (latchHold c s) := Keeps.modSeq.trans .showWord
theorem Keeps.releaseHeld : Keeps s (releaseHeld c s) := by
  unfold Machine.releaseHeld; exact Keeps.produce.trans .stepStart
theorem Keeps.abortRun : Keeps s (abortRun c s) := by
  unfold Machine.abortRun
  split
  · exact .abortPump
  · exact .endStarting
  · exact .closeNow
theorem Keeps.actRequest {n : Nat} : Keeps s (actRequest c n s) := by
  unfold Machine.actRequest
  split
  · exact .holdNow
  · exact .latchHold
  · exact .releaseHeld
  · exact .closeNow
  · exact .abortRun
theorem Keeps.hostRequest : Keeps s (hostRequest c s) :=
  .ite (fun _ => .refl _) fun _ => Keeps.modSeq.trans (Keeps.showWord.trans
    (Keeps.trans (.ite (fun _ => .actRequest) fun _ => .refl _) (Keeps.modSeq.trans (Keeps.showWord.trans .raise))))

theorem Keeps.turnPointer : Keeps s (turnPointer c s) := Keeps.modSeq.trans .showWord
theorem Keeps.refuse {x : Code} {d : Nat} : Keeps s (refuse c x d s) :=
  Keeps.writeSlot.trans (Keeps.raise.trans .turnPointer)
theorem Keeps.answerAtOnce {x : Code} {d : Nat} : Keeps s (answerAtOnce c x d s) := Keeps.doneSlot.trans .turnPointer
theorem Keeps.takeSlot {h : SlotHold} : Keeps s (takeSlot c h s) :=
  Keeps.writeSlot.trans (Keeps.holdSlot.trans .turnPointer)
theorem Keeps.forgetDues : Keeps s (forgetDues c s) :=
  Keeps.dropRfDues.trans (Keeps.modPress.trans (.forLines fun _ _ => .modLine_same fun l => by
    split <;> rfl))
theorem Keeps.takeRun {f : Seq → Seq} : Keeps s (takeRun c f s) := by
  unfold Machine.takeRun
  extract_lets s1 s2 s3 s4
  have h1 : Keeps s s1 := Keeps.takeSlot.trans (Keeps.modSeq.trans .forgetDues)
  have h2 : Keeps s1 s2 := Keeps.showWord.trans (Keeps.showWord.trans (Keeps.showWord.trans .showWord))
  have h3 : Keeps s2 s3 := Keeps.showWord.trans (Keeps.showWord.trans .showWord)
  have h4 : Keeps s3 s4 := Keeps.fixPages.trans .produce
  exact h1.trans (h2.trans (h3.trans (h4.trans (.ite (fun _ => .beginWake) fun _ => .stepStart))))
theorem Keeps.runNew {o : Order} : Keeps s (runNew c o s) := by
  unfold Machine.runNew; split
  · exact .refuse
  · exact .takeRun
theorem Keeps.runResume {o : Order} : Keeps s (runResume c o s) := by
  unfold Machine.runResume; split
  · exact .refuse
  · exact .takeRun
theorem Keeps.continueFromGap {o : Order} : Keeps s (continueFromGap c o s) :=
  Keeps.takeSlot.trans (Keeps.makeCurrent.trans .startSegment)
theorem Keeps.continuePending {o : Order} : Keeps s (continuePending c o s) := by
  unfold Machine.continuePending
  have h : Keeps s (Machine.takeSlot c .pending s) := .takeSlot
  generalize Machine.takeSlot c .pending s = t at h ⊢
  exact h.trans (Keeps.modSeq.trans .showWord)
theorem Keeps.runContinue {o : Order} : Keeps s (runContinue c o s) := by
  unfold Machine.runContinue; split
  · exact .refuse
  · split
    · exact .refuse
    · exact .ite (fun _ => .continueFromGap) fun _ => .continuePending

/-- A take leaves the pump machines as they are. -/
theorem takeSlot_pump {h : SlotHold} (d : Chamber) : (takeSlot c h s).pump d = s.pump d := by
  simp [takeSlot, turnPointer, holdSlot, writeSlot, State.modSeq_eq]

/-- A pump order that is not refused finds the machine outside the rough line's states. -/
theorem pumpRefusal_none (h : pumpRefusal s c = none) :
    (s.pump c).st ≠ .roughWait ∧ (s.pump c).st ≠ .softRough ∧ (s.pump c).st ≠ .fastRough := by
  have : (s.pump c).st.inProgress = false := by
    unfold pumpRefusal at h
    split at h
    · cases h
    · split at h
      · cases h
      · split at h
        · cases h
        · rename_i hi
          simpa using hi
  refine ⟨?_, ?_, ?_⟩ <;> intro e <;> simp [e, PumpState.inProgress] at this

theorem Keeps.pumpDown : Keeps s (pumpDown c s) := by
  unfold Machine.pumpDown
  split
  · exact .refuse
  · rename_i h
    have h1 : ∀ x, Keeps s (Machine.takeSlot c x s) := fun _ => .takeSlot
    have h2 : (Machine.takeSlot c (.pump false) s).pump c = s.pump c := takeSlot_pump c
    refine .ite (fun _ => .ite (fun _ => .answerAtOnce) fun _ => (h1 _).trans .beginWake) fun _ =>
      (h1 _).trans (.startPumpdown ?_)
    rw [h2]
    exact pumpRefusal_none h

theorem SamePumps.setSeq {x : Seq} : SamePumps s (s.setSeq c x) := ⟨rfl, rfl⟩
theorem SamePumps.setPress {x : Press} : SamePumps s (s.setPress c x) := ⟨rfl, rfl⟩
theorem SamePumps.setRf {x : Rf} : SamePumps s (s.setRf c x) := ⟨rfl, rfl⟩
theorem SamePumps.setLine {k : LineId} {x : Line} : SamePumps s (s.setLine k x) := ⟨rfl, rfl⟩
theorem SamePumps.putArb {k : LineId} {x : Arb} : SamePumps s (putArb k x s) := ⟨rfl, rfl⟩
theorem SamePumps.imageWait : SamePumps s (imageWait s) := ⟨rfl, rfl⟩
theorem SamePumps.setWaitQueue {q : List WaitEntry} : SamePumps s (s.setWaitQueue q) := ⟨rfl, rfl⟩
theorem SamePumps.foldl {α : Type} {f : State → α → State} (h : ∀ s x, SamePumps s (f s x)) (xs : List α) (s : State) :
    SamePumps s (xs.foldl f s) := by
  induction xs generalizing s with
  | nil => exact .refl s
  | cons x xs ih => exact (h s x).trans (ih _)

theorem SamePumps.handStep : SamePumps s (handStep c s) := by
  have h1 : SamePumps s (handSetpoints c s) :=
    (SamePumps.foldl (fun _ _ => .ite (.refl _) .setLine) _ _).trans (SamePumps.setPress.trans .setRf)
  have h2 : ∀ t, SamePumps t (loadTimer c t) := fun _ =>
    SamePumps.setSeq.trans ((SamePumps.setSeq.trans .showWord).trans (SamePumps.showWord.trans .showWord))
  exact h1.trans (h2 _)

theorem SamePumps.walkFrom {q : List WaitEntry} {older : List LineId} : SamePumps s (walkFrom q older s) := by
  induction q generalizing older s with
  | nil => exact .refl _
  | cons e rest ih =>
    refine .ite (.trans ?_ ih) ih
    exact SamePumps.setWaitQueue.trans (SamePumps.imageWait.trans
      ((SamePumps.foldl (fun _ _ => .ite .putArb (.refl _)) _ _).trans .handStep))

theorem SamePumps.dropLine {k : LineId} : SamePumps s (dropLine c k s) := by
  unfold Machine.dropLine
  refine .trans (b := if (s.line k).openTo = some c then s.modLine k Line.shut else s) (.ite ⟨rfl, rfl⟩ (.refl _)) ?_
  generalize (if (s.line k).openTo = some c then s.modLine k Line.shut else s) = t
  exact .ite (.ite (SamePumps.putArb.trans .walkFrom) .putArb) (.refl _)

theorem SamePumps.dropLines {p : LineId → Bool} : SamePumps s (dropLines c p s) :=
  .foldl (fun _ _ => .ite .dropLine (.refl _)) _ _

theorem SamePumps.leaveByVent : SamePumps s (leaveByVent c s) := by
  unfold Machine.leaveByVent
  refine .ite ?_ (.refl _)
  refine .trans (b := dropPurge c (putMode c .active s)) (.trans (b := putMode c .active s) ⟨rfl, rfl⟩ .dropLines) ?_
  exact .trans .produce ⟨rfl, rfl⟩

theorem Keeps.vent : Keeps s (vent c s) := by
  unfold Machine.vent
  split
  · exact .refuse
  · rename_i h
    refine .ite (fun _ => .answerAtOnce) fun _ => ?_
    have h1 : Keeps s (Machine.takeSlot c (.pump false) s) := .takeSlot
    have h2 : (Machine.takeSlot c (.pump false) s).pump c = s.pump c := takeSlot_pump c
    generalize Machine.takeSlot c (.pump false) s = t at h1 h2 ⊢
    have h3 : (Machine.leaveByVent c t).pump c = t.pump c := by unfold State.pump; rw [SamePumps.leaveByVent.1]
    refine h1.trans (Keeps.leaveByVent.trans (.startVent ?_))
    rw [h3, h2]
    exact pumpRefusal_none h

theorem Keeps.setMode {o : Order} : Keeps s (setMode c o s) := by
  unfold Machine.setMode; simp only []
  have take : ∀ x, Keeps s (Machine.takeSlot c x s) := fun _ => .takeSlot
  exact .ite (fun _ => .refuse) fun _ => .ite (fun _ => .refuse) fun _ => .ite (fun _ => .refuse) fun _ =>
    .ite (fun _ => .ite (fun _ => Keeps.enterEconomy.trans .answerAtOnce) fun _ =>
      .ite (fun _ => .refuse) fun _ => .answerAtOnce) fun _ =>
    .ite (fun _ => .answerAtOnce) fun _ => (take _).trans .beginWake

theorem Keeps.judgeOrder {o : Order} : Keeps s (judgeOrder c o s) := by
  unfold Machine.judgeOrder
  split
  · exact .runNew
  · exact .runResume
  · exact .runContinue
  · exact .pumpDown
  · exact .vent
  · exact .setMode
  · exact .refuse

theorem Keeps.examineSlot : Keeps s (examineSlot c s) := .ite (fun _ => .judgeOrder) fun _ => .refl _
theorem Keeps.slotScan : Keeps s (slotScan c s) := by
  unfold Machine.slotScan
  exact Keeps.hostRequest.trans (Keeps.examineSlot.trans .scanPages)

/-! ### Events -/

theorem Keeps.workIf {p : State → Bool} {f : State → State} (h : ∀ s, Keeps s (f s)) : Keeps s (workIf p f s) :=
  .ite (fun _ => h s) fun _ => .refl _
theorem Keeps.pulseEdge : Keeps s (pulseEdge c s) := .ite (fun _ => Keeps.modSeq.trans .timerTick) fun _ => .refl _
theorem Keeps.endpointPin {b : Bool} : Keeps s (endpointPin c b s) := .setPins
theorem Keeps.lineEvent {k : LineId} : Keeps s (lineEvent k s) := by
  unfold Machine.lineEvent
  split
  · exact .ite (fun _ => Keeps.lineWork.trans .stableReport) fun _ => .lineWork
  · exact .refl _
theorem Keeps.deliverFlowFault {k : LineId} : Keeps s (deliverFlowFault k s) := by
  unfold Machine.deliverFlowFault
  split
  · exact Keeps.deliverFault.trans (.modLine_same fun _ => rfl)
  · exact .refl _
theorem Keeps.flowFaultEvent {k : LineId} : Keeps s (flowFaultEvent k s) :=
  .ite (fun _ => .deliverFlowFault) fun _ => .ite (fun _ => Keeps.lineWork.trans .deliverFlowFault) fun _ => .refl _
theorem Keeps.pressureEvent : Keeps s (pressureEvent c s) :=
  .ite (fun _ => Keeps.pressureWork.trans .stableReport) fun _ => .pressureWork
theorem Keeps.deliverPressureFault : Keeps s (deliverPressureFault c s) :=
  .ite (fun _ => Keeps.deliverFault.trans .modPress) fun _ => .refl _
theorem Keeps.pressureFaultEvent : Keeps s (pressureFaultEvent c s) :=
  .ite (fun _ => .deliverPressureFault) fun _ =>
    .ite (fun _ => Keeps.pressureWork.trans .deliverPressureFault) fun _ => .refl _
theorem Keeps.strikeEvent : Keeps s (strikeEvent c s) := by
  unfold Machine.strikeEvent; simp only []
  split
  · exact .ite (fun _ => Keeps.rfWork.trans .deliverFault) fun _ => .rfWork
  · exact .rfWork
  · exact .refl _
theorem Keeps.struckEvent : Keeps s (struckEvent c s) := .ite (fun _ => .rfWork) fun _ => .refl _
theorem Keeps.deliverReflect : Keeps s (deliverReflect c s) :=
  .ite (fun _ => Keeps.deliverFault.trans (.modRf id fun _ h => h)) fun _ => .refl _
theorem Keeps.deliverLost : Keeps s (deliverLost c s) := by
  unfold Machine.deliverLost
  extract_lets s'
  have h : Keeps s s' := .deliverReflect
  exact h.trans (.ite (fun _ => Keeps.deliverFault.trans (.modRf id fun _ h => h)) fun _ => .refl _)
theorem Keeps.reflectEvent : Keeps s (reflectEvent c s) :=
  .ite (fun _ => .deliverReflect) fun _ => .ite (fun _ => Keeps.struckEvent.trans .deliverReflect) fun _ => .refl _
theorem Keeps.lostEvent : Keeps s (lostEvent c s) :=
  .ite (fun _ => .deliverLost) fun _ => .ite (fun _ => Keeps.struckEvent.trans .deliverLost) fun _ => .refl _
theorem Keeps.rfOnTick : Keeps s (rfOnTick c s) := by
  unfold Machine.rfOnTick; simp only []
  refine .ite (fun _ => ?_) fun _ => .refl _
  exact Keeps.trans (b := s.setRf c { s.rf c with stepRfOn := satSucc32 (s.rf c).stepRfOn, countMark := s.now })
    (.setRf id fun _ h => h) .modSeq
theorem Keeps.purgeTick : Keeps s (purgeTick c s) := Keeps.modSeq.trans (.ite (fun _ => .endPurge) fun _ => .refl _)
theorem Keeps.closeLimitTick : Keeps s (closeLimitTick c s) :=
  Keeps.modSeq.trans (.ite (fun _ => .pumpOutFails) fun _ => .refl _)
theorem Keeps.elapsedTick : Keeps s (elapsedTick c s) := by
  unfold Machine.elapsedTick; simp only []
  split
  · exact .ite (fun _ => .setSeq) fun _ => .refl _
  · exact .ite (fun _ => .setSeq) fun _ => .refl _
  · exact .refl _

/-- An event of a tap keeps what its work keeps. -/
theorem Keeps.atTap {tap : Tap} {t : Moment} {body : State → State} {s' : State} (h : ∀ s, Keeps s (body s))
    (e : atTap tap t s body = .next s') : Keeps s s' := by
  unfold Machine.atTap at e
  split at e
  · cases e; exact Keeps.setNow.trans (h _)
  · cases e; exact .refl _

theorem Works.atTap {tap : Tap} {t : Moment} {body : State → State} {s' : State} (h : ∀ s, Works s (body s))
    (e : Machine.atTap tap t s body = .next s') : Works s s' := by
  unfold Machine.atTap at e
  split at e
  · cases e; exact Keeps.setNow.works.trans (h _)
  · cases e; exact (Keeps.refl _).works

/-- Every event of the Time Base or of a pin keeps what Works says. -/
theorem works_of_event {i : Instr} {s' : State} (hi : isEvent i = true) (e : exec i s = .next s') : Works s s' := by
  cases i with
  | extEvent t c =>
    simp only [exec, execExtEvent, atMoment] at e
    split at e
    · cases e; exact (Keeps.setNow.trans .pulseEdge).works
    · cases e; exact (Keeps.refl _).works
  | slotScan t c => exact (Keeps.atTap (fun _ => .slotScan) e).works
  | stepTimerDecrement t c => exact (Keeps.atTap (fun _ => .workIf fun _ => .timerTick) e).works
  | stepTimerExpiry t c => exact (Keeps.atTap (fun _ => .workIf fun _ => .timerTick) e).works
  | endpointSample t c b =>
    exact (Keeps.atTap (fun _ => .workIf fun _ => Keeps.endpointPin.trans .endpointSampled) e).works
  | endpointExit t c =>
    exact (Keeps.atTap (fun _ => .workIf fun _ => Keeps.endpointPin.trans .endpointSampled) e).works
  | pressureBelowRead t c => exact (Keeps.atTap (fun _ => .workIf fun _ => .stepEnd) e).works
  | pulseLossDecrement t c => exact (Keeps.atTap (fun _ => .pulseTick) e).works
  | pulseLost t c => exact (Keeps.atTap (fun _ => .workIf fun _ => .pulseTick) e).works
  | gapTimerDecrement t c => exact (Keeps.atTap (fun _ => .gapTick) e).works
  | gapExpired t c => exact (Keeps.atTap (fun _ => .workIf fun _ => .gapTick) e).works
  | flowEvaluation t k => exact (Keeps.atTap (fun _ => .lineEvent) e).works
  | lineStable t k => exact (Keeps.atTap (fun _ => .workIf fun _ => .lineEvent) e).works
  | flowFault t k => exact (Keeps.atTap (fun _ => .flowFaultEvent) e).works
  | pressureEvaluation t c => exact (Keeps.atTap (fun _ => .pressureEvent) e).works
  | pressureFaultArmed t c => exact (Keeps.atTap (fun _ => .workIf fun _ => .pressureEvent) e).works
  | pressureStable t c => exact (Keeps.atTap (fun _ => .workIf fun _ => .pressureEvent) e).works
  | pressureFault t c => exact (Keeps.atTap (fun _ => .pressureFaultEvent) e).works
  | strikeTest t c => exact (Keeps.atTap (fun _ => .strikeEvent) e).works
  | strikeWindowExpiry t c => exact (Keeps.atTap (fun _ => .workIf fun _ => .strikeEvent) e).works
  | retryPauseEnd t c => exact (Keeps.atTap (fun _ => .workIf fun _ => .strikeEvent) e).works
  | struckEvaluation t c => exact (Keeps.atTap (fun _ => .struckEvent) e).works
  | rfReflect t c => exact (Keeps.atTap (fun _ => .reflectEvent) e).works
  | plasmaLost t c => exact (Keeps.atTap (fun _ => .lostEvent) e).works
  | rfOnCount t c => exact (Keeps.atTap (fun _ => .rfOnTick) e).works
  | interlockSample t k b => exact Works.atTap (fun _ => .sampleInput) e
  | tripLatch t k =>
    refine Works.atTap (fun _ => ?_) e
    unfold workIf
    split
    · exact .sampleInput
    · exact (Keeps.refl _).works
  | scanPassT0 t n => exact (Keeps.atTap (fun _ => .scannerT0) e).works
  | settlingEnd t n => exact (Keeps.atTap (fun _ => .workIf fun _ => .scannerT0) e).works
  | scanPassT2 t n => exact (Keeps.atTap (fun _ => .scannerT2) e).works
  | handoverTimerDecrement t k => exact (Keeps.atTap (fun _ => .handoverTick) e).works
  | handoverPurgeEnd t k => exact (Keeps.atTap (fun _ => .workIf fun _ => .handoverTick) e).works
  | pumpMachineT1 t c b => exact (Keeps.atTap (fun _ => .pumpWork) e).works
  | crossoverDelayEnd t c b => exact (Keeps.atTap (fun _ => .workIf fun _ => .pumpWork) e).works
  | gateCloseDelayEnd t c =>
    refine (Keeps.atTap (fun s => ?_) e).works
    unfold workIf
    split
    · exact .pumpWork
    · exact .refl _
  | stageLimitDecrement t c => exact (Keeps.atTap (fun _ => .limitTick) e).works
  | pumpTimeout t c => exact (Keeps.atTap (fun _ => .workIf fun _ => .limitTick) e).works
  | economyPressureRead t c => exact (Keeps.atTap (fun _ => .economyRead) e).works
  | wakeTurboSample t c b => exact (Keeps.atTap (fun _ => .wakeSample) e).works
  | wakeCountDecrement t c => exact (Keeps.atTap (fun _ => .wakeTick) e).works
  | wakeLimitExpiry t c => exact (Keeps.atTap (fun _ => .workIf fun _ => .wakeTick) e).works
  | wakeDwellEnd t c => exact (Keeps.atTap (fun _ => .workIf fun _ => .wakeTick) e).works
  | gasOff t c => exact (Keeps.atTap (fun _ => .workIf fun _ => .gasOffStage) e).works
  | purgeTimerDecrement t c => exact (Keeps.atTap (fun _ => .workIf fun _ => .purgeTick) e).works
  | purgeEnd t c => exact (Keeps.atTap (fun _ => .workIf fun _ => .purgeTick) e).works
  | pumpOutRead t c => exact (Keeps.atTap (fun _ => .workIf fun _ => .endStage) e).works
  | closeLimitDecrement t c => exact (Keeps.atTap (fun _ => .workIf fun _ => .closeLimitTick) e).works
  | closeLimitExpiry t c => exact (Keeps.atTap (fun _ => .workIf fun _ => .closeLimitTick) e).works
  | elapsedTimeCount t c => exact (Keeps.atTap (fun _ => .elapsedTick) e).works
  | _ => simp [isEvent] at hi

end Sys2Proof.Machine
end

