-- ==== Sys2Proof/Laws/KeepsApply.lean ====
section
/-! SUPPORT. What an acknowledgement, an apply and a reset keep. -/

namespace Sys2Proof.Machine

variable {s : State} {c : Chamber}

/-! ### A relation that lets inhibits and trips change both ways -/

/-- What Works says of everything but trips and inhibits. -/
structure Stays (s s' : State) : Prop where
  pending : s'.pending = s.pending
  part : s'.port.part = s.port.part
  result : s'.port.result = s.port.result
  entry : s'.port.resultEntry = s.port.resultEntry
  enable : s'.port.enable = s.port.enable
  dataOut : s'.port.dataOut = s.port.dataOut
  tables : s'.tables = s.tables
  flags : ∀ i, s.port.summary.getLsbD i = true → s'.port.summary.getLsbD i = true
  wf : s.mem.wf = true → s'.mem.wf = true
  fit : ∀ c, 6 ≤ s.tables.partition → s.tables.partition ≤ 26 → (s.rep c).fits s.tables.partition →
    (s'.rep c).fits s.tables.partition
  host : PagesFit s → ∀ a, a < Config.memorySize → hostOwned s.tables.partition a = true →
    memRead s'.mem a = memRead s.mem a
  rough : RoughLineLaw s → RoughLineLaw s'

theorem Works.stays {s s' : State} (h : Works s s') : Stays s s' where
  pending := h.pending
  part := h.part
  result := h.result
  entry := h.entry
  enable := h.enable
  dataOut := h.dataOut
  tables := h.tables
  flags := h.flags
  wf := h.wf
  fit := h.fit
  host := h.host
  rough := h.rough

theorem Keeps.stays {s s' : State} (h : Keeps s s') : Stays s s' := h.works.stays

theorem Stays.pagesFit {s s' : State} (h : Stays s s') (g : PagesFit s) : PagesFit s' := by
  refine ⟨?_, ?_, fun c => ?_⟩ <;> rw [h.tables]
  · exact g.1
  · exact g.2.1
  · exact h.fit c g.1 g.2.1 (g.2.2 c)

theorem Stays.trans {a b d : State} (h : Stays a b) (g : Stays b d) : Stays a d where
  pending := g.pending.trans h.pending
  part := g.part.trans h.part
  result := g.result.trans h.result
  entry := g.entry.trans h.entry
  enable := g.enable.trans h.enable
  dataOut := g.dataOut.trans h.dataOut
  tables := g.tables.trans h.tables
  flags i x := g.flags i (h.flags i x)
  wf x := g.wf (h.wf x)
  fit c x y z := by
    have := g.fit c
    rw [h.tables] at this
    exact this x y (h.fit c x y z)
  host x a l o := (g.host (h.pagesFit x) a l (h.tables ▸ o)).trans (h.host x a l o)
  rough := g.rough ∘ h.rough

theorem Stays.setRf {x : Rf} : Stays s (s.setRf c x) := by
  constructor <;> first | rfl | (intros; rfl) | (intros; assumption)
theorem Stays.setGasInhibit {b : Bool} : Stays s (s.setGasInhibit c b) := by
  constructor <;> first | rfl | (intros; rfl) | (intros; assumption)
theorem Stays.setIlk {k : InputId} {x : Ilk} : Stays s (s.setIlk k x) := by
  constructor <;> first | rfl | (intros; rfl) | (intros; assumption)
theorem Stays.foldl {α : Type} {f : State → α → State} (h : ∀ s x, Stays s (f s x)) (xs : List α) (s : State) :
    Stays s (xs.foldl f s) := by
  induction xs generalizing s with
  | nil => exact (Keeps.refl s).stays
  | cons x xs ih => exact (h s x).trans (ih _)

theorem Stays.liftInhibits : Stays s (liftInhibits c s) := by
  unfold Machine.liftInhibits
  extract_lets s1
  have h1 : Stays s s1 := .setRf
  refine h1.trans ?_
  clear_value s1
  split
  · split
    · exact Stays.setGasInhibit.trans Keeps.openPurge.stays
    · exact .setGasInhibit
  · exact (Keeps.refl _).stays

theorem Stays.clearTrips {l : Vector Bool 16} : Stays s (clearTrips l s) := by
  refine .foldl (fun s k => ?_) _ _
  dsimp only
  split
  · split
    · exact Keeps.interlockPin.stays.trans .setIlk
    · exact Keeps.interlockPin.stays
  · exact (Keeps.refl _).stays

theorem Stays.acknowledge {l : Vector Bool 16} : Stays s (acknowledge l s) := by
  unfold Machine.acknowledge
  split
  · exact Stays.clearTrips.trans ((Keeps.imageInterlock.trans .raise).stays.trans (.foldl (fun _ _ => .liftInhibits) _ _))
  · exact (Keeps.refl _).stays

/-! ### Resets -/

theorem wf_foldl {α : Type} {f : Memory → α → Memory} (h : ∀ m x, Memory.wf m = true → Memory.wf (f m x) = true)
    (xs : List α) (m : Memory) (hm : Memory.wf m = true) : Memory.wf (xs.foldl f m) = true := by
  induction xs generalizing m with
  | nil => exact hm
  | cons x xs ih => exact ih _ (h _ _ hm)

/-- The words of a reset keep the canonical form. -/
theorem wf_resetWrites {last : Chamber → Code} {m : Memory} (hm : Memory.wf m = true) :
    Memory.wf (resetWrites last m) = true := by
  refine wf_foldl (fun m c h => wf_memPutWords _ _ _ h) _ _ (wf_foldl (fun m k h => wf_memPutWords _ _ _ h) _ _ ?_)
  exact wf_memPutWords _ _ _ (wf_memPutWords _ _ _ (wf_memPutWords _ _ _ hm))

/-! ### The apply -/

theorem Keeps.setMemMeasurement {k : ChannelId} : Keeps s (s.setMem (resetMeasurement s.mem k.val)) :=
  .putWords (.inr (by have := measurementAddr_bounds k; simp only [List.length]; omega))

theorem Keeps.applyChannel {old : Tables} {k : ChannelId} : Keeps s (applyChannel old k s) := by
  unfold Machine.applyChannel
  split
  · split
    · exact .refl _
    · exact .setChan
  · exact Keeps.trans (b := s.setChan k {}) .setChan .setMemMeasurement

theorem Keeps.applyInput {k : InputId} : Keeps s (applyInput k s) := .setIlk rfl
theorem Keeps.applyPressure : Keeps s (applyPressure c s) := .setPress

/-- From the copying of the tables on, an apply keeps what Keeps says. -/
theorem Keeps.installTables {tab : Tables} : Keeps (s.setTables tab) (installTables tab s) := by
  unfold Machine.installTables
  extract_lets old s1
  have h1 : Keeps (s.setTables tab) s1 := Keeps.trans (.forChannels fun _ _ => .applyChannel) .enterSettling
  exact h1.trans (Keeps.trans (.forInputs fun _ _ => .applyInput) (Keeps.imageInterlock.trans
    (Keeps.trans (.forLines fun _ _ => .startPurge) (.forChambers fun _ _ => .applyPressure))))

theorem Core.startChamber : Core s (startChamber c s) := by
  unfold Machine.startChamber
  extract_lets number s1 s2 s3
  have h1 : Core s s1 := .setPump
  have h2 : Keeps s1 s2 := .modEcon
  have h3 : Keeps s2 s3 := .modSeq
  have lose : ∀ (t : State) (i : Fin 2), Keeps t (loseSlot c i t) := fun t i =>
    .ite (fun _ => Keeps.writeSlot.trans .raise) fun _ => .refl _
  exact h1.trans (h2.trans (h3.trans (Keeps.showWord.trans (Keeps.showWord.trans ((lose _ 0).trans (lose _ 1)))))).core

theorem Core.foldl {α : Type} {f : State → α → State} (h : ∀ s x, Core s (f s x)) (xs : List α) (s : State) :
    Core s (xs.foldl f s) := by
  induction xs generalizing s with
  | nil => exact .refl s
  | cons x xs ih => exact (h s x).trans (ih _)

/-- From the copying of the tables to the part becoming RUNNING, an apply from HALTED keeps what Core says. -/
theorem Core.applyFromHalted_chambers {tab : Tables} :
    Core (s.setTables tab) (forChambers Machine.fixPages (forChambers Machine.startChamber (installTables tab s))) := by
  have h1 : Core (s.setTables tab) (installTables tab s) := Keeps.installTables.core
  generalize installTables tab s = t at h1 ⊢
  have h2 : Core t (forChambers Machine.startChamber t) := .foldl (fun _ _ => .startChamber) _ _
  generalize forChambers Machine.startChamber t = u at h2 ⊢
  exact h1.trans (h2.trans (Keeps.forChambers fun _ _ => .fixPages).core)

/-- From the copying of the tables on, an apply in RUNNING keeps what Keeps says. -/
theorem Keeps.applyWhileRunning_chambers {tab : Tables} :
    Keeps (s.setTables tab) (Machine.forChambers Machine.fixPages (Machine.installTables tab s)) := by
  have h1 : Keeps (s.setTables tab) (Machine.installTables tab s) := Keeps.installTables
  generalize Machine.installTables tab s = t at h1 ⊢
  exact h1.trans (.forChambers fun _ _ => .fixPages)

/-- The record of an apply's result. -/
theorem recordLayout_wf {r : LayoutCode} {e : Nat} (h : s.mem.wf = true) : (recordLayout r e s).mem.wf = true :=
  wf_memPutWords _ _ _ h
@[simp] theorem recordLayout_part {r : LayoutCode} {e : Nat} : (recordLayout r e s).port.part = s.port.part := rfl
@[simp] theorem recordLayout_result {r : LayoutCode} {e : Nat} : (recordLayout r e s).port.result = r := rfl
@[simp] theorem recordLayout_entry {r : LayoutCode} {e : Nat} : (recordLayout r e s).port.resultEntry = e := rfl
@[simp] theorem recordLayout_enable {r : LayoutCode} {e : Nat} : (recordLayout r e s).port.enable = s.port.enable := rfl
@[simp] theorem recordLayout_dataOut {r : LayoutCode} {e : Nat} : (recordLayout r e s).port.dataOut = s.port.dataOut := rfl
@[simp] theorem recordLayout_pending {r : LayoutCode} {e : Nat} : (recordLayout r e s).pending = s.pending := rfl
@[simp] theorem recordLayout_tables {r : LayoutCode} {e : Nat} : (recordLayout r e s).tables = s.tables := rfl
@[simp] theorem recordLayout_rep {r : LayoutCode} {e : Nat} : (recordLayout r e s).rep c = s.rep c := rfl
@[simp] theorem recordLayout_pump {r : LayoutCode} {e : Nat} : (recordLayout r e s).pump c = s.pump c := rfl
@[simp] theorem recordLayout_rough {r : LayoutCode} {e : Nat} : (recordLayout r e s).rough = s.rough := rfl
@[simp] theorem recordLayout_rf {r : LayoutCode} {e : Nat} : (recordLayout r e s).rf c = s.rf c := rfl
@[simp] theorem recordLayout_econ {r : LayoutCode} {e : Nat} : (recordLayout r e s).econ c = s.econ c := rfl
@[simp] theorem recordLayout_seq {r : LayoutCode} {e : Nat} : (recordLayout r e s).seq c = s.seq c := rfl
@[simp] theorem recordLayout_press {r : LayoutCode} {e : Nat} : (recordLayout r e s).press c = s.press c := rfl
@[simp] theorem recordLayout_line {r : LayoutCode} {e : Nat} {k : LineId} : (recordLayout r e s).line k = s.line k := rfl
@[simp] theorem recordLayout_arb {r : LayoutCode} {e : Nat} {k : LineId} : (recordLayout r e s).arb k = s.arb k := rfl
@[simp] theorem recordLayout_ilk {r : LayoutCode} {e : Nat} {k : InputId} : (recordLayout r e s).ilk k = s.ilk k := rfl
@[simp] theorem recordLayout_chan {r : LayoutCode} {e : Nat} {k : ChannelId} :
    (recordLayout r e s).chan k = s.chan k := rfl
@[simp] theorem recordLayout_gasInhibit {r : LayoutCode} {e : Nat} : (recordLayout r e s).gasInhibit c = s.gasInhibit c := rfl
@[simp] theorem recordLayout_scan {r : LayoutCode} {e : Nat} : (recordLayout r e s).scan = s.scan := rfl
@[simp] theorem recordLayout_waitQueue {r : LayoutCode} {e : Nat} : (recordLayout r e s).waitQueue = s.waitQueue := rfl

/-- A layout that passes every check has a partition number from 6 to 26 (R12). -/
theorem checkTables_partition {tab : Tables} (h : checkTables tab = none) : 6 ≤ tab.partition ∧ tab.partition ≤ 26 := by
  unfold checkTables at h
  split at h
  · cases h
  · omega

end Sys2Proof.Machine
end

