-- ==== Sys2Proof/Laws/Reach.lean ====
section
/-! SUPPORT. What reachFaults can do: the lines that would reach their fault at this event have done their work, and beside
them only the chamber's pressure and RF may have. -/

namespace Sys2Proof.Machine

variable {s : State} {c : Chamber} {k : LineId}

theorem State.setLine_self : s.setLine k (s.line k) = s := by
  simp [State.setLine, State.line]

@[simp] theorem State.setLine_setLine (x y : Line) : (s.setLine k x).setLine k y = s.setLine k y := by
  simp [State.setLine]

/-- A line's work changes its own line only. -/
theorem lineWork_eq : lineWork k s = s.setLine k ((lineWork k s).line k) := by
  unfold lineWork
  simp only []
  split
  · exact State.setLine_self.symm
  · split
    · split <;> simp [State.modLine_eq]
    · exact State.setLine_self.symm

/-- A line's work reads no other line. -/
theorem lineWork_setLine_ne {j : LineId} (x : Line) (h : k ≠ j) :
    (lineWork k (s.setLine j x)).line k = (lineWork k s).line k := by
  have hl : (s.setLine j x).line k = s.line k := State.setLine_line_ne s j x k h
  have main : ∀ y, (if evaluated ((s.setLine j x).setLine k y) k then
        ((s.setLine j x).setLine k y).modLine k fun l =>
          l.judged (s.lineCfg k) (lineInBand ((s.setLine j x).setLine k y) k)
      else (s.setLine j x).setLine k y).line k =
      (if evaluated (s.setLine k y) k then
        (s.setLine k y).modLine k fun l => l.judged (s.lineCfg k) (lineInBand (s.setLine k y) k)
      else s.setLine k y).line k := by
    intro y
    have he : evaluated ((s.setLine j x).setLine k y) k = evaluated (s.setLine k y) k := by
      unfold evaluated
      simp only [State.setLine_line_same, State.setLine_seq]
    have hb : lineInBand ((s.setLine j x).setLine k y) k = lineInBand (s.setLine k y) k := by
      unfold lineInBand
      simp only [State.setLine_line_same]
      rfl
    rw [he, hb]
    split <;> simp [State.modLine_eq]
  unfold lineWork
  simp only [hl]
  split
  · exact hl
  · have ha : (s.setLine j x).after (s.line k).mark = s.after (s.line k).mark := rfl
    rw [ha]
    split
    · exact main _
    · exact hl

theorem lineReaches_setLine_ne {j : LineId} (x : Line) (h : k ≠ j) :
    lineReaches (s.setLine j x) k c = lineReaches s k c := by
  unfold lineReaches
  rw [lineWork_setLine_ne x h, State.setLine_line_ne s j x k h]

/-- One line's part in reachFaults. -/
theorem reachLine_eq (s : State) : (if lineReaches s k c then lineWork k s else s) =
    s.setLine k (if lineReaches s k c then (lineWork k s).line k else s.line k) := by
  split
  · exact lineWork_eq
  · exact State.setLine_self.symm

/-- A pass over lines that changes each line by what that line alone decides. -/
theorem foldl_lines {f : LineId → State → State} {g : LineId → State → Line} (hf : ∀ k s, f k s = s.setLine k (g k s))
    (hg : ∀ j k s x, j ≠ k → g k (s.setLine j x) = g k s) :
    ∀ (ks : List LineId), ks.Nodup → ∀ s j,
      (ks.foldl (fun s k => f k s) s).line j = if j ∈ ks then g j s else s.line j := by
  intro ks
  induction ks with
  | nil => intro _ s j; simp
  | cons k ks ih =>
    intro hn s j
    have hk := (List.nodup_cons.1 hn)
    rw [List.foldl_cons, hf, ih hk.2]
    by_cases e : j = k
    · subst e; simp [hk.1]
    · rw [hg k j s _ (Ne.symm e), State.setLine_line_ne s k _ j e]
      simp [e]

/-- The lines after the pass of reachFaults. -/
theorem reachLines_line (s : State) (j : LineId) :
    (forLines (fun k s => if lineReaches s k c then lineWork k s else s) s).line j =
      if lineReaches s j c then (lineWork j s).line j else s.line j := by
  have h := foldl_lines (f := fun k s => if lineReaches s k c then lineWork k s else s)
    (g := fun k s => if lineReaches s k c then (lineWork k s).line k else s.line k)
    (fun k s => reachLine_eq s)
    (fun j k s x e => by
      simp only [lineReaches_setLine_ne x (Ne.symm e), lineWork_setLine_ne x (Ne.symm e),
        State.setLine_line_ne s j x k (Ne.symm e)])
    (List.finRange 16) (List.nodup_finRange 16) s j
  simpa [forLines] using h

/-- A pressure's work changes its own channel only. -/
theorem pressureWork_eq : ∃ x, pressureWork c s = s.setPress c x := by
  unfold pressureWork
  simp only []
  split
  · exact ⟨_, rfl⟩
  · exact ⟨s.press c, by simp [State.setPress, State.press]⟩

/-- A Supervisor's work changes its own Supervisor only. -/
theorem rfWork_eq : ∃ x, rfWork c s = s.setRf c x := by
  have self : s = s.setRf c (s.rf c) := by simp [State.setRf, State.rf]
  unfold rfWork
  simp only []
  split
  · split
    · exact ⟨_, self⟩
    · exact ⟨_, rfl⟩
    · exact ⟨_, rfl⟩
    · exact ⟨_, rfl⟩
  · exact ⟨_, self⟩

/-- The pass of reachFaults over the lines changes lines only. -/
theorem reachLines_eq (s : State) :
    ∃ ls, forLines (fun k s => if lineReaches s k c then lineWork k s else s) s = { s with lines := ls } := by
  have h : ∀ (ks : List LineId) (s : State), ∃ ls,
      ks.foldl (fun s k => if lineReaches s k c then lineWork k s else s) s = { s with lines := ls } := by
    intro ks
    induction ks with
    | nil => exact fun s => ⟨s.lines, rfl⟩
    | cons k ks ih =>
      intro s
      rw [List.foldl_cons, reachLine_eq]
      obtain ⟨ls, h⟩ := ih (s.setLine k (if lineReaches s k c then (lineWork k s).line k else s.line k))
      exact ⟨ls, h⟩
  exact h _ s

/-- Everything reachFaults can do: in STEP at the moment of a T1 event, the lines that reach their fault have done their work, and beside the lines only
the chamber's Pressure Channel and RF Supervisor may have changed; otherwise nothing. -/
theorem reachFaults_spec (c : Chamber) (s : State) :
    (¬ ((s.seq c).run = .step ∧ tapFalls .t1 s.now = true) ∧ reachFaults c s = s) ∨
      (((s.seq c).run = .step ∧ tapFalls .t1 s.now = true) ∧ ∃ ls x y, reachFaults c s = (({ s with lines := ls } : State).setPress c x).setRf c y ∧
        ∀ j, (reachFaults c s).line j = if lineReaches s j c then (lineWork j s).line j else s.line j) := by
  by_cases hr : (s.seq c).run = .step ∧ tapFalls .t1 s.now = true
  · right
    refine ⟨hr, ?_⟩
    obtain ⟨ls, hl⟩ := reachLines_eq (c := c) s
    have hline := reachLines_line (c := c) s
    unfold reachFaults
    simp only [if_pos hr]
    rw [hl] at hline ⊢
    have hp : ∃ x, (if pressureReaches { s with lines := ls } c then pressureWork c { s with lines := ls }
        else { s with lines := ls }) = ({ s with lines := ls } : State).setPress c x := by
      split
      · exact pressureWork_eq
      · exact ⟨s.press c, by simp [State.setPress, State.press]⟩
    obtain ⟨x, hx⟩ := hp
    rw [hx]
    split
    · obtain ⟨y, hy⟩ := rfWork_eq (c := c) (s := ({ s with lines := ls } : State).setPress c x)
      rw [hy]
      exact ⟨ls, x, y, rfl, hline⟩
    · exact ⟨ls, x, s.rf c, by simp [State.setRf, State.rf, State.setPress], hline⟩
  · exact .inl ⟨hr, if_neg hr⟩

end Sys2Proof.Machine
end

