-- ==== Sys2Proof/Tests/Slice0.lean ====
section
/-! SUPPORT. Tests by evaluation: the checks of WellFormed, values from the manual's own tables and worked cases, and for
every obligation with hypotheses a concrete state and operands that meet all of each clause's hypotheses together. -/

namespace Sys2Proof.Tests

set_option Elab.async false

open Machine

/-! ### The checks of WellFormed: an ill-formed command for each -/

/-- R44: 1 ms after the reset no T1, T2 or T3 event falls, and no T0 event falls at the reset itself. -/
theorem test_illFormed_t1_sequencer : wellFormed (.slotScan 1 0) = false ∧ wellFormed (.pressureBelowRead 1 0) = false ∧
    wellFormed (.pulseLossDecrement 1 0) = false ∧ wellFormed (.pulseLost 1 0) = false := by decide
theorem test_illFormed_t1_lines : wellFormed (.flowEvaluation 1 0) = false ∧ wellFormed (.lineStable 1 0) = false ∧
    wellFormed (.flowFault 1 0) = false ∧ wellFormed (.handoverTimerDecrement 1 0) = false ∧
    wellFormed (.handoverPurgeEnd 1 0) = false := by decide
theorem test_illFormed_t1_pressure : wellFormed (.pressureEvaluation 1 0) = false ∧
    wellFormed (.pressureFaultArmed 1 0) = false ∧ wellFormed (.pressureStable 1 0) = false ∧
    wellFormed (.pressureFault 1 0) = false := by decide
theorem test_illFormed_t1_rf : wellFormed (.strikeTest 1 0) = false ∧ wellFormed (.strikeWindowExpiry 1 0) = false ∧
    wellFormed (.retryPauseEnd 1 0) = false ∧ wellFormed (.struckEvaluation 1 0) = false ∧
    wellFormed (.rfReflect 1 0) = false ∧ wellFormed (.plasmaLost 1 0) = false := by decide
theorem test_illFormed_t1_pump : wellFormed (.pumpMachineT1 1 0 true) = false ∧
    wellFormed (.crossoverDelayEnd 1 0 true) = false ∧ wellFormed (.gateCloseDelayEnd 1 0) = false ∧
    wellFormed (.economyPressureRead 1 0) = false ∧ wellFormed (.wakeTurboSample 1 0 true) = false := by decide
theorem test_illFormed_t1_closeOut : wellFormed (.gasOff 1 0) = false ∧ wellFormed (.purgeTimerDecrement 1 0) = false ∧
    wellFormed (.purgeEnd 1 0) = false ∧ wellFormed (.pumpOutRead 1 0) = false := by decide
theorem test_illFormed_t0 : wellFormed (.stepTimerDecrement 0 0) = false ∧ wellFormed (.stepTimerExpiry 0 0) = false ∧
    wellFormed (.endpointSample 0 0 true) = false ∧ wellFormed (.endpointExit 0 0) = false ∧
    wellFormed (.rfOnCount 0 0) = false ∧ wellFormed (.interlockSample 0 0 true) = false ∧
    wellFormed (.tripLatch 0 0) = false ∧ wellFormed (.elapsedTimeCount 0 0) = false := by decide
theorem test_illFormed_scan : wellFormed (.scanPassT0 0 (Vector.replicate 48 0)) = false ∧
    wellFormed (.settlingEnd 0 (Vector.replicate 48 0)) = false ∧
    wellFormed (.scanPassT2 10 (Vector.replicate 48 0)) = false := by decide
theorem test_illFormed_t3 : wellFormed (.gapTimerDecrement 100 0) = false ∧ wellFormed (.gapExpired 100 0) = false ∧
    wellFormed (.stageLimitDecrement 100 0) = false ∧ wellFormed (.pumpTimeout 100 0) = false ∧
    wellFormed (.wakeCountDecrement 100 0) = false ∧ wellFormed (.wakeLimitExpiry 100 0) = false ∧
    wellFormed (.wakeDwellEnd 100 0) = false ∧ wellFormed (.closeLimitDecrement 100 0) = false ∧
    wellFormed (.closeLimitExpiry 100 0) = false := by decide
/-- R4: APPLY_LAYOUT is no ignored write. -/
theorem test_illFormed_ignored : wellFormed (.registerWriteIgnored 4 .word 1) = false := by decide
theorem test_wellFormed_ignored : wellFormed (.registerWriteIgnored 4 .byte 1) = true := by decide

/-- The table gives no row any bits, so no word spells a command. -/
theorem test_noWordSpells : decodeTableWord 32 7 = none := by decide

/-! ### The manual's own figures -/

/-- R8: the table of the ends of the range of N. -/
theorem test_areas : areaEntries 6 = 768 ∧ areaEntries 14 = 512 ∧ areaEntries 26 = 128 ∧ recipeRecords 14 = 1792 := by
  decide
theorem test_reportStarts : reportAddr 6 3 = 0x1A000 ∧ reportAddr 14 0 = 0x10000 ∧ reportAddr 26 1 = 0x1D000 := by decide

/-- Section 4.5: line 3 of the worked cases, Full Scale 2000 deci-sccm and GCF 0.420. -/
def lineThree : LineCfg := { fullScale := 2000, gcf := 420, tolerance := 20, faultTime := 50 }
theorem test_command_rounds_up : commandCount 500 lineThree = 2438 := by decide
theorem test_command_highest_unclamped : commandCount 840 lineThree = 4095 ∧ commandClamps 840 lineThree = false := by
  decide
theorem test_command_clamps : commandClamps 900 lineThree = true := by decide
theorem test_readback : flowOf 2438 2000 420 = 500 ∧ flowOf 2400 2000 420 = 492 := by decide
theorem test_flow_band : flowBand 500 lineThree = 10 ∧ flowBand 800 lineThree = 16 := by decide
/-- Section 4.5: the ramp from 500 to 0 over three events gives 334, 167, 0. -/
theorem test_ramp_truncates_toward_zero :
    rampValue 500 0 1 3 = 334 ∧ rampValue 500 0 2 3 = 167 ∧ rampValue 500 0 3 3 = 0 := by decide

/-- R98 and the worked case of spec/06: Valve Span 1,000,000 µTorr. -/
theorem test_pressure_output : pressureOutput 300 1000000 = 123 ∧ pressureOutput 50 1000000 = 20 := by decide
theorem test_pressure_clamp : pressureClamps 10001 1000000 = false ∧ pressureClamps 10002 1000000 = true := by decide
/-- The worked case of spec/08: RF Span 1000 W. -/
theorem test_rf_output : rfCount 300 1000 = 1229 ∧ rfCount 1000 1000 = 4095 := by decide

/-- The worked case of spec/09: a descending curve at 1000 counts, and the two counts of its ends. -/
theorem test_conversion_descends : convertPoints 1000 [(0, 5000), (4095, 0)] = (3779, .valid) := by decide
theorem test_conversion_saturates : convertPoints 99 [(100, 7), (200, 9)] = (7, .under) ∧
    convertPoints 201 [(100, 7), (200, 9)] = (9, .over) ∧ convertPoints 200 [(100, 7), (200, 9)] = (9, .valid) := by
  decide

/-- R164: Page Sizes 256, 257 and 600. -/
theorem test_page_sizes : pageSizeFor 256 14 = 256 ∧ pageCountFor 256 14 = 2 ∧ pageCountFor 257 14 = 1 ∧
    pageSizeFor 600 26 = 128 ∧ pageSizeClamped 600 26 = true := by decide

/-- R6: chamber 4's PUMP flag is bit 15. -/
theorem test_flag_bit : (EventFlag.pump 3).bit = 15 := by decide
/-- R7: an enabled flag drives the interrupt output. -/
theorem test_interrupt : ({ port := { summary := 1, enable := 1 } } : State).interrupt = true ∧
    ({ port := { summary := 1, enable := 2 } } : State).interrupt = false := by decide
/-- R1: a halfword write at an odd address goes to the halfword below, low byte first. -/
theorem test_halfword_write : hostWrite [] 0x203 .half 0x1234 = [(0x202, 0x34), (0x203, 0x12)] := by decide
/-- R1: addresses above bit 16 are ignored. -/
theorem test_address_wraps : hostWrite [] 0x20005 .byte 9 = [(5, 9)] := by decide
/-- R47, R62: the worked example of spec/03: segment at index 200, LOOP_BACK at 203 with Target 201 and Count 3. -/
def loopMem : Memory := memPutWords [] (recordAddr 203) [4, 0, 201, 3]
def loopSeg : Segment := { first := 200, count := 6 }
theorem test_loop_pushes : resolve (memPutWords loopMem (recordAddr 201) [1, 1]) {} 0 loopSeg [] 3 =
    .run (readStep (memPutWords loopMem (recordAddr 201) [1, 1]) 201) 1 [{ idx := 203, rem := 2 }] := by decide +kernel

/-! ### States for the witnesses -/

/-- A moment that carries an event of every tap. -/
def at1s : Moment := 1000

/-- A running part with everything else as a reset leaves it and nothing listed in memory. -/
def running : State := { port := { part := .running } }

/-- The running part with one sequencer in a given condition. -/
def withSeq (q : Seq) : State := running.setSeq 0 q

/-- The running part with every chamber under one Chamber Table. -/
def withChambers (e : ChamberCfg) (s : State) : State :=
  s.setTables { s.tables with chambers := Vector.replicate 4 e }

/-- The running part with every line under one Line Table entry. -/
def withLines (e : LineCfg) (s : State) : State := s.setTables { s.tables with lines := Vector.replicate 16 e }

/-- The running part with a FAST channel 0 in use that reads a fresh value. -/
def withValue (v : Nat) (s : State) : State :=
  ((s.setTables { s.tables with scan := s.tables.scan.set 0 { channel := 0, cls := 1 } }).setChan 0
    { value := v, age := 0 }).setScan { rate := .normal }

/-- A posted slot 0 of chamber 1 with an order of a kind: one record from recipe index 0, which is a PUMP_OUT step. -/
def withOrder (kind mode : Nat) (s : State) : State :=
  (s.putWords 0x800 [1, kind + 16777216 * mode, 0, 65536, 0]).putWords (recordAddr 0) [3, 5]

/-- Chamber 1's control block with a new request. -/
def withRequest (code : Nat) (s : State) : State := s.putWord 0x700 (code + 65536)

/-- A Line Table that passes its checks: a dedicated line of chamber 1, 100 sccm, GCF 1.000. -/
def lineWords (k : Nat) : List Nat := [1 + 256 + 65536 * k, 1000 + 65536 * 1000, 10 + 65536 * 10]

/-- A Chamber Table that passes its checks. -/
def chamberWords (c : Nat) : List Nat :=
  [0, 20 + c, 1000000, 10, 0, 65536 * 1000, 500 + 65536, 65536] ++ List.replicate 12 0 ++ [10]

/-- Memory with a set of tables that passes every check: partition 14, scan entry 0 a FAST channel 0. -/
def tableMem : Memory :=
  let m := memPutWord (memPutWord [] 8 14) 0x1000 256
  let m := (List.range 16).foldl (fun m k => memPutWords m (lineTableAddr k) (lineWords k)) m
  (List.range 4).foldl (fun m c => memPutWords m (chamberTableAddr c) (chamberWords c)) m

/-- A PUMP_OUT step, a TIME step on T0 with one event left. -/
def lastTick : Seq := { run := .step, timer := 1, step := { kind := 3, duration := 5 }, seg := { count := 1 } }

/-! ### Witnesses for the statements' hypotheses, one theorem per statement -/

theorem witness_StepRunsTheFrontCommand :
    ({ pending := [.softReset] } : State).pending = .softReset :: [] ∧ ({} : State).pending = [] := ⟨rfl, rfl⟩

theorem witness_EveryCommandAnswersNext :
    isEvent (.slotScan at1s 0) = true ∧ State.reset.port.part = .halted := ⟨rfl, rfl⟩

theorem witness_registers : selectReg 0 = .identity ∧ selectReg 4 = .command ∧ selectReg 8 = .summary ∧
    isReset .softReset = true ∧ wellFormed (.registerWriteIgnored 4 .word 9) = true ∧ isReset (.applyLayout 0) = false ∧
    isApply (.eventEnableWrite 0) = false ∧ isReset (.eventEnableWrite 0) = false ∧ Width.byte ≠ Width.word ∧
    State.reset.port.part = .halted ∧ running.port.part = .running := by decide

theorem witness_RefusedApply_busy : (withSeq { run := .step }).port.part = .running ∧
    ∃ c, ((withSeq { run := .step }).seq c).run ≠ .idle := ⟨rfl, 0, by decide⟩
theorem witness_RefusedApply_failed :
    ({} : State).port.part = .halted ∧ checkTables (readTables ({} : State).mem) = some (.badPartition, 0) := by
  decide +kernel

theorem witness_Apply : checkTables (readTables tableMem) = none ∧ (State.reset.setMem tableMem).port.part = .halted ∧
    (running.setMem tableMem).port.part = .running ∧ quiet (running.setMem tableMem) = true := by decide +kernel

theorem witness_Refusals :
    (eventAt .t1 at1s (withOrder 9 0 running) ∧ noRequest (withOrder 9 0 running) 0 ∧ posted (withOrder 9 0 running) 0 ∧
      pagesAtRest (withOrder 9 0 running) 0 ∧
      RefusedFor (withOrder 9 0 running) 0 (expectedOrder (withOrder 9 0 running) 0) .badKind) ∧
    eventAt .t1 at1s (withRequest 3 running) ∧ ¬ noRequest (withRequest 3 running) 0 ∧
      ¬ posted (withRequest 3 running) 0 ∧ pagesAtRest (withRequest 3 running) 0 ∧
      memField (withRequest 3 running).mem (controlAddr 0) 2 = 3 ∧ ((withRequest 3 running).seq 0).run ≠ .held := by
  have h : RefusedFor (withOrder 9 0 running) 0 (expectedOrder (withOrder 9 0 running) 0) .badKind :=
    .kind (by decide +kernel)
  simp only [eventAt, noRequest, posted, pagesAtRest, h, and_true]
  decide +kernel

/-- The order of the run, continue, pump and mode witnesses. -/
def pumped : State := running.setPump 0 { st := .pumped }

theorem witness_RunNew :
    eventAt .t1 at1s (withOrder 1 0 pumped) ∧ PagesFit (withOrder 1 0 pumped) ∧ noRequest (withOrder 1 0 pumped) 0 ∧
      posted (withOrder 1 0 pumped) 0 ∧ pagesAtRest (withOrder 1 0 pumped) 0 ∧
      (expectedOrder (withOrder 1 0 pumped) 0).kind = 1 ∧
      runOrderRefusal (withOrder 1 0 pumped) 0 false (expectedOrder (withOrder 1 0 pumped) 0) = none ∧
      ((withOrder 1 0 pumped).econ 0).mode = .active ∧ (readStep (withOrder 1 0 pumped).mem 0).isLoop = false ∧
      requestedLines (withOrder 1 0 pumped) (readStep (withOrder 1 0 pumped).mem 0) = [] ∧
      noLineOpen (withOrder 1 0 pumped) 0 ∧ ownsNoLine (withOrder 1 0 pumped) 0 := by
  simp only [eventAt, PagesFit, Rep.fits, noRequest, posted, pagesAtRest, noLineOpen, ownsNoLine]
  decide +kernel

theorem witness_Continue :
    let s := withOrder 3 0 (withSeq { run := .step, seg := { isOpen := true } })
    eventAt .t1 at1s s ∧ noRequest s 0 ∧ posted s 0 ∧ pagesAtRest s 0 ∧ (expectedOrder s 0).kind = 3 ∧
      (s.seq 0).run = .step ∧ (s.seq 0).seg.isOpen = true ∧ (expectedOrder s 0).tag = (s.seq 0).tag ∧
      segmentRefusal s 0 false (expectedOrder s 0) = none := by
  simp only [eventAt, noRequest, posted, pagesAtRest]
  decide +kernel

theorem witness_PumpDown :
    let s := withOrder 4 0 running
    eventAt .t1 at1s s ∧ PagesFit s ∧ noRequest s 0 ∧ posted s 0 ∧ pagesAtRest s 0 ∧ (expectedOrder s 0).kind = 4 ∧
      ¬ occupied s 0 ∧ tripped s 0 3 = false ∧ (s.pump 0).st = .isolated := by
  simp only [eventAt, PagesFit, Rep.fits, noRequest, posted, pagesAtRest, occupied]
  decide +kernel

theorem witness_Vent :
    let s := withOrder 5 0 pumped
    eventAt .t1 at1s s ∧ PagesFit s ∧ noRequest s 0 ∧ posted s 0 ∧ pagesAtRest s 0 ∧ (expectedOrder s 0).kind = 5 ∧
      ¬ occupied s 0 ∧ tripped s 0 3 = false ∧ (s.econ 0).mode = .active ∧ (s.pump 0).st = .pumped := by
  simp only [eventAt, PagesFit, Rep.fits, noRequest, posted, pagesAtRest, occupied]
  decide +kernel

theorem witness_SetMode :
    let s := withOrder 6 1 pumped
    eventAt .t1 at1s s ∧ PagesFit s ∧ noRequest s 0 ∧ posted s 0 ∧ pagesAtRest s 0 ∧ (expectedOrder s 0).kind = 6 ∧
      (expectedOrder s 0).targetMode = 1 ∧ ¬ occupied s 0 ∧ (s.pump 0).st = .pumped ∧ (s.econ 0).mode = .active := by
  simp only [eventAt, PagesFit, Rep.fits, noRequest, posted, pagesAtRest, occupied]
  decide +kernel

theorem witness_HoldNow :
    let s := withRequest 1 (withSeq { run := .step })
    eventAt .t1 at1s s ∧ PagesFit s ∧ ¬ noRequest s 0 ∧ memField s.mem (controlAddr 0) 2 = 1 ∧ (s.seq 0).run = .step ∧
      ¬ posted s 0 ∧ pagesAtRest s 0 ∧ ownsNoLine s 0 := by
  simp only [eventAt, PagesFit, Rep.fits, noRequest, posted, pagesAtRest, ownsNoLine]
  decide +kernel

theorem witness_GapExpiryAndAbort :
    (eventAt .t3 at1s (withSeq { run := .gap, gap := 2 }) ∧ ((withSeq { run := .gap, gap := 2 }).seq 0).run = .gap ∧
      1 < ((withSeq { run := .gap, gap := 2 }).seq 0).gap ∧ ((withSeq { run := .gap, gap := 2 }).seq 0).gapMark < at1s) ∧
    (eventAt .t3 at1s running ∧ (running.seq 0).run ≠ .gap) ∧
    (eventAt .t3 at1s (withSeq { run := .gap, gap := 1 }) ∧ PagesFit (withSeq { run := .gap, gap := 1 }) ∧
      notWaiting (withSeq { run := .gap, gap := 1 }) 0 ∧ ((withSeq { run := .gap, gap := 1 }).seq 0).gap ≤ 1) ∧
    eventAt .t1 at1s (withRequest 5 (withSeq { run := .step })) ∧ ¬ noRequest (withRequest 5 (withSeq { run := .step })) 0 ∧
      memField (withRequest 5 (withSeq { run := .step })).mem (controlAddr 0) 2 = 5 ∧
      notWaiting (withRequest 5 (withSeq { run := .step })) 0 ∧ ¬ posted (withRequest 5 (withSeq { run := .step })) 0 ∧
      pagesAtRest (withRequest 5 (withSeq { run := .step })) 0 := by
  simp only [eventAt, PagesFit, Rep.fits, noRequest, posted, pagesAtRest, notWaiting]
  decide +kernel

theorem witness_PulseEdgesAndEndpointSamples :
    (let s := withSeq { run := .step, timer := 2, step := { base := 4 } };
      s.port.part = .running ∧ (s.seq 0).run = .step ∧ (s.seq 0).step.onExt = true ∧ 1 < (s.seq 0).timer) ∧
    State.reset.port.part = .halted ∧
    (let s := withSeq { run := .step, step := { exit := 1, duration := 1 } };
      eventAt .t0 at1s s ∧ (s.seq 0).run = .step ∧ (s.seq 0).step.exitsEndpoint = true ∧
        (s.seq 0).timer ≤ (s.seq 0).step.duration - (s.seq 0).step.endpointMin ∧ (s.seq 0).endpointMark < at1s) ∧
    eventAt .t0 at1s running ∧ (running.seq 0).run ≠ .step := by
  simp only [eventAt]
  decide +kernel

theorem witness_StepTimer :
    (let s := withSeq { run := .step, timer := 2 };
      eventAt .t0 at1s s ∧ (s.seq 0).run = .step ∧ (s.seq 0).step.tap? = some .t0 ∧ tapFalls .t0 at1s = true ∧
        (s.seq 0).timerMark < at1s ∧ 1 < (s.seq 0).timer) ∧
    eventAt .t0 at1s running ∧ (running.seq 0).run ≠ .step := by
  simp only [eventAt]
  decide +kernel

/-- A line of chamber 1's STABLE step that the next evaluation makes stable. -/
def almostStable : State :=
  (withValue 0 (withSeq { lastTick with step := { kind := 1, exit := 2, gases := [(1, 0)] } })).setLine 0
    { openTo := some 0, source := .step, dwell := some 1 }

theorem witness_StepEnd_timer_endpoint :
    (let s := withSeq lastTick;
      PagesFit s ∧ notWaiting s 0 ∧ (s.seq 0).run = .step ∧ (s.seq 0).seg.isOpen = false ∧
        (s.seq 0).seg.count ≤ (s.seq 0).pos + 1 ∧ eventAt .t0 at1s s ∧ (s.seq 0).timer = 1 ∧
        (s.seq 0).timerMark < at1s ∧ (s.seq 0).step.tap? = some .t0 ∧ (s.seq 0).step.exitsTime = true) ∧
    (let s := withSeq { lastTick with step := { exit := 1, duration := 5 } };
      PagesFit s ∧ notWaiting s 0 ∧ eventAt .t0 at1s s ∧ (s.seq 0).step.exitsEndpoint = true ∧
        (s.seq 0).timer ≤ (s.seq 0).step.duration - (s.seq 0).step.endpointMin ∧ (s.seq 0).endpointMark < at1s ∧
        (s.seq 0).step.endpointDwell < (s.seq 0).endpointCount + 1) := by
  simp only [eventAt, PagesFit, Rep.fits, notWaiting]
  decide +kernel
theorem witness_StepEnd_pressure :
    let s := withValue 0 (withSeq { lastTick with step := { exit := 3, duration := 5 } })
    PagesFit s ∧ notWaiting s 0 ∧ eventAt .t1 at1s s ∧ (s.seq 0).step.exitsPressure = true ∧
      s.freshAt (s.chamberCfg 0).manometer = some 0 := by
  simp only [eventAt, PagesFit, Rep.fits, notWaiting]
  decide +kernel
theorem witness_StepEnd_stable :
    let s := almostStable
    PagesFit s ∧ notWaiting s 0 ∧ eventAt .t1 at1s s ∧ (s.seq 0).run = .step ∧ (s.seq 0).seg.isOpen = false ∧
      (s.seq 0).seg.count ≤ (s.seq 0).pos + 1 ∧ (s.seq 0).step.exitsStable = true ∧ (s.line 0).openTo = some 0 ∧
      (s.line 0).source = .step ∧ (s.line 0).ramp = none ∧ (s.line 0).mark < at1s ∧ (s.seq 0).step.names 0 = true ∧
      (s.line 0).dwell = some 1 ∧ max 1 1 ≤ (s.line 0).inCount + 1 ∧ (s.line 0).stable = false ∧
      lineInBand s 0 = true ∧ (∀ e ∈ (s.seq 0).step.entries, e.1 ≠ 0 → (s.line e.1).stable = true) ∧
      (s.seq 0).step.target = 0 := by
  simp only [eventAt, PagesFit, Rep.fits, notWaiting]
  decide +kernel
theorem witness_StepEnd_pressureStable :
    let s := (withValue 0 (withSeq { lastTick with step := { kind := 1, exit := 2 } })).setPress 0
      { evaluating := true, dwell := some 0 }
    PagesFit s ∧ notWaiting s 0 ∧ eventAt .t1 at1s s ∧ (s.seq 0).run = .step ∧ (s.seq 0).step.exitsStable = true ∧
      (s.press 0).evaluating = true ∧ (s.press 0).mark < at1s ∧ (s.press 0).dwell = some 0 ∧
      max 0 1 ≤ (s.press 0).inCount + 1 ∧ (s.press 0).stable = false ∧ pressureInBand s 0 = true ∧
      ∀ e ∈ (s.seq 0).step.entries, (s.line e.1).stable = true := by
  simp only [eventAt, PagesFit, Rep.fits, notWaiting]
  decide +kernel

theorem witness_TimeStepEnd :
    let s := (withSeq { lastTick with seg := { count := 2 } }).putWords (recordAddr 1) [3, 5]
    eventAt .t0 at1s s ∧ (s.seq 0).run = .step ∧ (s.seq 0).timer = 1 ∧ (s.seq 0).timerMark < at1s ∧
      (s.seq 0).step.tap? = some .t0 ∧ (s.seq 0).step.exitsTime = true ∧ (s.seq 0).step.reports = false ∧
      (s.seq 0).latch = false ∧ (s.seq 0).pos + 1 < (s.seq 0).seg.count ∧
      (s.seq 0).seg.first + (s.seq 0).seg.count ≤ 3328 ∧ stepOk s.tables 0 0 1 (readStep s.mem 1) = true ∧
      (readStep s.mem 1).isLoop = false ∧ requestedLines s (readStep s.mem 1) = [] ∧
      (∀ k, (s.line k).openTo = some 0 → (readStep s.mem 1).names k = true) ∧ ownsNoLine s 0 ∧
      s.gasInhibit 0 = false := by
  simp only [eventAt, ownsNoLine]
  decide +kernel

theorem witness_PulseLossAndTimeout :
    (let s := withSeq { run := .step, pulse := 2, step := { base := 4 } };
      eventAt .t1 at1s s ∧ (s.seq 0).step.onExt = true ∧ (s.seq 0).pulseMark < at1s ∧ 1 < (s.seq 0).pulse) ∧
    (let s := withSeq { run := .step, pulse := 1, step := { base := 4 } };
      eventAt .t1 at1s s ∧ PagesFit s ∧ notWaiting s 0 ∧ (s.seq 0).step.onExt = true ∧ (s.seq 0).pulseMark < at1s ∧
        (s.seq 0).pulse ≤ 1) ∧
    (let s := withSeq { run := .step, timer := 1, step := { exit := 2, flags := 2 } };
      eventAt .t0 at1s s ∧ PagesFit s ∧ notWaiting s 0 ∧ (s.seq 0).timer = 1 ∧ (s.seq 0).timerMark < at1s ∧
        (s.seq 0).step.tap? = some .t0 ∧ tapFalls .t0 at1s = true ∧ (s.seq 0).step.exitsTime = false ∧
        (s.seq 0).step.abortsOnTimeout = true) := by
  simp only [eventAt, PagesFit, Rep.fits, notWaiting]
  decide +kernel

theorem witness_RampsAndOutputs : (0 < 3 ∧ 1 ≤ 3) ∧ 0 < lineThree.gcf * lineThree.fullScale ∧
    (2 * 2438 * (420 * 2000) ≤ 2 * 500 * 4095000 + 420 * 2000 ∧
      2 * 500 * 4095000 + 420 * 2000 < 2 * 2439 * (420 * 2000)) ∧
    (2 * 123 * 1000000 ≤ 2 * 300 * 409500 + 1000000 ∧ 2 * 300 * 409500 + 1000000 < 2 * 124 * 1000000) ∧ 300 ≤ 1000 := by
  decide

/-- A line of chamber 1's TIME step, open with nothing to ramp. -/
def flowing : State :=
  withLines lineThree ((withSeq { run := .step, step := { kind := 1, gases := [(1, 0), (2, 0)] } }).setLine 0
    { openTo := some 0, source := .step })

theorem witness_FlowBand :
    eventAt .t1 at1s flowing ∧ (flowing.line 0).openTo = some 0 ∧ (flowing.line 0).source = .step ∧
      (flowing.line 0).ramp = none ∧ (flowing.line 0).mark < at1s ∧ (flowing.seq 0).run = .step ∧
      (flowing.seq 0).step.names 0 = true ∧ (flowing.line 0).dwell = none ∧ 0 < (flowing.lineCfg 0).faultTime := by
  simp only [eventAt]
  decide +kernel
theorem witness_FlowEvent :
    (let s := flowing.setLine 0 { openTo := some 0, ramp := some { start := 0, stop := 9, len := 3, taken := 0 } };
      eventAt .t1 at1s s ∧ (s.line 0).openTo = some 0 ∧ (s.line 0).mark < at1s ∧
        (s.line 0).ramp = some { start := 0, stop := 9, len := 3, taken := 0 } ∧ 0 + 1 < 3) ∧
    eventAt .t1 at1s running ∧ (running.line 0).openTo = none ∧
    (let s := almostStable.setSeq 0 { run := .step, step := { kind := 1, exit := 2, gases := [(1, 0), (2, 0)] } };
      eventAt .t1 at1s s ∧ (s.line 0).openTo = some 0 ∧ (s.line 0).source = .step ∧ (s.line 0).ramp = none ∧
        (s.line 0).mark < at1s ∧ (s.seq 0).run = .step ∧ (s.seq 0).step.names 0 = true ∧ (s.line 0).dwell = some 1 ∧
        max 1 1 ≤ (s.line 0).inCount + 1 ∧ (s.line 0).stable = false ∧ lineInBand s 0 = true ∧ (1 : LineId) ≠ 0 ∧
        (s.seq 0).step.names 1 = true ∧ (s.line 1).stable = false) := by
  simp only [eventAt]
  decide +kernel

/-- Line 1 in its handover purge with `n` left and, if asked, chamber 1 waiting for it. -/
def purgingLine (n : Nat) (waiting : Bool) : State :=
  (running.setArb 0 (.purging n 0)).setWaitQueue (if waiting then [{ chamber := 0, set := [0] }] else [])

theorem witness_Handover :
    (eventAt .t1 at1s (purgingLine 2 false) ∧ (purgingLine 2 false).arb 0 = .purging 2 0 ∧ 0 < at1s ∧ 1 < 2) ∧
    (eventAt .t1 at1s (purgingLine 1 false) ∧ (purgingLine 1 false).arb 0 = .purging 1 0 ∧
      (purgingLine 1 false).waitQueue = []) ∧
    (eventAt .t1 at1s running ∧ running.arb 0 = .absent) ∧
    eventAt .t1 at1s (purgingLine 1 true) ∧ (purgingLine 1 true).arb 0 = .purging 1 0 ∧
      (purgingLine 1 true).waitQueue = [{ chamber := 0, set := [0] }] ∧ ((purgingLine 1 true).seq 0).saved = 0 := by
  simp only [eventAt]
  decide +kernel

theorem witness_Pressure :
    (let s := withChambers { pressureFaultTime := 5 } (running.setPress 0 { evaluating := true, settle := 1 });
      eventAt .t1 at1s s ∧ (s.press 0).settle = 1 ∧ (s.press 0).armed = false ∧ (s.chamberCfg 0).pressureFaultTime ≠ 0 ∧
        (s.press 0).evaluating = true ∧ (s.press 0).mark < at1s ∧ (s.press 0).dwell = none) ∧
    (eventAt .t1 at1s running ∧ (running.press 0).evaluating = false) ∧
    (let s := running.setPress 0 { evaluating := true, dwell := some 2, stable := true };
      eventAt .t1 at1s s ∧ (s.press 0).evaluating = true ∧ (s.press 0).mark < at1s ∧ (s.press 0).dwell = some 2 ∧
        (s.press 0).stable = true ∧ (s.press 0).armed = false) := by
  simp only [eventAt]
  decide +kernel

/-- A step of two lines, each one evaluation short of its Fault Time with a readback that is stale. -/
def bothFail : State :=
  (flowing.setLine 0 { openTo := some 0, source := .step, outCount := 49 }).setLine 1
    { openTo := some 0, source := .step, outCount := 49 }

theorem witness_FlowAndPressureFaults :
    (let s := (withSeq { run := .step }).setLine 0 { faultDue := some 0 };
      eventAt .t1 at1s s ∧ PagesFit s ∧ notWaiting s 0 ∧ (s.line 0).faultDue = some 0 ∧ (s.seq 0).run.faults = true) ∧
    (let s := (withSeq { run := .closing }).setLine 0 { faultDue := some 0 };
      eventAt .t1 at1s s ∧ (s.line 0).faultDue = some 0 ∧ (s.seq 0).run = .closing) ∧
    (let s := (withSeq { run := .step }).setPress 0 { faultDue := true };
      eventAt .t1 at1s s ∧ PagesFit s ∧ notWaiting s 0 ∧ (s.press 0).faultDue = true ∧ (s.seq 0).run.faults = true) ∧
    (let s := (withSeq { run := .closing }).setPress 0 { faultDue := true };
      eventAt .t1 at1s s ∧ (s.press 0).faultDue = true ∧ (s.seq 0).run = .closing) ∧
    (let s := bothFail.setLine 0 { faultDue := some 0 };
      eventAt .t1 at1s s ∧ PagesFit s ∧ notWaiting s 0 ∧ (s.line 0).faultDue = some 0 ∧ (s.seq 0).run.faults = true ∧
        lineReaches (s.setNow at1s) 1 0 = true) := by
  simp only [eventAt, PagesFit, Rep.fits, notWaiting]
  and_intros <;> decide +kernel

/-- A running part whose channels all read a value, with chamber 1's machine in a given condition. -/
def pumping (v : Nat) (p : Pump) : State := (withValue v running).setPump 0 p

theorem witness_Pumpdown_fast :
    let s := withChambers { softRoughPressure := 100, crossoverPressure := 10, forelineLimit := 99 }
      (pumping 50 { st := .softRough })
    eventAt .t1 at1s s ∧ PagesFit s ∧ (s.pump 0).mark < at1s ∧ (s.pump 0).st = .softRough ∧ (s.pump 0).paused = false ∧
      forelineAllows s = true ∧ s.freshAt (s.chamberCfg 0).roughGauge = some 50 ∧
      (s.chamberCfg 0).crossoverPressure < 50 ∧ 50 ≤ (s.chamberCfg 0).softRoughPressure := by
  simp only [eventAt, PagesFit, Rep.fits]
  decide +kernel
theorem witness_Pumpdown_crossover_pumped :
    (let s := (pumping 0 { st := .fastRough }).setRough { holder := some 0 };
      eventAt .t1 at1s s ∧ PagesFit s ∧ (s.pump 0).mark < at1s ∧ (s.pump 0).st = .fastRough ∧
        (s.pump 0).paused = false ∧ forelineAllows s = true ∧ s.freshAt (s.chamberCfg 0).roughGauge = some 0 ∧
        0 ≤ (s.chamberCfg 0).crossoverPressure ∧ s.rough = { holder := some 0, queue := [] }) ∧
    (let s := pumping 0 { st := .highVac };
      eventAt .t1 at1s s ∧ PagesFit s ∧ (s.pump 0).mark < at1s ∧ (s.pump 0).st = .highVac ∧
        s.freshAt (s.chamberCfg 0).manometer = some 0 ∧ 0 ≤ (s.chamberCfg 0).basePressure) := by
  simp only [eventAt, PagesFit, Rep.fits]
  decide +kernel

theorem witness_Foreline :
    (let s := pumping 5 { st := .softRough };
      eventAt .t1 at1s s ∧ (s.pump 0).mark < at1s ∧ (s.pump 0).st = .softRough ∧ (s.pump 0).paused = false ∧
        forelineAllows s = false) ∧
    (let s := pumping 5 { st := .softRough, paused := true };
      eventAt .t1 at1s s ∧ (s.pump 0).mark < at1s ∧ (s.pump 0).st = .softRough ∧ (s.pump 0).paused = true ∧
        s.foreline = some 5 ∧ (s.chamberCfg 0).forelineResume < 5) := by
  simp only [eventAt]
  decide +kernel
theorem witness_TurboLoss :
    (eventAt .t1 at1s pumped ∧ PagesFit pumped ∧ (pumped.pump 0).mark < at1s ∧ (pumped.pump 0).st = .pumped ∧
      (pumped.econ 0).mode = .active ∧ (pumped.seq 0).run = .idle ∧ (pumped.seq 0).slotWith SlotHold.isPump = none ∧
      pumped.rough.holder ≠ some 0 ∧ (0 : Chamber) ∉ pumped.rough.queue) ∧
    ((pumped.setEcon 0 { mode := .economy }).pump 0).st = .pumped ∧
      ((pumped.setEcon 0 { mode := .economy }).econ 0).mode = .economy ∧
      eventAt .t1 at1s (pumped.setEcon 0 { mode := .economy }) := by
  simp only [eventAt, PagesFit, Rep.fits]
  decide +kernel

theorem witness_PumpDelays :
    (let s := running.setPump 0 { st := .crossover, delay := some 1 };
      eventAt .t1 at1s s ∧ PagesFit s ∧ (s.pump 0).mark < at1s ∧ (s.pump 0).st = .crossover ∧
        (s.pump 0).delay = some 1) ∧
    (let s := running.setPump 0 { st := .venting, delay := some 1 };
      eventAt .t1 at1s s ∧ (s.pump 0).mark < at1s ∧ (s.pump 0).st = .venting ∧ (s.pump 0).ventOpened = false ∧
        (s.pump 0).delay = some 1) := by
  simp only [eventAt, PagesFit, Rep.fits]
  decide +kernel
theorem witness_StageLimits :
    (let s := running.setPump 0 { st := .highVac, limit := some 2 };
      eventAt .t3 at1s s ∧ (s.pump 0).limit = some 2 ∧ (s.pump 0).limitMark < at1s ∧ 1 < 2) ∧
    (eventAt .t3 at1s running ∧ (running.pump 0).limit = none) ∧
    (let s := running.setPump 0 { st := .highVac, limit := some 1 };
      eventAt .t3 at1s s ∧ PagesFit s ∧ (s.pump 0).limit = some 1 ∧ (s.pump 0).limitMark < at1s ∧
        (s.pump 0).paused = false ∧ (s.pump 0).st ≠ .faultHold ∧ s.rough.holder ≠ some 0 ∧
        (0 : Chamber) ∉ s.rough.queue) := by
  simp only [eventAt, PagesFit, Rep.fits]
  decide +kernel

/-- Chamber 1's RF Supervisor in a given condition, its channels reading a value. -/
def withRf (v : Nat) (x : Rf) (run : RunState) : State := (withValue v (withSeq { run := run })).setRf 0 x

theorem witness_StrikeTest_met :
    let s := withRf 0 { phase := .striking, window := 2 } .step
    eventAt .t1 at1s s ∧ (s.rf 0).phase = .striking ∧ (s.rf 0).mark < at1s ∧
      s.freshAt (s.chamberCfg 0).forward = some 0 ∧ s.freshAt (s.chamberCfg 0).reflected = some 0 ∧
      ((s.rf 0).ramped (s.chamberCfg 0).rfSpan at1s).power * (s.chamberCfg 0).strikeRatio / 1000 ≤ 0 ∧
      0 ≤ (s.chamberCfg 0).reflectedLimit := by
  simp only [eventAt]
  decide +kernel
theorem witness_StrikeTest_unmet :
    let s := withRf 9 { phase := .striking, window := 2 } .step
    eventAt .t1 at1s s ∧ (s.rf 0).phase = .striking ∧ (s.rf 0).mark < at1s ∧
      s.freshAt (s.chamberCfg 0).reflected = some 9 ∧ (s.chamberCfg 0).reflectedLimit < 9 ∧ 1 < (s.rf 0).window := by
  simp only [eventAt]
  decide +kernel

theorem witness_StrikeWindows :
    (let s := withChambers { strikeRetries := 1 } (withRf 9 { phase := .striking, window := 1 } .step);
      eventAt .t1 at1s s ∧ (s.rf 0).phase = .striking ∧ (s.rf 0).mark < at1s ∧ (s.rf 0).window ≤ 1 ∧
        strikeMet s 0 ((s.rf 0).ramped (s.chamberCfg 0).rfSpan at1s).power = false ∧
        (s.rf 0).retries < (s.chamberCfg 0).strikeRetries) ∧
    (let s := withRf 9 { phase := .striking, window := 1 } .step;
      strikeMet s 0 ((s.rf 0).ramped (s.chamberCfg 0).rfSpan at1s).power = false ∧
        (s.chamberCfg 0).strikeRetries ≤ (s.rf 0).retries ∧ PagesFit s ∧ notWaiting s 0 ∧
        (s.seq 0).run.faults = true) ∧
    (let s := withRf 0 { phase := .retryPause, pause := 1 } .step;
      eventAt .t1 at1s s ∧ (s.rf 0).phase = .retryPause ∧ (s.rf 0).mark < at1s ∧ (s.rf 0).pause ≤ 1) ∧
    (let s := withRf 0 { phase := .retryPause, pause := 2 } .step;
      eventAt .t1 at1s s ∧ (s.rf 0).phase = .retryPause ∧ (s.rf 0).mark < at1s ∧ 1 < (s.rf 0).pause) := by
  simp only [eventAt, PagesFit, Rep.fits, notWaiting]
  decide +kernel

theorem witness_Struck :
    (let s := withRf 9 { phase := .struck } .step;
      eventAt .t1 at1s s ∧ (s.rf 0).phase = .struck ∧ (s.rf 0).mark < at1s ∧
        s.freshAt (s.chamberCfg 0).reflected = some 9 ∧ (s.chamberCfg 0).reflectedLimit < 9 ∧
        s.freshAt (s.chamberCfg 0).forward = some 9) ∧
    (eventAt .t1 at1s running ∧ (running.rf 0).phase ≠ .struck) ∧
    (let s := withRf 0 { reflectDue := true } .step;
      eventAt .t1 at1s s ∧ PagesFit s ∧ notWaiting s 0 ∧ (s.seq 0).run.faults = true ∧ (s.rf 0).reflectDue = true) ∧
    (let s := withRf 0 { lostDue := true } .step;
      (s.rf 0).reflectDue = false ∧ (s.rf 0).lostDue = true ∧ PagesFit s ∧ (s.seq 0).run.faults = true) ∧
    (let s := withRf 0 { lostDue := true } .closing;
      eventAt .t1 at1s s ∧ (s.seq 0).run = .closing ∧ (s.rf 0).lostDue = true) := by
  simp only [eventAt, PagesFit, Rep.fits, notWaiting]
  decide +kernel

theorem witness_RfOnAndElapsed :
    (let s := withRf 0 { onSince := some 1 } .step;
      eventAt .t0 at1s s ∧ (s.rf 0).countMark < at1s ∧ (s.rf 0).onSince = some 1 ∧ 1 < at1s) ∧
    (let s := withRf 0 { lastOn := some (1, at1s) } .step;
      eventAt .t0 at1s s ∧ (s.rf 0).lastOn = some (1, at1s)) ∧
    (eventAt .t0 at1s running ∧ (running.rf 0).onSince = none ∧ (running.rf 0).lastOn = none) ∧
    (let s := withSeq { run := .step };
      eventAt .t0 at1s s ∧ (s.seq 0).elapsedMark < at1s) ∧
    (let s := withSeq { run := .closing };
      eventAt .t0 at1s s ∧ (s.seq 0).closeElapsedMark < at1s) ∧
    (running.seq 0).run ≠ .step ∧ (running.seq 0).run ≠ .closing := by
  simp only [eventAt]
  decide +kernel

theorem witness_Conversion : 2 ≤ [(0, 5000), (4095, 0)].length ∧
    ([(0, 5000), (4095, 0)].map Prod.fst).Pairwise (· < ·) ∧ 0 ≤ 1000 ∧ 1000 < 4095 ∧
    running.tables.readbackLines 1 = [] := by decide +kernel

theorem witness_ScanPasses :
    (let s := withValue 0 (withSeq { run := .step });
      eventAt .t0 at1s s ∧ s.scan.passMark < at1s ∧ s.scan.rate ≠ .stopped ∧ (s.seq 0).run ≠ .idle) ∧
    (let s := running.setScan { rate := .settling, settling := 1 };
      eventAt .t0 at1s s ∧ s.scan.passMark < at1s ∧ s.scan.rate = .settling ∧ s.scan.settling ≤ 1 ∧
        s.scan.settleMark < at1s ∧ ∀ c, (s.seq c).run = .idle ∧ (s.seq c).pumpTaken = false ∧
          (s.pump c).st = .isolated) ∧
    eventAt .t2 at1s running ∧ running.scan.slowMark < at1s := by
  simp only [eventAt]
  decide +kernel

/-- Interlock input 1 on chamber 1 with an action and a debounce of 0, active high. -/
def withInterlock (action : Nat) (x : Ilk) (s : State) : State :=
  (s.setTables { s.tables with
    interlocks := s.tables.interlocks.set 0 { activeLevel := 1, scope := 1, action := action } }).setIlk 0 x

theorem witness_InterlockSamples :
    (let s := withInterlock 1 {} running;
      eventAt .t0 at1s s ∧ (s.ilkCfg 0).scope ≠ 0 ∧ (s.ilk 0).mark < at1s ∧
        (false = true ↔ (false = true ↔ (s.ilkCfg 0).activeLevel = 1))) ∧
    eventAt .t0 at1s running ∧ (running.ilkCfg 0).scope = 0 := by
  simp only [eventAt]
  decide +kernel

theorem witness_Trips :
    let s := withInterlock 1 {} running
    eventAt .t0 at1s s ∧ PagesFit s ∧ RoughLineLaw s ∧ (s.ilkCfg 0).scope ≠ 0 ∧ (s.ilk 0).mark < at1s ∧
      (s.ilk 0).trip = false ∧ (s.ilkCfg 0).debounce < (s.ilk 0).count + 1 ∧ (s.ilkCfg 0).action = 1 ∧
      ∀ c, (s.seq c).run = .idle := by
  simp only [eventAt, PagesFit, Rep.fits, RoughLineLaw, roughAgrees]
  decide +kernel

theorem witness_Acknowledgement :
    (let s := withInterlock 3 { trip := true } running;
      s.port.part = .running ∧ (s.ilk 0).trip = true ∧
        (s.ilkCfg 0).activeAt (Vector.replicate 16 false)[(0 : InputId)] = false) ∧
    ∀ k, (running.ilk k).trip = false := by decide +kernel

/-- A close-out in a stage. -/
def closing (stage : CloseStage) (n : Nat) : State :=
  withValue 0 (pumped.setSeq 0 { run := .closing, stage := stage, purgeTimer := n, closeLimit := n })

theorem witness_GasOff :
    (let s := withChambers { purgeLine := 1, purgeTime := 5 } (closing .rfOff 0);
      eventAt .t1 at1s s ∧ (s.seq 0).run = .closing ∧ (s.seq 0).stage = .rfOff ∧ (s.seq 0).stageMark < at1s ∧
        ownsNoLine s 0 ∧ (s.seq 0).restriction = .none ∧ (s.pump 0).st = .pumped ∧ s.purgeLine 0 = some 0 ∧
        (s.chamberCfg 0).purgeTime ≠ 0 ∧ s.gasInhibit 0 = false) ∧
    (let s := withChambers { closeLimit := 5 } (closing .rfOff 0);
      eventAt .t1 at1s s ∧ (s.seq 0).restriction = .none ∧ (s.chamberCfg 0).purgeLine = 0 ∧ (s.pump 0).st = .pumped ∧
        (s.chamberCfg 0).closeLimit ≠ 0) ∧
    (let s := (closing .rfOff 0).setPump 0 {};
      eventAt .t1 at1s s ∧ PagesFit s ∧ (s.seq 0).stage = .rfOff ∧ (s.pump 0).st ≠ .pumped ∧ ownsNoLine s 0) ∧
    (running.seq 0).run ≠ .closing := by
  simp only [eventAt, PagesFit, Rep.fits, ownsNoLine]
  decide +kernel

theorem witness_CloseOutStages :
    (eventAt .t1 at1s (closing .purge 2) ∧ ((closing .purge 2).seq 0).stage = .purge ∧
      1 < ((closing .purge 2).seq 0).purgeTimer) ∧
    (eventAt .t1 at1s (closing .purge 1) ∧ PagesFit (closing .purge 1) ∧ ((closing .purge 1).seq 0).purgeTimer ≤ 1 ∧
      ((closing .purge 1).seq 0).stageMark < at1s ∧ ownsNoLine (closing .purge 1) 0) ∧
    (eventAt .t1 at1s (closing .pumpOut 2) ∧ PagesFit (closing .pumpOut 2) ∧
      (closing .pumpOut 2).freshAt ((closing .pumpOut 2).chamberCfg 0).manometer = some 0 ∧
      0 ≤ ((closing .pumpOut 2).chamberCfg 0).closePressure) ∧
    (running.freshAt (running.chamberCfg 0).manometer = none ∧ eventAt .t1 at1s running) ∧
    (eventAt .t3 at1s (closing .pumpOut 2) ∧ ((closing .pumpOut 2).seq 0).closeLimitMark < at1s ∧
      1 < ((closing .pumpOut 2).seq 0).closeLimit) ∧
    eventAt .t3 at1s (closing .pumpOut 1) ∧ PagesFit (closing .pumpOut 1) ∧
      ((closing .pumpOut 1).seq 0).closeLimit ≤ 1 := by
  simp only [eventAt, PagesFit, Rep.fits, ownsNoLine]
  and_intros <;> decide +kernel

/-- Chamber 1 in ECONOMY in a wake phase. -/
def economy (phase : WakePhase) (n : Nat) : State :=
  withValue 9 (pumped.setEcon 0 { mode := .economy, phase := phase, limit := n, dwell := n })

theorem witness_Wakes :
    (let s := withChambers { wakeEnables := 2 } (economy .none 0);
      eventAt .t1 at1s s ∧ (s.econ 0).mode = .economy ∧ (s.econ 0).phase = .none ∧
        bitSet (s.chamberCfg 0).wakeEnables 1 = true ∧ s.freshAt (s.chamberCfg 0).manometer = some 9 ∧
        (s.chamberCfg 0).economyRise < 9 ∧ ownsNoLine s 0) ∧
    (eventAt .t1 at1s running ∧ (running.econ 0).mode = .active) ∧
    (let s := withChambers { recoveryDwell := 5 } (economy .turboWait 3);
      eventAt .t1 at1s s ∧ (s.econ 0).sampleMark < at1s ∧ (s.econ 0).phase ≠ .none ∧
        (s.chamberCfg 0).recoveryDwell ≠ 0) ∧
    (eventAt .t3 at1s (economy .turboWait 2) ∧ ((economy .turboWait 2).econ 0).countMark < at1s ∧
      1 < ((economy .turboWait 2).econ 0).limit) ∧
    (((economy .dwell 2).econ 0).phase = .dwell ∧ 1 < ((economy .dwell 2).econ 0).dwell) ∧
    (running.econ 0).phase = .none := by
  simp only [eventAt, ownsNoLine]
  decide +kernel
theorem witness_WakeEnds :
    (let s := economy .dwell 1;
      eventAt .t3 at1s s ∧ PagesFit s ∧ (s.econ 0).phase = .dwell ∧ (s.econ 0).dwell ≤ 1 ∧
        (s.econ 0).countMark < at1s ∧ (s.seq 0).run = .idle) ∧
    (let s := economy .turboWait 1;
      eventAt .t3 at1s s ∧ PagesFit s ∧ (s.econ 0).phase = .turboWait ∧ (s.econ 0).limit ≤ 1 ∧
        (s.econ 0).countMark < at1s ∧ (s.seq 0).run = .idle ∧ s.rough.holder ≠ some 0 ∧
        (0 : Chamber) ∉ s.rough.queue) := by
  simp only [eventAt, PagesFit, Rep.fits]
  decide +kernel

/-- Chamber 1 with one report page of two entries in a state. -/
def withPage (st : PageState) : State := running.setRep 0 { size := 2, pages := 1, page0 := { st := st } }

theorem witness_Entries :
    (PagesFit (withPage .filling) ∧ ((withPage .filling).rep 0).filling? = some 0) ∧
    (PagesFit (withPage .empty) ∧ ((withPage .empty).rep 0).filling? = none ∧
      ((withPage .empty).rep 0).empty? = some 0) ∧
    (PagesFit (withPage .full) ∧ ((withPage .full).rep 0).filling? = none ∧ ((withPage .full).rep 0).empty? = none) ∧
    eventAt .t1 at1s (withPage .full) ∧ noRequest (withPage .full) 0 ∧ ¬ posted (withPage .full) 0 ∧
      1 ≤ ((withPage .full).rep 0).pages ∧ ((withPage .full).rep 0).page0.st = .full ∧
      ((withPage .full).rep 0).page1.st ≠ .full ∧ ((withPage .full).rep 0).held = none := by
  simp only [eventAt, PagesFit, Rep.fits, noRequest, posted]
  decide +kernel

/-- The premises of the statements about every step: a state that meets every law and has a next state. -/
theorem witness_EveryStep :
    step running = .next running ∧ running.mem.wf = true ∧ PagesFit running ∧ HaltedAtRest running ∧ RoughLineLaw running ∧
      InterlockLaw running ∧ LoopLaw running := by
  refine ⟨rfl, rfl, ?_⟩
  simp only [PagesFit, Rep.fits, HaltedAtRest, RoughLineLaw, roughAgrees, InterlockLaw, LoopLaw]
  and_intros <;> decide +kernel
theorem witness_HaltedOutputs : State.reset.port.part = .halted ∧ (∀ k, (State.reset.line k).openTo = none) ∧
    ∀ c, (State.reset.pump c).st = .isolated := by decide +kernel
theorem witness_OnlyTheirCommands :
    ({ pending := [.softReset] } : State).pending = [.softReset] ∧ isReset (.eventEnableWrite 0) = false ∧
      step ({ pending := [.eventEnableWrite 0] } : State) = .next {} := ⟨rfl, rfl, rfl⟩

/-! ### One step each -/

/-- The state after a command. -/
def after (i : Instr) (s : State) : State :=
  match step { s with pending := [i] } with
  | .next s' => s'
  | _ => s

/-- R7: only bits 0 to 17 are stored. -/
theorem test_enable_keeps_18_bits : (after (.eventEnableWrite 0xFFFFFFFF) running).port.enable = 0x3FFFF#18 := by decide
/-- R6: a word read returns the flags and clears them; a byte read returns 0 and clears nothing. -/
theorem test_summary_word_read : (after (.eventSummaryRead .word) { port := { summary := 5 } }).port =
    { dataOut := 5, summary := 0 } := by decide
theorem test_summary_byte_read : (after (.eventSummaryRead .byte) { port := { summary := 5 } }).port =
    { dataOut := 0, summary := 5 } := by decide
/-- R19, section 1.5: BAD_KIND is code 41, and a refused slot reads State 4. -/
theorem test_scan_bad_kind : slotReads (after (.slotScan at1s 0) (withOrder 9 0 running)) 0x800 4 41 0 0 := by
  simp only [slotReads]
  decide +kernel
/-- R22: a RUN_NEW to a chamber that is not PUMPED is refused NOT_PUMPED, code 33. -/
theorem test_scan_not_pumped : slotReads (after (.slotScan at1s 0) (withOrder 1 0 running)) 0x800 4 33 0 0 := by
  simp only [slotReads]
  decide +kernel
/-- R25: a SET_MODE to ECONOMY is answered DONE with COMPLETE and Detail 7 and asserts turbo-economy. -/
theorem test_scan_set_mode : (after (.slotScan at1s 0) (withOrder 6 1 pumped)).turboEconomy 0 = true := by decide +kernel
/-- R150: with Debounce 0 the first active sample latches; RF goes off and is inhibited. -/
theorem test_first_active_sample_latches :
    ((after (.interlockSample at1s 0 true) (withInterlock 1 {} (withRf 0 { phase := .struck } .idle))).rf 0).phase = .off := by
  decide +kernel
/-- R150: FULL_SAFE puts the pump machine of its Scope in FAULT_HOLD. -/
theorem test_full_safe_holds_the_pump :
    ((after (.tripLatch at1s 0) (withInterlock 3 {} pumped)).pump 0).st = .faultHold := by decide +kernel
/-- R117: the delay is met but the turbo is not at speed, so the gate stays closed. -/
theorem test_crossover_waits_for_the_turbo :
    (after (.crossoverDelayEnd at1s 0 false) (running.setPump 0 { st := .crossover, delay := some 1 })).gateOpen 0 =
      false := by decide +kernel
/-- R109: a stage limit at its last count ends in FAULT_HOLD. -/
theorem test_pump_timeout :
    ((after (.pumpTimeout at1s 0) (running.setPump 0 { st := .highVac, limit := some 1 })).pump 0).st = .faultHold := by
  decide +kernel
/-- R53: a decrement in the moment of the load is not counted. -/
theorem test_timer_load_moment_not_counted :
    ((after (.stepTimerDecrement at1s 0) (withSeq { run := .step, timer := 9, timerMark := at1s })).seq 0).timer = 9 := by
  decide +kernel
/-- R131: the last window without a retry left closes the run out with STRIKE_FAIL. -/
theorem test_strike_fail :
    ((after (.strikeWindowExpiry at1s 0) (withRf 9 { phase := .striking, window := 1 } .step)).seq 0).outcome =
      .strikeFail := by decide +kernel
/-- R156: the close limit's expiry ends the run with PUMPOUT_INCOMPLETE. -/
theorem test_close_limit_expiry : ((after (.closeLimitExpiry at1s 0) (closing .pumpOut 1)).seq 0).run = .idle := by
  decide +kernel
/-- R162: the dwell's end returns the chamber to ACTIVE. -/
theorem test_dwell_end : ((after (.wakeDwellEnd at1s 0) (economy .dwell 1)).econ 0).mode = .active := by decide +kernel
/-- R166: an entry that fills the page of two makes it FULL. -/
theorem test_page_fills : ((produce 0 { kind := .mode }
    (running.setRep 0 { size := 2, pages := 1, page0 := { st := .filling, count := 1 } })).rep 0).page0.st = .full := by
  decide +kernel
/-- R79: of two lines that reach Fault Time at one T1 event the first is the outcome, the second the second fault. -/
theorem test_two_lines_fault_at_one_event :
    let q := (after (.flowFault at1s 1) (after (.flowFault at1s 0) bothFail)).seq 0
    q.outcome = .flowFault ∧ q.item = 1 ∧ q.second = .flowFault := by decide +kernel
/-- R104: a flow fault first, and the pressure fault of the same T1 event second. -/
theorem test_pressure_fault_second :
    let s := (withChambers { pressureFaultTime := 1 } bothFail).setPress 0 { target := 9, evaluating := true, armed := true }
    ((after (.pressureFault at1s 0) (after (.flowFault at1s 0) s)).seq 0).second = .pressureFault := by decide +kernel
/-- R30, R151: a trip or an ABORT taken first, and the flow fault of a T1 event of the same moment second. -/
theorem test_fault_second_to_trip_and_abort :
    ((after (.flowFault at1s 0) (after (.tripLatch at1s 0) (withInterlock 3 {} bothFail))).seq 0).second = .flowFault ∧
      ((after (.flowFault at1s 0) (after (.slotScan at1s 0) (withRequest 5 bothFail))).seq 0).second = .flowFault := by
  decide +kernel
/-- A struck plasma one evaluation short of Reflect Time, with stale readings, in a step whose timer is at its last count. -/
def failingPlasma (q : Seq) : State :=
  (withChambers { reflectTime := 1 } (withSeq { q with run := .step, timer := 1 })).setRf 0 { phase := .struck }
/-- R134: TIMEOUT_ABORT first, and the RF fault of a T1 event of the same moment second. -/
theorem test_rf_fault_second_to_timeout :
    ((after (.rfReflect at1s 0) (after (.stepTimerExpiry at1s 0)
      (failingPlasma { step := { kind := 2, flags := 2, exit := 1 } }))).seq 0).second = .rfReflect := by decide +kernel
/-- R30, R134: an RF fault reached before a step end that honours HOLD_AT_STEP_END closes the HELD run out. -/
theorem test_rf_fault_meets_held :
    let s := after (.struckEvaluation at1s 0) (failingPlasma { seg := { count := 2 }, latch := true, step := { kind := 2 } })
    let h := after (.stepTimerExpiry at1s 0) s
    (h.seq 0).run = .held ∧ ((after (.rfReflect at1s 0) h).seq 0).outcome = .rfReflect := by decide +kernel
/-- R155: FULL_SAFE at the moment of the purge's end skips PUMP_OUT without the flag, in either order. -/
theorem test_purge_end_and_full_safe :
    let s := withChambers { closeLimit := 5 } (withInterlock 3 {} (closing .purge 1))
    let a := (after (.tripLatch at1s 0) (after (.purgeEnd at1s 0) s)).seq 0
    let b := (after (.purgeEnd at1s 0) (after (.tripLatch at1s 0) s)).seq 0
    a.run = .idle ∧ a.pumpOutIncomplete = false ∧ b.run = .idle ∧ b.pumpOutIncomplete = false := by decide +kernel
/-- R61: a LOOP_BACK whose removal ends the segment leaves Loop Depth 0 in the status block. -/
theorem test_loop_depth_at_segment_end :
    let q : Seq := { run := .step, seg := { loopSeg with count := 4 }, shownDepth := 1, loop := [⟨203, 1⟩] }
    let s := ((withSeq q).setMem (memPutWords loopMem (recordAddr 201) [1, 1])).putWord (statusAddr 0 + 16) 65536
    memField (stepStart 0 3 s).mem (statusAddr 0 + 18) 2 = 0 := by decide +kernel
/-- R108, R116: a waiter granted the line with the foreline high stays in the ROUGH_WAIT it entered before. -/
theorem test_grant_keeps_the_stage :
    ((grantRough 1 ((running.setPump 1 { st := .roughWait, mark := 500 }).setNow at1s)).pump 1).mark = 500 := by
  decide +kernel

end Sys2Proof.Tests
end

section
/-! The System Port and the words of a reset (spec/01): what the reads return, which commands reach the port's registers,
and the statements of R3 to R7. -/

namespace Sys2Proof.Machine

/-! ### Commands and the states that answer them -/

section commands
variable (s : State)

theorem exec_applyLayout (t : Moment) : exec (.applyLayout t) s = .next (applyTables (s.setNow (max s.now t))) := rfl

theorem exec_ackTrips (levels : Vector Bool 16) :
    exec (.ackTrips levels) s = if s.port.part = .running then .next (acknowledge levels s) else .next s := rfl

theorem exec_eventSummaryRead (w : Width) :
    exec (.eventSummaryRead w) s = .next (s.setPort { s.port with
      dataOut := s.readReg .summary w, summary := if w = .word then 0 else s.port.summary }) := rfl

theorem exec_eventEnableWrite (v : Word) :
    exec (.eventEnableWrite v) s = .next (s.setPort { s.port with enable := v.setWidth 18 }) := rfl

theorem exec_registerWriteIgnored (addr : Word) (w : Width) (v : Word) :
    exec (.registerWriteIgnored addr w v) s = .next s := rfl

theorem exec_softReset : exec .softReset s = exec .resetInput s := rfl

/-- Each of the three resets puts every block in its reset state over some memory and some last outcomes (R16). -/
theorem exec_of_isReset {i : Instr} (hi : isReset i = true) : ∃ last m, exec i s = .next (resetOver last m s) := by
  cases i with
  | powerOnReset => exact ⟨_, _, rfl⟩
  | resetInput => exact ⟨_, _, rfl⟩
  | softReset => exact ⟨_, _, rfl⟩
  | _ => simp [isReset] at hi

/-- What holds of every reset state over any memory, each of the three resets answers. -/
theorem answers_of_isReset {i : Instr} {P : State → Prop} (hi : isReset i = true)
    (h : ∀ last m, P (resetOver last m s)) : answers i s P := by
  obtain ⟨last, m, he⟩ := exec_of_isReset s hi
  exact ⟨_, he, h last m⟩

/-- An event of a tap has a next state, whether it reaches the block or not. -/
theorem atTap_next (tap : Tap) (t : Moment) (body : State → State) : ∃ s', atTap tap t s body = .next s' := by
  unfold atTap
  split <;> exact ⟨_, rfl⟩

/-- An event between the taps has a next state. -/
theorem atMoment_next (t : Moment) (body : State → State) : ∃ s', atMoment t s body = .next s' := by
  unfold atMoment
  split <;> exact ⟨_, rfl⟩

/-- An event of the Time Base or of a pin has a next state. -/
theorem exec_next_of_isEvent {i : Instr} (hi : isEvent i = true) : ∃ s', exec i s = .next s' := by
  cases i with
  | powerOnReset | resetInput | softReset | applyLayout | ackTrips | eventSummaryRead | eventEnableWrite
  | registerWriteIgnored | hostMemoryWrite => simp [isEvent] at hi
  | extEvent t c => exact atMoment_next s t _
  | _ => exact atTap_next s _ _ _

end commands

/-! ### The words of a reset -/

section resetWords
variable (last : Chamber → Code) (m : Memory) (s : State)

@[simp] theorem resetOver_mem : (resetOver last m s).mem = resetWrites last m := by simp only [resetOver]
@[simp] theorem resetOver_port : (resetOver last m s).port = { dataOut := s.port.dataOut } := rfl

/-- A pass of writes none of which meets a field leaves the field. -/
theorem memField_foldl_outside {α : Type} {f : Memory → α → Memory} {a n : Nat} (xs : List α)
    (h : ∀ x ∈ xs, ∀ m, memField (f m x) a n = memField m a n) :
    memField (xs.foldl f m) a n = memField m a n := by
  induction xs generalizing m with
  | nil => rfl
  | cons x xs ih =>
    rw [List.foldl_cons, ih _ fun y hy => h y (List.mem_cons_of_mem x hy)]
    exact h x List.mem_cons_self m

/-- Below the Global Status image a reset writes the Identity and Layout block alone (R10, R43, R147). -/
theorem memField_resetWrites {a n : Nat} (h : a + n ≤ 0x100) :
    memField (resetWrites last m) a n = memField (resetLayoutBlock m) a n := by
  unfold resetWrites resetMeasurements
  rw [memField_foldl_outside, memField_foldl_outside]
  · refine memField_memPutWords_outside _ _ _ _ _ ?_ ?_ ?_ <;>
      simp only [Config.memorySize, imageAddr, List.length_replicate] <;> omega
  · intro k hk m
    have hk : k < 48 := List.mem_range.mp hk
    refine memField_memPutWords_outside _ _ _ _ _ ?_ ?_ ?_ <;>
      simp only [Config.memorySize, measurementAddr, List.length_cons, List.length_nil] <;> omega
  · intro c _ m
    refine memField_memPutWords_outside _ _ _ _ _ ?_ ?_ ?_ <;>
      simp only [Config.memorySize, statusAddr, List.length_append, List.length_cons, List.length_nil,
        List.length_replicate] <;> omega

/-- The two words of R3 at the start of the Identity and Layout block. -/
theorem memField_resetLayoutBlock {i : Nat} (hi : i < 2) :
    memField (resetLayoutBlock m) (4 * i) 4 = [Config.identity, Config.revision][i] := by
  unfold resetLayoutBlock
  rw [memField_memPutWords_outside]
  · have h := memField_memPutWords_inside m (layoutAddr 0) [Config.identity, Config.revision] i hi
      (by simp [Config.memorySize, layoutAddr])
    simp only [layoutAddr, Nat.zero_add] at h
    rw [layoutAddr, h]
    interval_cases i <;> rfl
  · simp only [Config.memorySize]; omega
  · simp [Config.memorySize, layoutAddr]
  · simp only [layoutAddr]; omega

/-- The low byte of a field is the byte at its address. -/
theorem memField_one_eq_mod {a n : Nat} : memField m a 1 = memField m a (n + 1) % 256 := by
  simp only [memField]
  omega

/-- The Identity word after a reset (R3). -/
theorem resetOver_identity : (resetOver last m s).word 0x00 = Config.identity := by
  rw [State.word, resetOver_mem, memField_resetWrites _ _ (by decide)]
  exact memField_resetLayoutBlock m (i := 0) (by decide)

/-- The revision byte after a reset (R3). -/
theorem resetOver_revision : memField (resetOver last m s).mem 0x04 1 = Config.revision := by
  have h : memField (resetLayoutBlock m) 0x04 4 = Config.revision := memField_resetLayoutBlock m (i := 1) (by decide)
  rw [resetOver_mem, memField_resetWrites _ _ (by decide), memField_one_eq_mod _ (n := 3), h]
  rfl

end resetWords

/-! ### Writes that change the port alone -/

/-- A change of the System Port changes the listed registers alone, if it keeps every register that is not listed. -/
theorem changesOnly_setPort {s : State} {ps : List Part} {x : Port}
    (hpart : .partState ∉ ps → x.part = s.port.part)
    (hresult : .layoutResult ∉ ps → x.result = s.port.result ∧ x.resultEntry = s.port.resultEntry)
    (hsummary : .summary ∉ ps → x.summary = s.port.summary) (henable : .enable ∉ ps → x.enable = s.port.enable)
    (hdata : .dataOut ∉ ps → x.dataOut = s.port.dataOut) : changesOnly ps s (s.setPort x) := by
  intro p hp
  cases p with
  | partState => exact hpart hp
  | layoutResult => exact hresult hp
  | summary => exact hsummary hp
  | enable => exact henable hp
  | dataOut => exact hdata hp
  | _ => rfl

theorem keepsMemory_setPort (s : State) (x : Port) : keepsMemory s (s.setPort x) := fun _ _ => rfl

/-! ### The flags by their bits (R6) -/

/-- The flag that a bit of Event Summary shows. -/
def EventFlag.ofBit (i : Fin 18) : EventFlag :=
  if h : i.val < 16 then
    let c : Chamber := ⟨i.val / 4, by omega⟩
    match i.val % 4 with
    | 0 => .order c
    | 1 => .report c
    | 2 => .fault c
    | _ => .pump c
  else if i.val = 16 then .layout else .interlock

@[simp] theorem EventFlag.bit_ofBit : ∀ i : Fin 18, (EventFlag.ofBit i).bit = i := by decide

@[simp] theorem EventFlag.ofBit_bit (f : EventFlag) : EventFlag.ofBit f.bit = f := by
  cases f with
  | order c => revert c; decide
  | report c => revert c; decide
  | fault c => revert c; decide
  | pump c => revert c; decide
  | layout => rfl
  | interlock => rfl

/-- Two flags have one bit only if they are one flag. -/
theorem EventFlag.bit_inj {f g : EventFlag} : f.bit = g.bit ↔ f = g :=
  ⟨fun h => by rw [← EventFlag.ofBit_bit f, h, EventFlag.ofBit_bit], congrArg _⟩

/-- A flag raised is set, and every other flag stands as before. -/
theorem flagSet_raise (s : State) (f g : EventFlag) : (raise f s).flagSet g = (decide (g = f) || s.flagSet g) := by
  have hbit : f.mask.getLsbD g.bit.val = decide (g = f) := by
    simp [EventFlag.mask, ← Fin.ext_iff, EventFlag.bit_inj, eq_comm]
  simp only [State.flagSet, raise, State.setPort_port_same, BitVec.getLsbD_or, hbit, Bool.or_comm]

@[simp] theorem raise_enable (s : State) (f : EventFlag) : (raise f s).port.enable = s.port.enable := rfl

/-- An Event Summary of 0 has no flag set. -/
theorem flagSet_of_summary_zero {s : State} (h : s.port.summary = 0) (f : EventFlag) : s.flagSet f = false := by
  simp [State.flagSet, h]

/-- An Event Summary of 0 leaves the interrupt output inactive. -/
theorem interrupt_of_summary_zero {s : State} (h : s.port.summary = 0) : s.interrupt = false := by
  simp [State.interrupt, h]

/-- Two sets of flags meet exactly where some flag is in both. -/
theorem and_ne_zero_iff_exists_flag (x y : BitVec 18) :
    x &&& y ≠ 0 ↔ ∃ f : EventFlag, x.getLsbD f.bit.val = true ∧ y.getLsbD f.bit.val = true := by
  constructor
  · intro h
    by_contra hne
    push Not at hne
    refine h (BitVec.eq_of_getLsbD_eq fun i hi => ?_)
    have := hne (EventFlag.ofBit ⟨i, hi⟩)
    simpa using this
  · rintro ⟨f, hx, hy⟩ h
    have hand : (x &&& y).getLsbD f.bit.val = true := by rw [BitVec.getLsbD_and, hx, hy]; rfl
    simp [h] at hand

/-! ### Register reads -/

theorem readReg_word (s : State) (r : PortReg) : s.readReg r .word = s.regValue r := if_pos rfl

theorem readReg_narrow (s : State) (r : PortReg) {w : Width} (hw : w ≠ .word) : s.readReg r w = 0 := if_neg hw

/-- The bits of a register of 18 bits as a word read shows them. -/
theorem getLsbD_setWidth_port (x : BitVec 18) (i : Nat) : (x.setWidth 32).getLsbD i = x.getLsbD i := by
  by_cases h : i < 18
  · simp [show i < 32 by omega]
  · simp [BitVec.getLsbD_setWidth, BitVec.getLsbD_of_ge x i (by omega)]

theorem PartState.code_lt (p : PartState) : p.code < 2 := by cases p <;> decide

theorem LayoutCode.code_lt (r : LayoutCode) : r.code < 10 := by cases r <;> decide

/-- The fields of a read of Command/State (R5). -/
theorem readReg_command_toNat (s : State) : (s.readReg .command .word).toNat =
    s.port.part.code + 256 * s.port.result.code + 65536 * (s.port.resultEntry % 256) := by
  have hp := s.port.part.code_lt
  have hr := s.port.result.code_lt
  simp only [readReg_word, State.regValue, BitVec.toNat_ofNat, pack8]
  omega

/-! ### Register writes -/

/-- A word write to Command/State is read by its bits 0 to 7 (R4). -/
theorem readRegWrite_command {addr : Word} (v : Word) (h : selectReg addr = .command) :
    readRegWrite addr .word v =
      if v.toNat % 256 = 1 then .applyLayout
      else if v.toNat % 256 = 2 then .ackTrips
      else if v.toNat % 256 = 3 then .softReset
      else .ignored := by
  simp only [readRegWrite, h, if_true]
  split <;> simp_all

/-- A write of any width to a register that takes none is ignored (R3, R6). -/
theorem wellFormed_registerWriteIgnored {addr : Word} (w : Width) (v : Word)
    (h : selectReg addr = .identity ∨ selectReg addr = .summary) :
    wellFormed (.registerWriteIgnored addr w v) = true := by
  rcases h with h | h <;> simp [wellFormed, readRegWrite, h]

/-! ### ACK_TRIPS -/

/-- One input's part in clearTrips. -/
def clearTrip (levels : Vector Bool 16) (k : InputId) (s : State) : State :=
  if (s.ilk k).trip then
    let pinned := interlockPin k levels[k] s
    if acknowledges s levels k then pinned.modIlk k fun x => { x with trip := false, count := 0 } else pinned
  else s

theorem clearTrips_eq (levels : Vector Bool 16) (s : State) : clearTrips levels s = forInputs (clearTrip levels) s := rfl

section ack
variable (levels : Vector Bool 16) (s : State)

@[simp] theorem interlockPin_ilk (k j : InputId) (level : Bool) : (interlockPin k level s).ilk j = s.ilk j := rfl

theorem clearTrip_ilkCfg (k j : InputId) : (clearTrip levels k s).ilkCfg j = s.ilkCfg j := by
  unfold clearTrip
  split
  · dsimp only
    split <;> rfl
  · rfl

theorem clearTrip_trip_same (k : InputId) :
    ((clearTrip levels k s).ilk k).trip = ((s.ilk k).trip && (s.ilkCfg k).activeAt levels[k]) := by
  unfold clearTrip
  split
  next ht =>
    dsimp only
    split
    next ha =>
      simp only [acknowledges, ht, Bool.true_and, Bool.not_eq_true'] at ha
      rw [State.modIlk_eq, State.setIlk_ilk_same, ha, Bool.and_false]
    next ha =>
      simp only [acknowledges, ht, Bool.true_and, Bool.not_eq_true', Bool.not_eq_false] at ha
      rw [interlockPin_ilk, ha, Bool.and_true]
  next ht => simp [ht]

theorem clearTrip_ilk_ne {k j : InputId} (h : j ≠ k) : (clearTrip levels k s).ilk j = s.ilk j := by
  unfold clearTrip
  split
  · dsimp only
    split
    · rw [State.modIlk_eq, State.setIlk_ilk_ne _ _ _ _ h, interlockPin_ilk]
    · rfl
  · rfl

/-- A pass of clearTrip leaves latched, of the inputs it meets, those whose level is active. -/
theorem foldl_clearTrip_trip (j : InputId) (ks : List InputId) :
    ((ks.foldl (fun s k => clearTrip levels k s) s).ilk j).trip =
      ((s.ilk j).trip && (decide (j ∉ ks) || (s.ilkCfg j).activeAt levels[j])) := by
  induction ks generalizing s with
  | nil => simp
  | cons k ks ih =>
    rw [List.foldl_cons, ih, clearTrip_ilkCfg]
    by_cases hj : j = k
    · subst hj
      rw [clearTrip_trip_same]
      cases (s.ilkCfg j).activeAt levels[j] <;> simp
    · rw [clearTrip_ilk_ne _ _ hj]
      simp [hj]

theorem clearTrips_trip (j : InputId) :
    ((clearTrips levels s).ilk j).trip = ((s.ilk j).trip && (s.ilkCfg j).activeAt levels[j]) := by
  rw [clearTrips_eq, forInputs, foldl_clearTrip_trip]
  simp

theorem liftInhibits_trip (c : Chamber) (j : InputId) : ((liftInhibits c s).ilk j).trip = (s.ilk j).trip := by
  unfold liftInhibits
  dsimp only
  split
  · split
    · rw [Keeps.openPurge.core.trips]; rfl
    · rfl
  · rfl

theorem forChambers_liftInhibits_trip (j : InputId) :
    ((forChambers liftInhibits s).ilk j).trip = (s.ilk j).trip := by
  unfold forChambers
  induction List.finRange 4 generalizing s with
  | nil => rfl
  | cons c cs ih => rw [List.foldl_cons, ih, liftInhibits_trip]

/-- After ACK_TRIPS in RUNNING exactly the trips whose input is active stay latched (R152). -/
theorem acknowledge_trip (j : InputId) :
    ((acknowledge levels s).ilk j).trip = ((s.ilk j).trip && (s.ilkCfg j).activeAt levels[j]) := by
  unfold acknowledge
  split
  next =>
    rw [forChambers_liftInhibits_trip, Keeps.raise.core.trips, Keeps.imageInterlock.core.trips, clearTrips_trip]
  next hnone =>
    have hj : acknowledges s levels j = false := by
      simp only [List.any_eq_true, not_exists, not_and, Bool.not_eq_true] at hnone
      exact hnone j (List.mem_finRange j)
    cases ht : (s.ilk j).trip with
    | false => rfl
    | true => simpa [acknowledges, ht] using hj

end ack

/-! ### APPLY_LAYOUT and its result -/

section layoutApply
variable (s : State)

/-- Every apply ends in the record of its result: BUSY with entry 0, the first failing check with the entry it names, or OK
with entry 0 (R5, R12). -/
theorem applyTables_eq : ∃ code entry t, applyTables s = recordLayout code entry t ∧
    (code = .busy ∧ entry = 0 ∨ code = .ok ∧ entry = 0 ∨ checkTables (readTables s.mem) = some (code, entry)) := by
  unfold applyTables
  split
  · exact ⟨_, _, _, rfl, .inl ⟨rfl, rfl⟩⟩
  · dsimp only
    split
    next code entry hc => exact ⟨code, entry, s, rfl, .inr (.inr hc)⟩
    next hc =>
      split
      · exact ⟨_, _, _, rfl, .inr (.inl ⟨rfl, rfl⟩)⟩
      · exact ⟨_, _, _, rfl, .inr (.inl ⟨rfl, rfl⟩)⟩

/-- LAYOUT is set after every APPLY_LAYOUT (R6). -/
theorem flagSet_layout_applyTables : (applyTables s).flagSet .layout = true := by
  obtain ⟨code, entry, t, he, -⟩ := applyTables_eq s
  rw [he, recordLayout, flagSet_raise]
  simp

end layoutApply

section checks
variable {tab : Tables} {code : LayoutCode} {entry : Nat}

theorem checkScan_code {j : Fin 48} (h : checkScan tab j = some code) : code = .badScan ∨ code = .badConversion := by
  unfold checkScan at h
  dsimp only at h
  split_ifs at h <;> cases h <;> simp

theorem checkLine_code {k : LineId} (h : checkLine tab k = some code) : code = .badLine := by
  unfold checkLine at h
  dsimp only at h
  split_ifs at h
  exact (Option.some.inj h).symm

theorem checkChamber_code {c : Chamber} (h : checkChamber tab c = some code) :
    code = .badChamber ∨ code = .badPurgeLine := by
  unfold checkChamber at h
  dsimp only at h
  split_ifs at h <;> cases h <;> simp

theorem checkInterlock_code {k : InputId} (h : checkInterlock tab k = some code) : code = .badInterlock := by
  unfold checkInterlock at h
  dsimp only at h
  split_ifs at h <;> cases h <;> simp

/-- An entry's check that a pass over the entries finds first is the check of the entry it names. -/
theorem exists_of_findSome {n : Nat} {check : Fin n → Option LayoutCode} {name : Fin n → Nat}
    (h : ((List.finRange n).findSome? fun j => (check j).map fun x => (x, name j)) = some (code, entry)) :
    ∃ j, entry = name j ∧ check j = some code := by
  obtain ⟨j, -, hj⟩ := List.exists_of_findSome?_eq_some h
  simp only [Option.map_eq_some_iff, Prod.mk.injEq] at hj
  obtain ⟨x, hx, rfl, rfl⟩ := hj
  exact ⟨j, rfl, hx⟩

/-- The failing check that checkTables answers, with the number of the entry that fails it. -/
theorem checkTables_some (h : checkTables tab = some (code, entry)) :
    (code = .badPartition ∧ entry = 0) ∨ (∃ j : Fin 48, entry = j.val ∧ checkScan tab j = some code) ∨
      (∃ k : LineId, entry = k.val + 1 ∧ checkLine tab k = some code) ∨
      (∃ c : Chamber, entry = c.val + 1 ∧ checkChamber tab c = some code) ∨
      ∃ k : InputId, entry = k.val + 1 ∧ checkInterlock tab k = some code := by
  unfold checkTables at h
  split at h
  · cases h
    exact .inl ⟨rfl, rfl⟩
  · simp only [Option.or_eq_some_iff] at h
    rcases h with (hs | ⟨-, hl⟩) | ⟨-, hc | ⟨-, hi⟩⟩
    · exact .inr (.inl (exists_of_findSome hs))
    · exact .inr (.inr (.inl (exists_of_findSome hl)))
    · exact .inr (.inr (.inr (.inl (exists_of_findSome hc))))
    · exact .inr (.inr (.inr (.inr (exists_of_findSome hi))))

end checks

/-! ### The commands that leave Command/State -/

theorem Stays.result_same {s s' : State} (h : Stays s s') :
    s'.port.part = s.port.part ∧ s'.port.result = s.port.result ∧ s'.port.resultEntry = s.port.resultEntry :=
  ⟨h.part, h.result, h.entry⟩

/-- A command that is neither a reset nor an apply keeps the part state and the layout result (R5). -/
theorem answers_result_same {i : Instr} (s : State) (hr : isReset i = false) (ha : isApply i = false) :
    answers i s fun s' =>
      s'.port.part = s.port.part ∧ s'.port.result = s.port.result ∧ s'.port.resultEntry = s.port.resultEntry := by
  cases he : isEvent i with
  | true =>
    obtain ⟨s', hs'⟩ := exec_next_of_isEvent s he
    exact ⟨s', hs', (works_of_event he hs').stays.result_same⟩
  | false =>
    cases i with
    | powerOnReset | resetInput | softReset => simp [isReset] at hr
    | applyLayout t => simp [isApply] at ha
    | ackTrips levels =>
      unfold answers
      rw [exec_ackTrips]
      split
      · exact ⟨_, rfl, Stays.acknowledge.result_same⟩
      · exact ⟨s, rfl, rfl, rfl, rfl⟩
    | eventSummaryRead w => exact ⟨_, exec_eventSummaryRead s w, rfl, rfl, rfl⟩
    | eventEnableWrite v => exact ⟨_, exec_eventEnableWrite s v, rfl, rfl, rfl⟩
    | registerWriteIgnored addr w v => exact ⟨s, exec_registerWriteIgnored s addr w v, rfl, rfl, rfl⟩
    | hostMemoryWrite addr w v => exact ⟨_, rfl, rfl, rfl, rfl⟩
    | _ => simp [isEvent] at he

/-! ### The statements -/

/-- Settles O4: the command code by cases on bits 0 to 7, and each command's reach from the rule of its operation. -/
theorem commandRegister : Obligations.CommandRegister := by
  refine ⟨fun addr v h => readRegWrite_command v h, fun s addr v w _ => exec_registerWriteIgnored s addr w v,
    fun s t => ⟨_, exec_applyLayout s t, flagSet_layout_applyTables _⟩, fun s levels h => ?_, fun s levels h => ?_,
    exec_softReset⟩
  · rw [exec_ackTrips, if_neg (by simp [h])]
  · exact ⟨acknowledge levels s, by rw [exec_ackTrips, if_pos h], acknowledge_trip levels s⟩

/-- Settles O5: the read by arithmetic, the named entry from the check that failed, and the frame from Stays. -/
theorem commandStateReads : Obligations.CommandStateReads := by
  refine ⟨readReg_command_toNat, ⟨rfl, rfl⟩, rfl, fun s t => ⟨_, exec_applyLayout s t, ?_⟩,
    fun i s hi => answers_of_isReset s hi fun _ _ => ⟨rfl, rfl, rfl⟩, fun i s hr ha => answers_result_same s hr ha⟩
  obtain ⟨code, entry, u, he, hcode⟩ := applyTables_eq (s.setNow (max s.now t))
  rw [State.setNow_mem] at hcode
  rw [he, recordLayout_result, recordLayout_entry]
  rcases hcode with ⟨rfl, rfl⟩ | ⟨rfl, rfl⟩ | hcheck
  · rfl
  · rfl
  rcases checkTables_some hcheck with ⟨rfl, rfl⟩ | ⟨j, hj⟩ | ⟨k, hk⟩ | ⟨c, hc⟩ | ⟨k, hk⟩
  · rfl
  · rcases checkScan_code hj.2 with rfl | rfl <;> exact ⟨j, hj⟩
  · cases checkLine_code hk.2
    exact ⟨k, hk⟩
  · rcases checkChamber_code hc.2 with rfl | rfl <;> exact ⟨c, hc⟩
  · cases checkInterlock_code hk.2
    exact ⟨k, hk⟩

/-- Settles O6: the flags by their bits, and each access of the register from the rule of its command. -/
theorem eventSummaryRegister : Obligations.EventSummaryRegister := by
  refine ⟨fun c => ⟨rfl, rfl, rfl, rfl⟩, ⟨rfl, rfl⟩, fun s f => ?_, fun s i hi => ?_, flagSet_raise,
    fun s t => ⟨_, exec_applyLayout s t, flagSet_layout_applyTables _⟩,
    fun s => ⟨_, exec_eventSummaryRead s .word, ?_, flagSet_of_summary_zero rfl, ?_, keepsMemory_setPort s _⟩,
    fun s w hw => ⟨_, exec_eventSummaryRead s w, readReg_narrow s .summary hw, ?_, keepsMemory_setPort s _⟩,
    fun s addr v w h =>
      ⟨wellFormed_registerWriteIgnored w v (.inr h), exec_registerWriteIgnored s addr w v⟩,
    fun i s f hi => answers_of_isReset s hi fun _ _ => flagSet_of_summary_zero rfl f⟩
  · rw [readReg_word]
    exact getLsbD_setWidth_port _ _
  · rw [readReg_word, State.regValue, getLsbD_setWidth_port]
    exact BitVec.getLsbD_of_ge _ _ hi
  · exact readReg_word s .summary
  · apply changesOnly_setPort <;> simp
  · apply changesOnly_setPort <;> simp [hw]

/-- Settles O7: the enable bits by their bits, and the interrupt output from the flags that both registers hold. -/
theorem eventEnableAndInterrupt : Obligations.EventEnableAndInterrupt := by
  refine ⟨fun s v => ⟨_, exec_eventEnableWrite s v, fun i => ?_, ?_, keepsMemory_setPort s _⟩, fun s => ?_,
    fun s f => ⟨by simp [flagSet_raise], raise_enable s f⟩,
    fun s => ⟨_, exec_eventSummaryRead s .word, interrupt_of_summary_zero rfl⟩,
    fun i s hi => answers_of_isReset s hi fun _ _ => ⟨rfl, interrupt_of_summary_zero rfl⟩⟩
  · rw [readReg_word, State.regValue, getLsbD_setWidth_port, State.setPort_port_same, BitVec.getLsbD_setWidth]
  · apply changesOnly_setPort <;> simp
  · rw [State.interrupt, decide_eq_true_eq]
    exact and_ne_zero_iff_exists_flag _ _

/-- Settles O3: the register's constant, its ignored write, and the block's two words after each reset. -/
theorem identityRegister : Obligations.IdentityRegister := by
  refine ⟨fun s => readReg_word s .identity, fun s addr v w h => ?_, fun i s hi => ?_⟩
  · exact ⟨wellFormed_registerWriteIgnored w v (.inl h), exec_registerWriteIgnored s addr w v⟩
  · exact answers_of_isReset s hi fun last m => ⟨resetOver_identity last m s, resetOver_revision last m s⟩

end Sys2Proof.Machine
end

section
/-! The flow band of a line and its judgement at an evaluation (spec/04): what `lineInBand` reads, what a T1 event does
to a line that an evaluation meets, and the statement of R75. -/

namespace Sys2Proof.Machine

variable {s : State} {k : LineId} {c : Chamber}

/-! ### The band -/

theorem absDiff_eq_natAbs (a b : Nat) : absDiff a b = ((a : Int) - b).natAbs := by
  unfold absDiff
  split <;> omega

/-- At setpoint 0 the share of the setpoint is 0 and the floor of the band remains (R75). -/
theorem flowBand_zero (cfg : LineCfg) : flowBand 0 cfg = cfg.fullScale / 200 := by simp [flowBand]

/-- The rule for a stale F and the band, as R75 has them. -/
theorem lineInBand_iff (s : State) (k : LineId) : lineInBand s k = true ↔
    s.staleAt (s.lineCfg k).readback = false ∧
      ((s.flowAt k : Int) - (s.line k).setpoint).natAbs ≤ flowBand (s.line k).setpoint (s.lineCfg k) := by
  rw [lineInBand, absDiff_eq_natAbs, Bool.and_eq_true, Bool.not_eq_true', decide_eq_true_eq]

/-- Of the line itself the judgement reads the setpoint only. -/
theorem lineInBand_setLine {x : Line} (hx : x.setpoint = (s.line k).setpoint) :
    lineInBand (s.setLine k x) k = lineInBand s k := by
  rw [Bool.eq_iff_iff, lineInBand_iff, lineInBand_iff, State.setLine_line_same, hx]
  rfl

/-- The judgement at an evaluation does not depend on the moment. -/
theorem lineInBand_setNow (t : Moment) : lineInBand (s.setNow t) k = lineInBand s k := rfl

/-! ### The counts after an evaluation -/

theorem Line.judged_outCount (l : Line) (cfg : LineCfg) (inBand : Bool) :
    (l.judged cfg inBand).outCount = if inBand then 0 else min (l.outCount + 1) cfg.faultTime := by
  cases inBand with
  | true => cases hd : l.dwell <;> simp [Line.judged, hd]
  | false => rfl

/-- Where Fault Time is in use, the out-of-band count tells how the line was judged. -/
theorem Line.judged_outCount_eq_zero_iff (l : Line) {cfg : LineCfg} (inBand : Bool) (hf : 0 < cfg.faultTime) :
    (l.judged cfg inBand).outCount = 0 ↔ inBand = true := by
  rw [Line.judged_outCount]
  cases inBand with
  | true => simp
  | false => simp only [Bool.false_eq_true, if_false, iff_false]; omega

/-- Without a Stable Dwell an evaluation leaves the stability of the line alone (R77). -/
theorem Line.judged_stable_of_dwell_none {l : Line} (hd : l.dwell = none) (cfg : LineCfg) (inBand : Bool) :
    (l.judged cfg inBand).stable = l.stable := by
  cases inBand <;> simp [Line.judged, hd]

/-! ### A line's T1 event -/

theorem Line.ramped_of_ramp_none {l : Line} (hr : l.ramp = none) (cfg : LineCfg) (stepping : Bool) :
    l.ramped cfg stepping = l := by
  simp [Line.ramped, hr]

/-- The conditions of R76. -/
theorem evaluated_iff : evaluated s k = true ↔ ∃ c, (s.line k).openTo = some c ∧ (s.line k).source = .step ∧
    (s.seq c).run = .step ∧ (s.line k).ramp = none ∧ (s.seq c).step.names k = true := by
  unfold evaluated
  cases (s.line k).openTo with
  | none => simp
  | some c => simp [and_assoc]

/-- A line whose event of a moment is done. -/
def Line.marked (l : Line) (t : Moment) : Line := { l with mark := t }

@[simp] theorem Line.marked_openTo (l : Line) (t : Moment) : (l.marked t).openTo = l.openTo := rfl
@[simp] theorem Line.marked_source (l : Line) (t : Moment) : (l.marked t).source = l.source := rfl
@[simp] theorem Line.marked_setpoint (l : Line) (t : Moment) : (l.marked t).setpoint = l.setpoint := rfl
@[simp] theorem Line.marked_ramp (l : Line) (t : Moment) : (l.marked t).ramp = l.ramp := rfl
@[simp] theorem Line.marked_dwell (l : Line) (t : Moment) : (l.marked t).dwell = l.dwell := rfl
@[simp] theorem Line.marked_stable (l : Line) (t : Moment) : (l.marked t).stable = l.stable := rfl

/-- Of the line itself the conditions of R76 leave the mark out. -/
theorem evaluated_setLine_marked (t : Moment) :
    evaluated (s.setLine k ((s.line k).marked t)) k = evaluated s k := by
  simp [evaluated]

/-- The state in which a line open to a chamber is judged: its ramp step of this event taken, its mark set (R73). -/
def rampLine (k : LineId) (c : Chamber) (s : State) : State :=
  s.setLine k
    (((s.line k).ramped (s.lineCfg k) (decide ((s.line k).source = .step ∧ (s.seq c).run = .step))).marked s.now)

theorem rampLine_of_ramp_none (hr : (s.line k).ramp = none) :
    rampLine k c s = s.setLine k ((s.line k).marked s.now) := by
  rw [rampLine, Line.ramped_of_ramp_none hr]

/-- The work of an open line whose event of this moment is not done: the ramp step, then the evaluation. -/
theorem lineWork_of_open (ho : (s.line k).openTo = some c) (hm : (s.line k).mark < s.now) :
    lineWork k s =
      if evaluated (rampLine k c s) k then
        (rampLine k c s).modLine k fun l => l.judged (s.lineCfg k) (lineInBand (rampLine k c s) k)
      else rampLine k c s := by
  simp only [lineWork, ho, State.after, hm, decide_true, if_true]
  rfl

/-- A T1 event after the hand-off judges a line that R76 evaluates against the band at its present setpoint (R75). -/
theorem lineWork_of_evaluated (he : evaluated s k = true) (hm : (s.line k).mark < s.now) :
    lineWork k s = s.setLine k (((s.line k).marked s.now).judged (s.lineCfg k) (lineInBand s k)) := by
  obtain ⟨c, ho, -, -, hr, -⟩ := evaluated_iff.1 he
  rw [lineWork_of_open ho hm, rampLine_of_ramp_none hr, evaluated_setLine_marked, if_pos he,
    lineInBand_setLine (Line.marked_setpoint _ _), State.modLine_eq, State.setLine_line_same, State.setLine_setLine]

/-- Outside a STABLE step no evaluation makes a line stable (R77). -/
theorem lineBecomesStable_of_dwell_none (he : evaluated s k = true) (hm : (s.line k).mark < s.now)
    (hd : (s.line k).dwell = none) : lineBecomesStable s k = false := by
  rw [lineBecomesStable, lineWork_of_evaluated he hm, State.setLine_line_same,
    Line.judged_stable_of_dwell_none ((Line.marked_dwell _ _).trans hd), Line.marked_stable, Bool.not_and_self]

/-- The event of an open line that does not become stable at it is the line's work alone. -/
theorem lineEvent_of_not_becomesStable (ho : (s.line k).openTo = some c) (hs : lineBecomesStable s k = false) :
    lineEvent k s = lineWork k s := by
  simp [lineEvent, ho, hs]

/-- An event of a tap that reaches the block does its work at its moment. -/
theorem atTap_of_eventAt {tap : Tap} {t : Moment} (h : eventAt tap t s) (body : State → State) :
    atTap tap t s body = .next (body (s.setNow t)) := if_pos h

theorem exec_flowEvaluation_of_eventAt {t : Moment} (h : eventAt .t1 t s) :
    exec (.flowEvaluation t k) s = .next (lineEvent k (s.setNow t)) := atTap_of_eventAt h (lineEvent k)

/-! ### The statement -/

/-- Settles O30: the band by its definition, the judgement from `lineInBand_iff`, and the evaluation from what a T1
event leaves of the line's out-of-band count. -/
theorem flowBandJudgesEachEvaluation : Obligations.FlowBandJudgesEachEvaluation := by
  refine ⟨fun _ _ => rfl, flowBand_zero, lineInBand_iff,
    fun s t c k hev hopen hsource hramp hmark hrun hnames hdwell hfault => ?_⟩
  have he : evaluated (s.setNow t) k = true := evaluated_iff.2 ⟨c, hopen, hsource, hrun, hramp, hnames⟩
  have hevent : lineEvent k (s.setNow t) = lineWork k (s.setNow t) :=
    lineEvent_of_not_becomesStable hopen (lineBecomesStable_of_dwell_none he hmark hdwell)
  refine ⟨_, exec_flowEvaluation_of_eventAt hev, ?_⟩
  beta_reduce
  rw [hevent, lineWork_of_evaluated he hmark, State.setLine_line_same]
  exact Line.judged_outCount_eq_zero_iff _ _ hfault

end Sys2Proof.Machine
end

section
/-! Frames: the parts, the byte ranges and the flags that an operation may change, one rule per update of the state. -/

namespace Sys2Proof.Machine

/-! ### The frame of a change -/

/-- Every part but those listed, every byte outside the listed ranges and every flag but those listed is the same. -/
structure Frame (ps : List Part) (rs : List Bytes) (fs : List EventFlag) (s s' : State) : Prop where
  parts : changesOnly ps s s'
  bytes : storesOnly rs s s'
  flags : flagsOnly fs s s'

/-- A range lies within one of the listed ranges. -/
def covered (rs : List Bytes) (r : Bytes) : Prop := ∃ r' ∈ rs, r'.1 ≤ r.1 ∧ r.1 + r.2 ≤ r'.1 + r'.2

theorem Part.same_refl (s : State) (p : Part) : p.same s s := by
  cases p <;> simp [Part.same]

theorem Part.same_trans {a b d : State} {p : Part} (h : p.same a b) (g : p.same b d) : p.same a d := by
  cases p with
  | layoutResult => exact ⟨g.1.trans h.1, g.2.trans h.2⟩
  | _ => exact Eq.trans g h

theorem inBytes_of_covered {rs : List Bytes} {r : Bytes} {a : Nat} (h : covered rs r) (ha : inBytes a r) :
    ∃ r' ∈ rs, inBytes a r' := by
  obtain ⟨r', hr, h1, h2⟩ := h
  obtain ⟨i, hi, rfl⟩ := ha
  exact ⟨r', hr, r.1 - r'.1 + i, by omega, by congr 1; omega⟩

section frame
variable {ps : List Part} {rs : List Bytes} {fs : List EventFlag} {s s' : State} {c : Chamber}

theorem Frame.refl (s : State) : Frame ps rs fs s s :=
  ⟨fun p _ => p.same_refl s, fun _ _ _ => rfl, fun _ _ => rfl⟩

theorem Frame.trans {a b d : State} (h : Frame ps rs fs a b) (g : Frame ps rs fs b d) : Frame ps rs fs a d where
  parts p hp := Part.same_trans (h.parts p hp) (g.parts p hp)
  bytes x hx hr := (g.bytes x hx hr).trans (h.bytes x hx hr)
  flags f hf := (g.flags f hf).trans (h.flags f hf)

/-- A frame holds with more parts, wider ranges and more flags. -/
theorem Frame.mono {ps' : List Part} {rs' : List Bytes} {fs' : List EventFlag} (h : Frame ps rs fs s s')
    (hp : ps ⊆ ps' := by simp) (hr : ∀ r ∈ rs, covered rs' r := by simp [covered]) (hf : fs ⊆ fs' := by simp) :
    Frame ps' rs' fs' s s' where
  parts p hn := h.parts p fun m => hn (hp m)
  bytes a ha hn := h.bytes a ha fun r hm hi =>
    let ⟨r', hr', hi'⟩ := inBytes_of_covered (hr r hm) hi
    hn r' hr' hi'
  flags f hn := h.flags f fun m => hn (hf m)

theorem Frame.ite {p : Prop} [Decidable p] {a b : State} (ha : p → Frame ps rs fs s a) (hb : ¬ p → Frame ps rs fs s b) :
    Frame ps rs fs s (if p then a else b) := by
  split
  · exact ha ‹_›
  · exact hb ‹_›

theorem Frame.foldl {α : Type} {f : State → α → State} (h : ∀ s x, Frame ps rs fs s (f s x)) (xs : List α) (s : State) :
    Frame ps rs fs s (xs.foldl f s) := by
  induction xs generalizing s with
  | nil => exact .refl s
  | cons x xs ih => exact (h s x).trans (ih _)

/-- A change of one part that leaves the memory and the flags. -/
theorem Frame.of_part {p₀ : Part} (h : p₀ ∈ ps) (parts : ∀ p, p ≠ p₀ → p.same s s') (mem : s'.mem = s.mem)
    (summary : s'.port.summary = s.port.summary) : Frame ps rs fs s s' where
  parts p hn := parts p fun e => hn (e ▸ h)
  bytes a _ _ := by rw [mem]
  flags f _ := by simp only [State.flagSet, summary]

/-! ### What a frame leaves -/

/-- A field outside the listed ranges reads as before. -/
theorem Frame.field (h : Frame ps rs fs s s') {a n : Nat} (ha : a + n ≤ Config.memorySize)
    (hr : ∀ r ∈ rs, r.1 + r.2 ≤ Config.memorySize ∧ (a + n ≤ r.1 ∨ r.1 + r.2 ≤ a)) :
    memField s'.mem a n = memField s.mem a n := by
  refine memField_congr _ _ _ _ fun i hi => h.bytes _ (by omega) ?_
  rintro r hm ⟨j, hj, e⟩
  obtain ⟨h1, h2⟩ := hr r hm
  rw [Nat.mod_eq_of_lt (by omega)] at e
  omega

/-! ### The frames of the updates -/

theorem Frame.setSeq {x : Seq} (h : .seq c ∈ ps := by simp) : Frame ps rs fs s (s.setSeq c x) := by
  refine .of_part h (fun p hp => ?_) rfl rfl
  cases p with
  | seq d => exact State.setSeq_seq_ne _ _ _ _ fun e => hp (e ▸ rfl)
  | layoutResult => exact ⟨rfl, rfl⟩
  | _ => rfl
theorem Frame.setRf {x : Rf} (h : .rf c ∈ ps := by simp) : Frame ps rs fs s (s.setRf c x) := by
  refine .of_part h (fun p hp => ?_) rfl rfl
  cases p with
  | rf d => exact State.setRf_rf_ne _ _ _ _ fun e => hp (e ▸ rfl)
  | layoutResult => exact ⟨rfl, rfl⟩
  | _ => rfl
theorem Frame.setPress {x : Press} (h : .press c ∈ ps := by simp) : Frame ps rs fs s (s.setPress c x) := by
  refine .of_part h (fun p hp => ?_) rfl rfl
  cases p with
  | press d => exact State.setPress_press_ne _ _ _ _ fun e => hp (e ▸ rfl)
  | layoutResult => exact ⟨rfl, rfl⟩
  | _ => rfl
theorem Frame.setPump {x : Pump} (h : .pump c ∈ ps := by simp) : Frame ps rs fs s (s.setPump c x) := by
  refine .of_part h (fun p hp => ?_) rfl rfl
  cases p with
  | pump d => exact State.setPump_pump_ne _ _ _ _ fun e => hp (e ▸ rfl)
  | layoutResult => exact ⟨rfl, rfl⟩
  | _ => rfl
theorem Frame.setEcon {x : Econ} (h : .econ c ∈ ps := by simp) : Frame ps rs fs s (s.setEcon c x) := by
  refine .of_part h (fun p hp => ?_) rfl rfl
  cases p with
  | econ d => exact State.setEcon_econ_ne _ _ _ _ fun e => hp (e ▸ rfl)
  | layoutResult => exact ⟨rfl, rfl⟩
  | _ => rfl
theorem Frame.setRep {x : Rep} (h : .rep c ∈ ps := by simp) : Frame ps rs fs s (s.setRep c x) := by
  refine .of_part h (fun p hp => ?_) rfl rfl
  cases p with
  | rep d => exact State.setRep_rep_ne _ _ _ _ fun e => hp (e ▸ rfl)
  | layoutResult => exact ⟨rfl, rfl⟩
  | _ => rfl
theorem Frame.setGasInhibit {x : Bool} (h : .gasInhibit c ∈ ps := by simp) :
    Frame ps rs fs s (s.setGasInhibit c x) := by
  refine .of_part h (fun p hp => ?_) rfl rfl
  cases p with
  | gasInhibit d => exact State.setGasInhibit_gasInhibit_ne _ _ _ _ fun e => hp (e ▸ rfl)
  | layoutResult => exact ⟨rfl, rfl⟩
  | _ => rfl
theorem Frame.setLine {k : LineId} {x : Line} (h : .line k ∈ ps := by simp) : Frame ps rs fs s (s.setLine k x) := by
  refine .of_part h (fun p hp => ?_) rfl rfl
  cases p with
  | line d => exact State.setLine_line_ne _ _ _ _ fun e => hp (e ▸ rfl)
  | layoutResult => exact ⟨rfl, rfl⟩
  | _ => rfl
theorem Frame.setArb {k : LineId} {x : Arb} (h : .arb k ∈ ps := by simp) : Frame ps rs fs s (s.setArb k x) := by
  refine .of_part h (fun p hp => ?_) rfl rfl
  cases p with
  | arb d => exact State.setArb_arb_ne _ _ _ _ fun e => hp (e ▸ rfl)
  | layoutResult => exact ⟨rfl, rfl⟩
  | _ => rfl
theorem Frame.setChan {k : ChannelId} {x : Chan} (h : .chan k ∈ ps := by simp) : Frame ps rs fs s (s.setChan k x) := by
  refine .of_part h (fun p hp => ?_) rfl rfl
  cases p with
  | chan d => exact State.setChan_chan_ne _ _ _ _ fun e => hp (e ▸ rfl)
  | layoutResult => exact ⟨rfl, rfl⟩
  | _ => rfl
theorem Frame.setIlk {k : InputId} {x : Ilk} (h : .ilk k ∈ ps := by simp) : Frame ps rs fs s (s.setIlk k x) := by
  refine .of_part h (fun p hp => ?_) rfl rfl
  cases p with
  | ilk d => exact State.setIlk_ilk_ne _ _ _ _ fun e => hp (e ▸ rfl)
  | layoutResult => exact ⟨rfl, rfl⟩
  | _ => rfl
theorem Frame.setNow {t : Moment} (h : .now ∈ ps := by simp) : Frame ps rs fs s (s.setNow t) := by
  refine .of_part h (fun p hp => ?_) rfl rfl
  cases p with
  | now => exact absurd rfl hp
  | layoutResult => exact ⟨rfl, rfl⟩
  | _ => rfl
theorem Frame.bumpUses (h : .uses ∈ ps := by simp) : Frame ps rs fs s s.bumpUses := by
  refine .of_part h (fun p hp => ?_) rfl rfl
  cases p with
  | uses => exact absurd rfl hp
  | layoutResult => exact ⟨rfl, rfl⟩
  | _ => rfl
theorem Frame.setTables {x : Tables} (h : .tables ∈ ps := by simp) : Frame ps rs fs s (s.setTables x) := by
  refine .of_part h (fun p hp => ?_) rfl rfl
  cases p with
  | tables => exact absurd rfl hp
  | layoutResult => exact ⟨rfl, rfl⟩
  | _ => rfl
theorem Frame.setPins {x : Pins} (h : .pins ∈ ps := by simp) : Frame ps rs fs s (s.setPins x) := by
  refine .of_part h (fun p hp => ?_) rfl rfl
  cases p with
  | pins => exact absurd rfl hp
  | layoutResult => exact ⟨rfl, rfl⟩
  | _ => rfl
theorem Frame.setWaitQueue {x : List WaitEntry} (h : .waitQueue ∈ ps := by simp) :
    Frame ps rs fs s (s.setWaitQueue x) := by
  refine .of_part h (fun p hp => ?_) rfl rfl
  cases p with
  | waitQueue => exact absurd rfl hp
  | layoutResult => exact ⟨rfl, rfl⟩
  | _ => rfl
theorem Frame.setRough {x : Rough} (h : .rough ∈ ps := by simp) : Frame ps rs fs s (s.setRough x) := by
  refine .of_part h (fun p hp => ?_) rfl rfl
  cases p with
  | rough => exact absurd rfl hp
  | layoutResult => exact ⟨rfl, rfl⟩
  | _ => rfl
theorem Frame.setScan {x : Scan} (h : .scan ∈ ps := by simp) : Frame ps rs fs s (s.setScan x) := by
  refine .of_part h (fun p hp => ?_) rfl rfl
  cases p with
  | scan => exact absurd rfl hp
  | layoutResult => exact ⟨rfl, rfl⟩
  | _ => rfl

theorem Frame.modSeq {f : Seq → Seq} (h : .seq c ∈ ps := by simp) : Frame ps rs fs s (s.modSeq c f) := .setSeq h
theorem Frame.modRf {f : Rf → Rf} (h : .rf c ∈ ps := by simp) : Frame ps rs fs s (s.modRf c f) := .setRf h
theorem Frame.modPress {f : Press → Press} (h : .press c ∈ ps := by simp) : Frame ps rs fs s (s.modPress c f) :=
  .setPress h
theorem Frame.modPump {f : Pump → Pump} (h : .pump c ∈ ps := by simp) : Frame ps rs fs s (s.modPump c f) := .setPump h
theorem Frame.modEcon {f : Econ → Econ} (h : .econ c ∈ ps := by simp) : Frame ps rs fs s (s.modEcon c f) := .setEcon h
theorem Frame.modRep {f : Rep → Rep} (h : .rep c ∈ ps := by simp) : Frame ps rs fs s (s.modRep c f) := .setRep h
theorem Frame.modPage {i : Fin 2} {f : Page → Page} (h : .rep c ∈ ps := by simp) : Frame ps rs fs s (s.modPage c i f) :=
  .setRep h
theorem Frame.modLine {k : LineId} {f : Line → Line} (h : .line k ∈ ps := by simp) : Frame ps rs fs s (s.modLine k f) :=
  .setLine h
theorem Frame.modIlk {k : InputId} {f : Ilk → Ilk} (h : .ilk k ∈ ps := by simp) : Frame ps rs fs s (s.modIlk k f) :=
  .setIlk h

/-- A flag set. -/
theorem Frame.raise {f : EventFlag} (hp : .summary ∈ ps := by simp) (hf : f ∈ fs := by simp) :
    Frame ps rs fs s (Machine.raise f s) where
  parts p hn := by
    cases p with
    | summary => exact absurd hp hn
    | layoutResult => exact ⟨rfl, rfl⟩
    | _ => rfl
  bytes _ _ _ := rfl
  flags g hg := by
    rw [flagSet_raise]
    simp [show g ≠ f from fun e => hg (e ▸ hf)]

/-- A change of the memory within the listed ranges. -/
theorem Frame.setMem {m : Memory}
    (h : ∀ a, a < Config.memorySize → (∀ r ∈ rs, ¬ inBytes a r) → memRead m a = memRead s.mem a) :
    Frame ps rs fs s (s.setMem m) where
  parts p _ := by
    cases p with
    | layoutResult => exact ⟨rfl, rfl⟩
    | _ => rfl
  bytes := h
  flags _ _ := rfl

/-- An address of a range that is covered lies in one of the listed ranges. -/
theorem inBytes_of_mem {a x n : Nat} (h : covered rs (a, n)) (hx : x < Config.memorySize) (h1 : a ≤ x) (h2 : x < a + n) :
    ∃ r ∈ rs, inBytes x r :=
  inBytes_of_covered h ⟨x - a, by omega, by
    simp only []
    rw [show a + (x - a) = x by omega, Nat.mod_eq_of_lt hx]⟩

theorem Frame.putWords {a : Nat} {vs : List Nat} (h : covered rs (a, 4 * vs.length))
    (ha : a + 4 * vs.length ≤ Config.memorySize) : Frame ps rs fs s (s.putWords a vs) := by
  refine .setMem fun x hx hn => memRead_memPutWords_outside _ _ _ _ hx ha ?_
  by_contra hc
  obtain ⟨r, hr, hi⟩ := inBytes_of_mem h hx (by omega) (by omega)
  exact hn r hr hi

theorem Frame.putWord {a v : Nat} (h : covered rs (a, 4)) (ha : a + 4 ≤ Config.memorySize) :
    Frame ps rs fs s (s.putWord a v) := by
  refine .setMem fun x hx hn => memRead_memPutWord_outside _ _ _ _ hx ha ?_
  by_contra hc
  obtain ⟨r, hr, hi⟩ := inBytes_of_mem h hx (by omega) (by omega)
  exact hn r hr hi

theorem StatusWord.offset_le (w : StatusWord) : w.offset ≤ 60 := by cases w <;> simp [StatusWord.offset]

theorem statusAddr_bounds (c : Chamber) : 0xA00 ≤ statusAddr c ∧ statusAddr c + 128 ≤ 0xC00 := by
  have := c.isLt; simp only [statusAddr]; omega

/-- A status word. -/
theorem Frame.showWord {w : StatusWord}
    (h : covered rs (statusAddr c + w.offset, 4) := by simp [covered, statusBytes, StatusWord.offset]) :
    Frame ps rs fs s (Machine.showWord c w s) := by
  refine .putWord h ?_
  have := w.offset_le
  have := statusAddr_bounds c
  simp only [Config.memorySize]; omega

theorem Frame.setRun {r : RunState} (hp : .seq c ∈ ps := by simp)
    (h : covered rs (statusAddr c + StatusWord.offset .states, 4) := by simp [covered, statusBytes, StatusWord.offset]) :
    Frame ps rs fs s (Machine.setRun c r s) := (Frame.modSeq hp).trans (.showWord h)

end frame

end Sys2Proof.Machine
end

section
/-! The frames of the Report Writer: an entry changes the chamber's Report Writer, its status words and its report area,
and may set REPORT. -/

namespace Sys2Proof.Machine

variable {s s' : State} {c : Chamber} {rs : List Bytes}

/-! ### Areas -/

/-- The whole Common Memory. -/
def allBytes : Bytes := (0, Config.memorySize)

theorem covered.sub {r : Bytes} {a n : Nat} (h : covered rs r) (h1 : r.1 ≤ a) (h2 : a + n ≤ r.1 + r.2) :
    covered rs (a, n) :=
  let ⟨r', hr, h3, h4⟩ := h
  ⟨r', hr, h3.trans h1, h2.trans h4⟩

theorem covered_of_mem {r : Bytes} (h : r ∈ rs) : covered rs r := ⟨r, h, le_rfl, le_rfl⟩

/-- The status words of a chamber's Report Writer. -/
def pageBytes (c : Chamber) : Bytes := (statusAddr c + 28, 32)

/-- The listed ranges take a chamber's report area, or anything, under an allowed partition number. -/
def reportArea (rs : List Bytes) (c : Chamber) (s : State) : Prop :=
  allBytes ∈ rs ∨ (6 ≤ s.tables.partition ∧ s.tables.partition ≤ 26) ∧ covered rs (reportBytes s.tables.partition c)

/-- The listed ranges take a chamber's next entry: its pages fit its report area, or the entry may lie anywhere. -/
def entryArea (rs : List Bytes) (c : Chamber) (s : State) : Prop :=
  reportArea rs c s ∧ (allBytes ∈ rs ∨ (s.rep c).fits s.tables.partition)

theorem reportArea.of_tables (h : reportArea rs c s) (e : s'.tables = s.tables) : reportArea rs c s' := by
  simpa only [reportArea, e] using h

theorem entryArea.keeps (h : entryArea rs c s) (k : Keeps s s') : entryArea rs c s' := by
  obtain ⟨h1, h2⟩ := h
  refine ⟨h1.of_tables k.core.tables, ?_⟩
  rcases h1 with h1 | h1
  · exact .inl h1
  · refine h2.imp id fun g => ?_
    rw [k.core.tables]
    exact k.core.fit c h1.1.1 h1.1.2 g

theorem PagesFit.reportArea (h : PagesFit s) (hc : covered rs (reportBytes s.tables.partition c)) : reportArea rs c s :=
  .inr ⟨⟨h.1, h.2.1⟩, hc⟩
theorem PagesFit.entryArea (h : PagesFit s) (hc : covered rs (reportBytes s.tables.partition c)) : entryArea rs c s :=
  ⟨h.reportArea hc, .inr (h.2.2 c)⟩
theorem entryArea_all (c : Chamber) (s : State) : entryArea [allBytes] c s := ⟨.inl (by simp), .inl (by simp)⟩

/-- Where an entry of a page in use lies (R8). -/
theorem entryAddr_within (g : (s.rep c).fits s.tables.partition) {i : Fin 2} {e : Nat} (hi : (s.rep c).inUse i = true)
    (he : e < (s.rep c).size) :
    reportAddr s.tables.partition c ≤ entryAddr s c i e ∧
      entryAddr s c i e + 32 ≤ reportAddr s.tables.partition c + 1024 * (30 - s.tables.partition) := by
  have hi' : i.val < (s.rep c).pages := by simpa [Rep.inUse] using hi
  rcases g with g | ⟨-, -, g, -⟩
  · omega
  · have hn : (s.rep c).size * (i.val + 1) ≤ (s.rep c).pages * (s.rep c).size := by
      rw [Nat.mul_comm (s.rep c).pages]
      exact Nat.mul_le_mul_left _ hi'
    rw [Nat.mul_add] at hn
    simp only [entryAddr, areaEntries] at *
    omega

theorem inBytes_allBytes {a : Nat} (ha : a < Config.memorySize) : inBytes a allBytes :=
  ⟨a, ha, by simp [allBytes, Nat.mod_eq_of_lt ha]⟩

/-- The words of an entry at a position of a page in use. -/
theorem Frame.putEntry {ps : List Part} {fs : List EventFlag} {i : Fin 2} {k : Nat} {e : Entry} (h : entryArea rs c s)
    (hi : (s.rep c).inUse i = true) (hk : (s.rep c).fits s.tables.partition → k < (s.rep c).size) :
    Frame ps rs fs s (s.putWords (entryAddr s c i k) e.words) := by
  have anywhere : allBytes ∈ rs → Frame ps rs fs s (s.putWords (entryAddr s c i k) e.words) := fun h =>
    .setMem fun a ha hn => absurd (inBytes_allBytes ha) (hn _ h)
  obtain ⟨h | ⟨hp, h⟩, h' | g⟩ := h
  · exact anywhere h
  · exact anywhere h
  · exact anywhere h'
  · have h1 := entryAddr_within g hi (hk g)
    have h2 := reportAddr_bounds (c := c) (n := s.tables.partition) (by omega)
    have hl : e.words.length = 8 := rfl
    refine .putWords (h.sub h1.1 ?_) ?_ <;> simp only [hl, Config.memorySize, reportBytes] at * <;> omega

theorem Frame.showReport {ps : List Part} {fs : List EventFlag} {w : StatusWord} (h : covered rs (pageBytes c))
    (h1 : 28 ≤ w.offset := by simp [StatusWord.offset]) (h2 : w.offset ≤ 56 := by simp [StatusWord.offset]) :
    Frame ps rs fs s (Machine.showWord c w s) :=
  .showWord (h.sub (by simp only [pageBytes]; omega) (by simp only [pageBytes]; omega))

theorem pageWords_offset (i : Fin 2) :
    (28 ≤ (pageStateWord i).offset ∧ (pageStateWord i).offset ≤ 56) ∧
      (28 ≤ (pageHeaderWord i).offset ∧ (pageHeaderWord i).offset ≤ 56) ∧
      28 ≤ (pageSkippedWord i).offset ∧ (pageSkippedWord i).offset ≤ 56 := by
  revert i; decide

/-- A layout that changes renews the pages, and the new pages fit the report area (R164). -/
theorem Rep.fits_fixed_renewed {r : Rep} {n size notice short : Nat} (h1 : 6 ≤ n) (h2 : n ≤ 26)
    (h : ¬ (r.size = pageSizeFor size n ∧ r.pages = pageCountFor (pageSizeFor size n) n ∧ r.partition = n)) :
    (r.fixed n size notice short).fits n := by
  have same : r.fixed n size notice short = ({ r with page0 := {}, page1 := {} } : Rep).fixed n size notice short := by
    simp [Rep.fixed, h]
  rw [same]
  refine Rep.fits_fixed h1 h2 (.inr fun i _ hf => ?_)
  simp only [Rep.page, ite_self] at hf
  cases hf

/-! ### Entries -/

section
variable (hw : covered rs (pageBytes c))
include hw

theorem Frame.showPageState {ps : List Part} {fs : List EventFlag} {i : Fin 2} :
    Frame ps rs fs s (Machine.showWord c (pageStateWord i) s) :=
  .showReport hw (pageWords_offset i).1.1 (pageWords_offset i).1.2
theorem Frame.showPageHeader {ps : List Part} {fs : List EventFlag} {i : Fin 2} :
    Frame ps rs fs s (Machine.showWord c (pageHeaderWord i) s) :=
  .showReport hw (pageWords_offset i).2.1.1 (pageWords_offset i).2.1.2
theorem Frame.showPageSkipped {ps : List Part} {fs : List EventFlag} {i : Fin 2} :
    Frame ps rs fs s (Machine.showWord c (pageSkippedWord i) s) :=
  .showReport hw (pageWords_offset i).2.2.1 (pageWords_offset i).2.2.2

theorem Frame.announceFull {i : Fin 2} : Frame [.rep c, .summary] rs [.report c] s (Machine.announceFull c i s) :=
  .trans (.showPageState hw) .raise

omit hw in
theorem Frame.placementNotice : Frame [.rep c, .summary] rs [.report c] s (Machine.placementNotice c s) :=
  .ite (fun _ => .raise) fun _ => .refl _

theorem Frame.placeFilling {i : Fin 2} {e : Entry} (he : entryArea rs c s) (h : (s.rep c).filling? = some i) :
    Frame [.rep c, .summary] rs [.report c] s (Machine.placeFilling c i e s) := by
  obtain ⟨hi, hf⟩ := Rep.filling?_spec h
  have hroom : (s.rep c).fits s.tables.partition → ((s.rep c).page i).count < (s.rep c).size := fun g => by
    rcases g with g | ⟨_, _, _, g⟩
    · simp [Rep.inUse, g] at hi
    · exact g i hi hf
  exact .trans (.putEntry he hi hroom) <| .trans .modPage <| .trans (.showPageHeader hw) <|
    .trans (.ite (fun _ => .announceFull hw) fun _ => .refl _) .placementNotice

theorem Frame.placeOpening {i : Fin 2} {e : Entry} (he : entryArea rs c s) (h : (s.rep c).empty? = some i) :
    Frame [.rep c, .summary] rs [.report c] s (Machine.placeOpening c i e s) := by
  obtain ⟨hi, -⟩ := Rep.empty?_spec h
  have hroom : (s.rep c).fits s.tables.partition → 0 < (s.rep c).size := fun g => by
    rcases g with g | ⟨g, _⟩
    · simp [Rep.inUse, g] at hi
    · exact g
  exact .trans (.putEntry he hi hroom) <| .trans .modPage <| .trans (.showPageHeader hw) <|
    .trans (.showPageSkipped hw) <| .trans .modRep <| .trans (.showReport hw) <|
    .trans (.ite (fun _ => .announceFull hw) fun _ => .showPageState hw) .placementNotice

theorem Frame.holdEntry {e : Entry} : Frame [.rep c, .summary] rs [.report c] s (Machine.holdEntry c e s) :=
  .ite (fun _ => .trans .modRep (.showReport hw)) fun _ => .modRep

theorem Frame.placeEntry {e : Entry} (he : entryArea rs c s) :
    Frame [.rep c, .summary] rs [.report c] s (Machine.placeEntry c e s) := by
  unfold Machine.placeEntry
  split
  · exact .placeFilling hw he ‹_›
  · split
    · exact .placeOpening hw he ‹_›
    · exact .holdEntry hw

/-- What an entry may change (R165, R166). -/
theorem Frame.produce {e : Entry} (he : entryArea rs c s) :
    Frame [.rep c, .summary] rs [.report c] s (Machine.produce c e s) :=
  .trans (.trans .modRep (.showReport hw)) (.placeEntry hw (he.keeps
    (Keeps.trans (.modRep ⟨rfl, rfl, rfl, rfl⟩) .showWord)))

theorem Frame.placeHeld (he : entryArea rs c s) :
    Frame [.rep c, .summary] rs [.report c] s (Machine.placeHeld c s) := by
  unfold Machine.placeHeld
  split
  · exact .trans .modRep (.placeEntry hw (he.keeps (Keeps.modRep ⟨rfl, rfl, rfl, rfl⟩)))
  · exact .refl _

theorem Frame.showPage {i : Fin 2} : Frame [.rep c, .summary] rs [.report c] s (Machine.showPage c i s) :=
  .trans (.showPageHeader hw) (.trans (.showPageSkipped hw) (.showPageState hw))

theorem Frame.scanPage {i : Fin 2} : Frame [.rep c, .summary] rs [.report c] s (Machine.scanPage c i s) := by
  unfold Machine.scanPage
  exact .ite (fun _ => .ite (fun _ => .modPage) fun _ => .ite (fun _ => .refl _) fun _ => .showPageState hw)
    fun _ => .refl _

theorem Frame.scanPages (he : entryArea rs c s) :
    Frame [.rep c, .summary] rs [.report c] s (Machine.scanPages c s) :=
  .trans (.scanPage hw) (.trans (.scanPage hw) (.placeHeld hw (he.keeps (Keeps.scanPage.trans .scanPage))))

theorem Frame.closeShort : Frame [.rep c, .summary] rs [.report c] s (Machine.closeShort c s) := by
  unfold Machine.closeShort
  refine .ite (fun _ => ?_) fun _ => .refl _
  split
  · exact .trans .modPage (.announceFull hw)
  · exact .refl _

/-- What fixing the pages may change (R164): the flags word beside what an entry may. -/
theorem Frame.fixPages (hf : covered rs (statusAddr c + 4, 4)) (he : reportArea rs c s) :
    Frame [.rep c, .summary] rs [.report c] s (Machine.fixPages c s) := by
  refine .trans .setRep <| .trans (.showReport hw) <| .trans (.showWord hf) <|
    .ite (fun _ => .refl _) fun hn => .trans (.showPage hw) <| .trans (.showPage hw) <| .placeHeld hw ?_
  have harea : entryArea rs c (s.setRep c ((s.rep c).fixed s.tables.partition (memField s.mem (controlAddr c + 4) 2)
      (memField s.mem (controlAddr c + 6) 1) (memField s.mem (controlAddr c + 7) 1))) := by
    refine ⟨he.of_tables rfl, he.imp id fun h => ?_⟩
    rw [State.setRep_rep_same, State.setRep_tables]
    exact Rep.fits_fixed_renewed h.1.1 h.1.2 hn
  exact harea.keeps (Keeps.showWord.trans (Keeps.showWord.trans (Keeps.showPage.trans .showPage)))

end

/-! ### The parts an entry leaves -/

section
variable {e : Entry} {d : Chamber} {k : LineId}

/-- Of the state outside the memory an entry changes the chamber's Report Writer and the flags only. -/
theorem produce_parts : changesOnly [.rep c, .summary] s (produce c e s) :=
  (Frame.produce (rs := [allBytes]) ⟨allBytes, by simp, by simp [allBytes], by
    have := statusAddr_bounds c
    simp only [pageBytes, allBytes, Config.memorySize]; omega⟩ (entryArea_all c s)).parts

@[simp] theorem produce_seq : (produce c e s).seq d = s.seq d := produce_parts (.seq d) (by simp)
@[simp] theorem produce_rf : (produce c e s).rf d = s.rf d := produce_parts (.rf d) (by simp)
@[simp] theorem produce_press : (produce c e s).press d = s.press d := produce_parts (.press d) (by simp)
@[simp] theorem produce_pump : (produce c e s).pump d = s.pump d := produce_parts (.pump d) (by simp)
@[simp] theorem produce_econ : (produce c e s).econ d = s.econ d := produce_parts (.econ d) (by simp)
@[simp] theorem produce_line : (produce c e s).line k = s.line k := produce_parts (.line k) (by simp)
@[simp] theorem produce_arb : (produce c e s).arb k = s.arb k := produce_parts (.arb k) (by simp)
@[simp] theorem produce_gasInhibit : (produce c e s).gasInhibit d = s.gasInhibit d :=
  produce_parts (.gasInhibit d) (by simp)
@[simp] theorem produce_now : (produce c e s).now = s.now := produce_parts .now (by simp)
@[simp] theorem produce_uses : (produce c e s).uses = s.uses := produce_parts .uses (by simp)
@[simp] theorem produce_tables : (produce c e s).tables = s.tables := produce_parts .tables (by simp)
@[simp] theorem produce_waitQueue : (produce c e s).waitQueue = s.waitQueue := produce_parts .waitQueue (by simp)
@[simp] theorem produce_rough : (produce c e s).rough = s.rough := produce_parts .rough (by simp)
@[simp] theorem produce_scan : (produce c e s).scan = s.scan := produce_parts .scan (by simp)
@[simp] theorem produce_chamberCfg : (produce c e s).chamberCfg d = s.chamberCfg d := by
  simp [State.chamberCfg]
@[simp] theorem produce_lineCfg : (produce c e s).lineCfg k = s.lineCfg k := by
  simp [State.lineCfg]

@[simp] theorem announceFull_rep {i : Fin 2} : (announceFull c i s).rep d = s.rep d := rfl
@[simp] theorem placementNotice_rep : (placementNotice c s).rep d = s.rep d := by
  unfold placementNotice; split <;> rfl

theorem State.modPage_next {i : Fin 2} {f : Page → Page} : ((s.modPage c i f).rep c).next = (s.rep c).next := by
  simp [State.modPage, State.modRep_eq]

/-- Placing an entry leaves the sequence number. -/
theorem placeEntry_next : ((placeEntry c e s).rep c).next = (s.rep c).next := by
  unfold placeEntry
  split
  · simp only [placeFilling, placementNotice_rep]
    split <;> simp [State.modPage_next]
  · split
    · simp only [placeOpening, placementNotice_rep]
      split <;> simp [State.modPage_next, State.modRep_eq]
    · simp only [holdEntry]
      split <;> simp [State.modRep_eq]

/-- An entry takes the next sequence number (R165). -/
@[simp] theorem produce_next : ((produce c e s).rep c).next = ((s.rep c).next + 1) % 65536 := by
  simp [produce, placeEntry_next, State.modRep_eq]

end

end Sys2Proof.Machine
end

section
/-! What the part's own work keeps beside `Keeps`: the moment, RF off under an RF inhibit, the lines closed under a gas
inhibit, and the loop stacks (R61, R83, R129). -/

namespace Sys2Proof.Machine

variable {s s' : State} {c : Chamber}

/-! ### The relation -/

/-- An inhibited RF Supervisor is off (R129). -/
def Rf.safe (x : Rf) : Prop := x.inhibit = true → x.phase = .off

/-- A loop stack within its four entries, and an IDLE run without loops and without a pending segment (R32, R61). -/
def Seq.tidy (q : Seq) : Prop := q.loop.length ≤ 4 ∧ (q.run = .idle → q.loop = [] ∧ q.pendingSeg = none)

/-- No line is open to a chamber whose gas is inhibited (R83). -/
def gasClosed (s : State) (c : Chamber) : Prop := s.gasInhibit c = true → ∀ k, (s.line k).openTo ≠ some c

/-- The work keeps the moment, and each of the three laws of each chamber. -/
structure Calm (s s' : State) : Prop where
  now : s'.now = s.now
  rf : ∀ c, (s.rf c).safe → (s'.rf c).safe
  gas : ∀ c, gasClosed s c → gasClosed s' c
  tidy : ∀ c, (s.seq c).tidy → (s'.seq c).tidy

theorem Calm.refl (s : State) : Calm s s := ⟨rfl, fun _ => id, fun _ => id, fun _ => id⟩

theorem Calm.trans {a b d : State} (h : Calm a b) (g : Calm b d) : Calm a d :=
  ⟨g.now.trans h.now, fun c => g.rf c ∘ h.rf c, fun c => g.gas c ∘ h.gas c, fun c => g.tidy c ∘ h.tidy c⟩

theorem Calm.ite {p : Prop} [Decidable p] {a b : State} (ha : p → Calm s a) (hb : ¬ p → Calm s b) :
    Calm s (if p then a else b) := by
  split
  · exact ha ‹_›
  · exact hb ‹_›

theorem Calm.foldl {α : Type} {f : State → α → State} (h : ∀ s x, Calm s (f s x)) (xs : List α) (s : State) :
    Calm s (xs.foldl f s) := by
  induction xs generalizing s with
  | nil => exact .refl s
  | cons x xs ih => exact (h s x).trans (ih _)

theorem Calm.forLines {f : LineId → State → State} (h : ∀ k s, Calm s (f k s)) : Calm s (forLines f s) :=
  .foldl (fun s k => h k s) _ _
theorem Calm.forChambers {f : Chamber → State → State} (h : ∀ c s, Calm s (f c s)) : Calm s (forChambers f s) :=
  .foldl (fun s c => h c s) _ _
theorem Calm.forChannels {f : ChannelId → State → State} (h : ∀ k s, Calm s (f k s)) : Calm s (forChannels f s) :=
  .foldl (fun s k => h k s) _ _

/-- The parts that the relation says nothing of. -/
def Part.quiet : Part → Bool
  | .now | .seq _ | .rf _ | .gasInhibit _ | .line _ => false
  | _ => true

/-- A change of parts that the relation says nothing of. -/
theorem Calm.of_parts {ps : List Part} (h : changesOnly ps s s') (hq : ∀ p ∈ ps, p.quiet = true := by simp [Part.quiet]) :
    Calm s s' := by
  have same : ∀ p : Part, p.quiet = false → p.same s s' := fun p hp => h p fun hm => by simp [hq p hm] at hp
  have hseq : ∀ d, s'.seq d = s.seq d := fun d => same (.seq d) rfl
  have hrf : ∀ d, s'.rf d = s.rf d := fun d => same (.rf d) rfl
  have hgas : ∀ d, s'.gasInhibit d = s.gasInhibit d := fun d => same (.gasInhibit d) rfl
  have hline : ∀ k, s'.line k = s.line k := fun k => same (.line k) rfl
  exact ⟨same .now rfl, fun d => by rw [hrf]; exact id, fun d => by simp only [gasClosed, hgas, hline]; exact id,
    fun d => by rw [hseq]; exact id⟩

theorem Calm.of_frame {ps : List Part} {rs : List Bytes} {fs : List EventFlag} (h : Frame ps rs fs s s')
    (hq : ∀ p ∈ ps, p.quiet = true := by simp [Part.quiet]) : Calm s s' := .of_parts h.parts hq

/-- A change that the relation says nothing of, as the update of one part shows it. -/
theorem Calm.of_rfl (now : s'.now = s.now) (seqs : s'.seqs = s.seqs) (rfs : s'.rfs = s.rfs)
    (gas : s'.gasInhibits = s.gasInhibits) (lines : s'.lines = s.lines) : Calm s s' := by
  refine ⟨now, fun d => ?_, fun d => ?_, fun d => ?_⟩
  · unfold State.rf; rw [rfs]; exact id
  · unfold gasClosed State.gasInhibit State.line; rw [gas, lines]; exact id
  · unfold State.seq; rw [seqs]; exact id

/-! ### The updates -/

theorem Calm.setSeq {x : Seq} (h : (s.seq c).tidy → x.tidy) : Calm s (s.setSeq c x) :=
  ⟨rfl, fun _ => id, fun _ => id, fun d hd => by
    rw [State.setSeq_seq]
    split
    · subst_vars; exact h hd
    · exact hd⟩
theorem Calm.modSeq {f : Seq → Seq} (h : (s.seq c).tidy → (f (s.seq c)).tidy := by exact id) :
    Calm s (s.modSeq c f) := .setSeq h

theorem Calm.setRf {x : Rf} (h : (s.rf c).safe → x.safe) : Calm s (s.setRf c x) :=
  ⟨rfl, fun d hd => by
    rw [State.setRf_rf]
    split
    · subst_vars; exact h hd
    · exact hd, fun _ => id, fun _ => id⟩
theorem Calm.modRf {f : Rf → Rf} (h : (s.rf c).safe → (f (s.rf c)).safe := by exact id) : Calm s (s.modRf c f) :=
  .setRf h

/-- A line that is not newly open to a chamber whose gas is inhibited. -/
theorem Calm.setLine {k : LineId} {x : Line}
    (h : ∀ c, x.openTo = some c → s.gasInhibit c = false ∨ (s.line k).openTo = some c) : Calm s (s.setLine k x) :=
  ⟨rfl, fun _ => id, fun d hd hi j => by
    rw [State.setLine_line]
    split
    · intro e
      subst_vars
      have hi : s.gasInhibit d = true := hi
      rcases h d e with h | h
      · simp [hi] at h
      · exact hd hi _ h
    · exact hd hi j, fun _ => id⟩
theorem Calm.modLine_same {k : LineId} {f : Line → Line} (h : ∀ l, (f l).openTo = l.openTo) : Calm s (s.modLine k f) :=
  .setLine fun _ hd => .inr (h _ ▸ hd)
theorem Calm.modLine_open {k : LineId} {f : Line → Line} (h : (f (s.line k)).openTo = some c)
    (hg : ¬ s.gasInhibit c = true) : Calm s (s.modLine k f) :=
  .setLine fun d hd => .inl (by rw [h] at hd; cases hd; simpa using hg)

theorem Calm.showWord {w : StatusWord} : Calm s (showWord c w s) := .of_rfl rfl rfl rfl rfl rfl
theorem Calm.putWords {a : Nat} {vs : List Nat} : Calm s (s.putWords a vs) := .of_rfl rfl rfl rfl rfl rfl
theorem Calm.putWord {a v : Nat} : Calm s (s.putWord a v) := .of_rfl rfl rfl rfl rfl rfl
theorem Calm.raise {f : EventFlag} : Calm s (raise f s) := .of_rfl rfl rfl rfl rfl rfl
theorem Calm.setPress {x : Press} : Calm s (s.setPress c x) := .of_rfl rfl rfl rfl rfl rfl
theorem Calm.modPress {f : Press → Press} : Calm s (s.modPress c f) := .setPress
theorem Calm.setPump {x : Pump} : Calm s (s.setPump c x) := .of_rfl rfl rfl rfl rfl rfl
theorem Calm.setEcon {x : Econ} : Calm s (s.setEcon c x) := .of_rfl rfl rfl rfl rfl rfl
theorem Calm.modEcon {f : Econ → Econ} : Calm s (s.modEcon c f) := .setEcon
theorem Calm.setArb {k : LineId} {x : Arb} : Calm s (s.setArb k x) := .of_rfl rfl rfl rfl rfl rfl
theorem Calm.setWaitQueue {q : List WaitEntry} : Calm s (s.setWaitQueue q) := .of_rfl rfl rfl rfl rfl rfl
theorem Calm.setRough {r : Rough} : Calm s (s.setRough r) := .of_rfl rfl rfl rfl rfl rfl
theorem Calm.setPins {p : Pins} : Calm s (s.setPins p) := .of_rfl rfl rfl rfl rfl rfl
theorem Calm.setScan {x : Scan} : Calm s (s.setScan x) := .of_rfl rfl rfl rfl rfl rfl
theorem Calm.setChan {k : ChannelId} {x : Chan} : Calm s (s.setChan k x) := .of_rfl rfl rfl rfl rfl rfl
theorem Calm.setIlk {k : InputId} {x : Ilk} : Calm s (s.setIlk k x) := .of_rfl rfl rfl rfl rfl rfl
theorem Calm.bumpUses : Calm s s.bumpUses := .of_rfl rfl rfl rfl rfl rfl
theorem Calm.imageWait : Calm s (imageWait s) := .of_rfl rfl rfl rfl rfl rfl
theorem Calm.imageRough : Calm s (imageRough s) := .of_rfl rfl rfl rfl rfl rfl
theorem Calm.imageRate : Calm s (imageRate s) := .of_rfl rfl rfl rfl rfl rfl
theorem Calm.imageInterlock : Calm s (imageInterlock s) := .of_rfl rfl rfl rfl rfl rfl
theorem Calm.produce {e : Entry} : Calm s (produce c e s) := .of_parts produce_parts

/-- A run state other than IDLE, or IDLE with no loops and no pending segment. -/
theorem Calm.setRun {r : RunState} (h : r = .idle → (s.seq c).loop = [] ∧ (s.seq c).pendingSeg = none := by simp) :
    Calm s (setRun c r s) :=
  .trans (.modSeq fun g => ⟨g.1, h⟩) .showWord

theorem coversAll (c : Chamber) : covered [allBytes] (pageBytes c) ∧ covered [allBytes] (statusAddr c + 4, 4) := by
  have := statusAddr_bounds c
  constructor <;> refine ⟨allBytes, by simp, by simp [allBytes], ?_⟩ <;>
    simp only [pageBytes, allBytes, Config.memorySize] <;> omega

theorem Calm.closeShort : Calm s (closeShort c s) := .of_frame (.closeShort (coversAll c).1)
theorem Calm.scanPages : Calm s (scanPages c s) := .of_frame (.scanPages (coversAll c).1 (entryArea_all c s))
theorem fixPages_parts : changesOnly [.rep c, .summary] s (fixPages c s) :=
  (Frame.fixPages (coversAll c).1 (coversAll c).2 (.inl (by simp))).parts
theorem Calm.fixPages : Calm s (fixPages c s) := .of_parts fixPages_parts

/-! ### The scanner -/

theorem Calm.publishPass {fast slow : Bool} : Calm s (publishPass fast slow s) := by
  refine .forChannels fun k s => ?_
  split
  · exact .ite (fun _ => .trans .setChan .putWords) fun _ => .refl _
  · exact .refl _

theorem Calm.scanT0 : Calm s (scanT0 s) := by
  unfold Machine.scanT0
  split
  · exact .refl _
  · exact .ite (fun _ => .trans .setScan .imageRate) fun _ => .publishPass
  · exact .ite (fun _ => .refl _) fun _ => .trans .setScan .imageRate
  · exact .ite (fun _ => .trans .setScan (.ite (fun _ => .trans .setScan .imageRate) fun _ => .refl _)) fun _ => .refl _

theorem Calm.ageChannel {k : ChannelId} : Calm s (ageChannel k s) :=
  .ite (fun _ => .trans .setChan .putWord) fun _ => .refl _
theorem Calm.markStale {k : ChannelId} : Calm s (markStale k s) :=
  .ite (fun _ => .trans .setChan .putWord) fun _ => .refl _

theorem Calm.scannerT0 {counts : Vector (BitVec 12) 48} : Calm s (scannerT0 counts s) :=
  .ite (fun _ => .trans .setPins <| .trans .setScan <| .trans .scanT0 <|
    .trans (.forChannels fun _ _ => .ageChannel) (.forChannels fun _ _ => .markStale)) fun _ => .refl _

theorem Calm.scannerT2 {counts : Vector (BitVec 12) 48} : Calm s (scannerT2 counts s) := by
  unfold Machine.scannerT2
  simp only []
  split
  · split
    · exact .trans .setPins (.trans .setScan .publishPass)
    · exact .trans .setPins (.trans .setScan .publishPass)
    · exact .trans .setPins .setScan
  · exact .refl _

/-! ### Flow, pressure and RF -/

theorem Calm.handLine {r : StepRec} {e : LineId × Nat} : Calm s (handLine c r e s) :=
  .ite (fun _ => .refl _) fun h => .modLine_open rfl h

theorem Calm.openPurge {src : Source} {flow : Nat} : Calm s (openPurge c src flow s) := by
  unfold Machine.openPurge
  split
  · exact .ite (fun _ => .refl _) fun h => .modLine_open rfl h
  · exact .refl _

theorem Calm.lineWork {k : LineId} : Calm s (lineWork k s) := by
  unfold Machine.lineWork
  dsimp only
  split
  · exact .refl _
  · exact .ite (fun _ => .trans (.setLine fun _ hd => .inr (by simpa using hd))
      (.ite (fun _ => .modLine_same (by simp)) fun _ => .refl _)) fun _ => .refl _

theorem Calm.openThrottle : Calm s (openThrottle c s) := .modPress
theorem Calm.stopPressure : Calm s (stopPressure c s) := .modPress
theorem Calm.pressureWork : Calm s (pressureWork c s) := .ite (fun _ => .setPress) fun _ => .refl _

theorem Calm.rfOff : Calm s (rfOff c s) := .modRf fun _ _ => rfl

theorem Calm.handRf {r : StepRec} : Calm s (handRf c r s) := by
  refine .modRf fun _ => ?_
  dsimp only
  split
  · exact fun hi => Rf.handedPlasma_phase _ _ _ _ (by simpa using hi)
  · exact fun _ => rfl

theorem Calm.rfWork : Calm s (rfWork c s) := by
  unfold Machine.rfWork
  dsimp only
  refine .ite (fun _ => ?_) fun _ => .refl _
  split
  · exact .refl _
  all_goals
    rename_i hp
    refine .setRf fun h hi => absurd (h (by simpa using hi)) ?_
    rw [hp]
    simp

/-! ### The hand-off and the Line Arbiter -/

theorem Calm.handSetpoints : Calm s (handSetpoints c s) :=
  .trans (.foldl (fun _ _ => .handLine) _ _) (.trans .setPress .handRf)
theorem Calm.loadTimer : Calm s (loadTimer c s) := .trans .modSeq <| .trans .setRun <| .trans .showWord .showWord
theorem Calm.handStep : Calm s (handStep c s) := .trans .handSetpoints .loadTimer
theorem Calm.putArb {k : LineId} {x : Arb} : Calm s (putArb k x s) := .trans .setArb .putWord
theorem Calm.ownLines {set : List LineId} : Calm s (ownLines c set s) :=
  .forLines fun _ _ => .ite (fun _ => .putArb) fun _ => .refl _
theorem Calm.grantWaiting {e : WaitEntry} : Calm s (grantWaiting e s) :=
  .trans .setWaitQueue <| .trans .imageWait <| .trans .ownLines .handStep

theorem Calm.walkFrom {q : List WaitEntry} {older : List LineId} : Calm s (walkFrom q older s) := by
  induction q generalizing older s with
  | nil => exact .refl _
  | cons e rest ih => exact .ite (fun _ => .trans .grantWaiting ih) fun _ => ih

theorem Calm.walk : Calm s (walk s) := .walkFrom
theorem Calm.freeLine {k : LineId} : Calm s (freeLine k s) := .trans .putArb .walk
theorem Calm.releaseLine {k : LineId} : Calm s (releaseLine c k s) :=
  .ite (fun _ => .ite (fun _ => .freeLine) fun _ => .putArb) fun _ => .refl _
theorem Calm.shutLine {k : LineId} : Calm s (if (s.line k).openTo = some c then s.modLine k Line.shut else s) :=
  .ite (fun _ => .setLine fun _ hd => by simp [Line.shut] at hd) fun _ => .refl _
theorem Calm.dropLine {k : LineId} : Calm s (dropLine c k s) := .trans .shutLine .releaseLine
theorem Calm.dropLines {p : LineId → Bool} : Calm s (dropLines c p s) :=
  .forLines fun _ _ => .ite (fun _ => .dropLine) fun _ => .refl _
theorem Calm.dropShared : Calm s (dropShared c s) := .dropLines
theorem Calm.dropPurge : Calm s (dropPurge c s) := .dropLines
theorem Calm.dropAll : Calm s (dropAll c s) := .dropLines
theorem Calm.leaveQueue : Calm s (leaveQueue c s) :=
  .ite (fun _ => .trans .setWaitQueue (.trans .imageWait .walk)) fun _ => .refl _

theorem Calm.handoverTick {k : LineId} : Calm s (handoverTick k s) := by
  unfold Machine.handoverTick
  split
  · exact .ite (fun _ => .ite (fun _ => .setArb) fun _ => .freeLine) fun _ => .refl _
  · exact .refl _

/-! ### Slots, contexts and close-out -/

theorem Calm.holdSlot {i : Fin 2} {h : SlotHold} : Calm s (holdSlot c i h s) := .modSeq
theorem Calm.writeSlot {i : Fin 2} {o d n st : Nat} : Calm s (writeSlot c i o d n st s) := .trans .putWords .putWord
theorem Calm.doneSlot {i : Fin 2} {o : Code} {d n : Nat} : Calm s (doneSlot c i o d n s) :=
  .trans .writeSlot (.trans .holdSlot .raise)
theorem Calm.doneHeld {p : SlotHold → Bool} {o : Code} {d n : Nat} : Calm s (doneHeld c p o d n s) := by
  unfold Machine.doneHeld
  split
  · exact .doneSlot
  · exact .refl _
theorem Calm.clearLatch : Calm s (clearLatch c s) := .ite (fun _ => .trans .modSeq .showWord) fun _ => .refl _
theorem Calm.faultEntry {x : Code} {e : Entry} :
    Calm s (if x.reportsFault = true then Machine.produce c e (Machine.raise (.fault c) s) else s) :=
  .ite (fun _ => .trans .raise .produce) fun _ => .refl _
theorem Calm.closeBegin {x : Code} {item pos rem : Nat} : Calm s (closeBegin c x item pos rem s) :=
  .trans .modSeq <| .trans .putWords <| .trans .clearLatch <| .trans .leaveQueue <| .trans .modSeq <|
    .trans .setRun <| .trans .rfOff <| .trans .stopPressure .faultEntry
theorem Calm.reachFaults : Calm s (reachFaults c s) :=
  .ite (fun _ => .trans (.forLines fun _ _ => .ite (fun _ => .lineWork) fun _ => .refl _) <|
    .trans (.ite (fun _ => .pressureWork) fun _ => .refl _) (.ite (fun _ => .rfWork) fun _ => .refl _)) fun _ => .refl _
theorem Calm.closeNow {x : Code} {item : Nat} : Calm s (closeNow c x item s) := .trans .reachFaults .closeBegin

/-- The sequencer's own change at the end of a run, with the run IDLE (R32). -/
theorem Calm.idleSeq {f : Seq → Seq} (h : (f (s.seq c)).loop = [] ∧ (f (s.seq c)).pendingSeg = none) :
    Calm s (Machine.setRun c .idle (s.modSeq c f)) :=
  .trans (.modSeq fun _ => ⟨by simp [h.1], fun _ => h⟩) (.setRun fun _ => by simpa [State.modSeq_eq] using h)

theorem Calm.finishRun {e f : Nat} : Calm s (finishRun c e f s) :=
  .trans .produce <| .trans .closeShort <| .trans .doneHeld <| .trans .doneHeld <| .trans (.idleSeq ⟨rfl, rfl⟩) <|
    .trans .showWord <| .trans .showWord .showWord
theorem Calm.beginEnd {x : Code} {item : Nat} : Calm s (beginEnd c x item s) := .trans .modSeq .faultEntry
theorem Calm.endStarting {x : Code} {item : Nat} : Calm s (endStarting c x item s) :=
  .trans .beginEnd (.trans .clearLatch .finishRun)
theorem Calm.deliverFault {x : Code} {item : Nat} : Calm s (deliverFault c x item s) := by
  unfold Machine.deliverFault
  split
  · exact .refl _
  · exact .ite (fun _ => .endStarting) fun _ => .refl _
  · exact .modSeq
  · exact .closeNow
theorem Calm.endStage : Calm s (endStage c s) := .trans .finishRun .openThrottle
theorem Calm.judgePumpOut : Calm s (judgePumpOut c s) := .ite (fun _ => .modSeq) fun _ => .endStage
theorem Calm.endPurge : Calm s (endPurge c s) := .trans .modSeq (.trans .dropPurge .judgePumpOut)
theorem Calm.judgePurge : Calm s (judgePurge c s) := .ite (fun _ => .trans .modSeq .openPurge) fun _ => .judgePumpOut
theorem Calm.gasOffStage : Calm s (gasOffStage c s) := .trans .dropAll (.trans .openThrottle .judgePurge)
theorem Calm.pumpOutFails : Calm s (pumpOutFails c s) := .trans .modSeq .endStage
theorem Calm.checkStage : Calm s (checkStage c s) := by
  unfold Machine.checkStage
  refine .ite (fun _ => ?_) fun _ => .refl _
  split
  · exact .ite (fun _ => .endPurge) fun _ => .refl _
  · exact .ite (fun _ => .endStage) fun _ => .ite (fun _ => .pumpOutFails) fun _ => .refl _
  · exact .refl _
theorem Calm.raiseRestriction {a : Nat} : Calm s (raiseRestriction c a s) := .ite (fun _ => .modSeq) fun _ => .refl _

/-! ### Steps and segments -/

/-- The loop stack that a resolution leaves. -/
def Resolved.stack : Resolved → List LoopEntry
  | .run _ _ stack => stack
  | .segmentEnd stack => stack
  | .fault _ _ stack => stack

theorem landAt_stack (m : Memory) (tab : Tables) (seg : Segment) (stack : List LoopEntry) (target : Nat) :
    (landAt m tab c seg stack target).stack = stack := by
  unfold landAt
  dsimp only
  split <;> rfl

theorem pushLoop_stack_length (m : Memory) (tab : Tables) (seg : Segment) (stack : List LoopEntry) (pos : Nat)
    (r : StepRec) (h : stack.length ≤ 4) : (pushLoop m tab c seg stack pos r).stack.length ≤ 4 := by
  unfold pushLoop
  split
  · rw [landAt_stack, List.length_cons]; omega
  · exact h

/-- A resolution keeps the loop stack within its four entries (R61, R62). -/
theorem resolve_stack_length (m : Memory) (tab : Tables) (seg : Segment) (stack : List LoopEntry) (pos : Nat)
    (h : stack.length ≤ 4) : (resolve m tab c seg stack pos).stack.length ≤ 4 := by
  induction stack generalizing pos with
  | nil =>
    unfold resolve
    dsimp only
    split
    · exact h
    · split
      · exact pushLoop_stack_length _ _ _ _ _ _ h
      · exact h
  | cons top rest ih =>
    have hrest : rest.length ≤ 4 := by simp only [List.length_cons] at h; omega
    unfold resolve
    dsimp only
    split_ifs
    · exact h
    · exact h
    · exact pushLoop_stack_length _ _ _ _ _ _ h
    · rw [landAt_stack]; exact h
    · exact hrest
    · exact ih _ hrest

/-- What a step start finds leaves the stack within its four entries where it was. -/
theorem resolveNow_stack_length {pos : Nat} (h : (s.seq c).loop.length ≤ 4) : (resolveNow c pos s).stack.length ≤ 4 :=
  resolve_stack_length _ _ _ _ _ h

/-- A loop stack for a run that is not IDLE. -/
theorem Calm.modLoop {f : Seq → Seq} (hf : (f (s.seq c)).run = (s.seq c).run) (hr : (s.seq c).run ≠ .idle)
    (hl : (s.seq c).loop.length ≤ 4 → (f (s.seq c)).loop.length ≤ 4) : Calm s (s.modSeq c f) :=
  .modSeq fun h => ⟨hl h.1, fun e => absurd (hf ▸ e) hr⟩

theorem Calm.setStep {pos : Nat} {l : List LoopEntry} (hr : (s.seq c).run ≠ .idle)
    (hl : (s.seq c).loop.length ≤ 4 → l.length ≤ 4) : Calm s (setStep c pos l s) :=
  .trans (.modLoop rfl hr hl) .showWord
theorem Calm.leaveLoops {l : List LoopEntry} (hr : (s.seq c).run ≠ .idle)
    (hl : (s.seq c).loop.length ≤ 4 → l.length ≤ 4) : Calm s (leaveLoops c l s) :=
  .trans (.modLoop rfl hr hl) .showWord
theorem Calm.enterWait {set : List LineId} : Calm s (enterWait c set s) :=
  .trans .setWaitQueue <| .trans .imageWait <| .trans .setRun <| .trans .rfOff <| .trans .stopPressure .dropShared
theorem Calm.enterStep {r : Resolved} (hr : (s.seq c).run ≠ .idle)
    (hl : (s.seq c).loop.length ≤ 4 → r.stack.length ≤ 4) : Calm s (enterStep c r s) := by
  cases r with
  | segmentEnd _ => exact .refl _
  | fault code pos stack => exact .trans (.setStep hr hl) .closeBegin
  | run r pos stack =>
    exact .trans (.setStep hr hl) <| .trans .modSeq <| .trans .dropLines <| .ite (fun _ => .handStep) fun _ =>
      .ite (fun _ => .trans .ownLines .handStep) fun _ => .enterWait
theorem Calm.enterHeld {pos rem : Nat} : Calm s (enterHeld c pos rem s) :=
  .trans .modSeq <| .trans .rfOff <| .trans .dropAll <| .trans .openThrottle <| .trans .clearLatch <|
    .trans .putWords <| .trans .produce .setRun
theorem Calm.makeCurrent {seg : Segment} : Calm s (makeCurrent c seg s) :=
  .trans (.modSeq fun _ => ⟨Nat.zero_le _, fun _ => ⟨rfl, rfl⟩⟩) (.trans .showWord .produce)
theorem Calm.startSegment (hr : (s.seq c).run ≠ .idle) : Calm s (startSegment c s) :=
  .enterStep hr resolveNow_stack_length
theorem Calm.enterGap : Calm s (enterGap c s) :=
  .trans .clearLatch <| .trans .putWords <| .trans .modSeq <| .trans .produce <| .trans .rfOff <|
    .trans .stopPressure .setRun
theorem Calm.promoteSlot : Calm s (promoteSlot c s) := by
  unfold Machine.promoteSlot
  split
  · exact .holdSlot
  · exact .refl _

/-- Answering a slot leaves the run state. -/
@[simp] theorem doneHeld_run {p : SlotHold → Bool} {o : Code} {d n : Nat} :
    ((doneHeld c p o d n s).seq c).run = (s.seq c).run := by
  unfold doneHeld
  split
  · simp [doneSlot, holdSlot, writeSlot, raise, State.modSeq_eq]
  · rfl
@[simp] theorem promoteSlot_run : ((promoteSlot c s).seq c).run = (s.seq c).run := by
  unfold promoteSlot
  split
  · simp [holdSlot, State.modSeq_eq]
  · rfl
@[simp] theorem makeCurrent_run {seg : Segment} : ((makeCurrent c seg s).seq c).run = (s.seq c).run := by
  simp [makeCurrent, State.modSeq_eq]

theorem Calm.segmentEnd (hr : (s.seq c).run ≠ .idle) : Calm s (segmentEnd c s) := by
  unfold Machine.segmentEnd
  dsimp only
  refine .ite (fun _ => ?_) fun _ => .closeBegin
  split
  · exact .trans .doneHeld <| .trans .promoteSlot <| .trans .makeCurrent <| .trans .showWord <|
      .ite (fun _ => .enterHeld) fun _ => .startSegment (by simpa using hr)
  · exact .trans .doneHeld .enterGap
theorem Calm.stepStart {pos : Nat} (hr : (s.seq c).run ≠ .idle) : Calm s (stepStart c pos s) := by
  have hl : (s.seq c).loop.length ≤ 4 → (resolveNow c pos s).stack.length ≤ 4 := resolveNow_stack_length
  unfold Machine.stepStart
  split
  next stack h =>
    rw [h] at hl
    have hrun : ((Machine.leaveLoops c stack s).seq c).run ≠ .idle := by simpa [Machine.leaveLoops, State.modSeq_eq] using hr
    exact .trans (.leaveLoops hr hl) (.segmentEnd hrun)
  next => exact .enterStep hr hl
theorem Calm.stepEnd {x : ExitCause} (hr : (s.seq c).run ≠ .idle) : Calm s (stepEnd c x s) := by
  unfold Machine.stepEnd
  extract_lets flags s1 s2 q s3
  have h1 : Calm s s1 := .modSeq
  have h2 : Calm s1 s2 := .showWord
  have h3 : Calm s2 s3 := .ite (fun _ => .produce) fun _ => .refl _
  have hrun : (s3.seq c).run = (s.seq c).run := by
    simp only [s3, s2, s1]
    split <;> simp [State.modSeq_eq]
  have hr3 : (s3.seq c).run ≠ .idle := hrun ▸ hr
  exact .trans h1 <| .trans h2 <| .trans h3 <| .ite (fun _ => .segmentEnd hr3) fun _ =>
    .ite (fun _ => .enterHeld) fun _ => .stepStart hr3
theorem Calm.timerExpired (hr : (s.seq c).run ≠ .idle) : Calm s (timerExpired c s) :=
  .ite (fun _ => .stepEnd hr) fun _ => .ite (fun _ => .deliverFault) fun _ => .stepEnd hr
theorem Calm.timerTick (hr : (s.seq c).run ≠ .idle) : Calm s (timerTick c s) :=
  .trans .modSeq <| .trans .showWord <|
    .ite (fun _ => .timerExpired (by simpa [State.modSeq_eq] using hr)) fun _ => .refl _
theorem Calm.stableReport : Calm s (stableReport c s) := by
  refine .ite (fun h => .stepEnd ?_) fun _ => .refl _
  simp only [Bool.and_eq_true, decide_eq_true_eq] at h
  simp [h.1.1]
theorem endpointArmed_run {q : Seq} (h : endpointArmed q = true) : q.run = .step := by
  simp only [endpointArmed, Bool.and_eq_true, decide_eq_true_eq] at h
  exact h.1.1
theorem Calm.endpointSampled : Calm s (endpointSampled c s) := by
  refine .ite (fun h => .trans .modSeq (.ite (fun _ => .stepEnd ?_) fun _ => .refl _)) fun _ => .refl _
  simp only [Bool.and_eq_true] at h
  simp [State.modSeq_eq, endpointArmed_run h.1]
theorem Calm.pulseTick : Calm s (pulseTick c s) :=
  .ite (fun _ => .trans .modSeq (.ite (fun _ => .deliverFault) fun _ => .refl _)) fun _ => .refl _
theorem Calm.gapTick : Calm s (gapTick c s) :=
  .ite (fun _ => .trans .modSeq (.ite (fun _ => .closeNow) fun _ => .refl _)) fun _ => .refl _

end Sys2Proof.Machine
end

section
/-! Every event of the Time Base or of a pin is regular work at its moment, or a sample of an interlock input. -/

namespace Sys2Proof.Machine

variable {s s' : State} {c : Chamber}

/-! ### The Pumping Unit and the economy logic -/

theorem Calm.putPump {p : Pump} : Calm s (putPump c p s) :=
  .trans .setPump <| .trans (.ite (fun _ => .refl _) fun _ => .showWord) (.ite (fun _ => .refl _) fun _ => .showWord)
theorem Calm.pumpEntry {f : Nat} : Calm s (pumpEntry c f s) := .produce
theorem Calm.stageTo {p : Pump} : Calm s (stageTo c p s) :=
  .trans .putPump (.ite (fun _ => .refl _) fun _ => .pumpEntry)
theorem Calm.grantRough : Calm s (grantRough c s) :=
  .trans .setRough <| .trans .imageRough <| .ite (fun _ => .stageTo) fun _ => .stageTo
theorem Calm.requestRough : Calm s (requestRough c s) := by
  unfold Machine.requestRough
  split
  · exact .grantRough
  · exact .trans .setRough (.trans .imageRough .stageTo)
theorem Calm.releaseRough : Calm s (releaseRough s) := by
  unfold Machine.releaseRough
  split
  · exact .trans .setRough .imageRough
  · exact .trans .setRough .grantRough
theorem Calm.leaveRough : Calm s (leaveRough c s) :=
  .ite (fun _ => .releaseRough) fun _ => .ite (fun _ => .trans .setRough .imageRough) fun _ => .refl _
theorem Calm.putFaultHold {x : Code} {d : Nat} : Calm s (putFaultHold c x d s) :=
  .trans .putPump (.trans .leaveRough (.trans .doneHeld .raise))
theorem Calm.enterFaultHold {x : Code} {d : Nat} : Calm s (enterFaultHold c x d s) := .trans .putFaultHold .pumpEntry
theorem Calm.losePumping : Calm s (losePumping c s) := .trans .deliverFault .checkStage
theorem Calm.turboLoss : Calm s (turboLoss c s) := by
  unfold Machine.turboLoss
  extract_lets s' entry place s''
  have h : Calm s s' := .putFaultHold
  clear_value s'
  exact .trans h <| .ite (fun _ => .pumpEntry) fun _ => .trans .bumpUses <|
    .ite (fun _ => .trans .pumpEntry .losePumping) fun _ =>
      .ite (fun _ => .trans .beginEnd (.trans .pumpEntry (.trans .clearLatch .finishRun)))
        fun _ => .trans .losePumping .pumpEntry
theorem Calm.abortPump : Calm s (abortPump c s) := by
  unfold Machine.abortPump
  dsimp only
  exact .ite (fun _ => .doneHeld) fun _ => .trans .putPump (.trans .leaveRough (.trans .pumpEntry .doneHeld))
theorem Calm.startPumpdown : Calm s (startPumpdown c s) := .ite (fun _ => .stageTo) fun _ => .requestRough
theorem Calm.startVent : Calm s (startVent c s) := .stageTo
theorem Calm.leaveRoughing : Calm s (leaveRoughing c s) := .trans .stageTo .leaveRough
theorem Calm.roughTest : Calm s (roughTest c s) :=
  .ite (fun _ => .leaveRoughing) fun _ => .ite (fun _ => .stageTo) fun _ => .refl _
theorem Calm.guardAndTest : Calm s (guardAndTest c s) :=
  .ite (fun _ => .ite (fun _ => .ite (fun _ => .stageTo) fun _ => .trans .putPump .roughTest) fun _ => .refl _)
    fun _ => .ite (fun _ => .roughTest) fun _ => .putPump
theorem Calm.crossoverWork {b : Bool} : Calm s (crossoverWork c b s) := .ite (fun _ => .stageTo) fun _ => .setPump
/-- A pumpdown or a vent that reaches its end (R118, R120). -/
theorem Calm.pumpArrives {p : Pump} {d : Nat} : Calm s (Machine.pumpEntry c 0 (Machine.raise (.pump c)
    (Machine.doneHeld c SlotHold.isPump .complete d 0 (Machine.putPump c p s)))) :=
  .trans .putPump (.trans .doneHeld (.trans .raise .pumpEntry))
theorem Calm.highVacTest : Calm s (highVacTest c s) := by
  unfold Machine.highVacTest
  dsimp only
  split
  · exact .ite (fun _ => .pumpArrives) fun _ => .refl _
  · exact .refl _
theorem Calm.ventWork : Calm s (ventWork c s) := by
  unfold Machine.ventWork
  dsimp only
  refine .ite (fun _ => ?_) fun _ => .ite (fun _ => .setPump) fun _ => .setPump
  split
  · exact .ite (fun _ => .pumpArrives) fun _ => .refl _
  · exact .refl _
theorem Calm.pumpStageWork {b : Bool} : Calm s (pumpStageWork c b s) := by
  unfold Machine.pumpStageWork
  split
  · exact .guardAndTest
  · exact .guardAndTest
  · exact .ite (fun _ => .guardAndTest) fun _ => .refl _
  · exact .crossoverWork
  · exact .ite (fun _ => .highVacTest) fun _ => .turboLoss
  · exact .ite (fun _ => .turboLoss) fun _ => .refl _
  · exact .ventWork
  · exact .refl _
theorem Calm.samplePin {b : Bool} : Calm s (samplePin c b s) := .setPins
theorem Calm.modPump {f : Pump → Pump} : Calm s (s.modPump c f) := .setPump
theorem Calm.pumpWork {b : Bool} : Calm s (pumpWork c b s) :=
  .trans .samplePin (.ite (fun _ => .trans .modPump .pumpStageWork) fun _ => .refl _)
theorem Calm.limitTick : Calm s (limitTick c s) := by
  unfold Machine.limitTick
  dsimp only
  split
  · exact .refl _
  · exact .ite (fun _ => .ite (fun _ => .setPump) fun _ => .ite (fun _ => .setPump) fun _ => .enterFaultHold)
      fun _ => .refl _

theorem Calm.putMode {m : Mode} : Calm s (putMode c m s) := .trans .modEcon .showWord
theorem Calm.modeEntry {x : WakeCause} {f g : Nat} : Calm s (modeEntry c x f g s) := .trans .produce .raise
theorem Calm.enterEconomy : Calm s (enterEconomy c s) := .trans .putMode (.trans .openPurge .modeEntry)
theorem Calm.beginWake {x : WakeCause} : Calm s (beginWake c x s) :=
  .ite (fun _ => .trans .modEcon .dropPurge) fun _ => .refl _
theorem Calm.endWake : Calm s (endWake c s) := by
  unfold Machine.endWake
  extract_lets cause s1 s2 detail s3 s4
  have h1 : Calm s s1 := .trans .modEcon .putMode
  have h2 : Calm s1 s2 := .trans .showWord .modeEntry
  have h3 : Calm s2 s3 := .ite (fun h => .stepStart (by simp [h])) fun _ => .refl _
  exact h1.trans (h2.trans (h3.trans (.trans .doneHeld .doneHeld)))
theorem Calm.failWake : Calm s (failWake c s) := .trans .putMode (.trans .turboLoss (.trans .doneHeld .modeEntry))
theorem Calm.leaveByVent : Calm s (leaveByVent c s) :=
  .ite (fun _ => .trans .putMode (.trans .dropPurge .modeEntry)) fun _ => .refl _
theorem Calm.leaveByTrip {i : Nat} : Calm s (leaveByTrip c i s) := .trans .putMode .doneHeld
theorem Calm.economyRead : Calm s (economyRead c s) := by
  unfold Machine.economyRead
  dsimp only
  refine .ite (fun _ => ?_) fun _ => .refl _
  split
  · exact .ite (fun _ => .beginWake) fun _ => .refl _
  · exact .refl _
theorem Calm.wakeSample {b : Bool} : Calm s (wakeSample c b s) := by
  unfold Machine.wakeSample
  extract_lets s' e dwell
  have h : Calm s s' := .samplePin
  refine h.trans ?_
  clear_value s'
  refine .ite (fun _ => ?_) fun _ => .refl _
  split
  · exact .refl _
  · exact .ite (fun _ => .ite (fun _ => .endWake) fun _ => .setEcon) fun _ => .setEcon
  · exact .ite (fun _ => .setEcon) fun _ => .setEcon
theorem Calm.wakeTick : Calm s (wakeTick c s) := by
  unfold Machine.wakeTick
  dsimp only
  refine .ite (fun _ => ?_) fun _ => .refl _
  split
  · exact .refl _
  · exact .ite (fun _ => .setEcon) fun _ => .failWake
  · exact .ite (fun _ => .setEcon) fun _ => .endWake

/-! ### The Interlock Unit -/

theorem Calm.setRfInhibit : Calm s (setRfInhibit c s) :=
  .trans .rfOff (.modRf fun _ _ => by simp [Machine.rfOff, State.modRf_eq])

/-- Dropping a line leaves it closed to a chamber whose gas is inhibited. -/
theorem dropLine_closed {k : LineId} (hg : s.gasInhibit c = true) : ((dropLine c k s).line k).openTo ≠ some c := by
  unfold dropLine
  have hk : Keeps s (if (s.line k).openTo = some c then s.modLine k Line.shut else s) :=
    .ite (fun _ => .modLine_shut) fun _ => .refl _
  refine Keeps.releaseLine.core.gasShut c (hk.core.gases c hg) k ?_
  split
  · simp [State.modLine_eq, Line.shut]
  · assumption

/-- Dropping every line under a gas inhibit closes every line of the chamber (R83). -/
theorem dropAll_closed (hg : s.gasInhibit c = true) (k : LineId) : ((dropAll c s).line k).openTo ≠ some c := by
  have pass : ∀ (ks : List LineId) (s : State), s.gasInhibit c = true → k ∈ ks ∨ (s.line k).openTo ≠ some c →
      ((ks.foldl (fun s j => if true = true then dropLine c j s else s) s).line k).openTo ≠ some c := by
    intro ks
    induction ks with
    | nil => intro s _ h; simpa using h
    | cons j ks ih =>
      intro s hs h
      rw [List.foldl_cons, if_pos rfl]
      have hd : Keeps s (dropLine c j s) := .dropLine
      refine ih _ (hd.core.gases c hs) ?_
      rcases h with h | h
      · rcases List.mem_cons.1 h with rfl | h
        · exact .inr (dropLine_closed hs)
        · exact .inl h
      · exact .inr (hd.core.gasShut c hs k h)
  exact pass _ _ hg (.inl (List.mem_finRange k))

theorem Calm.inhibitGas : Calm s (inhibitGas c s) := by
  have h : Calm (s.setGasInhibit c true) (Machine.inhibitGas c s) := .dropAll
  refine ⟨h.now, h.rf, fun d hd => ?_, h.tidy⟩
  by_cases e : d = c
  · subst e
    exact fun _ => dropAll_closed (by simp)
  · refine h.gas d fun hi => hd ?_
    rwa [State.setGasInhibit_gasInhibit_ne _ _ _ _ e] at hi

theorem Calm.fullSafe {i : Nat} : Calm s (fullSafe c i s) := by
  have hold : ∀ s, Calm s (if (s.pump c).st = .faultHold then s else Machine.enterFaultHold c .faultInterlock i s) :=
    fun s => .ite (fun _ => .refl _) fun _ => .enterFaultHold
  unfold Machine.fullSafe
  refine .ite (fun _ => ?_) fun _ => hold s
  exact .trans .bumpUses <| .trans .leaveByTrip <| .ite (fun _ => .trans .modeEntry (hold _))
    fun _ => .trans (hold _) .modeEntry
theorem Calm.tripChamber {k : InputId} : Calm s (tripChamber k c s) := by
  unfold Machine.tripChamber
  extract_lets action item s1 s2 s3
  have h1 : Calm s s1 := .trans .reachFaults .setRfInhibit
  have h2 : Calm s1 s2 := .ite (fun _ => .inhibitGas) fun _ => .refl _
  have h3 : Calm s2 s3 := .ite (fun _ => .fullSafe) fun _ => .refl _
  exact h1.trans (h2.trans (h3.trans (.trans .raiseRestriction (.trans .deliverFault .checkStage))))
theorem Calm.modIlk {k : InputId} {f : Ilk → Ilk} : Calm s (s.modIlk k f) := .setIlk
theorem Calm.latchTrip {k : InputId} : Calm s (latchTrip k s) :=
  .trans .modIlk <| .trans .imageInterlock <| .trans .raise <| .forChambers fun _ _ =>
    .ite (fun _ => .tripChamber) fun _ => .refl _
theorem Calm.sampleInput {k : InputId} {b : Bool} : Calm s (sampleInput k b s) := by
  unfold Machine.sampleInput
  refine .ite (fun _ => ?_) fun _ => .refl _
  extract_lets active old latches s1 s2
  have h1 : Calm s s1 := .trans .setPins .setIlk
  have h2 : Calm s1 s2 := .ite (fun _ => .refl _) fun _ => .imageInterlock
  exact h1.trans (h2.trans (.ite (fun _ => .latchTrip) fun _ => .refl _))

/-! ### The slot scan -/

theorem Calm.dropRfDues : Calm s (dropRfDues c s) := .modRf
theorem Calm.holdNow : Calm s (holdNow c s) :=
  .trans .dropRfDues (.ite (fun _ => .enterHeld) fun _ => .trans .leaveQueue .enterHeld)
theorem Calm.latchHold : Calm s (latchHold c s) := .trans .modSeq .showWord
theorem Calm.releaseHeld (h : (s.seq c).run = .held) : Calm s (releaseHeld c s) :=
  .trans .produce (.stepStart (by simp [h]))
theorem Calm.abortRun : Calm s (abortRun c s) := by
  unfold Machine.abortRun
  split
  · exact .abortPump
  · exact .endStarting
  · exact .closeNow

/-- RELEASE is acted on in HELD only (R33). -/
theorem requestActs_release {q : Seq} (h : requestActs q 3 = true) : q.run = .held := by
  cases hr : q.run <;> simp [requestActs, hr] at h ⊢

theorem Calm.actRequest {n : Nat} (h : requestActs (s.seq c) n = true) : Calm s (actRequest c n s) := by
  unfold Machine.actRequest
  split
  · exact .holdNow
  · exact .latchHold
  · exact .releaseHeld (requestActs_release h)
  · exact .closeNow
  · exact .abortRun

/-- Whether a request is acted on depends on the run state and the slots alone. -/
theorem requestActs_congr {q q' : Seq} (hr : q'.run = q.run) (hs : q'.slots = q.slots) (n : Nat) :
    requestActs q' n = requestActs q n := by
  have hp : q'.pumpTaken = q.pumpTaken := by simp only [Seq.pumpTaken, hs]
  unfold requestActs
  rw [hr, hp]

theorem Calm.hostRequest : Calm s (hostRequest c s) := by
  unfold Machine.hostRequest
  extract_lets code number acts s1 s2
  have h1 : Calm s s1 := .trans .modSeq .showWord
  have hacts : requestActs (s1.seq c) code = acts := requestActs_congr (by simp [s1, State.modSeq_eq])
    (by simp [s1, State.modSeq_eq]) _
  have h2 : Calm s1 s2 := .ite (fun h => .actRequest (hacts.trans h)) fun _ => .refl _
  exact .ite (fun _ => .refl _) fun _ => h1.trans (h2.trans (.trans .modSeq (.trans .showWord .raise)))

theorem Calm.turnPointer : Calm s (turnPointer c s) := .trans .modSeq .showWord
theorem Calm.refuse {x : Code} {d : Nat} : Calm s (refuse c x d s) := .trans .writeSlot (.trans .raise .turnPointer)
theorem Calm.answerAtOnce {x : Code} {d : Nat} : Calm s (answerAtOnce c x d s) := .trans .doneSlot .turnPointer
theorem Calm.takeSlot {h : SlotHold} : Calm s (takeSlot c h s) := .trans .writeSlot (.trans .holdSlot .turnPointer)

@[simp] theorem takeSlot_run {h : SlotHold} : ((takeSlot c h s).seq c).run = (s.seq c).run := by
  simp [takeSlot, turnPointer, holdSlot, writeSlot, State.modSeq_eq]

/-- Forgetting the faults of an earlier run changes RF Supervisor, Pressure Channel and lines alone. -/
theorem forgetDues_parts : changesOnly ([.rf c, .press c] ++ allLines) s (forgetDues c s) := by
  have h : Frame ([.rf c, .press c] ++ allLines) [] [] s (forgetDues c s) :=
    .trans .modRf <| .trans .modPress <| .foldl (fun _ k => .modLine (by simp [allLines])) _ _
  exact h.parts

theorem Calm.forgetDues : Calm s (forgetDues c s) :=
  .trans .dropRfDues <| .trans .modPress <| .forLines fun _ _ => .modLine_same fun l => by split <;> rfl

theorem Calm.takeRun {f : Seq → Seq} (hr : ∀ q, (f q).run = .starting) (hl : ∀ q, (f q).loop.length ≤ 4) :
    Calm s (takeRun c f s) := by
  unfold Machine.takeRun
  extract_lets s1 s2 s3 s4
  have h1 : Calm s s1 := .trans .takeSlot <| .trans (.modSeq fun _ => ⟨hl _, fun e => by simp [hr] at e⟩) .forgetDues
  have h2 : Calm s1 s2 := .trans .showWord <| .trans .showWord <| .trans .showWord .showWord
  have h3 : Calm s2 s3 := .trans .showWord <| .trans .showWord .showWord
  have h4 : Calm s3 s4 := .trans .fixPages .produce
  have hrun : (s4.seq c).run = .starting := by
    have e4 : s4.seq c = s3.seq c := by
      rw [produce_seq]
      exact fixPages_parts (.seq c) (by simp)
    have e3 : s3.seq c = s1.seq c := by simp [s3, s2]
    have e1 : s1.seq c = f ((Machine.takeSlot c .current s).seq c) :=
      (forgetDues_parts (.seq c) (by simp [allLines])).trans (by simp [State.modSeq_eq])
    rw [e4, e3, e1, hr]
  exact h1.trans (h2.trans (h3.trans (h4.trans (.ite (fun _ => .beginWake) fun _ => .stepStart (by simp [hrun])))))

theorem Calm.runNew {o : Order} : Calm s (runNew c o s) := by
  unfold Machine.runNew
  split
  · exact .refuse
  · exact .takeRun (fun _ => rfl) fun _ => Nat.zero_le _

/-- A context record holds at most four loop entries (R40). -/
theorem Context.loops_length (x : Context) (h : x.entries.length ≤ 4) : x.loops.length ≤ 4 := by
  simp only [Context.loops, List.length_take]; omega

theorem Calm.runResume {o : Order} : Calm s (runResume c o s) := by
  unfold Machine.runResume
  split
  · exact .refuse
  · refine .takeRun (fun _ => rfl) fun _ => ?_
    simpa [Seq.resumedRun] using Context.loops_length (readContext s.mem (contextAddr c)) (by simp [readContext])

theorem Calm.continueFromGap {o : Order} (h : (s.seq c).run = .gap) : Calm s (continueFromGap c o s) :=
  .trans .takeSlot <| .trans .makeCurrent <| .startSegment (by simp [h])
theorem Calm.continuePending {o : Order} (h : (s.seq c).run ≠ .idle) : Calm s (continuePending c o s) :=
  .trans .takeSlot <| .trans (.modSeq fun g => ⟨g.1, fun e => absurd (by simpa using e) h⟩) .showWord

theorem continueRefusal_none {q : Seq} {o : Order} (h : continueRefusal q o = none) : q.run ≠ .idle := by
  intro e
  simp [continueRefusal, e] at h

theorem Calm.runContinue {o : Order} : Calm s (runContinue c o s) := by
  unfold Machine.runContinue
  split
  · exact .refuse
  next h =>
    split
    · exact .refuse
    · exact .ite (fun hg => .continueFromGap hg) fun _ => .continuePending (continueRefusal_none h)
theorem Calm.pumpDown : Calm s (pumpDown c s) := by
  unfold Machine.pumpDown
  split
  · exact .refuse
  · exact .ite (fun _ => .ite (fun _ => .answerAtOnce) fun _ => .trans .takeSlot .beginWake) fun _ =>
      .trans .takeSlot .startPumpdown
theorem Calm.vent : Calm s (vent c s) := by
  unfold Machine.vent
  split
  · exact .refuse
  · exact .ite (fun _ => .answerAtOnce) fun _ => .trans .takeSlot (.trans .leaveByVent .startVent)
theorem Calm.setMode {o : Order} : Calm s (setMode c o s) :=
  .ite (fun _ => .refuse) fun _ => .ite (fun _ => .refuse) fun _ => .ite (fun _ => .refuse) fun _ =>
    .ite (fun _ => .ite (fun _ => .trans .enterEconomy .answerAtOnce) fun _ =>
      .ite (fun _ => .refuse) fun _ => .answerAtOnce) fun _ =>
    .ite (fun _ => .answerAtOnce) fun _ => .trans .takeSlot .beginWake
theorem Calm.judgeOrder {o : Order} : Calm s (judgeOrder c o s) := by
  unfold Machine.judgeOrder
  split
  · exact .runNew
  · exact .runResume
  · exact .runContinue
  · exact .pumpDown
  · exact .vent
  · exact .setMode
  · exact .refuse
theorem Calm.slotScan : Calm s (slotScan c s) :=
  .trans .hostRequest <| .trans (.ite (fun _ => .judgeOrder) fun _ => .refl _) .scanPages

/-! ### The work of the other events -/

theorem Calm.pulseEdge : Calm s (pulseEdge c s) :=
  .ite (fun h => .trans .modSeq (.timerTick (by simp [State.modSeq_eq, h.1]))) fun _ => .refl _
theorem Calm.lineEvent {k : LineId} : Calm s (lineEvent k s) := by
  unfold Machine.lineEvent
  split
  · exact .ite (fun _ => .trans .lineWork .stableReport) fun _ => .lineWork
  · exact .refl _
theorem Calm.deliverFlowFault {k : LineId} : Calm s (deliverFlowFault k s) := by
  unfold Machine.deliverFlowFault
  split
  · exact .trans .deliverFault (.modLine_same fun _ => rfl)
  · exact .refl _
theorem Calm.flowFaultEvent {k : LineId} : Calm s (flowFaultEvent k s) :=
  .ite (fun _ => .deliverFlowFault) fun _ => .ite (fun _ => .trans .lineWork .deliverFlowFault) fun _ => .refl _
theorem Calm.pressureEvent : Calm s (pressureEvent c s) :=
  .ite (fun _ => .trans .pressureWork .stableReport) fun _ => .pressureWork
theorem Calm.deliverPressureFault : Calm s (deliverPressureFault c s) :=
  .ite (fun _ => .trans .deliverFault .modPress) fun _ => .refl _
theorem Calm.pressureFaultEvent : Calm s (pressureFaultEvent c s) :=
  .ite (fun _ => .deliverPressureFault) fun _ =>
    .ite (fun _ => .trans .pressureWork .deliverPressureFault) fun _ => .refl _
theorem Calm.strikeEvent : Calm s (strikeEvent c s) := by
  unfold Machine.strikeEvent
  dsimp only
  split
  · exact .ite (fun _ => .trans .rfWork .deliverFault) fun _ => .rfWork
  · exact .rfWork
  · exact .refl _
theorem Calm.struckEvent : Calm s (struckEvent c s) := .ite (fun _ => .rfWork) fun _ => .refl _
theorem Calm.deliverReflect : Calm s (deliverReflect c s) :=
  .ite (fun _ => .trans .deliverFault .modRf) fun _ => .refl _
theorem Calm.deliverLost : Calm s (deliverLost c s) :=
  .trans .deliverReflect (.ite (fun _ => .trans .deliverFault .modRf) fun _ => .refl _)
theorem Calm.reflectEvent : Calm s (reflectEvent c s) :=
  .ite (fun _ => .deliverReflect) fun _ => .ite (fun _ => .trans .struckEvent .deliverReflect) fun _ => .refl _
theorem Calm.lostEvent : Calm s (lostEvent c s) :=
  .ite (fun _ => .deliverLost) fun _ => .ite (fun _ => .trans .struckEvent .deliverLost) fun _ => .refl _
theorem Calm.rfOnTick : Calm s (rfOnTick c s) := by
  unfold Machine.rfOnTick
  dsimp only
  refine .ite (fun _ => ?_) fun _ => .refl _
  have h : Calm s (s.setRf c { s.rf c with stepRfOn := satSucc32 (s.rf c).stepRfOn, countMark := s.now }) := .setRf id
  exact h.trans .modSeq
theorem Calm.purgeTick : Calm s (purgeTick c s) := .trans .modSeq (.ite (fun _ => .endPurge) fun _ => .refl _)
theorem Calm.closeLimitTick : Calm s (closeLimitTick c s) :=
  .trans .modSeq (.ite (fun _ => .pumpOutFails) fun _ => .refl _)
theorem Calm.elapsedTick : Calm s (elapsedTick c s) := by
  unfold Machine.elapsedTick
  dsimp only
  split
  · exact .ite (fun _ => .setSeq id) fun _ => .refl _
  · exact .ite (fun _ => .setSeq id) fun _ => .refl _
  · exact .refl _

/-! ### Events -/

/-- The work of an event: it keeps what Keeps and Calm say, or it is a sample of an interlock input. -/
inductive Worked (s : State) : State → Prop
  | regular {s' : State} (keeps : Keeps s s') (calm : Calm s s') : Worked s s'
  | sample (k : InputId) (level : Bool) : Worked s (sampleInput k level s)

/-- What an event leaves: nothing changed, or its work done at its moment. -/
inductive Event (s : State) : State → Prop
  | missed : Event s s
  | taken {s' : State} (t : Moment) (running : s.port.part = .running) (now : s.now ≤ t) (work : Worked (s.setNow t) s') :
      Event s s'

theorem Event.atTap {tap : Tap} {t : Moment} {body : State → State} (h : ∀ s, Worked s (body s))
    (e : Machine.atTap tap t s body = .next s') : Event s s' := by
  unfold Machine.atTap at e
  split at e
  next hr => cases e; exact .taken t hr.1 hr.2.1 (h _)
  next => cases e; exact .missed

theorem Event.atTap_regular {tap : Tap} {t : Moment} {body : State → State} (hk : ∀ s, Keeps s (body s))
    (hc : ∀ s, Calm s (body s)) (e : Machine.atTap tap t s body = .next s') : Event s s' :=
  .atTap (fun s => .regular (hk s) (hc s)) e

/-- Work done under a condition on the state at the event. -/
theorem Event.atTap_workIf {tap : Tap} {t : Moment} {p : State → Bool} {f : State → State}
    (hk : ∀ s, p s = true → Keeps s (f s)) (hc : ∀ s, p s = true → Calm s (f s))
    (e : Machine.atTap tap t s (workIf p f) = .next s') : Event s s' :=
  .atTap_regular (fun s => .ite (hk s) fun _ => .refl _) (fun s => .ite (hc s) fun _ => .refl _) e

theorem timerCounts_run (h : timerCounts s c = true) : (s.seq c).run = .step := by
  simp only [timerCounts, Bool.and_eq_true, decide_eq_true_eq] at h
  exact h.1.1.1
theorem timerEnds_counts (h : timerEnds s c = true) : timerCounts s c = true := by
  simp only [timerEnds, Bool.and_eq_true] at h
  exact h.1
theorem pressureBelow_run (h : pressureBelow s c = true) : (s.seq c).run = .step := by
  simp only [pressureBelow, Bool.and_eq_true, decide_eq_true_eq] at h
  exact h.1.1

/-- Every event of the Time Base or of a pin is its work at its moment, or nothing. -/
theorem event_of_exec {i : Instr} (hi : isEvent i = true) (e : exec i s = .next s') : Event s s' := by
  cases i with
  | extEvent t c =>
    simp only [exec, execExtEvent, atMoment] at e
    split at e
    next hr => cases e; exact .taken _ hr (Nat.le_max_left _ _) (.regular .pulseEdge .pulseEdge)
    next => cases e; exact .missed
  | slotScan t c => exact .atTap_regular (fun _ => .slotScan) (fun _ => .slotScan) e
  | stepTimerDecrement t c =>
    exact .atTap_workIf (fun _ _ => .timerTick) (fun _ h => .timerTick (by simp [timerCounts_run h])) e
  | stepTimerExpiry t c =>
    exact .atTap_workIf (fun _ _ => .timerTick)
      (fun _ h => .timerTick (by simp [timerCounts_run (timerEnds_counts h)])) e
  | endpointSample t c b =>
    exact .atTap_workIf (fun _ _ => Keeps.endpointPin.trans .endpointSampled)
      (fun _ _ => .trans .setPins .endpointSampled) e
  | endpointExit t c =>
    exact .atTap_workIf (fun _ _ => Keeps.endpointPin.trans .endpointSampled)
      (fun _ _ => .trans .setPins .endpointSampled) e
  | pressureBelowRead t c =>
    exact .atTap_workIf (fun _ _ => .stepEnd) (fun _ h => .stepEnd (by simp [pressureBelow_run h])) e
  | pulseLossDecrement t c => exact .atTap_regular (fun _ => .pulseTick) (fun _ => .pulseTick) e
  | pulseLost t c => exact .atTap_workIf (fun _ _ => .pulseTick) (fun _ _ => .pulseTick) e
  | gapTimerDecrement t c => exact .atTap_regular (fun _ => .gapTick) (fun _ => .gapTick) e
  | gapExpired t c => exact .atTap_workIf (fun _ _ => .gapTick) (fun _ _ => .gapTick) e
  | flowEvaluation t k => exact .atTap_regular (fun _ => .lineEvent) (fun _ => .lineEvent) e
  | lineStable t k => exact .atTap_workIf (fun _ _ => .lineEvent) (fun _ _ => .lineEvent) e
  | flowFault t k => exact .atTap_regular (fun _ => .flowFaultEvent) (fun _ => .flowFaultEvent) e
  | pressureEvaluation t c => exact .atTap_regular (fun _ => .pressureEvent) (fun _ => .pressureEvent) e
  | pressureFaultArmed t c => exact .atTap_workIf (fun _ _ => .pressureEvent) (fun _ _ => .pressureEvent) e
  | pressureStable t c => exact .atTap_workIf (fun _ _ => .pressureEvent) (fun _ _ => .pressureEvent) e
  | pressureFault t c => exact .atTap_regular (fun _ => .pressureFaultEvent) (fun _ => .pressureFaultEvent) e
  | strikeTest t c => exact .atTap_regular (fun _ => .strikeEvent) (fun _ => .strikeEvent) e
  | strikeWindowExpiry t c => exact .atTap_workIf (fun _ _ => .strikeEvent) (fun _ _ => .strikeEvent) e
  | retryPauseEnd t c => exact .atTap_workIf (fun _ _ => .strikeEvent) (fun _ _ => .strikeEvent) e
  | struckEvaluation t c => exact .atTap_regular (fun _ => .struckEvent) (fun _ => .struckEvent) e
  | rfReflect t c => exact .atTap_regular (fun _ => .reflectEvent) (fun _ => .reflectEvent) e
  | plasmaLost t c => exact .atTap_regular (fun _ => .lostEvent) (fun _ => .lostEvent) e
  | rfOnCount t c => exact .atTap_regular (fun _ => .rfOnTick) (fun _ => .rfOnTick) e
  | interlockSample t k b => exact .atTap (fun _ => .sample k b) e
  | tripLatch t k =>
    refine .atTap (fun s => ?_) e
    unfold workIf
    split
    · exact .sample k _
    · exact .regular (.refl _) (.refl _)
  | scanPassT0 t n => exact .atTap_regular (fun _ => .scannerT0) (fun _ => .scannerT0) e
  | settlingEnd t n => exact .atTap_workIf (fun _ _ => .scannerT0) (fun _ _ => .scannerT0) e
  | scanPassT2 t n => exact .atTap_regular (fun _ => .scannerT2) (fun _ => .scannerT2) e
  | handoverTimerDecrement t k => exact .atTap_regular (fun _ => .handoverTick) (fun _ => .handoverTick) e
  | handoverPurgeEnd t k => exact .atTap_workIf (fun _ _ => .handoverTick) (fun _ _ => .handoverTick) e
  | pumpMachineT1 t c b => exact .atTap_regular (fun _ => .pumpWork) (fun _ => .pumpWork) e
  | crossoverDelayEnd t c b => exact .atTap_workIf (fun _ _ => .pumpWork) (fun _ _ => .pumpWork) e
  | gateCloseDelayEnd t c => exact .atTap_workIf (fun _ _ => .pumpWork) (fun _ _ => .pumpWork) e
  | stageLimitDecrement t c => exact .atTap_regular (fun _ => .limitTick) (fun _ => .limitTick) e
  | pumpTimeout t c => exact .atTap_workIf (fun _ _ => .limitTick) (fun _ _ => .limitTick) e
  | economyPressureRead t c => exact .atTap_regular (fun _ => .economyRead) (fun _ => .economyRead) e
  | wakeTurboSample t c b => exact .atTap_regular (fun _ => .wakeSample) (fun _ => .wakeSample) e
  | wakeCountDecrement t c => exact .atTap_regular (fun _ => .wakeTick) (fun _ => .wakeTick) e
  | wakeLimitExpiry t c => exact .atTap_workIf (fun _ _ => .wakeTick) (fun _ _ => .wakeTick) e
  | wakeDwellEnd t c => exact .atTap_workIf (fun _ _ => .wakeTick) (fun _ _ => .wakeTick) e
  | gasOff t c => exact .atTap_workIf (fun _ _ => .gasOffStage) (fun _ _ => .gasOffStage) e
  | purgeTimerDecrement t c => exact .atTap_workIf (fun _ _ => .purgeTick) (fun _ _ => .purgeTick) e
  | purgeEnd t c => exact .atTap_workIf (fun _ _ => .purgeTick) (fun _ _ => .purgeTick) e
  | pumpOutRead t c => exact .atTap_workIf (fun _ _ => .endStage) (fun _ _ => .endStage) e
  | closeLimitDecrement t c => exact .atTap_workIf (fun _ _ => .closeLimitTick) (fun _ _ => .closeLimitTick) e
  | closeLimitExpiry t c => exact .atTap_workIf (fun _ _ => .closeLimitTick) (fun _ _ => .closeLimitTick) e
  | elapsedTimeCount t c => exact .atTap_regular (fun _ => .elapsedTick) (fun _ => .elapsedTick) e
  | _ => simp [isEvent] at hi

end Sys2Proof.Machine
end

section
/-! What an apply may change, and what each command of the table can do to the state. -/

namespace Sys2Proof.Machine

variable {s s' : State} {c : Chamber}

/-! ### The apply -/

theorem Calm.setIlk_forInputs {f : InputId → State → State} (h : ∀ k s, Calm s (f k s)) : Calm s (forInputs f s) :=
  .foldl (fun s k => h k s) _ _

theorem Calm.setMem {m : Memory} : Calm s (s.setMem m) := .of_rfl rfl rfl rfl rfl rfl

theorem Calm.applyChannel {old : Tables} {k : ChannelId} : Calm s (applyChannel old k s) := by
  unfold Machine.applyChannel
  split
  · exact .ite (fun _ => .refl _) fun _ => .setChan
  · exact Calm.trans (b := s.setChan k {}) .setChan .setMem

theorem Calm.startPurge {k : LineId} : Calm s (startPurge k s) := .ite (fun _ => .putArb) fun _ => .putArb

theorem Calm.installTables {tab : Tables} : Calm s (installTables tab s) := by
  have h0 : Calm s (s.setTables tab) := .of_rfl rfl rfl rfl rfl rfl
  exact .trans h0 <| .trans (.forChannels fun _ _ => .applyChannel) <| .trans .setScan <| .trans .imageRate <|
    .trans (.setIlk_forInputs fun _ _ => .modIlk) <| .trans .imageInterlock <|
    .trans (.forLines fun _ _ => .startPurge) (.forChambers fun _ _ => .modPress)

theorem Calm.loseSlot {i : Fin 2} : Calm s (loseSlot c i s) :=
  .ite (fun _ => .trans .writeSlot .raise) fun _ => .refl _

theorem Calm.startChamber : Calm s (startChamber c s) := by
  unfold Machine.startChamber
  extract_lets number s1 s2 s3
  have h1 : Calm s s1 := .setPump
  have h2 : Calm s1 s2 := .modEcon
  have h3 : Calm s2 s3 := .modSeq
  exact h1.trans (h2.trans (h3.trans (.trans .showWord (.trans .showWord (.trans .loseSlot .loseSlot)))))

theorem Calm.recordLayout {r : LayoutCode} {e : Nat} : Calm s (recordLayout r e s) := .of_rfl rfl rfl rfl rfl rfl

theorem Calm.applyWhileRunning {tab : Tables} : Calm s (applyWhileRunning tab s) :=
  .trans .installTables (.trans (.forChambers fun _ _ => .fixPages) .recordLayout)

theorem Calm.applyFromHalted {tab : Tables} : Calm s (applyFromHalted tab s) := by
  have hr : ∀ t : State, Calm t (startRunning t) := fun _ => .of_rfl rfl rfl rfl rfl rfl
  exact .trans .installTables <| .trans (.forChambers fun _ _ => .startChamber) <|
    .trans (.forChambers fun _ _ => .fixPages) <| .trans (hr _) .recordLayout

/-- What APPLY_LAYOUT does (R12 to R14): refused, it records its result; else it installs the tables. -/
inductive Applied (s : State) : State → Prop
  | refused (code : LayoutCode) (entry : Nat) : Applied s (recordLayout code entry s)
  | running (hp : s.port.part = .running) (hq : quiet s = true) (hc : checkTables (readTables s.mem) = none) :
      Applied s (applyWhileRunning (readTables s.mem) s)
  | halted (hp : s.port.part = .halted) (hc : checkTables (readTables s.mem) = none) :
      Applied s (applyFromHalted (readTables s.mem) s)

theorem applyTables_applied (s : State) : Applied s (applyTables s) := by
  unfold applyTables
  dsimp only
  split
  · exact .refused _ _
  next hb =>
    split
    · exact .refused _ _
    next hc =>
      split
      next hp => exact .running hp (by simpa [hp] using hb) hc
      next hp =>
        refine .halted ?_ hc
        cases h : s.port.part
        · rfl
        · exact absurd h hp

theorem Applied.calm (h : Applied s s') : Calm s s' := by
  cases h with
  | refused => exact .recordLayout
  | running => exact .applyWhileRunning
  | halted => exact .applyFromHalted

/-! ### The acknowledgement -/

theorem Calm.clearTrips {levels : Vector Bool 16} : Calm s (clearTrips levels s) := by
  rw [clearTrips_eq]
  refine .setIlk_forInputs fun k s => .ite (fun _ => ?_) fun _ => .refl _
  exact .ite (fun _ => .trans .setPins .modIlk) fun _ => .setPins

theorem Calm.liftInhibits : Calm s (liftInhibits c s) := by
  unfold Machine.liftInhibits
  extract_lets s1
  have h1 : Calm s s1 := .modRf fun h hi => h (by simp only [Bool.and_eq_true] at hi; exact hi.1)
  refine h1.trans (.ite (fun _ => ?_) fun _ => .refl _)
  have h2 : Calm s1 (s1.setGasInhibit c false) := ⟨rfl, fun _ => id, fun d hd hi => hd (by
    rw [State.setGasInhibit_gasInhibit] at hi
    split at hi
    · cases hi
    · exact hi), fun _ => id⟩
  exact .trans h2 (.ite (fun _ => .openPurge) fun _ => .refl _)

theorem Calm.acknowledge {levels : Vector Bool 16} : Calm s (acknowledge levels s) :=
  .ite (fun _ => .trans .clearTrips <| .trans .imageInterlock <| .trans .raise <| .forChambers fun _ _ => .liftInhibits)
    fun _ => .refl _

/-! ### What a command can do -/

/-- Everything a command of the table can do to the state. -/
inductive Effect (s : State) : Instr → State → Prop
  | reset {i : Instr} (hi : isReset i = true) (last : Chamber → Code) (m : Memory)
      (hm : m = s.mem ∨ m = [] ∧ i = .powerOnReset) : Effect s i (resetOver last m s)
  | apply {s' : State} (t : Moment) (h : Applied (s.setNow (max s.now t)) s') : Effect s (.applyLayout t) s'
  | ack (levels : Vector Bool 16) (running : s.port.part = .running) : Effect s (.ackTrips levels) (acknowledge levels s)
  | read (w : Width) (data : Word) :
      Effect s (.eventSummaryRead w)
        (s.setPort { s.port with dataOut := data, summary := if w = .word then 0 else s.port.summary })
  | enable (v : Word) : Effect s (.eventEnableWrite v) (s.setPort { s.port with enable := v.setWidth 18 })
  | write (addr : Word) (w : Width) (v : Word) :
      Effect s (.hostMemoryWrite addr w v) (s.setMem (hostWrite s.mem addr w v))
  | event {i : Instr} {s' : State} (hi : isEvent i = true) (h : Event s s') : Effect s i s'
  | idle {i : Instr} : Effect s i s

theorem effect_of_exec {i : Instr} (e : exec i s = .next s') : Effect s i s' := by
  cases hi : isEvent i with
  | true => exact .event hi (event_of_exec hi e)
  | false =>
    cases i with
    | powerOnReset => cases e; exact .reset rfl _ _ (.inr ⟨rfl, rfl⟩)
    | resetInput => cases e; exact .reset rfl _ _ (.inl rfl)
    | softReset => cases e; exact .reset rfl _ _ (.inl rfl)
    | applyLayout t => cases e; exact .apply t (applyTables_applied _)
    | ackTrips levels =>
      rw [exec_ackTrips] at e
      split at e
      next hr => cases e; exact .ack levels hr
      next => cases e; exact .idle
    | eventSummaryRead w => cases e; exact .read w _
    | eventEnableWrite v => cases e; exact .enable v
    | registerWriteIgnored addr w v => cases e; exact .idle
    | hostMemoryWrite addr w v => cases e; exact .write addr w v
    | _ => simp [isEvent] at hi

/-- A step is the idling of an empty queue, or the effect of the command at the front. -/
theorem step_cases (e : step s = .next s') :
    (s.pending = [] ∧ s' = s) ∨ ∃ i rest, s.pending = i :: rest ∧ Effect { s with pending := rest } i s' := by
  unfold step at e
  split at e
  next h => cases e; exact .inl ⟨h, rfl⟩
  next i rest h => exact .inr ⟨i, rest, h, effect_of_exec e⟩

theorem Worked.calm (h : Worked s s') : Calm s s' := by
  cases h with
  | regular _ calm => exact calm
  | sample => exact .sampleInput

theorem Worked.works (h : Worked s s') : Works s s' := by
  cases h with
  | regular keeps _ => exact keeps.works
  | sample => exact .sampleInput

theorem Event.works (h : Event s s') : Works s s' := by
  cases h with
  | missed => exact (Keeps.refl _).works
  | taken t _ _ w => exact Keeps.setNow.works.trans w.works

/-- A command is a reset, or it moves the Time Base at most forward and then keeps what Calm says. -/
theorem Effect.reset_or_calm {i : Instr} (h : Effect s i s') :
    (isReset i = true ∧ ∃ last m, s' = resetOver last m s) ∨ ∃ t, s.now ≤ t ∧ Calm (s.setNow t) s' := by
  have same : ∀ {u : State}, Calm s u → ∃ t, s.now ≤ t ∧ Calm (s.setNow t) u := fun g => ⟨s.now, le_rfl, g⟩
  cases h with
  | reset hr last m => exact .inl ⟨hr, last, m, rfl⟩
  | apply t h => exact .inr ⟨_, Nat.le_max_left _ t, h.calm⟩
  | ack levels _ => exact .inr (same .acknowledge)
  | read w _ => exact .inr (same (.of_rfl rfl rfl rfl rfl rfl))
  | enable v => exact .inr (same (.of_rfl rfl rfl rfl rfl rfl))
  | write addr w v => exact .inr (same (.of_rfl rfl rfl rfl rfl rfl))
  | event _ h =>
    cases h with
    | missed => exact .inr (same (.refl _))
    | taken t _ hn w => exact .inr ⟨t, hn, w.calm⟩
  | idle => exact .inr (same (.refl _))

end Sys2Proof.Machine
end

section
/-! The frames of a layout apply and of a reset (R10 to R14). -/

namespace Sys2Proof.Machine

variable {s s' : State} {c : Chamber} {ps : List Part} {rs : List Bytes} {fs : List EventFlag}

/-! ### Passes over the chambers, lines, channels and inputs -/

/-- A pass whose step at `x` brings a property about, and whose other steps keep what it starts from and what it brings. -/
theorem foldl_at {α : Type} {f : State → α → State} {x : α} {P Q : State → Prop}
    (before : ∀ y ≠ x, ∀ s, P s → P (f s y)) (there : ∀ s, P s → Q (f s x)) (after : ∀ y ≠ x, ∀ s, Q s → Q (f s y))
    {xs : List α} (hx : x ∈ xs) (hn : xs.Nodup) {s : State} (h : P s) : Q (xs.foldl f s) := by
  have rest : ∀ (ys : List α) (t : State), x ∉ ys → Q t → Q (ys.foldl f t) := by
    intro ys
    induction ys with
    | nil => exact fun _ _ ht => ht
    | cons y ys ih =>
      intro t hy ht
      rw [List.mem_cons, not_or] at hy
      exact ih _ hy.2 (after y (Ne.symm hy.1) t ht)
  induction xs generalizing s with
  | nil => cases hx
  | cons y ys ih =>
    rw [List.nodup_cons] at hn
    by_cases hy : y = x
    · subst hy
      exact rest ys _ hn.1 (there s h)
    · exact ih ((List.mem_cons.mp hx).resolve_left (Ne.symm hy)) hn.2 (before y hy s h)

theorem forChambers_at {f : Chamber → State → State} (c : Chamber) {P Q : State → Prop}
    (before : ∀ d ≠ c, ∀ s, P s → P (f d s)) (there : ∀ s, P s → Q (f c s)) (after : ∀ d ≠ c, ∀ s, Q s → Q (f d s))
    (h : P s) : Q (forChambers f s) :=
  foldl_at (f := fun s c => f c s) before there after (List.mem_finRange c) (List.nodup_finRange 4) h
theorem forLines_at {f : LineId → State → State} (k : LineId) {P Q : State → Prop}
    (before : ∀ d ≠ k, ∀ s, P s → P (f d s)) (there : ∀ s, P s → Q (f k s)) (after : ∀ d ≠ k, ∀ s, Q s → Q (f d s))
    (h : P s) : Q (forLines f s) :=
  foldl_at (f := fun s c => f c s) before there after (List.mem_finRange k) (List.nodup_finRange 16) h
theorem forInputs_at {f : InputId → State → State} (k : InputId) {P Q : State → Prop}
    (before : ∀ d ≠ k, ∀ s, P s → P (f d s)) (there : ∀ s, P s → Q (f k s)) (after : ∀ d ≠ k, ∀ s, Q s → Q (f d s))
    (h : P s) : Q (forInputs f s) :=
  foldl_at (f := fun s c => f c s) before there after (List.mem_finRange k) (List.nodup_finRange 16) h
theorem forChannels_at {f : ChannelId → State → State} (k : ChannelId) {P Q : State → Prop}
    (before : ∀ d ≠ k, ∀ s, P s → P (f d s)) (there : ∀ s, P s → Q (f k s)) (after : ∀ d ≠ k, ∀ s, Q s → Q (f d s))
    (h : P s) : Q (forChannels f s) :=
  foldl_at (f := fun s c => f c s) before there after (List.mem_finRange k) (List.nodup_finRange 48) h

theorem Frame.forChambers {f : Chamber → State → State} (h : ∀ c s, Frame ps rs fs s (f c s)) :
    Frame ps rs fs s (forChambers f s) := .foldl (fun s c => h c s) _ _
theorem Frame.forLines {f : LineId → State → State} (h : ∀ k s, Frame ps rs fs s (f k s)) :
    Frame ps rs fs s (forLines f s) := .foldl (fun s k => h k s) _ _
theorem Frame.forInputs {f : InputId → State → State} (h : ∀ k s, Frame ps rs fs s (f k s)) :
    Frame ps rs fs s (forInputs f s) := .foldl (fun s k => h k s) _ _
theorem Frame.forChannels {f : ChannelId → State → State} (h : ∀ k s, Frame ps rs fs s (f k s)) :
    Frame ps rs fs s (forChannels f s) := .foldl (fun s k => h k s) _ _

/-- A pass over the chambers whose steps have their frame in every state with a property that they keep. -/
theorem Frame.forChambers_of {f : Chamber → State → State} {P : State → Prop} (hP : ∀ c s, P s → P (f c s))
    (h : ∀ c s, P s → Frame ps rs fs s (f c s)) (h0 : P s) : Frame ps rs fs s (Machine.forChambers f s) := by
  unfold Machine.forChambers
  induction List.finRange 4 generalizing s with
  | nil => exact .refl s
  | cons c cs ih => exact (h c s h0).trans (ih (hP c s h0))

/-! ### The Global Status image -/

theorem Frame.imageLine {k : LineId} (h : covered rs (0x100, 32) := by simp [covered, imageBytes, imageAddr]) :
    Frame ps rs fs s (imageLine k s) := by
  have := k.isLt
  refine .putWord (h.sub ?_ ?_) ?_ <;> simp only [imageAddr, Config.memorySize] <;> omega
theorem Frame.putArb {k : LineId} {x : Arb} (hp : .arb k ∈ ps := by simp)
    (h : covered rs (0x100, 32) := by simp [covered, imageBytes, imageAddr]) : Frame ps rs fs s (putArb k x s) :=
  (Frame.setArb hp).trans (.imageLine h)
theorem Frame.imageRough (h : covered rs (0x120, 8) := by simp [covered, imageBytes, imageAddr]) :
    Frame ps rs fs s (imageRough s) :=
  (Frame.putWord (h.sub (by decide) (by decide)) (by decide)).trans (.putWord (h.sub (by decide) (by decide)) (by decide))
theorem Frame.imageWait (h : covered rs (0x128, 8) := by simp [covered, imageBytes, imageAddr]) :
    Frame ps rs fs s (imageWait s) :=
  (Frame.putWord (h.sub (by decide) (by decide)) (by decide)).trans (.putWord (h.sub (by decide) (by decide)) (by decide))
theorem Frame.imageInterlock (h : covered rs (0x130, 4) := by simp [covered, imageBytes, imageAddr]) :
    Frame ps rs fs s (imageInterlock s) := .putWord (h.sub (by decide) (by decide)) (by decide)
theorem Frame.imageRate (h : covered rs (0x134, 4) := by simp [covered, imageBytes, imageAddr]) :
    Frame ps rs fs s (imageRate s) := .putWord (h.sub (by decide) (by decide)) (by decide)

/-! ### The apply -/

/-- The bytes of the Measurement Table. -/
def tableBytes : Bytes := (0xD00, 768)

/-- The parts that copying the tables changes. -/
def installParts : List Part :=
  [.tables, .scan] ++ (List.finRange 48).map .chan ++ (List.finRange 16).map .ilk ++ (List.finRange 16).map .arb ++
    (List.finRange 4).map .press

theorem Frame.resetMeasurement {k : ChannelId} (h : tableBytes ∈ rs) :
    Frame ps rs fs s (s.setMem (resetMeasurement s.mem k.val)) := by
  have := k.isLt
  refine Frame.putWords (vs := [0, pack16 0 65535, 1, 0]) ⟨_, h, ?_, ?_⟩ ?_ <;>
    simp only [tableBytes, measurementAddr, List.length_cons, List.length_nil, Config.memorySize] <;> omega

theorem Frame.applyChannel {old : Tables} {k : ChannelId} (hp : .chan k ∈ ps) (h : tableBytes ∈ rs) :
    Frame ps rs fs s (applyChannel old k s) := by
  unfold Machine.applyChannel
  split
  · exact .ite (fun _ => .refl _) fun _ => .setChan hp
  · exact Frame.trans (b := s.setChan k {}) (.setChan hp) (.resetMeasurement h)

theorem Frame.installTables {tab : Tables} :
    Frame installParts [imageBytes, tableBytes] fs s (installTables tab s) := by
  have hk : ∀ k, .chan k ∈ installParts := fun k => by simp [installParts]
  refine .trans (.setTables (by simp [installParts])) <|
    .trans (.forChannels fun k _ => .applyChannel (hk k) (by simp)) <|
    .trans (.setScan (by simp [installParts])) <| .trans .imageRate <|
    .trans (.forInputs fun k _ => .modIlk (by simp [installParts])) <| .trans .imageInterlock <|
    .trans (.forLines fun k _ => ?_) <| .forChambers fun d _ => .modPress (by simp [installParts])
  exact .ite (fun _ => .putArb (by simp [installParts])) fun _ => .putArb (by simp [installParts])

/-! ### Slots -/

/-- The answer to a slot (R20). -/
theorem Frame.writeSlot {i : Fin 2} {o d n st : Nat} (h : ∀ r ∈ answerBytes c i, covered rs r) :
    Frame ps rs fs s (writeSlot c i o d n st s) := by
  have hb := slotAddr_bounds (c := c) (i := i)
  exact .trans (.putWords (h _ (by simp [answerBytes])) (by simp only [Config.memorySize, List.length_cons, List.length_nil]; omega))
    (.putWord (h _ (by simp [answerBytes])) (by simp only [Config.memorySize]; omega))

theorem covered_answerBytes {i : Fin 2} (h : slotBytes c ∈ rs) : ∀ r ∈ answerBytes c i, covered rs r := by
  have := i.isLt
  intro r hr
  simp only [answerBytes, List.mem_cons, List.not_mem_nil, or_false] at hr
  rcases hr with rfl | rfl <;> refine ⟨_, h, ?_, ?_⟩ <;> simp only [slotBytes, slotAddr, Fin.val_zero] <;> omega

theorem Frame.loseSlot {i : Fin 2} (hr : slotBytes c ∈ rs) (hp : .summary ∈ ps) (hf : .order c ∈ fs) :
    Frame ps rs fs s (loseSlot c i s) :=
  .ite (fun _ => .trans (.writeSlot (covered_answerBytes hr)) (.raise hp hf)) fun _ => .refl _

/-- A chamber's own start at an apply from HALTED. -/
theorem Frame.startChamber :
    Frame [.pump c, .econ c, .seq c, .summary] [(statusAddr c, 8), slotBytes c] [.order c] s (startChamber c s) := by
  unfold Machine.startChamber
  extract_lets number s1 s2 s3
  exact .trans (b := s1) .setPump <| .trans (b := s2) .modEcon <| .trans (b := s3) .modSeq <|
    .trans .showWord <| .trans .showWord <|
    .trans (.loseSlot (by simp) (by simp) (by simp)) (.loseSlot (by simp) (by simp) (by simp))

/-- The record of an apply's result. -/
theorem Frame.recordLayout {r : LayoutCode} {e : Nat} :
    Frame [.layoutResult, .summary] [(0x0C, 12)] [.layout] s (recordLayout r e s) := by
  have port : Frame [.layoutResult, .summary] [(0x0C, 12)] [.layout] s
      (s.setPort { s.port with result := r, resultEntry := e }) :=
    ⟨changesOnly_setPort (fun _ => rfl) (by simp) (fun _ => rfl) (fun _ => rfl) fun _ => rfl,
      fun _ _ _ => rfl, fun _ _ => rfl⟩
  exact .trans port <| .trans (.putWords (by simp [covered, layoutAddr]) (by simp [layoutAddr, Config.memorySize])) .raise

/-! ### The pass that fixes the pages -/

/-- The bytes of an apply under a partition number. -/
def applyBytes (n : Nat) : List Bytes :=
  [(0x0C, 12), imageBytes, tableBytes, (0x800, 0x400), (0x2000 + 4096 * n, 4096 * (30 - n))]

/-- The bytes of the pages under a partition number: the status blocks and the report areas. -/
def pagesBytes (n : Nat) : List Bytes := [(0xA00, 512), (0x2000 + 4096 * n, 4096 * (30 - n))]

theorem pagesBytes_report {n : Nat} (_h : n ≤ 30) : covered (pagesBytes n) (reportBytes n c) := by
  have := c.isLt
  have hm : (30 - n) * c.val ≤ (30 - n) * 3 := Nat.mul_le_mul_left _ (by omega)
  refine ⟨(0x2000 + 4096 * n, 4096 * (30 - n)), by simp [pagesBytes], ?_, ?_⟩ <;>
    simp only [reportBytes, reportAddr, Nat.mul_assoc] <;> omega

theorem pagesBytes_status {n a k : Nat} (h1 : 0xA00 ≤ a) (h2 : a + k ≤ 0xC00) : covered (pagesBytes n) (a, k) :=
  ⟨(0xA00, 512), by simp [pagesBytes], h1, h2⟩

theorem applyBytes_status {n a k : Nat} (h1 : 0x800 ≤ a) (h2 : a + k ≤ 0xC00) : covered (applyBytes n) (a, k) :=
  ⟨(0x800, 0x400), by simp [applyBytes], h1, h2⟩

theorem covered_applyBytes_pages {n : Nat} : ∀ r ∈ pagesBytes n, covered (applyBytes n) r := by
  intro r hr
  simp only [pagesBytes, List.mem_cons, List.not_mem_nil, or_false] at hr
  rcases hr with rfl | rfl
  · exact applyBytes_status (by omega) (by omega)
  · exact covered_of_mem (by simp [applyBytes])

theorem Frame.fixPages_apply (h1 : 6 ≤ s.tables.partition) (h2 : s.tables.partition ≤ 26) :
    Frame [.rep c, .summary] (pagesBytes s.tables.partition) [.report c] s (Machine.fixPages c s) := by
  have hs := statusAddr_bounds c
  refine .fixPages ?_ ?_ (.inr ⟨⟨h1, h2⟩, pagesBytes_report (by omega)⟩) <;>
    exact pagesBytes_status (by omega) (by omega)

theorem fixPages_tables : (fixPages c s).tables = s.tables := fixPages_parts .tables (by simp)

/-- The parts and the flags of the pass over every chamber. -/
def pageParts : List Part := .summary :: (List.finRange 4).map .rep
def reportFlags : List EventFlag := (List.finRange 4).map .report

theorem Frame.fixAllPages {tab : Tables} (h1 : 6 ≤ tab.partition) (h2 : tab.partition ≤ 26) (ht : s.tables = tab) :
    Frame pageParts (pagesBytes tab.partition) reportFlags s (Machine.forChambers Machine.fixPages s) := by
  refine .forChambers_of (P := fun s => s.tables = tab) (fun c s h => fixPages_tables.trans h) (fun c s h => ?_) ht
  have hf := Frame.fixPages_apply (s := s) (c := c) (by rw [h]; exact h1) (by rw [h]; exact h2)
  rw [h] at hf
  exact hf.mono (by simp [pageParts]) (fun r hr => covered_of_mem hr) (by simp [reportFlags])

/-! ### The frames of the two applies -/

/-- The parts of the chambers that an apply from HALTED changes, the pages apart. -/
def startParts : List Part :=
  .summary :: ((List.finRange 4).map .pump ++ (List.finRange 4).map .econ ++ (List.finRange 4).map .seq)
def orderFlags : List EventFlag := (List.finRange 4).map .order

theorem Frame.installTables_apply {tab : Tables} {n : Nat} :
    Frame installParts (applyBytes n) fs s (Machine.installTables tab s) :=
  Frame.installTables.mono (List.Subset.refl _) (by
    simp only [List.mem_cons, List.not_mem_nil, or_false, forall_eq_or_imp, forall_eq]
    exact ⟨covered_of_mem (by simp [applyBytes]), covered_of_mem (by simp [applyBytes])⟩) (List.Subset.refl _)

theorem Frame.startAll {n : Nat} :
    Frame startParts (applyBytes n) orderFlags s (Machine.forChambers Machine.startChamber s) := by
  refine .forChambers fun c s => Frame.startChamber.mono (by simp [startParts]) ?_ (by simp [orderFlags])
  have hs := statusAddr_bounds c
  have h0 := slotAddr_bounds (c := c) (i := 0)
  have := c.isLt
  simp only [List.mem_cons, List.not_mem_nil, or_false, forall_eq_or_imp, forall_eq]
  exact ⟨applyBytes_status (by omega) (by omega), applyBytes_status (by omega) (by simp only [slotAddr, Fin.val_zero]; omega)⟩

end Sys2Proof.Machine
end

section
/-! What every step keeps: the canonical memory, the pages in their areas and the host's areas, the outputs at rest in
HALTED, and the rough line's law. -/

namespace Sys2Proof.Machine

variable {s s' : State} {c : Chamber}

/-! ### The canonical memory (R1) -/

@[simp] theorem startRunning_mem : (startRunning s).mem = s.mem := rfl

theorem Applied.wf (h : Applied s s') (hw : s.mem.wf = true) : s'.mem.wf = true := by
  cases h with
  | refused => exact recordLayout_wf hw
  | running => exact recordLayout_wf (Keeps.applyWhileRunning_chambers.core.wf hw)
  | halted =>
    refine recordLayout_wf ?_
    rw [startRunning_mem]
    exact Core.applyFromHalted_chambers.wf hw

theorem Effect.wf {i : Instr} (h : Effect s i s') (hw : s.mem.wf = true) : s'.mem.wf = true := by
  cases h with
  | reset _ last m hm =>
    rw [resetOver_mem]
    refine wf_resetWrites ?_
    rcases hm with rfl | ⟨rfl, -⟩
    · exact hw
    · rfl
  | apply t h => exact h.wf hw
  | ack levels _ => exact Stays.acknowledge.wf hw
  | read | enable | idle => exact hw
  | write addr w v => exact wf_hostWrite _ _ _ _ hw
  | event _ h => exact h.works.wf hw

/-- Settles O53: each command of the table keeps the canonical form. -/
theorem everyStepKeepsTheMemoryCanonical : Obligations.EveryStepKeepsTheMemoryCanonical := by
  intro s s' e hw
  rcases step_cases e with ⟨-, rfl⟩ | ⟨i, rest, -, h⟩
  · exact hw
  · exact h.wf hw

/-! ### The pages and the host's areas (R8, R12, R164) -/

/-- The areas of the host alone lie outside the bytes of an apply. -/
theorem not_inBytes_of_hostOwned {n a : Nat} (h : n ≤ 26) (ho : hostOwned n a = true) :
    ∀ r ∈ applyBytes n, ¬ inBytes a r := by
  simp only [hostOwned, decide_eq_true_eq] at ho
  simp only [applyBytes, List.mem_cons, List.not_mem_nil, or_false, forall_eq_or_imp, forall_eq, inBytes, imageBytes,
    imageAddr, tableBytes, Config.memorySize]
  refine ⟨?_, ?_, ?_, ?_, ?_⟩ <;> rintro ⟨i, hi, rfl⟩ <;> omega

/-- What a chamber's pages are after they are fixed: they fit, if a FILLING page had room. -/
theorem fixPages_fits (h1 : 6 ≤ s.tables.partition) (h2 : s.tables.partition ≤ 26) (h : (s.rep c).roomy) :
    ((fixPages c s).rep c).fits s.tables.partition := by
  have shown : ∀ t : State, t.tables = s.tables → (t.rep c).fits s.tables.partition →
      ((placeHeld c (showPage c 1 (showPage c 0 t))).rep c).fits s.tables.partition := by
    intro t ht hf
    rw [← ht] at h1 h2 hf ⊢
    exact (Keeps.showPage.trans (Keeps.showPage.trans .placeHeld)).core.fit c h1 h2 hf
  have fixed : ∀ n size notice short, n = s.tables.partition →
      ((showWord c .flags (showWord c .layout (s.setRep c ((s.rep c).fixed n size notice short)))).rep c).fits
        s.tables.partition := by
    rintro n size notice short rfl
    simp only [showWord_rep, State.setRep_rep_same]
    exact Rep.fits_fixed h1 h2 h
  unfold fixPages
  dsimp only
  split
  · exact fixed _ _ _ _ rfl
  · exact shown _ rfl (fixed _ _ _ _ rfl)

theorem fixAllPages_fits {tab : Tables} (h1 : 6 ≤ tab.partition) (h2 : tab.partition ≤ 26) (ht : s.tables = tab)
    (h : (s.rep c).roomy) : ((forChambers fixPages s).rep c).fits tab.partition := by
  have keep : ∀ d ≠ c, ∀ s : State, (fixPages d s).rep c = s.rep c := fun d hd s =>
    fixPages_parts (.rep c) (by simp [Ne.symm hd])
  refine (forChambers_at (P := fun s => s.tables = tab ∧ (s.rep c).roomy)
    (Q := fun s => s.tables = tab ∧ (s.rep c).fits tab.partition) c ?_ ?_ ?_ ⟨ht, h⟩).2
  · rintro d hd s ⟨h, g⟩
    exact ⟨fixPages_tables.trans h, by rwa [keep d hd]⟩
  · rintro s ⟨rfl, g⟩
    exact ⟨fixPages_tables, fixPages_fits h1 h2 g⟩
  · rintro d hd s ⟨h, g⟩
    exact ⟨fixPages_tables.trans h, by rwa [keep d hd]⟩

/-- The tables that an apply has copied. -/
theorem installTables_tables {tab : Tables} : (installTables tab s).tables = tab := Keeps.installTables.core.tables

theorem installTables_rep {tab : Tables} : (installTables tab s).rep c = s.rep c :=
  (Frame.installTables (fs := [])).parts (.rep c) (by simp [installParts])

theorem startAll_tables : (forChambers startChamber s).tables = s.tables :=
  (Frame.startAll (n := 0)).parts .tables (by simp [startParts])

theorem startAll_rep : (forChambers startChamber s).rep c = s.rep c :=
  (Frame.startAll (n := 0)).parts (.rep c) (by simp [startParts])

/-- The parts of an apply while RUNNING, and of one from HALTED. -/
def runningParts : List Part := installParts ++ pageParts ++ [.layoutResult]
def haltedParts : List Part := runningParts ++ startParts ++ [.partState]
def applyFlags : List EventFlag := .layout :: (orderFlags ++ reportFlags)

theorem covered_applyBytes_layout {n : Nat} : ∀ r ∈ [((0x0C, 12) : Bytes)], covered (applyBytes n) r := by
  simp [covered, applyBytes]

theorem Frame.applyWhileRunning {tab : Tables} (h1 : 6 ≤ tab.partition) (h2 : tab.partition ≤ 26) :
    Frame runningParts (applyBytes tab.partition) applyFlags s (applyWhileRunning tab s) := by
  refine .trans (Frame.installTables_apply.mono (by simp [runningParts]) (fun _ => covered_of_mem)
      (List.Subset.refl _)) <|
    .trans ((Frame.fixAllPages h1 h2 installTables_tables).mono (by simp [runningParts]) covered_applyBytes_pages
      (by simp [applyFlags]))
    (Frame.recordLayout.mono (by simp [runningParts, pageParts]) covered_applyBytes_layout (by simp [applyFlags]))

theorem Frame.startRunning {ps : List Part} {rs : List Bytes} {fs : List EventFlag} (h : .partState ∈ ps) :
    Frame ps rs fs s (startRunning s) :=
  ⟨changesOnly_setPort (fun g => absurd h g) (fun _ => ⟨rfl, rfl⟩) (fun _ => rfl) (fun _ => rfl) fun _ => rfl,
    fun _ _ _ => rfl, fun _ _ => rfl⟩

theorem Frame.applyFromHalted {tab : Tables} (h1 : 6 ≤ tab.partition) (h2 : tab.partition ≤ 26) :
    Frame haltedParts (applyBytes tab.partition) applyFlags s (applyFromHalted tab s) := by
  refine .trans (Frame.installTables_apply.mono (by simp [haltedParts, runningParts]) (fun _ => covered_of_mem)
      (List.Subset.refl _)) <|
    .trans (Frame.startAll.mono (by simp [haltedParts]) (fun _ => covered_of_mem) (by simp [applyFlags])) <|
    .trans ((Frame.fixAllPages h1 h2 (startAll_tables.trans installTables_tables)).mono
      (by simp [haltedParts, runningParts]) covered_applyBytes_pages (by simp [applyFlags])) <|
    .trans (.startRunning (by simp [haltedParts]))
    (Frame.recordLayout.mono (by simp [haltedParts, runningParts, pageParts]) covered_applyBytes_layout
      (by simp [applyFlags]))

@[simp] theorem applyWhileRunning_tables {tab : Tables} : (applyWhileRunning tab s).tables = tab := by
  rw [Machine.applyWhileRunning, recordLayout_tables]
  exact Keeps.applyWhileRunning_chambers.core.tables

@[simp] theorem startRunning_tables : (startRunning s).tables = s.tables := rfl
@[simp] theorem startRunning_rep : (startRunning s).rep c = s.rep c := rfl

@[simp] theorem applyFromHalted_tables {tab : Tables} : (applyFromHalted tab s).tables = tab := by
  rw [Machine.applyFromHalted, recordLayout_tables, startRunning_tables]
  exact Core.applyFromHalted_chambers.tables

/-- What an apply leaves of the report pages: they fit the report areas under the tables then applied. -/
theorem Applied.pagesFit (h : Applied s s') (g : PagesFit s) : PagesFit s' := by
  cases h with
  | refused => exact g
  | running _ _ hc =>
    obtain ⟨h1, h2⟩ := checkTables_partition hc
    rw [PagesFit, applyWhileRunning_tables]
    refine ⟨h1, h2, fun c => ?_⟩
    rw [applyWhileRunning, recordLayout_rep]
    exact fixAllPages_fits h1 h2 installTables_tables (by rw [installTables_rep]; exact (g.2.2 c).roomy)
  | halted _ hc =>
    obtain ⟨h1, h2⟩ := checkTables_partition hc
    rw [PagesFit, applyFromHalted_tables]
    refine ⟨h1, h2, fun c => ?_⟩
    rw [applyFromHalted, recordLayout_rep, startRunning_rep]
    exact fixAllPages_fits h1 h2 (startAll_tables.trans installTables_tables)
      (by rw [startAll_rep, installTables_rep]; exact (g.2.2 c).roomy)

/-- An apply leaves the areas of the host alone. -/
theorem Applied.host (h : Applied s s') (a : Nat) (ha : a < Config.memorySize)
    (ho : hostOwned s'.tables.partition a = true) (g : s.tables.partition ≤ 26) :
    memRead s'.mem a = memRead s.mem a := by
  cases h with
  | refused => exact Frame.recordLayout.bytes a ha fun r hr =>
      not_inBytes_of_hostOwned g ho r (by simp only [List.mem_singleton] at hr; subst hr; simp [applyBytes])
  | running _ _ hc =>
    obtain ⟨h1, h2⟩ := checkTables_partition hc
    rw [applyWhileRunning_tables] at ho
    exact (Frame.applyWhileRunning h1 h2).bytes a ha (not_inBytes_of_hostOwned h2 ho)
  | halted _ hc =>
    obtain ⟨h1, h2⟩ := checkTables_partition hc
    rw [applyFromHalted_tables] at ho
    exact (Frame.applyFromHalted h1 h2).bytes a ha (not_inBytes_of_hostOwned h2 ho)

end Sys2Proof.Machine
end

section
/-! What every step keeps: the report pages off the host's areas, the outputs at rest in HALTED, the rough line's law, RF
off and gas closed under a trip, and the loop stacks; and which commands clear flags and trips. -/

namespace Sys2Proof.Machine

variable {s s' : State} {c : Chamber}

/-! ### Resets -/

section reset
variable {last : Chamber → Code} {m : Memory}

/-- The bytes that a reset writes (R10, R43, R123, R147, R159, R171). -/
def resetBytes : List Bytes := [(0x00, 8), (0x0C, 12), (0x100, 256), (0xA00, 512), (0xD00, 768)]

theorem memRead_foldl_outside {α : Type} {f : Memory → α → Memory} {a : Nat} (xs : List α)
    (h : ∀ x ∈ xs, ∀ m, memRead (f m x) a = memRead m a) (m : Memory) : memRead (xs.foldl f m) a = memRead m a := by
  induction xs generalizing m with
  | nil => rfl
  | cons x xs ih =>
    rw [List.foldl_cons, ih fun y hy => h y (List.mem_cons_of_mem x hy)]
    exact h x List.mem_cons_self m

/-- A reset writes its own words alone. -/
theorem memRead_resetWrites_outside {a : Nat} (ha : a < Config.memorySize) (h : ∀ r ∈ resetBytes, ¬ inBytes a r) :
    memRead (resetWrites last m) a = memRead m a := by
  have out : ∀ {b n : Nat}, (b, n) ∈ resetBytes → a < b ∨ b + n ≤ a := by
    intro b n hr
    by_contra hc
    exact h _ hr ⟨a - b, by simp only; omega, by
      simp only [show b + (a - b) = a by omega, Nat.mod_eq_of_lt ha]⟩
  have o1 := out (b := 0x00) (n := 8) (by decide)
  have o2 := out (b := 0x0C) (n := 12) (by decide)
  have o3 := out (b := 0x100) (n := 256) (by decide)
  have o4 := out (b := 0xA00) (n := 512) (by decide)
  have o5 := out (b := 0xD00) (n := 768) (by decide)
  unfold resetWrites resetMeasurements resetImage resetLayoutBlock
  rw [memRead_foldl_outside, memRead_foldl_outside, memRead_memPutWords_outside _ _ _ _ ha,
    memRead_memPutWords_outside _ _ _ _ ha, memRead_memPutWords_outside _ _ _ _ ha]
  all_goals try (simp only [layoutAddr, imageAddr, List.length_replicate, List.length_cons, List.length_nil,
    Config.memorySize] at *; omega)
  · intro k hk m
    have hk : k < 48 := List.mem_range.mp hk
    refine memRead_memPutWords_outside _ _ _ _ ha ?_ ?_ <;>
      simp only [measurementAddr, List.length_cons, List.length_nil, Config.memorySize] at * <;> omega
  · intro c _ m
    have := c.isLt
    refine memRead_memPutWords_outside _ _ _ _ ha ?_ ?_ <;>
      simp only [statusAddr, List.length_append, List.length_cons, List.length_nil, List.length_replicate,
        Config.memorySize] at * <;> omega

theorem not_inBytes_resetBytes {n a : Nat} (ho : hostOwned n a = true) : ∀ r ∈ resetBytes, ¬ inBytes a r := by
  simp only [hostOwned, decide_eq_true_eq] at ho
  simp only [resetBytes, List.mem_cons, List.not_mem_nil, or_false, forall_eq_or_imp, forall_eq, inBytes,
    Config.memorySize]
  refine ⟨?_, ?_, ?_, ?_, ?_⟩ <;> rintro ⟨i, hi, rfl⟩ <;> omega

@[simp] theorem resetOver_rep : (resetOver last m s).rep c = {} := by
  simp [resetOver, State.rep, State.reset]
@[simp] theorem resetOver_pump : (resetOver last m s).pump c = {} := by
  simp [resetOver, State.pump, State.reset]
@[simp] theorem resetOver_econ : (resetOver last m s).econ c = {} := by
  simp [resetOver, State.econ, State.reset]
@[simp] theorem resetOver_rf : (resetOver last m s).rf c = {} := by
  simp [resetOver, State.rf, State.reset]
@[simp] theorem resetOver_press : (resetOver last m s).press c = {} := by
  simp [resetOver, State.press, State.reset]
@[simp] theorem resetOver_gasInhibit : (resetOver last m s).gasInhibit c = false := by
  simp [resetOver, State.gasInhibit, State.reset]
@[simp] theorem resetOver_line {k : LineId} : (resetOver last m s).line k = {} := by
  simp [resetOver, State.line, State.reset]
@[simp] theorem resetOver_arb {k : LineId} : (resetOver last m s).arb k = .absent := by
  simp [resetOver, State.arb, State.reset]
@[simp] theorem resetOver_chan {k : ChannelId} : (resetOver last m s).chan k = {} := by
  simp [resetOver, State.chan, State.reset]
@[simp] theorem resetOver_ilk {k : InputId} : (resetOver last m s).ilk k = {} := by
  simp [resetOver, State.ilk, State.reset]
@[simp] theorem resetOver_seq : (resetOver last m s).seq c = { lastOutcome := last c } := by
  simp [resetOver, State.seq, State.reset]

end reset

end Sys2Proof.Machine
end

section
/-! What every step keeps: the report pages off the host's areas, the outputs at rest in HALTED, the rough line's law, RF
off and gas closed under a trip, and the loop stacks; and which commands clear flags and trips. -/

namespace Sys2Proof.Machine

variable {s s' : State} {c : Chamber} {i : Instr}

/-! ### The report pages and the host's areas (R8, R12, R164) -/

theorem resetOver_partition {last : Chamber → Code} {m : Memory} : (resetOver last m s).tables.partition = 14 := rfl

theorem Rep.fits_default (n : Nat) : ({} : Rep).fits n := .inl rfl

theorem Effect.pagesFit (h : Effect s i s') (g : PagesFit s) : PagesFit s' := by
  cases h with
  | reset =>
    refine ⟨by rw [resetOver_partition]; decide, by rw [resetOver_partition]; decide, fun c => ?_⟩
    rw [resetOver_rep]
    exact Rep.fits_default _
  | apply t h => exact h.pagesFit g
  | ack levels _ => exact Stays.acknowledge.pagesFit g
  | read | enable | write | idle => exact g
  | event _ h => exact h.works.pagesFit g

theorem Effect.host (h : Effect s i s') (g : PagesFit s) (hi : i ≠ .powerOnReset)
    (hw : ∀ addr w v, i ≠ .hostMemoryWrite addr w v) {a : Nat} (ha : a < Config.memorySize)
    (ho : hostOwned s'.tables.partition a = true) : memRead s'.mem a = memRead s.mem a := by
  cases h with
  | reset _ last m hm =>
    rw [resetOver_mem, memRead_resetWrites_outside ha (not_inBytes_resetBytes ho),
      hm.resolve_right fun h => hi h.2]
  | apply t h => exact h.host a ha ho g.2.1
  | ack levels _ =>
    rw [Stays.acknowledge.tables] at ho
    exact Stays.acknowledge.host g a ha ho
  | read | enable | idle => rfl
  | write addr w v => exact absurd rfl (hw addr w v)
  | event _ h =>
    rw [h.works.tables] at ho
    exact h.works.host g a ha ho

/-- Settles O54: the pages and the host's areas under each command of the table. -/
theorem everyStepKeepsTheReportPagesOffTheHostsAreas : Obligations.EveryStepKeepsTheReportPagesOffTheHostsAreas := by
  intro s s' e g
  rcases step_cases e with ⟨hp, rfl⟩ | ⟨i, rest, hp, h⟩
  · exact ⟨g, fun i rest hi => by simp [hp] at hi⟩
  · refine ⟨h.pagesFit g, fun j rest' hj hr hw a ha ho => ?_⟩
    obtain ⟨rfl, rfl⟩ := List.cons_eq_cons.mp (hp.symm.trans hj)
    exact h.host g hr hw ha ho

/-! ### The outputs in HALTED (R11, R16) -/

theorem haltedAtRest_resetOver {last : Chamber → Code} {m : Memory} : HaltedAtRest (resetOver last m s) := by
  intro _
  refine ⟨fun k => ?_, fun c => ?_, rfl, rfl, fun k => ?_⟩
  · simp
  · simp
  · simp

/-- While the part is HALTED, a state with the same blocks is at rest. -/
theorem HaltedAtRest.of_parts {ps : List Part} (g : HaltedAtRest s) (h : changesOnly ps s s')
    (hp : ∀ p ∈ ps, p = .layoutResult ∨ p = .summary ∨ p = .now ∨ p = .dataOut ∨ p = .enable) : HaltedAtRest s' := by
  intro hh
  have out : ∀ p : Part, p ≠ .layoutResult → p ≠ .summary → p ≠ .now → p ≠ .dataOut → p ≠ .enable → p.same s s' :=
    fun p h1 h2 h3 h4 h5 => h p fun hm => by
      rcases hp p hm with e | e | e | e | e <;> contradiction
  have hpart : s'.port.part = s.port.part := out .partState (by simp) (by simp) (by simp) (by simp) (by simp)
  obtain ⟨hline, hchamber, hholder, hqueue, htrip⟩ := g (hpart.symm.trans hh)
  have hrough : s'.rough = s.rough := out .rough (by simp) (by simp) (by simp) (by simp) (by simp)
  refine ⟨fun k => ?_, fun c => ?_, hrough ▸ hholder, hrough ▸ hqueue, fun k => ?_⟩
  · rw [show s'.line k = s.line k from out (.line k) (by simp) (by simp) (by simp) (by simp) (by simp),
      show s'.arb k = s.arb k from out (.arb k) (by simp) (by simp) (by simp) (by simp) (by simp)]
    exact hline k
  · rw [show s'.pump c = s.pump c from out (.pump c) (by simp) (by simp) (by simp) (by simp) (by simp),
      show s'.rf c = s.rf c from out (.rf c) (by simp) (by simp) (by simp) (by simp) (by simp),
      show s'.press c = s.press c from out (.press c) (by simp) (by simp) (by simp) (by simp) (by simp),
      show s'.econ c = s.econ c from out (.econ c) (by simp) (by simp) (by simp) (by simp) (by simp)]
    exact hchamber c
  · rw [show s'.ilk k = s.ilk k from out (.ilk k) (by simp) (by simp) (by simp) (by simp) (by simp)]
    exact htrip k

/-- A state that is RUNNING is at rest in HALTED. -/
theorem haltedAtRest_of_running (h : s.port.part = .running) : HaltedAtRest s := fun hh => by simp [h] at hh

theorem applyFromHalted_part {tab : Tables} : (applyFromHalted tab s).port.part = .running := by
  rw [applyFromHalted, recordLayout_part]
  rfl

theorem Applied.haltedAtRest (h : Applied s s') (g : HaltedAtRest s) : HaltedAtRest s' := by
  cases h with
  | refused => exact g.of_parts (ps := [.layoutResult, .summary]) Frame.recordLayout.parts (by simp)
  | running hp =>
    refine haltedAtRest_of_running ?_
    rw [applyWhileRunning, recordLayout_part, Keeps.applyWhileRunning_chambers.core.part]
    exact hp
  | halted => exact haltedAtRest_of_running applyFromHalted_part

theorem Effect.haltedAtRest (h : Effect s i s') (g : HaltedAtRest s) : HaltedAtRest s' := by
  cases h with
  | reset => exact haltedAtRest_resetOver
  | apply t h => exact h.haltedAtRest g
  | ack levels hr => exact haltedAtRest_of_running (Stays.acknowledge.part.trans hr)
  | read w data =>
    exact g.of_parts (ps := [.summary, .dataOut]) (changesOnly_setPort (fun _ => rfl) (fun _ => ⟨rfl, rfl⟩) (by simp)
      (fun _ => rfl) (by simp)) (by simp)
  | enable v =>
    exact g.of_parts (ps := [.enable]) (changesOnly_setPort (fun _ => rfl) (fun _ => ⟨rfl, rfl⟩) (fun _ => rfl)
      (by simp) (fun _ => rfl)) (by simp)
  | write addr w v =>
    exact g.of_parts (ps := []) (Frame.setMem (rs := [allBytes]) (fs := []) fun a ha hn =>
      absurd (inBytes_allBytes ha) (hn _ (by simp))).parts (by simp)
  | event _ h =>
    cases h with
    | missed => exact g
    | taken t hr _ w => exact haltedAtRest_of_running (w.works.part.trans hr)
  | idle => exact g

/-- With every block that drives an output at rest, each output stands at its safe value (R11). -/
theorem safeOutputs_of_haltedAtRest (g : HaltedAtRest s) (h : s.port.part = .halted) : safeOutputs s := by
  obtain ⟨hline, hchamber, -⟩ := g h
  have elim_zero : ∀ {α : Type} (o : Option α) {f : α → Nat}, (∀ x, f x = 0) → o.elim 0 f = 0 := by
    intro α o f hf
    cases o with
    | none => rfl
    | some x => exact hf x
  refine ⟨fun n => ?_, fun k => ?_, fun c => ?_, fun c => ?_⟩
  · unfold State.analogOutput
    split
    · exact elim_zero _ fun k => (hline k).2.1
    · split
      · exact (hchamber _).2.2.2.1
      · exact elim_zero _ fun c => (hchamber c).2.2.1
  · obtain ⟨ho, -, ha⟩ := hline k
    refine ⟨?_, ?_, fun c => ?_⟩ <;> simp [State.shutoffOpen, State.purgeValveOpen, State.divertOpen, ho, ha]
  · obtain ⟨hp, -⟩ := hchamber c
    simp [State.softRoughOpen, State.fastRoughOpen, State.gateOpen, State.ventOpen, hp]
  · obtain ⟨-, hrf, -, -, ht, hm⟩ := hchamber c
    simp [State.rfEnable, State.turboEconomy, hrf, ht, hm]

/-- Settles O55: the part is HALTED only after a reset or where the blocks did not change. -/
theorem everyStepKeepsTheHaltedOutputsSafe : Obligations.EveryStepKeepsTheHaltedOutputsSafe := by
  refine ⟨fun s s' e g => ?_, fun s g h => safeOutputs_of_haltedAtRest g h⟩
  rcases step_cases e with ⟨-, rfl⟩ | ⟨i, rest, -, h⟩
  · exact g
  · exact h.haltedAtRest g

end Sys2Proof.Machine
end

section
/-! What every step keeps: the rough line's law, RF off and gas closed under a trip, and the loop stacks; and which commands
clear flags and trips. -/

namespace Sys2Proof.Machine

variable {s s' : State} {c : Chamber} {i : Instr}

/-! ### The rough line's law (R112 to R114) -/

/-- With every machine ISOLATED and the rough line free of holder and queue, the law holds. -/
theorem roughLineLaw_of_isolated (hp : ∀ c, (s.pump c).st = .isolated) (hh : s.rough.holder = none)
    (hq : s.rough.queue = []) : RoughLineLaw s := by
  refine ⟨fun c h => ?_, fun c h => ?_, fun c => ?_, ?_, fun _ => hq⟩
  · simp [hp] at h
  · simp [hh] at h
  · simp [hp, hq]
  · simp [hq]

@[simp] theorem writeSlot_pump {i : Fin 2} {o d n st : Nat} {e : Chamber} :
    (writeSlot c i o d n st s).pump e = s.pump e := rfl
@[simp] theorem writeSlot_seq {i : Fin 2} {o d n st : Nat} {e : Chamber} :
    (writeSlot c i o d n st s).seq e = s.seq e := rfl
@[simp] theorem writeSlot_econ {i : Fin 2} {o d n st : Nat} {e : Chamber} :
    (writeSlot c i o d n st s).econ e = s.econ e := rfl

theorem loseSlot_parts {i : Fin 2} : changesOnly [.summary] s (loseSlot c i s) :=
  (Frame.loseSlot (rs := [slotBytes c]) (fs := [.order c]) (by simp) (by simp) (by simp)).parts

@[simp] theorem loseSlot_pump {i : Fin 2} {d : Chamber} : (loseSlot c i s).pump d = s.pump d :=
  loseSlot_parts (.pump d) (by simp)
@[simp] theorem loseSlot_econ {i : Fin 2} {d : Chamber} : (loseSlot c i s).econ d = s.econ d :=
  loseSlot_parts (.econ d) (by simp)
@[simp] theorem loseSlot_seq {i : Fin 2} {d : Chamber} : (loseSlot c i s).seq d = s.seq d :=
  loseSlot_parts (.seq d) (by simp)

/-- A chamber as an apply from HALTED starts it (R13, R124). -/
theorem startChamber_pump : (startChamber c s).pump c = {} := by simp [startChamber, State.modEcon_eq, State.modSeq_eq]
theorem startChamber_econ :
    (startChamber c s).econ c = { s.econ c with mode := .active, phase := .none, limit := 0, dwell := 0 } := by
  simp [startChamber, State.modEcon_eq, State.modSeq_eq]
theorem startChamber_seq :
    (startChamber c s).seq c = { s.seq c with
      expected := 0, slots := Vector.replicate 2 .free, lastRequest := memField s.mem (controlAddr c + 2) 2 } := by
  simp [startChamber, State.modEcon_eq, State.modSeq_eq]

theorem startAll_pump : ((forChambers startChamber s).pump c) = {} := by
  refine forChambers_at (P := fun _ => True) (Q := fun s => s.pump c = {}) c (fun _ _ _ _ => trivial)
    (fun s _ => startChamber_pump) (fun d hd s h => ?_) trivial
  rw [show (startChamber d s).pump c = s.pump c from Frame.startChamber.parts (.pump c) (by simp [Ne.symm hd])]
  exact h

theorem fixAllPages_parts : changesOnly pageParts s (forChambers fixPages s) := by
  have h : ∀ (cs : List Chamber) (t : State), changesOnly pageParts t (cs.foldl (fun s c => fixPages c s) t) := by
    intro cs
    induction cs with
    | nil => exact fun t p _ => p.same_refl t
    | cons d ds ih =>
      intro t p hp
      refine Part.same_trans (fixPages_parts p fun hm => hp ?_) (ih _ p hp)
      simp only [List.mem_cons, List.not_mem_nil, or_false] at hm
      rcases hm with rfl | rfl <;> simp [pageParts]
  exact h _ s

theorem applyFromHalted_pump {tab : Tables} : (applyFromHalted tab s).pump c = {} := by
  rw [applyFromHalted, recordLayout_pump]
  have h : ∀ t : State, (startRunning t).pump c = t.pump c := fun _ => rfl
  rw [h, show ∀ t : State, (forChambers fixPages t).pump c = t.pump c from
    fun t => fixAllPages_parts (.pump c) (by simp [pageParts])]
  exact startAll_pump

theorem applyFromHalted_rough {tab : Tables} (h1 : 6 ≤ tab.partition) (h2 : tab.partition ≤ 26) :
    (applyFromHalted tab s).rough = s.rough := by
  have hf : Frame haltedParts (applyBytes tab.partition) applyFlags s (applyFromHalted tab s) := .applyFromHalted h1 h2
  exact hf.parts .rough (by decide)

theorem Applied.rough (h : Applied s s') (g : HaltedAtRest s) (l : RoughLineLaw s) : RoughLineLaw s' := by
  cases h with
  | refused => exact l
  | running =>
    have h : RoughLineLaw (forChambers fixPages (installTables (readTables s.mem) s)) :=
      Keeps.applyWhileRunning_chambers.rough l
    unfold RoughLineLaw at h ⊢
    simpa only [applyWhileRunning, recordLayout_pump, recordLayout_rough] using h
  | halted hp hc =>
    obtain ⟨h1, h2⟩ := checkTables_partition hc
    obtain ⟨-, -, hh, hq, -⟩ := g hp
    have hr := applyFromHalted_rough (s := s) h1 h2
    exact roughLineLaw_of_isolated (fun c => congrArg Pump.st applyFromHalted_pump) (by rw [hr]; exact hh) (by rw [hr]; exact hq)

theorem Effect.rough (h : Effect s i s') (g : HaltedAtRest s) (l : RoughLineLaw s) : RoughLineLaw s' := by
  cases h with
  | reset => exact roughLineLaw_of_isolated (fun c => by rw [resetOver_pump]) rfl rfl
  | apply t h => exact h.rough g l
  | ack => exact Stays.acknowledge.rough l
  | read | enable | write | idle => exact l
  | event _ h => exact h.works.rough l

/-- Settles O56: each command of the table keeps the law; an apply from HALTED starts every machine ISOLATED. -/
theorem everyStepKeepsTheRoughLineLaw : Obligations.EveryStepKeepsTheRoughLineLaw := by
  intro s s' e g l
  rcases step_cases e with ⟨-, rfl⟩ | ⟨i, rest, -, h⟩
  · exact l
  · exact h.rough g l

/-! ### RF off and gas closed under a trip (R83, R129, R150) -/

/-- The inhibits that the latched trips demand are set. -/
def shielded (s : State) : Prop :=
  (∀ c, tripped s c 1 = true → (s.rf c).inhibit = true) ∧ ∀ c, tripped s c 2 = true → s.gasInhibit c = true

theorem interlockLaw_iff : InterlockLaw s ↔ shielded s ∧ (∀ c, (s.rf c).safe) ∧ ∀ c, gasClosed s c := by
  unfold InterlockLaw shielded Rf.safe gasClosed
  tauto

theorem tripped_iff {n : Nat} : tripped s c n = true ↔
    ∃ k, (s.ilk k).trip = true ∧ (s.ilkCfg k).covers c = true ∧ n ≤ (s.ilkCfg k).action := by
  simp only [tripped, List.any_eq_true, List.mem_finRange, true_and, Bool.and_eq_true, decide_eq_true_eq, and_assoc]

theorem not_tripped_of_no_trip {n : Nat} (h : ∀ k, (s.ilk k).trip = false) : tripped s c n = false := by
  rw [← Bool.not_eq_true, tripped_iff]
  rintro ⟨k, hk, -⟩
  simp [h k] at hk

/-- With no trip latched nothing is demanded. -/
theorem shielded_of_no_trip (h : ∀ k, (s.ilk k).trip = false) : shielded s :=
  ⟨fun c ht => by simp [not_tripped_of_no_trip h] at ht, fun c ht => by simp [not_tripped_of_no_trip h] at ht⟩

theorem State.ilkCfg_of_tables {k : InputId} (h : s'.tables = s.tables) : s'.ilkCfg k = s.ilkCfg k := by
  simp only [State.ilkCfg, h]

/-- Fewer trips under the same tables: fewer chambers are tripped. -/
theorem tripped_of_fewer {n : Nat} (ht : s'.tables = s.tables) (hk : ∀ k, (s'.ilk k).trip = true → (s.ilk k).trip = true)
    (h : tripped s' c n = true) : tripped s c n = true := by
  rw [tripped_iff] at h ⊢
  obtain ⟨k, h1, h2⟩ := h
  rw [State.ilkCfg_of_tables ht] at h2
  exact ⟨k, hk k h1, h2⟩

/-- Work that latches no trip and lifts no inhibit. -/
theorem Keeps.shielded (h : Keeps s s') (g : shielded s) : Machine.shielded s' :=
  have fewer : ∀ k, (s'.ilk k).trip = true → (s.ilk k).trip = true := fun k hk => (h.core.trips k).symm.trans hk
  ⟨fun c ht => h.core.inhibits c (g.1 c (tripped_of_fewer h.core.tables fewer ht)),
    fun c ht => h.core.gases c (g.2 c (tripped_of_fewer h.core.tables fewer ht))⟩

/-- A trip's action inhibits RF, and at GAS_INHIBIT or FULL_SAFE gas (R150). -/
theorem tripChamber_inhibits {k : InputId} : ((tripChamber k c s).rf c).inhibit = true ∧
    (2 ≤ (s.ilkCfg k).action → (tripChamber k c s).gasInhibit c = true) := by
  unfold tripChamber
  extract_lets action item s1 s2 s3
  have h2 : Keeps s1 s2 := .ite (fun _ => .inhibitGas) fun _ => .refl _
  have h3 : Keeps s2 s3 := .ite (fun _ => .fullSafe) fun _ => .refl _
  have h4 := h3.trans (Keeps.raiseRestriction.trans (Keeps.deliverFault.trans .checkStage))
    (c := checkStage c (deliverFault c .faultInterlock item (raiseRestriction c action s3)))
  have g1 : (s1.rf c).inhibit = true := by simp [s1, setRfInhibit, State.modRf_eq]
  refine ⟨h4.core.inhibits c (h2.core.inhibits c g1), fun ha => h4.core.gases c ?_⟩
  have hs2 : s2 = inhibitGas c s1 := if_pos ha
  rw [hs2]
  exact Keeps.dropAll.core.gases c (State.setGasInhibit_gasInhibit_same _ _ _)

theorem latchTrip_shielded {k : InputId} (g : shielded s) : shielded (latchTrip k s) := by
  unfold latchTrip
  extract_lets s1
  have hs1 : s1.tables = s.tables := rfl
  have hrf : ∀ c, s1.rf c = s.rf c := fun _ => rfl
  have hgas : ∀ c, s1.gasInhibit c = s.gasInhibit c := fun _ => rfl
  have htrip : ∀ j, j ≠ k → (s1.ilk j).trip = (s.ilk j).trip := fun j hj => by
    simp only [s1, Keeps.raise.core.trips, Keeps.imageInterlock.core.trips, State.modIlk_eq]
    rw [State.setIlk_ilk_ne _ _ _ _ hj]
  clear_value s1
  have each : ∀ d (t : State), Keeps t (if (t.ilkCfg k).covers d then tripChamber k d t else t) := fun d t =>
    .ite (fun _ => .tripChamber) fun _ => .refl _
  have all : Keeps s1 (forChambers (fun c s => if (s.ilkCfg k).covers c then tripChamber k c s else s) s1) :=
    .forChambers each
  -- A covered chamber is inhibited by its own step of the pass.
  have covered : ∀ c, (s.ilkCfg k).covers c = true →
      ((forChambers (fun c s => if (s.ilkCfg k).covers c then tripChamber k c s else s) s1).rf c).inhibit = true ∧
      (2 ≤ (s.ilkCfg k).action →
        (forChambers (fun c s => if (s.ilkCfg k).covers c then tripChamber k c s else s) s1).gasInhibit c = true) := by
    intro c hc
    refine forChambers_at (P := fun t => t.tables = s.tables)
      (Q := fun t => (t.rf c).inhibit = true ∧ (2 ≤ (s.ilkCfg k).action → t.gasInhibit c = true)) c
      (fun d _ t ht => (each d t).core.tables.trans ht) (fun t ht => ?_)
      (fun d _ t ht => ⟨(each d t).core.inhibits c ht.1, fun ha => (each d t).core.gases c (ht.2 ha)⟩) hs1
    rw [State.ilkCfg_of_tables ht, if_pos hc, ← State.ilkCfg_of_tables ht]
    exact tripChamber_inhibits
  have was : ∀ c n, tripped (forChambers (fun c s => if (s.ilkCfg k).covers c then tripChamber k c s else s) s1) c n = true →
      tripped s c n = true ∨ ((s.ilkCfg k).covers c = true ∧ n ≤ (s.ilkCfg k).action) := by
    intro c n h
    obtain ⟨j, h1, h2, h3⟩ := tripped_iff.mp h
    rw [State.ilkCfg_of_tables (all.core.tables.trans hs1)] at h2 h3
    rw [all.core.trips] at h1
    by_cases hj : j = k
    · exact .inr (hj ▸ ⟨h2, h3⟩)
    · exact .inl (tripped_iff.mpr ⟨j, htrip j hj ▸ h1, h2, h3⟩)
  refine ⟨fun c ht => ?_, fun c ht => ?_⟩
  · rcases was c 1 ht with h | ⟨h, -⟩
    · exact all.core.inhibits c (hrf c ▸ g.1 c h)
    · exact (covered c h).1
  · rcases was c 2 ht with h | ⟨h, ha⟩
    · exact all.core.gases c (hgas c ▸ g.2 c h)
    · exact (covered c h).2 ha

theorem sampleInput_shielded {k : InputId} {b : Bool} (g : shielded s) : shielded (sampleInput k b s) := by
  unfold sampleInput
  split
  · extract_lets active old latches s1 s2
    have h1 : Keeps s s1 := Keeps.interlockPin.trans (.setIlk rfl)
    have h2 : Keeps s1 s2 := .ite (fun _ => .refl _) fun _ => .imageInterlock
    have g2 : shielded s2 := (h1.trans h2).shielded g
    split
    · exact latchTrip_shielded g2
    · exact g2
  · exact g

theorem Event.shielded (h : Event s s') (g : shielded s) : Machine.shielded s' := by
  cases h with
  | missed => exact g
  | taken t _ _ w =>
    cases w with
    | regular keeps _ => exact keeps.shielded g
    | sample => exact sampleInput_shielded g

end Sys2Proof.Machine
end

section
/-! What every step keeps: RF off and gas closed under a trip, and the loop stacks; which commands clear flags and trips;
and what the reset state meets. -/

namespace Sys2Proof.Machine

variable {s s' : State} {c : Chamber} {i : Instr}

/-! ### The inhibits under an acknowledgement and under an apply -/

/-- No more trips, and no inhibit lifted, under the same tables. -/
theorem shielded.of_fewer (g : shielded s) (ht : s'.tables = s.tables)
    (hk : ∀ k, (s'.ilk k).trip = true → (s.ilk k).trip = true)
    (hi : ∀ c, (s.rf c).inhibit = true → (s'.rf c).inhibit = true)
    (hg : ∀ c, s.gasInhibit c = true → s'.gasInhibit c = true) : shielded s' :=
  ⟨fun c h => hi c (g.1 c (tripped_of_fewer ht hk h)), fun c h => hg c (g.2 c (tripped_of_fewer ht hk h))⟩

/-- Deriving the inhibits of one chamber again keeps those that the trips demand (R152). -/
theorem liftInhibits_shielded (g : shielded s) : shielded (liftInhibits c s) := by
  unfold liftInhibits
  extract_lets s1
  have htrip : ∀ d n, tripped s1 d n = tripped s d n := fun _ _ => rfl
  have hgas : ∀ d, s1.gasInhibit d = s.gasInhibit d := fun _ => rfl
  have g1 : shielded s1 := by
    refine ⟨fun d h => ?_, fun d h => g.2 d h⟩
    rw [htrip] at h
    simp only [s1, State.modRf_eq, State.setRf_rf]
    split
    next e => subst e; simp [h, g.1 _ h]
    next => exact g.1 d h
  clear_value s1
  split
  next hl =>
    have g2 : shielded (s1.setGasInhibit c false) := by
      refine ⟨fun d h => g1.1 d h, fun d h => ?_⟩
      have h1 : tripped s1 d 2 = true := h
      rw [State.setGasInhibit_gasInhibit]
      split
      next e => subst e; simp [hl.2] at h1
      next => exact g1.2 d h1
    split
    · exact Keeps.openPurge.shielded g2
    · exact g2
  next => exact g1

theorem acknowledge_shielded {levels : Vector Bool 16} (g : shielded s) : shielded (acknowledge levels s) := by
  unfold acknowledge
  split
  · have hr : ∀ (ks : List InputId) (t : State) (d : Chamber),
        ((ks.foldl (fun s k => clearTrip levels k s) t).rf d) = t.rf d ∧
          (ks.foldl (fun s k => clearTrip levels k s) t).gasInhibit d = t.gasInhibit d := by
      intro ks
      induction ks with
      | nil => exact fun _ _ => ⟨rfl, rfl⟩
      | cons k ks ih =>
        intro t d
        have one : (clearTrip levels k t).rf d = t.rf d ∧ (clearTrip levels k t).gasInhibit d = t.gasInhibit d := by
          unfold clearTrip
          dsimp only
          split_ifs <;> exact ⟨rfl, rfl⟩
        rw [List.foldl_cons]
        exact ⟨(ih _ d).1.trans one.1, (ih _ d).2.trans one.2⟩
    have g1 : shielded (clearTrips levels s) := by
      refine g.of_fewer Stays.clearTrips.tables (fun k h => ?_) (fun d h => ?_) fun d h => ?_
      · rw [clearTrips_trip, Bool.and_eq_true] at h
        exact h.1
      · rw [clearTrips_eq, forInputs, (hr _ s d).1]
        exact h
      · rw [clearTrips_eq, forInputs, (hr _ s d).2]
        exact h
    have g2 := (Keeps.imageInterlock.trans (.raise (f := .interlock))).shielded g1
    have all : ∀ (cs : List Chamber) (t : State), shielded t → shielded (cs.foldl (fun s c => liftInhibits c s) t) := by
      intro cs
      induction cs with
      | nil => exact fun _ h => h
      | cons d ds ih => exact fun t h => ih _ (liftInhibits_shielded h)
    exact all _ _ g2
  · exact g

theorem recordLayout_shielded {r : LayoutCode} {e : Nat} (g : shielded s) : shielded (recordLayout r e s) :=
  g.of_fewer rfl (fun _ h => h) (fun _ h => h) fun _ h => h

theorem noTrips_of_quiet (h : quiet s = true) (k : InputId) : (s.ilk k).trip = false := by
  simp only [quiet, Bool.and_eq_true, List.all_eq_true, List.mem_finRange, true_implies, Bool.not_eq_true'] at h
  exact h.2 k

@[simp] theorem startRunning_ilk {k : InputId} : (startRunning s).ilk k = s.ilk k := rfl

theorem Applied.shielded (h : Applied s s') (g : HaltedAtRest s) (l : Machine.shielded s) : Machine.shielded s' := by
  cases h with
  | refused => exact recordLayout_shielded l
  | running _ hq =>
    refine shielded_of_no_trip fun k => ?_
    rw [applyWhileRunning, recordLayout_ilk, Keeps.applyWhileRunning_chambers.core.trips]
    exact noTrips_of_quiet hq k
  | halted hp =>
    obtain ⟨-, -, -, -, ht⟩ := g hp
    refine shielded_of_no_trip fun k => ?_
    rw [applyFromHalted, recordLayout_ilk, startRunning_ilk, Core.applyFromHalted_chambers.trips]
    exact ht k

theorem Effect.shielded (h : Effect s i s') (g : HaltedAtRest s) (l : Machine.shielded s) : Machine.shielded s' := by
  cases h with
  | reset => exact shielded_of_no_trip fun k => by rw [resetOver_ilk]
  | apply t h => exact h.shielded g l
  | ack => exact acknowledge_shielded l
  | read | enable | write | idle => exact l
  | event _ h => exact h.shielded l

/-- Settles O57: the trips' demands by the work of each command, RF off and the lines closed by Calm. -/
theorem everyStepKeepsTheInterlockLaw : Obligations.EveryStepKeepsTheInterlockLaw := by
  intro s s' e g l
  rcases step_cases e with ⟨-, rfl⟩ | ⟨i, rest, -, h⟩
  · exact l
  · rw [interlockLaw_iff] at l ⊢
    obtain ⟨hs, hrf, hgas⟩ := l
    refine ⟨h.shielded g hs, ?_⟩
    rcases h.reset_or_calm with ⟨-, last, m, rfl⟩ | ⟨t, -, hc⟩
    · exact ⟨fun c _ => by rw [resetOver_rf], fun c hg => by rw [resetOver_gasInhibit] at hg; cases hg⟩
    · exact ⟨fun c => hc.rf c (hrf c), fun c => hc.gas c (hgas c)⟩

/-! ### The loop stacks (R32, R61) -/

theorem loopLaw_iff : LoopLaw s ↔ ∀ c, (s.seq c).tidy := Iff.rfl

/-- Settles O58: Calm says it of every command but a reset, which empties every stack. -/
theorem everyStepKeepsTheLoopLaw : Obligations.EveryStepKeepsTheLoopLaw := by
  intro s s' e l
  rcases step_cases e with ⟨-, rfl⟩ | ⟨i, rest, -, h⟩
  · exact l
  · rw [loopLaw_iff] at l ⊢
    rcases h.reset_or_calm with ⟨-, last, m, rfl⟩ | ⟨t, -, hc⟩
    · intro c
      rw [resetOver_seq]
      exact ⟨Nat.zero_le _, fun _ => ⟨rfl, rfl⟩⟩
    · exact fun c => hc.tidy c (l c)

/-! ### What clears flags and trips and changes the applied copies (R5 to R7, R15, R150, R152) -/

theorem flagSet_of_flags {f : EventFlag} (h : ∀ i, s.port.summary.getLsbD i = true → s'.port.summary.getLsbD i = true)
    (hf : s.flagSet f = true) : s'.flagSet f = true := h _ hf

/-- An apply sets flags only. -/
theorem Applied.flags (h : Applied s s') {f : EventFlag} (hf : s.flagSet f = true) : s'.flagSet f = true := by
  have record : ∀ {t : State} {r : LayoutCode} {e : Nat}, t.flagSet f = true → (recordLayout r e t).flagSet f = true := by
    intro t r e ht
    rw [recordLayout, flagSet_raise, Bool.or_eq_true]
    exact .inr ht
  cases h with
  | refused => exact record hf
  | running => exact record (flagSet_of_flags Keeps.applyWhileRunning_chambers.core.flags hf)
  | halted =>
    refine record ?_
    have h : ∀ t : State, (startRunning t).flagSet f = t.flagSet f := fun _ => rfl
    rw [h]
    exact flagSet_of_flags Core.applyFromHalted_chambers.flags hf

theorem Applied.trips (h : Applied s s') (k : InputId) : (s'.ilk k).trip = (s.ilk k).trip := by
  cases h with
  | refused => rfl
  | running =>
    rw [applyWhileRunning, recordLayout_ilk, Keeps.applyWhileRunning_chambers.core.trips]
    rfl
  | halted =>
    rw [applyFromHalted, recordLayout_ilk, startRunning_ilk, Core.applyFromHalted_chambers.trips]
    rfl

theorem Applied.enable (h : Applied s s') : s'.port.enable = s.port.enable := by
  cases h with
  | refused => rfl
  | running =>
    rw [applyWhileRunning, recordLayout_enable, Keeps.applyWhileRunning_chambers.core.enable]
    rfl
  | halted =>
    have h : ∀ t : State, (startRunning t).port.enable = t.port.enable := fun _ => rfl
    rw [applyFromHalted, recordLayout_enable, h, Core.applyFromHalted_chambers.enable]
    rfl

/-- Settles O59: each clause by cases on what a command can do. -/
theorem onlyTheirCommandsClearFlagsTripsAndCopies : Obligations.OnlyTheirCommandsClearFlagsTripsAndCopies := by
  intro i rest s s' hp e hi
  obtain ⟨h, -⟩ | ⟨j, rest', hj, h⟩ := step_cases e
  · simp [h] at hp
  obtain ⟨rfl, rfl⟩ := List.cons_eq_cons.mp (hj.symm.trans hp)
  obtain ⟨hr, -⟩ | ⟨t, ht, hc⟩ := h.reset_or_calm
  · simp [hr] at hi
  refine ⟨fun hread f hf => ?_, fun hack k hk => ?_, fun happly => ?_, fun hen => ?_, ht.trans (le_of_eq hc.now.symm)⟩
  · cases h with
    | reset hr => simp [hr] at hi
    | apply t h => exact h.flags hf
    | ack => exact flagSet_of_flags Stays.acknowledge.flags hf
    | read w =>
      have hw : w ≠ .word := fun e => hread (e ▸ rfl)
      simpa [State.flagSet, hw] using hf
    | enable | write | idle => exact hf
    | event _ h => exact flagSet_of_flags h.works.flags hf
  · cases h with
    | reset hr => simp [hr] at hi
    | apply t h => rw [h.trips]; exact hk
    | ack levels => exact absurd rfl (hack levels)
    | read | enable | write | idle => exact hk
    | event _ h => exact h.works.trips k hk
  · cases h with
    | reset hr => simp [hr] at hi
    | apply => simp [isApply] at happly
    | ack => exact ⟨Stays.acknowledge.tables, Stays.acknowledge.part, Stays.acknowledge.result⟩
    | read | enable | write | idle => exact ⟨rfl, rfl, rfl⟩
    | event _ h => exact ⟨h.works.tables, h.works.part, h.works.result⟩
  · cases h with
    | reset hr => simp [hr] at hi
    | apply t h => exact h.enable
    | ack => exact Stays.acknowledge.enable
    | enable v => exact absurd rfl (hen v)
    | read | write | idle => rfl
    | event _ h => exact h.works.enable

end Sys2Proof.Machine
end

section
/-! The queue, the resets, the host's accesses and the valves: the statements that speak of one command or of one block. -/

namespace Sys2Proof.Machine

variable {s s' : State} {c : Chamber} {i : Instr}

/-! ### The queue (log 3, R11) -/

/-- Settles O1: the two equations of step. -/
theorem stepRunsTheFrontCommand : Obligations.StepRunsTheFrontCommand :=
  ⟨fun i rest s h => by rw [step, h], fun s h => by rw [step, h]⟩

theorem Applied.pending (h : Applied s s') : s'.pending = s.pending := by
  cases h with
  | refused => rfl
  | running =>
    rw [applyWhileRunning, recordLayout_pending, Keeps.applyWhileRunning_chambers.core.pending]
    rfl
  | halted =>
    have h : ∀ t : State, (startRunning t).pending = t.pending := fun _ => rfl
    rw [applyFromHalted, recordLayout_pending, h, Core.applyFromHalted_chambers.pending]
    rfl

theorem Effect.pending (h : Effect s i s') : s'.pending = s.pending := by
  cases h with
  | apply t h => exact h.pending
  | ack => exact Stays.acknowledge.pending
  | event _ h => exact h.works.pending
  | reset | read | enable | write | idle => rfl

theorem exec_next (i : Instr) (s : State) : ∃ s', exec i s = .next s' := by
  cases hi : isEvent i with
  | true => exact exec_next_of_isEvent s hi
  | false =>
    cases i with
    | ackTrips levels =>
      rw [exec_ackTrips]
      split <;> exact ⟨_, rfl⟩
    | powerOnReset | resetInput | softReset | applyLayout | eventSummaryRead | eventEnableWrite | registerWriteIgnored
    | hostMemoryWrite => exact ⟨_, rfl⟩
    | _ => simp [isEvent] at hi

/-- Settles O2: an effect leaves the queue, and an event that reaches no running block is missed. -/
theorem everyCommandAnswersNext : Obligations.EveryCommandAnswersNext := by
  refine ⟨fun i s => ?_, fun i s hi hh => ?_⟩
  · obtain ⟨s', e⟩ := exec_next i s
    exact ⟨s', e, (effect_of_exec e).pending⟩
  · obtain ⟨s', e⟩ := exec_next_of_isEvent s hi
    cases event_of_exec hi e with
    | missed => exact e
    | taken t hr => simp [hh] at hr

/-! ### The host's accesses (R1, R2) -/

theorem widthBytes_le (w : Width) : widthBytes w ≤ 4 := by cases w <;> decide

/-- Settles O8: the bytes of the field that the access puts. -/
theorem hostWritesItsBytes : Obligations.HostWritesItsBytes := by
  intro s addr v w
  have hw := widthBytes_le w
  have hn : widthBytes w ≤ Config.memorySize := by simp only [Config.memorySize]; omega
  refine ⟨_, rfl, fun i hi => ?_, ?_, ?_⟩
  · rw [State.setMem_mem_same, hostWrite, memRead_memPutField_inside _ _ _ _ _ hn hi, BitVec.toNat_ofNat]
  · rw [State.hostRead, State.setMem_mem_same, hostWrite, memField_memPutField_same _ _ _ _ hn, BitVec.toNat_ofNat]
    refine Nat.mod_eq_of_lt (lt_of_lt_of_le (Nat.mod_lt _ (by positivity)) ?_)
    calc 256 ^ widthBytes w ≤ 256 ^ 4 := Nat.pow_le_pow_right (by decide) hw
      _ ≤ 2 ^ 32 := by decide
  · have h : Frame [] [(addr.toNat / widthBytes w * widthBytes w, widthBytes w)] [] s
        (s.setMem (hostWrite s.mem addr w v)) := by
      refine .setMem fun a ha hout => memRead_memPutField_outside _ _ _ _ _ fun j hj e => ?_
      rw [Nat.mod_eq_of_lt ha] at e
      exact hout _ (List.mem_singleton.mpr rfl) ⟨j, hj, e⟩
    exact ⟨h.parts, h.bytes⟩

/-! ### The valves (R67, R107) -/

theorem purgeValveOpen_iff {k : LineId} : s.purgeValveOpen k = true ↔ ∃ n m, s.arb k = .purging n m := by
  unfold State.purgeValveOpen
  split
  next n m h => simp [h]
  next h =>
    simp only [Bool.false_eq_true, false_iff, not_exists]
    exact h

/-- Settles O29: each valve by its definition, and the laws between the vacuum valves from the one pump state. -/
theorem valvesFollowTheirBlocks : Obligations.ValvesFollowTheirBlocks := by
  refine ⟨fun s k => ⟨?_, fun c => ?_, purgeValveOpen_iff, fun c d hc hd => ?_⟩, fun s c => ?_⟩
  · exact Option.isSome_iff_exists
  · exact decide_eq_true_iff
  · simp only [State.divertOpen, decide_eq_true_eq] at hc hd
    exact Option.some.inj (hc.2.symm.trans hd.2)
  · simp only [State.softRoughOpen, State.fastRoughOpen, State.gateOpen, State.ventOpen, Bool.and_eq_true,
      decide_eq_true_eq, Bool.not_eq_true', true_and, Bool.and_eq_false_iff, decide_eq_false_iff_not]
    refine ⟨fun h => ?_, fun h => ?_⟩
    · rcases h with h | h <;> simp [h]
    · simp [h.1]

/-! ### The reset state (R10, R16) -/

theorem State.reset_mem : State.reset.mem = resetWrites (fun _ => .nil) [] := by simp only [State.reset]

theorem State.reset_blocks (c : Chamber) (k : LineId) :
    State.reset.rep c = {} ∧ State.reset.pump c = {} ∧ State.reset.rf c = {} ∧ State.reset.press c = {} ∧
      State.reset.econ c = {} ∧ State.reset.seq c = {} ∧ State.reset.gasInhibit c = false ∧ State.reset.line k = {} ∧
      State.reset.arb k = .absent ∧ State.reset.ilk k = {} := by
  simp [State.reset, State.rep, State.pump, State.rf, State.press, State.econ, State.seq, State.gasInhibit, State.line,
    State.arb, State.ilk]

/-- Settles O52: every block is as its reset rule leaves it. -/
theorem resetMeetsEveryLaw : Obligations.ResetMeetsEveryLaw := by
  have hb := State.reset_blocks
  refine ⟨by rw [State.reset_mem]; exact wf_resetWrites rfl, ⟨by decide, by decide, fun c => ?_⟩, fun _ => ⟨fun k => ?_, fun c => ?_, rfl, rfl, fun k => ?_⟩,
    ?_, ?_, fun c => ?_⟩
  · rw [(hb c 0).1]
    exact Rep.fits_default _
  · obtain ⟨-, -, -, -, -, -, -, hl, ha, -⟩ := hb 0 k
    simp [hl, ha]
  · obtain ⟨-, hp, hr, hs, he, -⟩ := hb c 0
    simp [hp, hr, hs, he]
  · obtain ⟨-, -, -, -, -, -, -, -, -, hi⟩ := hb 0 k
    rw [hi]
  · exact roughLineLaw_of_isolated (fun c => by rw [(hb c 0).2.1]) rfl rfl
  · rw [interlockLaw_iff]
    refine ⟨shielded_of_no_trip fun k => ?_, fun c => ?_, fun c hg => ?_⟩
    · obtain ⟨-, -, -, -, -, -, -, -, -, hi⟩ := hb 0 k
      rw [hi]
    · obtain ⟨-, -, hr, -⟩ := hb c 0
      intro _
      rw [hr]
    · obtain ⟨-, -, -, -, -, -, hgas, -⟩ := hb c 0
      simp [hgas] at hg
  · obtain ⟨-, -, -, -, -, hs, -⟩ := hb c 0
    simp [hs]

/-- The last outcomes and the memory that each reset starts from (R16, R43). -/
theorem exec_reset {i : Instr} (hi : isReset i = true) (s : State) : ∃ last m, exec i s = .next (resetOver last m s) ∧
    (∀ c, last c =
      if i = .powerOnReset then .nil else if (s.seq c).run = .idle then (s.seq c).lastOutcome else .lostByReset) ∧
    (i ≠ .powerOnReset → m = s.mem) := by
  cases i with
  | powerOnReset => exact ⟨fun _ => .nil, [], rfl, fun _ => rfl, fun h => absurd rfl h⟩
  | resetInput => exact ⟨outcomeAfterReset s, s.mem, rfl, fun _ => rfl, fun _ => rfl⟩
  | softReset => exact ⟨outcomeAfterReset s, s.mem, rfl, fun _ => rfl, fun _ => rfl⟩
  | _ => simp [isReset] at hi

/-- Settles O13: each reset puts every block in its reset state. -/
theorem resetsClearEveryBlock : Obligations.ResetsClearEveryBlock := by
  intro i s hi
  obtain ⟨last, m, he, hl, -⟩ := exec_reset hi s
  refine ⟨resetOver last m s, he, ⟨rfl, rfl, rfl, rfl, rfl, rfl, rfl⟩, fun c => ?_, fun c => ?_, fun c => ?_,
    fun c => ?_, fun k => ?_, ⟨rfl, rfl, rfl, rfl, rfl⟩, fun k => ?_, fun k => ?_, rfl, rfl⟩
  · simp [hl c]
  · simp
  · simp
  · simp [Rep.page]
  · simp
  · simp
  · simp

/-! ### The words of a reset (R10, R43, R123, R147, R159, R171) -/

section resetWords
variable {last : Chamber → Code} {m : Memory}

/-- A field that one step of a pass writes, and that no other step meets, reads as that step writes it. -/
theorem memField_foldl_at {α : Type} {f : Memory → α → Memory} {x : α} {a n v : Nat} {xs : List α} (hx : x ∈ xs)
    (hn : xs.Nodup) (there : ∀ m, memField (f m x) a n = v)
    (other : ∀ y ∈ xs, y ≠ x → ∀ m, memField (f m y) a n = memField m a n) (m : Memory) :
    memField (xs.foldl f m) a n = v := by
  induction xs generalizing m with
  | nil => cases hx
  | cons y ys ih =>
    rw [List.nodup_cons] at hn
    rw [List.foldl_cons]
    by_cases hy : y = x
    · subst hy
      rw [memField_foldl_outside _ ys fun z hz m => other z (List.mem_cons_of_mem _ hz) (fun e => hn.1 (e ▸ hz)) m]
      exact there m
    · exact ih ((List.mem_cons.mp hx).resolve_left (Ne.symm hy)) hn.2
        (fun z hz => other z (List.mem_cons_of_mem _ hz)) _

/-- The Chamber Status Blocks of a reset lie from 0x0A00 to 0x0C00. -/
theorem memField_resetStatus_outside {a n : Nat} (h : a + n ≤ 0xA00 ∨ 0xC00 ≤ a) (ha : a + n ≤ Config.memorySize) :
    memField (resetWrites last m) a n = memField (resetMeasurements (resetImage (resetLayoutBlock m))) a n := by
  refine memField_foldl_outside _ _ fun c _ m => ?_
  have := c.isLt
  refine memField_memPutWords_outside _ _ _ _ _ ha ?_ ?_ <;>
    simp only [Config.memorySize, statusAddr, List.length_append, List.length_cons, List.length_nil,
      List.length_replicate] <;> omega

theorem memField_resetMeasurements_outside {m : Memory} {a n : Nat} (h : a + n ≤ 0xD00) :
    memField (resetMeasurements m) a n = memField m a n := by
  refine memField_foldl_outside _ _ fun k hk m => ?_
  have hk : k < 48 := List.mem_range.mp hk
  refine memField_memPutWords_outside _ _ _ _ _ ?_ ?_ ?_ <;>
    simp only [Config.memorySize, measurementAddr, List.length_cons, List.length_nil] <;> omega

/-- The Identity and Layout block after a reset, Partition N apart (R10). -/
theorem resetOver_layout {j : Nat} (hj : j < 3) :
    (resetOver last m s).word (0x0C + 4 * j) = [0, 0, 14][j] := by
  rw [State.word, resetOver_mem, memField_resetWrites _ _ (by omega), resetLayoutBlock]
  have h := memField_memPutWords_inside (memPutWords m (layoutAddr 0x00) [Config.identity, Config.revision])
    (layoutAddr 0x0C) [LayoutCode.noApply.code, PartState.halted.code, Config.defaultPartition] j hj
    (by simp [Config.memorySize, layoutAddr])
  rw [layoutAddr, layoutAddr] at h
  rw [layoutAddr, layoutAddr, h]
  interval_cases j <;> rfl

/-- The Global Status image after a reset (R10). -/
theorem resetOver_image {j : Nat} (hj : j < 64) : (resetOver last m s).word (0x100 + 4 * j) = 0 := by
  rw [State.word, resetOver_mem, memField_resetStatus_outside (by omega) (by simp only [Config.memorySize]; omega),
    memField_resetMeasurements_outside (by omega), resetImage]
  have h := memField_memPutWords_inside (resetLayoutBlock m) (imageAddr 0) (List.replicate 64 0) j
    (by simpa using hj) (by simp [Config.memorySize, imageAddr])
  rw [imageAddr] at h ⊢
  rw [h, List.getElem_replicate]

/-- A Measurement Table entry after a reset (R147). -/
theorem resetOver_measurement {k j : Nat} (hk : k < 48) (hj : j < 4) :
    (resetOver last m s).word (0x0D00 + 16 * k + 4 * j) = [0, 65535 * 65536, 1, 0][j] := by
  rw [State.word, resetOver_mem, memField_resetStatus_outside (by omega) (by simp only [Config.memorySize]; omega)]
  refine memField_foldl_at (x := k) (List.mem_range.mpr hk) List.nodup_range (fun m => ?_) (fun i hi hne m => ?_) _
  · have h := memField_memPutWords_inside m (measurementAddr k) [0, pack16 0 65535, 1, 0] j hj
      (by simp only [Config.memorySize, measurementAddr, List.length_cons, List.length_nil]; omega)
    rw [resetMeasurement, ← measurementAddr, h]
    interval_cases j <;> rfl
  · have hi : i < 48 := List.mem_range.mp hi
    refine memField_memPutWords_outside _ _ _ _ _ ?_ ?_ ?_ <;>
      simp only [Config.memorySize, measurementAddr, List.length_cons, List.length_nil] <;> omega

theorem Code.code_lt_65536 (x : Code) : x.code < 65536 := by cases x <;> decide

/-- A Chamber Status Block after a reset (R43, R123, R159, R171). -/
theorem resetOver_status {j : Nat} (hj : j < 32) :
    (resetOver last m s).word (statusAddr c + 4 * j) = if j = 2 then 65536 * (last c).code else 0 := by
  rw [State.word, resetOver_mem, resetWrites]
  refine memField_foldl_at (x := c) (List.mem_finRange c) (List.nodup_finRange 4) (fun m => ?_) (fun d _ hne m => ?_) _
  · have hb := statusAddr_bounds c
    rw [resetStatus, memField_memPutWords_inside _ _ _ j (by simpa using hj)
      (by simp only [Config.memorySize, List.length_append, List.length_cons, List.length_nil,
        List.length_replicate]; omega)]
    have hc := (last c).code_lt_65536
    split
    next e => subst e; simp [pack16]; omega
    next e =>
      by_cases h3 : j < 3
      · interval_cases j <;> simp_all
      · rw [List.getElem_append_right (by simpa using Nat.le_of_not_lt h3), List.getElem_replicate]
  · have := c.isLt; have := d.isLt
    have hne : d.val ≠ c.val := fun e => hne (Fin.ext e)
    refine memField_memPutWords_outside _ _ _ _ _ ?_ ?_ ?_ <;>
      simp only [Config.memorySize, statusAddr, List.length_append, List.length_cons, List.length_nil,
        List.length_replicate] <;> omega

end resetWords

/-- Settles O14: the words by the pass that writes them, and the rest of the memory by the bytes that no pass meets. -/
theorem resetsWriteTheirWordsAndRetainTheRest : Obligations.ResetsWriteTheirWordsAndRetainTheRest := by
  intro i s hi
  obtain ⟨last, m, he, -, hm⟩ := exec_reset hi s
  refine ⟨resetOver last m s, he, ⟨resetOver_identity _ _ _, ?_, resetOver_layout (j := 0) (by decide),
    resetOver_layout (j := 1) (by decide), resetOver_layout (j := 2) (by decide)⟩, fun j hj => resetOver_image hj,
    fun k hk => ⟨resetOver_measurement (j := 0) hk (by decide), ?_, ?_, ?_⟩, fun c j hj => ?_, fun hp a ha hr => ?_⟩
  · rw [State.word, resetOver_mem, memField_resetWrites _ _ (by decide)]
    exact memField_resetLayoutBlock m (i := 1) (by decide)
  · exact (congrArg _ (by omega)).trans (resetOver_measurement (j := 1) hk (by decide))
  · exact (congrArg _ (by omega)).trans (resetOver_measurement (j := 2) hk (by decide))
  · exact (congrArg _ (by omega)).trans (resetOver_measurement (j := 3) hk (by decide))
  · rw [resetOver_status hj, resetOver_seq]
  · rw [resetOver_mem, memRead_resetWrites_outside ha hr, hm hp]

/-! ### A refused apply (R12 to R14) -/

theorem recordLayout_word {r : LayoutCode} {e : Nat} (he : e < 256) :
    (recordLayout r e s).word 0x0C = r.code + 256 * e := by
  have hr := r.code_lt
  have h := memField_memPutWords_inside s.mem (layoutAddr 0x0C) [pack8 r.code e 0 0, s.port.part.code, s.tables.partition]
    0 (by simp) (by simp [Config.memorySize, layoutAddr])
  rw [layoutAddr] at h
  rw [State.word]
  refine Eq.trans h ?_
  simp only [pack8, List.getElem_cons_zero]
  omega

/-- What the record of a result leaves after an apply that changes nothing else. -/
theorem recordLayout_refused {t : Moment} {r : LayoutCode} {e : Nat} (he : e < 256) :
    let s' := recordLayout r e (s.setNow t)
    s'.port.result = r ∧ s'.port.resultEntry = e ∧ s'.flagSet .layout = true ∧ flagsOnly [.layout] s s' ∧
      s'.word 0x0C = r.code + 256 * e ∧ changesOnly [.now, .layoutResult, .summary] s s' ∧ storesOnly [(0x0C, 12)] s s' := by
  have h : Frame [.now, .layoutResult, .summary] [(0x0C, 12)] [.layout] s (recordLayout r e (s.setNow t)) :=
    .trans .setNow (Frame.recordLayout.mono)
  refine ⟨rfl, rfl, ?_, h.flags, recordLayout_word he, h.parts, h.bytes⟩
  rw [recordLayout, flagSet_raise]
  rfl

theorem quiet_iff : quiet s = true ↔
    (∀ c, (s.seq c).run = .idle ∧ (s.econ c).mode = .active ∧ (s.econ c).phase = .none ∧
      ((s.pump c).st = .isolated ∨ (s.pump c).st = .vented ∨ (s.pump c).st = .pumped ∨ (s.pump c).st = .faultHold)) ∧
      ∀ k, (s.ilk k).trip = false := by
  have settled : ∀ p : PumpState, p.settled = true ↔ p = .isolated ∨ p = .vented ∨ p = .pumped ∨ p = .faultHold := by
    intro p
    cases p <;> simp [PumpState.settled]
  simp only [quiet, chamberQuiet, Bool.and_eq_true, List.all_eq_true, List.mem_finRange, true_implies, decide_eq_true_eq,
    settled, Bool.not_eq_true', and_assoc]

theorem checkTables_entry {tab : Tables} {code : LayoutCode} {entry : Nat} (h : checkTables tab = some (code, entry)) :
    entry < 256 := by
  rcases checkTables_some h with ⟨-, rfl⟩ | ⟨j, rfl, -⟩ | ⟨k, rfl, -⟩ | ⟨c, rfl, -⟩ | ⟨k, rfl, -⟩ <;> omega

/-- Settles O10: both refusals are the record of a result and nothing else. -/
theorem refusedApplyOnlyRecordsItsResult : Obligations.RefusedApplyOnlyRecordsItsResult := by
  refine ⟨fun s t hr hbusy => ⟨_, exec_applyLayout s t, ?_⟩, fun s t code entry hp hc => ⟨_, exec_applyLayout s t, ?_⟩⟩
  · have hq : quiet (s.setNow (max s.now t)) = false := by
      rw [← Bool.not_eq_true, quiet_iff]
      rintro ⟨hall, htrip⟩
      rcases hbusy with ⟨c, h⟩ | ⟨k, h⟩
      · obtain ⟨h1, h2, h3, h4⟩ := hall c
        rcases h with h | h | h | h <;> exact h (by assumption)
      · exact absurd h (by simpa using htrip k)
    rw [applyTables, if_pos ⟨hr, hq⟩]
    exact recordLayout_refused (r := .busy) (e := 0) (by decide)
  · have hq : ¬ ((s.setNow (max s.now t)).port.part = .running ∧ quiet (s.setNow (max s.now t)) = false) := by
      rintro ⟨h1, h2⟩
      have h1 : s.port.part = .running := h1
      have h2 : quiet s = false := h2
      rcases hp with hp | hp
      · simp [hp] at h1
      · simp [hp] at h2
    have hc' : checkTables (readTables (s.setNow (max s.now t)).mem) = some (code, entry) := hc
    rw [applyTables, if_neg hq]
    dsimp only
    rw [hc']
    exact recordLayout_refused (checkTables_entry hc)

end Sys2Proof.Machine
end

section
/-! The arithmetic of the manual: ramps and output scalings (R69, R73, R98, R126, R127) and the conversion through
breakpoints (R139). -/

namespace Sys2Proof.Machine

/-! ### Truncated quotients -/

/-- A truncated share of a difference lies between nothing of it and all of it. -/
theorem tdiv_share_bounds {a n d : Int} (h0 : 0 ≤ a) (h1 : a ≤ n) (hn : 0 < n) :
    min 0 d ≤ (a * d).tdiv n ∧ (a * d).tdiv n ≤ max 0 d := by
  have nonneg : ∀ e : Int, 0 ≤ e → 0 ≤ (a * e).tdiv n ∧ (a * e).tdiv n ≤ e := by
    intro e he
    rw [Int.tdiv_eq_ediv_of_nonneg (mul_nonneg h0 he)]
    exact ⟨Int.ediv_nonneg (mul_nonneg h0 he) hn.le,
      Int.ediv_le_of_le_mul hn (by rw [mul_comm e]; exact mul_le_mul_of_nonneg_right h1 he)⟩
  rcases le_total 0 d with hd | hd
  · have := nonneg d hd
    omega
  · have h := nonneg (-d) (by omega)
    rw [mul_neg, Int.neg_tdiv] at h
    omega

/-! ### Ramps (R73, R127) -/

theorem rampValue_bounds {start stop k n : Nat} (hn : 0 < n) (hk : k ≤ n) :
    min start stop ≤ rampValue start stop k n ∧ rampValue start stop k n ≤ max start stop := by
  have h := tdiv_share_bounds (a := k) (n := n) (d := (stop : Int) - start) (by omega) (by omega) (by omega)
  rw [mul_comm (k : Int)] at h
  unfold rampValue
  omega

theorem rampValue_last {start stop n : Nat} (hn : 0 < n) : rampValue start stop n n = stop := by
  unfold rampValue
  rw [Int.mul_tdiv_cancel _ (by omega)]
  omega

/-! ### Quotients rounded half up (R69, R98, R126) -/

/-- The number that rounding half up picks is the one whose half-open interval holds the quotient. -/
theorem half_up_eq_iff {a b q : Nat} (hb : 0 < b) :
    (a + b / 2) / b = q ↔ 2 * q * b ≤ 2 * a + b ∧ 2 * a + b < 2 * (q + 1) * b := by
  have e1 : 2 * q * b = 2 * (q * b) := by ring
  have e2 : 2 * (q + 1) * b = 2 * (q * b) + 2 * b := by ring
  have e3 : (q + 1) * b = q * b + b := by ring
  rw [Nat.div_eq_iff hb, e1, e2]
  omega

theorem rfCount_bounds {power span : Nat} (hs : 0 < span) (hp : power ≤ span) :
    rfCount power span ≤ 4095 ∧ 2 * rfCount power span * span ≤ 2 * power * 4095 + span ∧
      2 * power * 4095 + span < 2 * (rfCount power span + 1) * span := by
  obtain ⟨h1, h2⟩ := (half_up_eq_iff (a := power * 4095) hs).mp (rfl : _ = rfCount power span)
  refine ⟨?_, by rwa [← mul_assoc] at h1, by rwa [← mul_assoc] at h2⟩
  have : (power * 4095 + span / 2) / span < 4096 := by
    rw [Nat.div_lt_iff_lt_mul hs]
    omega
  exact Nat.le_of_lt_succ this

/-- Settles O28: the share of a difference for the ramps, and rounding half up for the three scalings. -/
theorem rampsAndOutputScalings : Obligations.RampsAndOutputScalings := by
  refine ⟨fun start stop k n hn hk => ⟨(rampValue_bounds hn hk).1, (rampValue_bounds hn hk).2, rampValue_last hn⟩,
    fun setpoint cfg hc => ⟨Nat.min_le_right _ _, fun q hq => ?_⟩,
    fun target span hs => ⟨?_, fun q hq ht => ?_⟩, fun power span hs hp => rfCount_bounds hs hp⟩
  · have h : commandQuotient setpoint cfg = q := by
      rw [← mul_assoc] at hq
      exact (half_up_eq_iff hc).mpr (by simpa only [mul_assoc] using hq)
    rw [commandCount, commandClamps, h]
    exact ⟨rfl, rfl⟩
  · unfold pressureOutput
    split
    · exact Nat.zero_le _
    · exact Nat.min_le_right _ _
  · have h : pressureQuotient target span = q := (half_up_eq_iff hs).mpr (by simpa only [mul_assoc] using hq)
    rw [pressureOutput, pressureClamps, h, if_neg (by omega)]
    exact ⟨rfl, by simp; omega⟩

/-! ### Breakpoints (R139) -/

/-- The point on a curve between two breakpoints, exactly, and between their values. -/
theorem interpolate_spec {c c0 v0 c1 v1 : Nat} (h0 : c0 ≤ c) (h1 : c ≤ c1) (hc : c0 < c1) :
    (interpolate c c0 v0 c1 v1 : Int) =
        (v0 : Int) + Int.tdiv (((c : Int) - c0) * ((v1 : Int) - v0)) ((c1 : Int) - c0) ∧
      min v0 v1 ≤ interpolate c c0 v0 c1 v1 ∧ interpolate c c0 v0 c1 v1 ≤ max v0 v1 := by
  have h := tdiv_share_bounds (a := (c : Int) - c0) (n := (c1 : Int) - c0) (d := (v1 : Int) - v0) (by omega) (by omega)
    (by omega)
  unfold interpolate
  omega

theorem interpolate_first {c v0 c1 v1 : Nat} : interpolate c c v0 c1 v1 = v0 := by
  simp [interpolate]

theorem interpolate_last {c0 v0 c v1 : Nat} (h : c0 < c) : interpolate c c0 v0 c v1 = v1 := by
  unfold interpolate
  rw [mul_comm, Int.mul_tdiv_cancel _ (by omega)]
  omega

/-- Between two neighbouring breakpoints the conversion interpolates between them. -/
theorem convertFrom_between {raw i : Nat} {p q : Nat × Nat} {pts : List (Nat × Nat)}
    (hs : (pts.map Prod.fst).Pairwise (· < ·)) (hp : pts[i]? = some p) (hq : pts[i + 1]? = some q) (h0 : p.1 ≤ raw)
    (h1 : raw < q.1 ∨ (i + 2 = pts.length ∧ raw = q.1)) :
    convertFrom raw pts = (interpolate raw p.1 p.2 q.1 q.2, .valid) := by
  induction i generalizing pts with
  | zero =>
    match pts with
    | [] | [_] => simp at hq
    | a :: b :: rest =>
      simp only [List.getElem?_cons_zero, List.getElem?_cons_succ, Option.some.injEq, Nat.zero_add] at hp hq
      subst hp hq
      refine if_pos (h1.imp id fun h => ⟨?_, h.2⟩)
      simpa using h.1.symm
  | succ i ih =>
    match pts with
    | [] | [_] => simp at hq
    | a :: b :: rest =>
      have hb : b.1 ≤ raw := by
        have hmem : p ∈ b :: rest := List.mem_of_getElem? (by simpa using hp)
        rw [List.map_cons, List.map_cons, List.pairwise_cons, List.pairwise_cons] at hs
        rcases List.mem_cons.mp hmem with rfl | hm
        · exact h0
        · exact (hs.2.1 _ (List.mem_map_of_mem hm)).le.trans h0
      have hrest : rest ≠ [] := by rintro rfl; simp at hq
      rw [convertFrom, if_neg (by rintro (h | ⟨h, -⟩); · omega
                                  · exact hrest h)]
      exact ih (List.pairwise_cons.mp hs).2 (by simpa using hp) (by simpa using hq)
        (h1.imp id fun h => ⟨by simpa using h.1, h.2⟩)

/-- Above the last breakpoint the conversion stays at its value. -/
theorem convertFrom_above {raw : Nat} {p : Nat × Nat} {pts : List (Nat × Nat)}
    (hs : (pts.map Prod.fst).Pairwise (· < ·)) (hp : pts.getLast? = some p) (h : p.1 < raw) :
    convertFrom raw pts = (p.2, .over) := by
  match pts with
  | [] => simp at hp
  | [a] =>
    obtain rfl : a = p := by simpa using hp
    exact if_neg (by omega)
  | a :: b :: rest =>
    have hb : b.1 ≤ p.1 := by
      have hmem : p ∈ b :: rest := List.mem_of_getLast? (by simpa using hp)
      rw [List.map_cons, List.map_cons, List.pairwise_cons, List.pairwise_cons] at hs
      rcases List.mem_cons.mp hmem with rfl | hm
      · exact le_rfl
      · exact (hs.2.1 _ (List.mem_map_of_mem hm)).le
    rw [convertFrom, if_neg (by omega)]
    exact convertFrom_above (List.pairwise_cons.mp hs).2 (by simpa using hp) h

/-- A count from the first breakpoint to the last lies between two neighbours. -/
theorem exists_between {raw : Nat} {pts : List (Nat × Nat)} (hl : 2 ≤ pts.length)
    (h0 : ∀ p, pts.head? = some p → p.1 ≤ raw) (h1 : ∀ p, pts.getLast? = some p → raw ≤ p.1) :
    ∃ i p q, pts[i]? = some p ∧ pts[i + 1]? = some q ∧ p.1 ≤ raw ∧ (raw < q.1 ∨ (i + 2 = pts.length ∧ raw = q.1)) := by
  match pts with
  | [] | [_] => simp at hl
  | [a, b] =>
    have ha := h0 a rfl
    have hb := h1 b rfl
    exact ⟨0, a, b, rfl, rfl, ha, by simp; omega⟩
  | a :: b :: d :: rest =>
    have ha := h0 a rfl
    by_cases hb : raw < b.1
    · exact ⟨0, a, b, rfl, rfl, ha, .inl hb⟩
    · obtain ⟨i, p, q, hp, hq, h2, h3⟩ := exists_between (pts := b :: d :: rest) (by simp)
        (by rintro p hp; cases hp; omega) (fun p hp => h1 p (by simpa using hp))
      exact ⟨i + 1, p, q, by simpa using hp, by simpa using hq, h2, h3.imp id fun h => ⟨by simpa using h.1, h.2⟩⟩

section conversion
variable {raw : Nat} {pts : List (Nat × Nat)} (hs : (pts.map Prod.fst).Pairwise (· < ·))
include hs

theorem convertPoints_below {p : Nat × Nat} (hp : pts.head? = some p) (h : raw < p.1) :
    convertPoints raw pts = (p.2, .under) := by
  match pts with
  | [] => simp at hp
  | a :: rest =>
    obtain rfl : a = p := by simpa using hp
    exact if_pos h

theorem convertPoints_from {p : Nat × Nat} (hp : p ∈ pts) (h : p.1 ≤ raw) : convertPoints raw pts = convertFrom raw pts := by
  match pts with
  | [] => simp at hp
  | a :: rest =>
    refine if_neg ?_
    rw [List.map_cons, List.pairwise_cons] at hs
    rcases List.mem_cons.mp hp with rfl | hm
    · omega
    · have := hs.1 _ (List.mem_map_of_mem hm)
      omega

theorem convertPoints_between {i : Nat} {p q : Nat × Nat} (hp : pts[i]? = some p) (hq : pts[i + 1]? = some q)
    (h0 : p.1 ≤ raw) (h1 : raw < q.1 ∨ (i + 2 = pts.length ∧ raw = q.1)) :
    convertPoints raw pts = (interpolate raw p.1 p.2 q.1 q.2, .valid) := by
  rw [convertPoints_from hs (List.mem_of_getElem? hp) h0, convertFrom_between hs hp hq h0 h1]

theorem fst_lt_of_neighbours {i : Nat} {p q : Nat × Nat} (hp : pts[i]? = some p) (hq : pts[i + 1]? = some q) :
    p.1 < q.1 := by
  obtain ⟨hi, rfl⟩ := List.getElem?_eq_some_iff.mp hp
  obtain ⟨hj, rfl⟩ := List.getElem?_eq_some_iff.mp hq
  have := List.pairwise_iff_getElem.mp hs i (i + 1) (by simpa using hi) (by simpa using hj) (by omega)
  simpa using this

/-- Every conversion is that of a count below the breakpoints, above them, or between two neighbours. -/
theorem convertPoints_cases (hl : 2 ≤ pts.length) :
    (∃ p ∈ pts, convertPoints raw pts = (p.2, .under)) ∨ (∃ p ∈ pts, convertPoints raw pts = (p.2, .over)) ∨
      ∃ p ∈ pts, ∃ q ∈ pts, min p.2 q.2 ≤ (convertPoints raw pts).1 ∧ (convertPoints raw pts).1 ≤ max p.2 q.2 := by
  by_cases hlow : ∃ p, pts.head? = some p ∧ raw < p.1
  · obtain ⟨p, hp, h⟩ := hlow
    exact .inl ⟨p, List.mem_of_head? hp, convertPoints_below hs hp h⟩
  by_cases hhigh : ∃ p, pts.getLast? = some p ∧ p.1 < raw
  · obtain ⟨p, hp, h⟩ := hhigh
    refine .inr (.inl ⟨p, List.mem_of_getLast? hp, ?_⟩)
    rw [convertPoints_from hs (List.mem_of_getLast? hp) h.le, convertFrom_above hs hp h]
  push Not at hlow hhigh
  obtain ⟨i, p, q, hp, hq, h0, h1⟩ := exists_between hl hlow hhigh
  refine .inr (.inr ⟨p, List.mem_of_getElem? hp, q, List.mem_of_getElem? hq, ?_⟩)
  rw [convertPoints_between hs hp hq h0 h1]
  exact (interpolate_spec h0 (by omega) (fst_lt_of_neighbours hs hp hq)).2

/-- A count that is a breakpoint's converts to its value. -/
theorem convertPoints_at (hl : 2 ≤ pts.length) {p : Nat × Nat} (hp : p ∈ pts) (h : raw = p.1) :
    convertPoints raw pts = (p.2, .valid) := by
  subst h
  obtain ⟨i, hi, rfl⟩ := List.getElem_of_mem hp
  by_cases hlast : i + 1 < pts.length
  · have hpi : pts[i]? = some pts[i] := List.getElem?_eq_getElem hi
    have hqi : pts[i + 1]? = some pts[i + 1] := List.getElem?_eq_getElem hlast
    rw [convertPoints_between hs hpi hqi le_rfl (.inl (fst_lt_of_neighbours hs hpi hqi)), interpolate_first]
  · obtain ⟨j, rfl⟩ : ∃ j, i = j + 1 := ⟨i - 1, by omega⟩
    have hpj : pts[j]? = some pts[j] := List.getElem?_eq_getElem (by omega)
    have hqj : pts[j + 1]? = some pts[j + 1] := List.getElem?_eq_getElem hi
    have hlt := fst_lt_of_neighbours hs hpj hqj
    rw [convertPoints_between hs hpj hqj hlt.le (.inr ⟨by omega, rfl⟩), interpolate_last hlt]

end conversion

/-- Settles O42: below, above and between the breakpoints, each by its own case of the conversion. -/
theorem breakpointConversion : Obligations.BreakpointConversion := by
  refine ⟨fun raw pts hl _ hs => ⟨fun p hp h => convertPoints_below hs hp h, fun p hp h => ?_,
    fun i p q hp hq h0 h1 => ?_, fun p hp h => convertPoints_at hs hl hp h, fun lo hi hb => ?_⟩,
    fun s k e raw => ⟨?_, fun hr => ?_⟩⟩
  · rw [convertPoints_from hs (List.mem_of_getLast? hp) h.le, convertFrom_above hs hp h]
  · obtain ⟨h2, h3, h4⟩ := interpolate_spec (v0 := p.2) (v1 := q.2) h0 (by omega) (fst_lt_of_neighbours hs hp hq)
    rw [convertPoints_between hs hp hq h0 h1]
    exact ⟨h2, rfl, h3, h4⟩
  · rcases convertPoints_cases (raw := raw) hs hl with ⟨p, hp, h⟩ | ⟨p, hp, h⟩ | ⟨p, hp, q, hq, h⟩
    · rw [h]; exact hb p hp
    · rw [h]; exact hb p hp
    · have := hb p hp; have := hb q hq
      omega
  · simp [State.valueAt, State.chanAt]
  · simp [freshChan, convertChannel, lineFlows, hr]

end Sys2Proof.Machine
end

section
/-! The apply's checks as the table of R12 states them. -/

namespace Sys2Proof.Machine

variable {tab : Tables}

theorem strictlyAscending_iff (l : List Nat) : strictlyAscending l = true ↔ l.Pairwise (· < ·) := by
  rw [← List.isChain_iff_pairwise]
  induction l with
  | nil => simp [strictlyAscending]
  | cons a l ih =>
    cases l with
    | nil => simp [strictlyAscending]
    | cons b l => rw [strictlyAscending, Bool.and_eq_true, decide_eq_true_eq, ih, List.isChain_cons_cons]

/-- A pass over the entries that finds no failing check. -/
theorem findSome_checks_eq_none {n : Nat} {check : Fin n → Option LayoutCode} {name : Fin n → Nat} :
    ((List.finRange n).findSome? fun j => (check j).map fun x => (x, name j)) = none ↔ ∀ j, check j = none := by
  simp

theorem checkTables_eq_none : checkTables tab = none ↔ (6 ≤ tab.partition ∧ tab.partition ≤ 26) ∧
    (∀ j, checkScan tab j = none) ∧ (∀ k, checkLine tab k = none) ∧ (∀ c, checkChamber tab c = none) ∧
    ∀ k, checkInterlock tab k = none := by
  unfold checkTables
  split
  · simp; omega
  · simp only [Option.or_eq_none_iff, findSome_checks_eq_none, and_assoc]
    constructor
    · exact fun h => ⟨by omega, by omega, h⟩
    · exact fun h => h.2.2

theorem inUse_iff {e : ScanCfg} (h : e.cls ≤ 2) : e.inUse = true ↔ e.cls ≠ 0 := by
  simp [ScanCfg.inUse]; omega

/-- No entry before this one is in use with the same channel. -/
theorem any_same_channel {j : Fin 48} (h : ∀ i : Fin 48, tab.scan[i].cls ≤ 2) :
    ((List.finRange 48).any fun i => decide (i < j) && tab.scan[i].inUse && tab.scan[i].channel == tab.scan[j].channel) =
      false ↔ ∀ i : Fin 48, i < j → tab.scan[i].cls ≠ 0 → tab.scan[i].channel ≠ tab.scan[j].channel := by
  simp only [List.any_eq_false, List.mem_finRange, true_implies, Bool.and_eq_true, decide_eq_true_eq, beq_iff_eq,
    inUse_iff (h _)]
  exact forall_congr' fun i => by rw [not_and, and_imp]

theorem checkScan_eq_none {j : Fin 48} (hc : ∀ i : Fin 48, tab.scan[i].cls ≤ 2) : checkScan tab j = none ↔
    (tab.scan[j].cls ≠ 0 →
      tab.scan[j].channel ≤ 47 ∧
        (∀ i : Fin 48, i < j → tab.scan[i].cls ≠ 0 → tab.scan[i].channel ≠ tab.scan[j].channel) ∧
        ((∀ k : LineId, tab.lines[k].readback ≠ tab.scan[j].channel) →
          2 ≤ tab.scan[j].count ∧ tab.scan[j].count ≤ 8 ∧ (∀ p ∈ tab.scan[j].usedPoints, p.1 ≤ 4095) ∧
            (tab.scan[j].usedPoints.map Prod.fst).Pairwise (· < ·))) := by
  have hsame := any_same_channel hc (j := j)
  have hlines : (tab.readbackLines tab.scan[j].channel).isEmpty = true ↔
      ∀ k : LineId, tab.lines[k].readback ≠ tab.scan[j].channel := by
    simp [Tables.readbackLines]
  have hpts : (tab.scan[j].usedPoints.any fun p => decide (4095 < p.1)) = true ↔
      ¬ ∀ p ∈ tab.scan[j].usedPoints, p.1 ≤ 4095 := by
    simp
  have hasc := strictlyAscending_iff (tab.scan[j].usedPoints.map Prod.fst)
  unfold checkScan
  dsimp only
  rw [if_neg (by have := hc j; omega)]
  have huse := inUse_iff (hc j)
  split_ifs with h1 h2 h3 h4
  · simp only [Bool.not_eq_true', ← Bool.not_eq_true, huse] at h1
    exact iff_of_true rfl fun h => absurd h h1
  · simp only [Bool.not_eq_true', ← Bool.not_eq_true, huse, not_not] at h1
    rw [← Bool.not_eq_false, hsame] at h2
    refine iff_of_false (by simp) ?_
    intro h
    obtain ⟨g1, g2, -⟩ := h h1
    rcases h2 with h2 | h2
    · omega
    · exact h2 g2
  · simp only [Bool.not_eq_true', ← Bool.not_eq_true, hlines] at h3
    simp only [← Bool.not_eq_false, hsame, not_or, not_not, Nat.not_lt] at h2
    exact ⟨fun _ _ => ⟨h2.1, h2.2, fun h => absurd h h3⟩, fun _ => rfl⟩
  · simp only [Bool.not_eq_true', ← Bool.not_eq_true, huse, not_not] at h1
    simp only [Bool.not_eq_true', ← Bool.not_eq_true, not_not, hlines] at h3
    rw [hpts, ← Bool.not_eq_true, hasc] at h4
    refine iff_of_false (by simp) ?_
    intro h
    obtain ⟨-, -, g⟩ := h h1
    obtain ⟨g1, g2, g3, g4⟩ := g h3
    rcases h4 with h4 | h4 | h4 | h4
    · omega
    · omega
    · exact h4 g3
    · exact h4 g4
  · simp only [← Bool.not_eq_false, hsame, not_or, not_not, Nat.not_lt] at h2
    rw [hpts, ← Bool.not_eq_true, hasc] at h4
    simp only [not_or, not_not, Nat.not_lt] at h4
    exact ⟨fun _ _ => ⟨h2.1, h2.2, fun _ => h4⟩, fun _ => rfl⟩

theorem ite_some_eq_none {p : Prop} [Decidable p] {x : LayoutCode} {o : Option LayoutCode} :
    (if p then some x else o) = none ↔ ¬ p ∧ o = none := by
  split <;> simp_all

theorem checkLine_eq_none {k : LineId} : checkLine tab k = none ↔
    (tab.lines[k].use = 1 ∨ tab.lines[k].use = 2) ∧
      (tab.lines[k].use = 1 → 1 ≤ tab.lines[k].chamber ∧ tab.lines[k].chamber ≤ 4) ∧ tab.lines[k].fullScale ≠ 0 ∧
      (100 ≤ tab.lines[k].gcf ∧ tab.lines[k].gcf ≤ 4000) ∧
      (5 ≤ tab.lines[k].tolerance ∧ tab.lines[k].tolerance ≤ 200) ∧
      (1 ≤ tab.lines[k].faultTime ∧ tab.lines[k].faultTime ≤ 6000) ∧ tab.lines[k].command ≤ 15 ∧
      (∀ i : LineId, i < k → tab.lines[i].command ≠ tab.lines[k].command) ∧
      tab.channelOk tab.lines[k].readback = true ∧ (tab.lines[k].use = 2 → tab.lines[k].handover ≤ 500) := by
  have hsame : ((List.finRange 16).any fun i => decide (i < k) && tab.lines[i].command == tab.lines[k].command) = true ↔
      ¬ ∀ i : LineId, i < k → tab.lines[i].command ≠ tab.lines[k].command := by
    simp
  simp only [checkLine, ite_some_eq_none, and_true, hsame, not_or, not_and, not_not, Bool.not_eq_false, Nat.not_lt,
    ne_eq, and_assoc]
  have h2 : (¬tab.lines[k].use = 1 → tab.lines[k].use = 2) ↔ (tab.lines[k].use = 1 ∨ tab.lines[k].use = 2) := by omega
  rw [h2]

theorem checkChamber_eq_none {c : Chamber} : checkChamber tab c = none ↔
    (tab.channelOk tab.chambers[c].manometer = true ∧ tab.channelOk tab.chambers[c].roughGauge = true ∧
      tab.channelOk tab.chambers[c].forward = true ∧ tab.channelOk tab.chambers[c].reflected = true ∧
      (c = 0 → tab.channelOk tab.chambers[c].foreline = true)) ∧
      (20 ≤ tab.chambers[c].rfCommand ∧ tab.chambers[c].rfCommand ≤ 23) ∧
      (∀ i : Chamber, i < c → tab.chambers[i].rfCommand ≠ tab.chambers[c].rfCommand) ∧
      tab.chambers[c].valveSpan ≠ 0 ∧
      (10 ≤ tab.chambers[c].pressureTolerance ∧ tab.chambers[c].pressureTolerance ≤ 500) ∧
      (100 ≤ tab.chambers[c].rfSpan ∧ tab.chambers[c].rfSpan ≤ 5000) ∧
      (500 ≤ tab.chambers[c].strikeRatio ∧ tab.chambers[c].strikeRatio ≤ 1000) ∧
      (1 ≤ tab.chambers[c].strikeWindow ∧ tab.chambers[c].strikeWindow ≤ 500) ∧
      (1 ≤ tab.chambers[c].reflectTime ∧ tab.chambers[c].reflectTime ≤ 500) ∧
      tab.chambers[c].strikeRetries ≤ 3 ∧ tab.chambers[c].recoveryDwell ≤ 600 ∧
      (10 ≤ tab.chambers[c].recoveryLimit ∧ tab.chambers[c].recoveryLimit ≤ 1800) ∧
      (tab.chambers[c].purgeLine ≠ 0 →
        ∃ k : LineId, k.val + 1 = tab.chambers[c].purgeLine ∧ tab.lines[k].use = 1 ∧
          tab.lines[k].chamber = c.val + 1) := by
  have hsame : ((List.finRange 4).any fun i => decide (i < c) && tab.chambers[i].rfCommand == tab.chambers[c].rfCommand) =
      true ↔ ¬ ∀ i : Chamber, i < c → tab.chambers[i].rfCommand ≠ tab.chambers[c].rfCommand := by
    simp
  have hpurge : ((List.finRange 16).any fun k =>
      k.val + 1 == tab.chambers[c].purgeLine && tab.lines[k].use == 1 && tab.lines[k].chamber == c.val + 1) = true ↔
      ∃ k : LineId, k.val + 1 = tab.chambers[c].purgeLine ∧ tab.lines[k].use = 1 ∧ tab.lines[k].chamber = c.val + 1 := by
    simp only [List.any_eq_true, List.mem_finRange, true_and, Bool.and_eq_true, beq_iff_eq, and_assoc]
  simp only [checkChamber, ite_some_eq_none, and_true, hsame, hpurge, not_or, not_and, not_not, Bool.not_eq_false,
    Nat.not_lt, ne_eq, and_assoc]

theorem checkInterlock_eq_none {k : InputId} : checkInterlock tab k = none ↔
    tab.interlocks[k].scope ≤ 15 ∧
      (tab.interlocks[k].scope ≠ 0 →
        tab.interlocks[k].activeLevel ≤ 1 ∧ 1 ≤ tab.interlocks[k].action ∧ tab.interlocks[k].action ≤ 3) := by
  unfold checkInterlock
  dsimp only
  split_ifs with h1 h2 h3
  · exact iff_of_false (by simp) fun h => absurd h.1 (by omega)
  · exact iff_of_true rfl ⟨by omega, fun h => absurd h2 h⟩
  · exact iff_of_false (by simp) fun h => absurd (h.2 h2) (by omega)
  · exact iff_of_true rfl ⟨by omega, fun _ => by omega⟩

/-- Settles O9: each check by its own conditions; the classes of the scan entries are read first, since the test for a
channel named twice reads those of the entries before. -/
theorem applyChecksAreTheRangesOfTheTable : Obligations.ApplyChecksAreTheRangesOfTheTable := by
  intro tab
  rw [checkTables_eq_none]
  simp only [checkLine_eq_none, checkChamber_eq_none, checkInterlock_eq_none]
  refine and_congr_right fun _ => and_congr ⟨fun h j => ?_, fun h j => ?_⟩ Iff.rfl
  · have hc : ∀ i : Fin 48, tab.scan[i].cls ≤ 2 := fun i => by
      have := h i
      unfold checkScan at this
      dsimp only at this
      rw [ite_some_eq_none] at this
      omega
    exact ⟨hc j, (checkScan_eq_none hc).mp (h j)⟩
  · exact (checkScan_eq_none fun i => (h i).1).mpr (h j).2

end Sys2Proof.Machine
end

section
/-! What a field of the Common Memory reads after the part's own word writes, and what setting a flag leaves. -/

namespace Sys2Proof.Machine

variable {s s' : State} {c d : Chamber}

/-! ### Fields of a word -/

/-- Some bytes of a word that was written. -/
theorem memField_memPutWord_part {m : Memory} {a v i n : Nat} (h : i + n ≤ 4) :
    memField (memPutWord m a v) (a + i) n = v / 256 ^ i % 256 ^ n := by
  have bytes : ∀ (n : Nat) (m' : Memory) (b u : Nat), (∀ j < n, memRead m' (b + j) = BitVec.ofNat 8 (u / 256 ^ j)) →
      memField m' b n = u % 256 ^ n := by
    intro n
    induction n with
    | zero => intro m' b u _; simp [memField, Nat.mod_one]
    | succ n ih =>
      intro m' b u hb
      have h0 : memRead m' b = BitVec.ofNat 8 u := by simpa using hb 0 (by omega)
      rw [memField, h0, ih m' (b + 1) (u / 256) fun j hj => by
        rw [show b + 1 + j = b + (j + 1) by omega, hb (j + 1) (by omega), Nat.div_div_eq_div_mul, pow_succ'],
        BitVec.toNat_ofNat, pow_succ' 256 n, Nat.mod_mul]
  refine bytes n _ _ _ fun j hj => ?_
  rw [show a + i + j = a + (i + j) by omega,
    memPutWord, memRead_memPutField_inside _ _ _ _ _ (by decide) (by omega), Nat.div_div_eq_div_mul, pow_add]

theorem word_putWord_same (a v : Nat) : (s.putWord a v).word a = v % 4294967296 := memField_memPutWord_same _ _ _

/-- Some bytes of a status word that was shown. -/
theorem field_showWord {w : StatusWord} {i n : Nat} (h : i + n ≤ 4) :
    memField (showWord c w s).mem (statusAddr c + w.offset + i) n = statusValue s c w / 256 ^ i % 256 ^ n :=
  memField_memPutWord_part h

theorem word_showWord {w : StatusWord} :
    (showWord c w s).word (statusAddr c + w.offset) = statusValue s c w % 4294967296 := memField_memPutWord_same _ _ _

/-- A field outside a range of a frame, given by the range that holds what was written. -/
theorem Frame.word {ps : List Part} {rs : List Bytes} {fs : List EventFlag} (h : Frame ps rs fs s s') {a : Nat}
    (ha : a + 4 ≤ Config.memorySize) (hr : ∀ r ∈ rs, r.1 + r.2 ≤ Config.memorySize ∧ (a + 4 ≤ r.1 ∨ r.1 + r.2 ≤ a)) :
    s'.word a = s.word a := h.field ha hr

/-- A byte outside the ranges of a frame. -/
theorem Frame.byte {ps : List Part} {rs : List Bytes} {fs : List EventFlag} (h : Frame ps rs fs s s') {a : Nat}
    (ha : a < Config.memorySize) (hr : ∀ r ∈ rs, r.1 + r.2 ≤ Config.memorySize ∧ (a < r.1 ∨ r.1 + r.2 ≤ a)) :
    memRead s'.mem a = memRead s.mem a := by
  refine h.bytes a ha ?_
  rintro r hm ⟨j, hj, e⟩
  obtain ⟨h1, h2⟩ := hr r hm
  rw [Nat.mod_eq_of_lt (by omega)] at e
  omega

/-! ### A flag set -/

section raise
variable {f : EventFlag} {k : LineId}
@[simp] theorem raise_mem : (raise f s).mem = s.mem := rfl
@[simp] theorem raise_word {a : Nat} : (raise f s).word a = s.word a := rfl
@[simp] theorem raise_now : (raise f s).now = s.now := rfl
@[simp] theorem raise_uses : (raise f s).uses = s.uses := rfl
@[simp] theorem raise_tables : (raise f s).tables = s.tables := rfl
@[simp] theorem raise_seq : (raise f s).seq c = s.seq c := rfl
@[simp] theorem raise_rf : (raise f s).rf c = s.rf c := rfl
@[simp] theorem raise_press : (raise f s).press c = s.press c := rfl
@[simp] theorem raise_pump : (raise f s).pump c = s.pump c := rfl
@[simp] theorem raise_econ : (raise f s).econ c = s.econ c := rfl
@[simp] theorem raise_rep : (raise f s).rep c = s.rep c := rfl
@[simp] theorem raise_line : (raise f s).line k = s.line k := rfl
@[simp] theorem raise_arb : (raise f s).arb k = s.arb k := rfl
@[simp] theorem raise_gasInhibit : (raise f s).gasInhibit c = s.gasInhibit c := rfl
@[simp] theorem raise_chamberCfg : (raise f s).chamberCfg c = s.chamberCfg c := rfl
@[simp] theorem raise_lineCfg : (raise f s).lineCfg k = s.lineCfg k := rfl
@[simp] theorem raise_waitQueue : (raise f s).waitQueue = s.waitQueue := rfl
@[simp] theorem raise_rough : (raise f s).rough = s.rough := rfl
@[simp] theorem raise_scan : (raise f s).scan = s.scan := rfl

theorem flagSet_raise_same : (raise f s).flagSet f = true := by simp [flagSet_raise]

/-- A set flag stays set over a change that only sets flags. -/
theorem Keeps.flagSet (h : Keeps s s') (hf : s.flagSet f = true) : s'.flagSet f = true := h.core.flags _ hf
end raise

/-! ### Slots -/

section slots
variable {i : Fin 2} {o n st v : Nat}

theorem slotAddr_top (c : Chamber) (i : Fin 2) : 0x800 ≤ slotAddr c i ∧ slotAddr c i + 64 ≤ 0xA00 := slotAddr_bounds i

/-- The fields of a slot that an answer writes (R20). -/
theorem writeSlot_reads (hst : st < 4294967296) (ho : o < 4294967296) (hv : v < 4294967296) (hn : n < 4294967296) :
    slotReads (writeSlot c i o v n st s) (slotAddr c i) st o v n := by
  have hb := slotAddr_top c i
  have inside : ∀ j (hj : j < 3), (writeSlot c i o v n st s).word (slotAddr c i + 20 + 4 * j) = [o, v, n][j] % 4294967296 := by
    intro j hj
    have h := memField_memPutWords_inside s.mem (slotAddr c i + 20) [o, v, n] j hj
      (by simp only [List.length_cons, List.length_nil, Config.memorySize]; omega)
    rw [← h]
    exact memField_memPutWord_outside _ _ _ _ _ (by simp only [Config.memorySize]; omega)
      (by simp only [Config.memorySize]; omega) (by omega)
  refine ⟨(word_putWord_same _ _).trans (Nat.mod_eq_of_lt hst), (inside 0 (by decide)).trans (Nat.mod_eq_of_lt ho),
    (inside 1 (by decide)).trans (Nat.mod_eq_of_lt hv), (inside 2 (by decide)).trans (Nat.mod_eq_of_lt hn)⟩

@[simp] theorem raise_slotReads {f : EventFlag} {a : Nat} : slotReads (raise f s) a st o v n ↔ slotReads s a st o v n :=
  Iff.rfl

/-- A slot outside the ranges of a frame reads as before. -/
theorem Frame.slotReads {ps : List Part} {rs : List Bytes} {fs : List EventFlag} (h : Frame ps rs fs s s')
    (hr : ∀ r ∈ rs, r.1 + r.2 ≤ Config.memorySize ∧ (slotAddr c i + 32 ≤ r.1 ∨ r.1 + r.2 ≤ slotAddr c i))
    (g : Machine.slotReads s (slotAddr c i) st o v n) : Machine.slotReads s' (slotAddr c i) st o v n := by
  have hb := slotAddr_top c i
  have hw : ∀ j, j + 4 ≤ 32 → s'.word (slotAddr c i + j) = s.word (slotAddr c i + j) := fun j hj =>
    h.word (by simp only [Config.memorySize]; omega) fun r hm => by have := hr r hm; omega
  obtain ⟨g1, g2, g3, g4⟩ := g
  exact ⟨(hw 0 (by omega)).trans g1, (hw 20 (by omega)).trans g2, (hw 24 (by omega)).trans g3,
    (hw 28 (by omega)).trans g4⟩

end slots

end Sys2Proof.Machine
end

section
/-! A successful apply (R12 to R14, R95, R105, R124, R146 to R148, R164): what it leaves of every block. -/

namespace Sys2Proof.Machine

variable {s s' : State} {c : Chamber} {tab : Tables}

/-! ### Copying the tables -/

theorem installTables_now : (installTables tab s).now = s.now :=
  (Frame.installTables (fs := [])).parts .now (by simp [installParts])

/-- The scanner in SETTLING after the tables are copied (R146). -/
theorem installTables_scan : (installTables tab s).scan.rate = .settling ∧ (installTables tab s).scan.settling = 2 := by
  unfold installTables
  extract_lets old s1
  have h : Frame (((List.finRange 16).map .ilk ++ (List.finRange 16).map .arb ++ (List.finRange 4).map .press)) [imageBytes] []
      s1 (forChambers applyPressure (forLines startPurge (imageInterlock (forInputs applyInput s1)))) := by
    refine .trans (.forInputs fun k _ => .modIlk (by simp)) <| .trans .imageInterlock <|
      .trans (.forLines fun k _ => ?_) <| .forChambers fun d _ => .modPress (by simp)
    exact .ite (fun _ => .putArb (by simp)) fun _ => .putArb (by simp)
  rw [show _ = s1.scan from h.parts .scan (by simp)]
  exact ⟨rfl, rfl⟩

/-- A debounce restarted (R148). -/
theorem applyInput_ilk {k : InputId} : (applyInput k s).ilk k = { s.ilk k with raw := false, count := 0, mark := s.now } := by
  simp [applyInput, State.modIlk_eq]

theorem installTables_ilk {k : InputId} : ((installTables tab s).ilk k).raw = false ∧
    ((installTables tab s).ilk k).count = 0 := by
  unfold installTables
  extract_lets old s1
  have h : ∀ t : State, Frame ((List.finRange 16).map .arb ++ (List.finRange 4).map .press) [imageBytes] []
      t (forChambers applyPressure (forLines startPurge (imageInterlock t))) := by
    refine fun t => .trans .imageInterlock <| .trans (.forLines fun k _ => ?_) <| .forChambers fun d _ => .modPress (by simp)
    exact .ite (fun _ => .putArb (by simp)) fun _ => .putArb (by simp)
  rw [show _ = (forInputs applyInput s1).ilk k from (h _).parts (.ilk k) (by simp)]
  refine forInputs_at (P := fun _ => True) (Q := fun t => (t.ilk k).raw = false ∧ (t.ilk k).count = 0) k
    (fun _ _ _ _ => trivial) (fun t _ => ?_) (fun d hd t ht => ?_) trivial
  · rw [applyInput_ilk]
    exact ⟨rfl, rfl⟩
  · rw [show (applyInput d t).ilk k = t.ilk k from
      State.setIlk_ilk_ne _ _ _ _ (Ne.symm hd)]
    exact ht

/-- A line's arbiter state after an apply (R95). -/
def purgedArb (cfg : LineCfg) (t : Moment) : Arb :=
  if cfg.use = 2 then (if cfg.handover = 0 then .free else .purging cfg.handover t) else .absent

theorem startPurge_arb {k : LineId} : (startPurge k s).arb k = purgedArb (s.lineCfg k) s.now := by
  unfold startPurge purgedArb
  dsimp only
  split <;> simp [putArb, imageLine]

theorem installTables_arb {k : LineId} : (installTables tab s).arb k = purgedArb tab.lines[k] s.now := by
  have before : ∀ t : State, t.tables = tab → t.now = s.now →
      (forChambers applyPressure (forLines startPurge t)).arb k = purgedArb tab.lines[k] s.now := by
    intro t ht hn
    have h : Frame ((List.finRange 4).map .press) [] [] (forLines startPurge t)
        (forChambers applyPressure (forLines startPurge t)) := .forChambers fun d _ => .modPress (by simp)
    rw [show _ = (forLines startPurge t).arb k from h.parts (.arb k) (by simp)]
    have one : ∀ (j : LineId) (u : State), Frame [.arb j] [imageBytes] [] u (startPurge j u) := fun j u =>
      .ite (fun _ => .putArb) fun _ => .putArb
    refine forLines_at (P := fun u => u.tables = tab ∧ u.now = s.now) (Q := fun u => u.arb k = purgedArb tab.lines[k] s.now) k
      (fun j _ u hu => ⟨?_, ?_⟩) (fun u hu => ?_) (fun j hj u hu => ?_) ⟨ht, hn⟩
    · rw [show _ = u.tables from (one j u).parts .tables (by simp)]; exact hu.1
    · rw [show _ = u.now from (one j u).parts .now (by simp)]; exact hu.2
    · rw [startPurge_arb, State.lineCfg, hu.1, hu.2]
    · rw [show _ = u.arb k from (one j u).parts (.arb k) (by simp [Ne.symm hj])]; exact hu
  unfold installTables
  extract_lets old s1
  have h : Frame ([.scan] ++ (List.finRange 48).map .chan ++ (List.finRange 16).map .ilk) [imageBytes, tableBytes] []
      (s.setTables tab) (imageInterlock (forInputs applyInput s1)) := by
    exact .trans (.forChannels fun k _ => .applyChannel (by simp) (by simp)) <| .trans .setScan <| .trans .imageRate <|
      .trans (.forInputs fun k _ => .modIlk (by simp)) .imageInterlock
  exact before _ (h.parts .tables (by simp)) (h.parts .now (by simp))

/-- A Pressure Channel after an apply (R105). -/
def Press.applied (p : Press) : Press :=
  { p with target := 0, output := 0, throttleOpen := true, evaluating := false, inCount := 0, settle := 0, outCount := 0 }

theorem applyPressure_press : (applyPressure c s).press c = (s.press c).applied := by
  simp [applyPressure, State.modPress_eq, Press.driven, Press.applied, pressureOutput]

theorem installTables_press : (installTables tab s).press c = (s.press c).applied := by
  unfold installTables
  extract_lets old s1
  have h : Frame ([.tables, .scan] ++ (List.finRange 48).map .chan ++ (List.finRange 16).map .ilk ++
      (List.finRange 16).map .arb) [imageBytes, tableBytes] []
      s (forLines startPurge (imageInterlock (forInputs applyInput s1))) := by
    refine .trans (b := s.setTables tab) .setTables <| .trans (.forChannels fun k _ => .applyChannel (by simp) (by simp)) <|
      .trans .setScan <| .trans .imageRate <| .trans (.forInputs fun k _ => .modIlk (by simp)) <| .trans .imageInterlock <|
      .forLines fun k _ => ?_
    exact .ite (fun _ => .putArb (by simp)) fun _ => .putArb (by simp)
  refine forChambers_at (P := fun u => u.press c = s.press c) (Q := fun u => u.press c = (s.press c).applied) c
    (fun d hd u hu => ?_) (fun u hu => ?_) (fun d hd u hu => ?_) (h.parts (.press c) (by simp))
  · rw [show (applyPressure d u).press c = u.press c from State.setPress_press_ne _ _ _ _ (Ne.symm hd)]; exact hu
  · rw [applyPressure_press, hu]
  · rw [show (applyPressure d u).press c = u.press c from State.setPress_press_ne _ _ _ _ (Ne.symm hd)]; exact hu

/-! ### Fixing the pages -/

/-- Placing an entry leaves the page layout. -/
theorem placeEntry_layout {e : Entry} : ((placeEntry c e s).rep c).size = (s.rep c).size ∧
    ((placeEntry c e s).rep c).pages = (s.rep c).pages := by
  unfold placeEntry
  split
  · simp only [placeFilling, placementNotice_rep]
    split <;> simp [State.modPage, State.modRep_eq]
  · split
    · simp only [placeOpening, placementNotice_rep]
      split <;> simp [State.modPage, State.modRep_eq]
    · simp only [holdEntry]
      split <;> simp [State.modRep_eq]

/-- Placing the held entry leaves the page layout and the sequence numbers. -/
theorem placeHeld_layout : ((placeHeld c s).rep c).size = (s.rep c).size ∧
    ((placeHeld c s).rep c).pages = (s.rep c).pages ∧ ((placeHeld c s).rep c).next = (s.rep c).next := by
  unfold placeHeld
  split
  · rw [placeEntry_layout.1, placeEntry_layout.2, placeEntry_next]
    simp [State.modRep_eq]
  · exact ⟨rfl, rfl, rfl⟩

/-- The page layout that a chamber's control block asks for (R164); the sequence number stands. -/
theorem fixPages_layout :
    ((fixPages c s).rep c).size = pageSizeFor (memField s.mem (controlAddr c + 4) 2) s.tables.partition ∧
      ((fixPages c s).rep c).pages = pageCountFor ((fixPages c s).rep c).size s.tables.partition ∧
      ((fixPages c s).rep c).next = (s.rep c).next := by
  have shown : ∀ t : State, (showPage c 1 (showPage c 0 t)).rep c = t.rep c := fun _ => rfl
  unfold fixPages
  dsimp only
  split
  · simp [Rep.fixed]
  · rw [placeHeld_layout.1, placeHeld_layout.2.1, placeHeld_layout.2.2, shown]
    simp [Rep.fixed]

/-- The host's control blocks are no bytes of an apply. -/
theorem controlAddr_bounds (c : Chamber) : 0x700 ≤ controlAddr c ∧ controlAddr c + 64 ≤ 0x800 := by
  have := c.isLt
  simp only [controlAddr]; omega

theorem pagesBytes_outside {n a k : Nat} (h1 : 6 ≤ n) (h2 : n ≤ 26) (ha : a + k ≤ 0xA00) :
    ∀ r ∈ pagesBytes n, r.1 + r.2 ≤ Config.memorySize ∧ (a + k ≤ r.1 ∨ r.1 + r.2 ≤ a) := by
  simp only [pagesBytes, List.mem_cons, List.not_mem_nil, or_false, forall_eq_or_imp, forall_eq, Config.memorySize]
  omega

/-- What the pass that fixes every chamber's pages leaves of one (R164). -/
theorem fixAllPages_layout (h1 : 6 ≤ s.tables.partition) (h2 : s.tables.partition ≤ 26) :
    ((forChambers fixPages s).rep c).size =
        pageSizeFor (memField s.mem (controlAddr c + 4) 2) s.tables.partition ∧
      ((forChambers fixPages s).rep c).pages =
        pageCountFor ((forChambers fixPages s).rep c).size s.tables.partition ∧
      ((forChambers fixPages s).rep c).next = (s.rep c).next := by
  have hb := controlAddr_bounds c
  have keep : ∀ d ≠ c, ∀ u : State, (fixPages d u).rep c = u.rep c := fun d hd u =>
    fixPages_parts (.rep c) (by simp [Ne.symm hd])
  refine (forChambers_at (P := fun u => u.tables = s.tables ∧
      memField u.mem (controlAddr c + 4) 2 = memField s.mem (controlAddr c + 4) 2 ∧ u.rep c = s.rep c)
    (Q := fun u => (u.rep c).size = pageSizeFor (memField s.mem (controlAddr c + 4) 2) s.tables.partition ∧
      (u.rep c).pages = pageCountFor (u.rep c).size s.tables.partition ∧ (u.rep c).next = (s.rep c).next) c
    (fun d hd u hu => ?_) (fun u hu => ?_) (fun d hd u hu => ?_) ⟨rfl, rfl, rfl⟩)
  · obtain ⟨ht, hm, hr⟩ := hu
    rw [← ht] at h1 h2
    refine ⟨fixPages_tables.trans ht, ?_, (keep d hd u).trans hr⟩
    rw [(Frame.fixPages_apply h1 h2).field (by simp only [Config.memorySize]; omega)
      (pagesBytes_outside h1 h2 (by omega)), hm]
  · obtain ⟨ht, hm, hr⟩ := hu
    rw [← ht, ← hm, ← hr]
    exact fixPages_layout
  · rw [keep d hd u]
    exact hu

/-! ### The start of the chambers -/

/-- What the start of one chamber writes lies in its own status block and its own slots. -/
theorem startBytes_outside {d : Chamber} {a k : Nat} (h : a + k ≤ 0x800 ∨
    (slotAddr c 0 ≤ a ∧ a + k ≤ slotAddr c 0 + 128 ∧ d ≠ c)) :
    ∀ r ∈ [((statusAddr d, 8) : Bytes), slotBytes d],
      r.1 + r.2 ≤ Config.memorySize ∧ (a + k ≤ r.1 ∨ r.1 + r.2 ≤ a) := by
  have hd := d.isLt
  have hc := c.isLt
  have hne : d ≠ c → d.val ≠ c.val := fun h e => h (Fin.ext e)
  simp only [List.mem_cons, List.not_mem_nil, or_false, forall_eq_or_imp, forall_eq, statusAddr, slotBytes, slotAddr,
    Config.memorySize, Fin.val_zero] at h ⊢
  rcases h with h | ⟨h1, h2, h3⟩
  · omega
  · have := hne h3; omega

/-- What a slot holds after an apply from HALTED: TAKEN is answered LOST_BY_RESET, anything else stands (R13). -/
def lostOrKept (c : Chamber) (i : Fin 2) (s s' : State) : Prop :=
  (s.word (slotAddr c i) = 2 → slotReads s' (slotAddr c i) 3 5 0 0 ∧ s'.flagSet (.order c) = true) ∧
    (s.word (slotAddr c i) ≠ 2 → ∀ j, j < 64 →
      memRead s'.mem (slotAddr c i + j) = memRead s.mem (slotAddr c i + j))

theorem word_of_slot {i : Fin 2} (h : ∀ j, j < 64 → memRead s'.mem (slotAddr c i + j) = memRead s.mem (slotAddr c i + j)) :
    s'.word (slotAddr c i) = s.word (slotAddr c i) := memField_congr _ _ _ _ fun j hj => h j (by omega)

theorem loseSlot_lostOrKept {i : Fin 2} : lostOrKept c i s (loseSlot c i s) := by
  unfold loseSlot
  refine ⟨fun h => ?_, fun h => ?_⟩ <;> rw [State.word] at h
  · rw [if_pos h]
    refine ⟨?_, flagSet_raise_same⟩
    rw [raise_slotReads]
    exact writeSlot_reads (by decide) (by decide) (by decide) (by decide)
  · rw [if_neg h]
    exact fun _ _ => rfl

/-- A slot that a frame does not meet, before and after it is answered. -/
theorem lostOrKept.after {ps : List Part} {rs : List Bytes} {fs : List EventFlag} {t : State} {i : Fin 2}
    (h : lostOrKept c i s s') (f : Frame ps rs fs s' t) (k : Keeps s' t)
    (hr : ∀ r ∈ rs, r.1 + r.2 ≤ Config.memorySize ∧ (slotAddr c i + 64 ≤ r.1 ∨ r.1 + r.2 ≤ slotAddr c i)) :
    lostOrKept c i s t := by
  have hb := slotAddr_top c i
  refine ⟨fun hs => ⟨f.slotReads (fun r hm => ⟨(hr r hm).1, ?_⟩) (h.1 hs).1, k.flagSet (h.1 hs).2⟩, fun hs j hj => ?_⟩
  · have := (hr r hm).2; omega
  · rw [f.byte (by simp only [Config.memorySize]; omega) fun r hm => ⟨(hr r hm).1, by have := (hr r hm).2; omega⟩]
    exact h.2 hs j hj

theorem lostOrKept.before {u : State} {i : Fin 2} (h : lostOrKept c i u s')
    (hm : ∀ j, j < 64 → memRead u.mem (slotAddr c i + j) = memRead s.mem (slotAddr c i + j)) : lostOrKept c i s s' := by
  have hw := word_of_slot hm
  refine ⟨fun hs => h.1 (hw.trans hs), fun hs j hj => ?_⟩
  rw [h.2 (fun e => hs (hw.symm.trans e)) j hj, hm j hj]

/-- The other slot's answer lies outside a slot. -/
theorem answerBytes_outside {i j : Fin 2} (h : i ≠ j) : ∀ r ∈ answerBytes c j,
    r.1 + r.2 ≤ Config.memorySize ∧ (slotAddr c i + 64 ≤ r.1 ∨ r.1 + r.2 ≤ slotAddr c i) := by
  have hc := c.isLt
  have hne : i.val ≠ j.val := fun e => h (Fin.ext e)
  simp only [answerBytes, List.mem_cons, List.not_mem_nil, or_false, forall_eq_or_imp, forall_eq, slotAddr,
    Config.memorySize]
  omega

theorem Frame.loseSlot_answer {i : Fin 2} : Frame [.summary] (answerBytes c i) [.order c] s (Machine.loseSlot c i s) :=
  .ite (fun _ => .trans (.writeSlot fun _ => covered_of_mem) .raise) fun _ => .refl _

theorem Keeps.loseSlot {i : Fin 2} : Keeps s (Machine.loseSlot c i s) :=
  .ite (fun _ => Keeps.writeSlot.trans .raise) fun _ => .refl _

theorem status_outside_slots {i : Fin 2} : ∀ r ∈ [((statusAddr c, 8) : Bytes)],
    r.1 + r.2 ≤ Config.memorySize ∧ (slotAddr c i + 64 ≤ r.1 ∨ r.1 + r.2 ≤ slotAddr c i) := by
  have hs := statusAddr_bounds c
  have hb := slotAddr_top c i
  simp only [List.mem_cons, List.not_mem_nil, or_false, forall_eq, Config.memorySize]
  omega

/-- The slots of a chamber over its own start (R13). -/
theorem startChamber_lostOrKept {i : Fin 2} : lostOrKept c i s (startChamber c s) := by
  unfold startChamber
  extract_lets number s1 s2 s3
  have hf : Frame [.pump c, .econ c, .seq c] [(statusAddr c, 8)] [] s (showWord c .flags (showWord c .states s3)) :=
    .trans (b := s1) .setPump <| .trans (b := s2) .modEcon <| .trans (b := s3) .modSeq <|
      .trans .showWord .showWord
  generalize showWord c .flags (showWord c .states s3) = u at hf ⊢
  have hb := slotAddr_top c i
  have hm : ∀ j, j < 64 → memRead u.mem (slotAddr c i + j) = memRead s.mem (slotAddr c i + j) := fun j hj =>
    hf.byte (by simp only [Config.memorySize]; omega) fun r hr =>
      ⟨(status_outside_slots (i := i) r hr).1, by have := (status_outside_slots (i := i) r hr).2; omega⟩
  refine lostOrKept.before ?_ hm
  match i with
  | 0 => exact loseSlot_lostOrKept.after Frame.loseSlot_answer .loseSlot (answerBytes_outside (by decide))
  | 1 =>
    refine loseSlot_lostOrKept.before fun j hj => ?_
    have hb := slotAddr_top c 1
    exact Frame.loseSlot_answer.byte (by simp only [Config.memorySize]; omega) fun r hr =>
      ⟨(answerBytes_outside (i := 1) (by decide) r hr).1, by
        have := (answerBytes_outside (c := c) (i := 1) (by decide) r hr).2; omega⟩

/-- The slots and the fields of a chamber over the start of every chamber (R13, R124). -/
theorem startAll_chamber {i : Fin 2} :
    lostOrKept c i s (forChambers startChamber s) ∧
      ((forChambers startChamber s).econ c).mode = .active ∧ ((forChambers startChamber s).econ c).phase = .none ∧
      (forChambers startChamber s).seq c = { s.seq c with
        expected := 0, slots := Vector.replicate 2 .free, lastRequest := memField s.mem (controlAddr c + 2) 2 } := by
  have hb := slotAddr_top c i
  have hi := i.isLt
  have hc := controlAddr_bounds c
  have outside : ∀ d ≠ c, ∀ r ∈ [((statusAddr d, 8) : Bytes), slotBytes d],
      r.1 + r.2 ≤ Config.memorySize ∧ (slotAddr c i + 64 ≤ r.1 ∨ r.1 + r.2 ≤ slotAddr c i) := fun d hd =>
    startBytes_outside (.inr ⟨by simp only [slotAddr, Fin.val_zero]; omega, by simp only [slotAddr, Fin.val_zero]; omega, hd⟩)
  refine forChambers_at (P := fun u => (∀ j, j < 64 → memRead u.mem (slotAddr c i + j) = memRead s.mem (slotAddr c i + j)) ∧
      memField u.mem (controlAddr c + 2) 2 = memField s.mem (controlAddr c + 2) 2 ∧ u.seq c = s.seq c)
    (Q := fun u => lostOrKept c i s u ∧ (u.econ c).mode = .active ∧ (u.econ c).phase = .none ∧
      u.seq c = { s.seq c with
        expected := 0, slots := Vector.replicate 2 .free, lastRequest := memField s.mem (controlAddr c + 2) 2 }) c
    (fun d hd u hu => ?_) (fun u hu => ?_) (fun d hd u hu => ?_) ⟨fun _ _ => rfl, rfl, rfl⟩
  · obtain ⟨h1, h2, h3⟩ := hu
    refine ⟨fun j hj => ?_, ?_, ?_⟩
    · rw [Frame.startChamber.byte (by simp only [Config.memorySize]; omega) fun r hr =>
        ⟨(outside d hd r hr).1, by have := (outside d hd r hr).2; omega⟩]
      exact h1 j hj
    · rw [Frame.startChamber.field (by simp only [Config.memorySize]; omega) (startBytes_outside (c := c) (.inl (by omega)))]
      exact h2
    · rw [show (startChamber d u).seq c = u.seq c from Frame.startChamber.parts (.seq c) (by simp [Ne.symm hd])]
      exact h3
  · obtain ⟨h1, h2, h3⟩ := hu
    rw [startChamber_econ, startChamber_seq, h2, h3]
    exact ⟨startChamber_lostOrKept.before h1, rfl, rfl, rfl⟩
  · obtain ⟨h1, h2, h3, h4⟩ := hu
    rw [show (startChamber d u).econ c = u.econ c from Frame.startChamber.parts (.econ c) (by simp [Ne.symm hd]),
      show (startChamber d u).seq c = u.seq c from Frame.startChamber.parts (.seq c) (by simp [Ne.symm hd])]
    refine ⟨⟨fun hs => ?_, fun hs j hj => ?_⟩, h2, h3, h4⟩
    · refine ⟨Frame.startChamber.slotReads (fun r hr => ⟨(outside d hd r hr).1, ?_⟩) (h1.1 hs).1, ?_⟩
      · have := (outside d hd r hr).2; omega
      · exact Core.startChamber.flags _ (h1.1 hs).2
    · rw [Frame.startChamber.byte (by simp only [Config.memorySize]; omega) fun r hr =>
        ⟨(outside d hd r hr).1, by have := (outside d hd r hr).2; omega⟩]
      exact h1.2 hs j hj

end Sys2Proof.Machine
end

section
/-! The statements of R13 and R14: a successful apply from HALTED, and one in RUNNING. -/

namespace Sys2Proof.Machine

variable {s s' : State} {c : Chamber} {tab : Tables}

/-- The record of a result leaves every block. -/
theorem recordLayout_blocks {r : LayoutCode} {e : Nat} : changesOnly [.layoutResult, .summary] s (recordLayout r e s) :=
  Frame.recordLayout.parts

theorem startRunning_blocks : changesOnly [.partState] s (startRunning s) :=
  (Frame.startRunning (rs := []) (fs := []) (by simp)).parts

/-- The words that the record of a result writes (R10). -/
theorem recordLayout_words {r : LayoutCode} : (recordLayout r 0 s).word 0x0C = r.code ∧
    (recordLayout r 0 s).word 0x10 = s.port.part.code ∧
    (s.tables.partition < 4294967296 → (recordLayout r 0 s).word 0x14 = s.tables.partition) := by
  have hp := s.port.part.code_lt
  have h := fun (j : Nat) (hj : j < 3) => memField_memPutWords_inside s.mem (layoutAddr 0x0C)
    [pack8 r.code 0 0 0, s.port.part.code, s.tables.partition] j hj (by simp [Config.memorySize, layoutAddr])
  refine ⟨(recordLayout_word (e := 0) (by decide)).trans (by simp), ?_, fun ht => ?_⟩
  · exact (h 1 (by decide)).trans (Nat.mod_eq_of_lt (by simp only [List.getElem_cons_succ, List.getElem_cons_zero]; omega))
  · exact (h 2 (by decide)).trans (Nat.mod_eq_of_lt (by simpa using ht))

theorem flagSet_layout_recordLayout {r : LayoutCode} {e : Nat} : (recordLayout r e s).flagSet .layout = true := by
  rw [recordLayout]
  exact flagSet_raise_same

/-! ### In RUNNING (R14) -/

/-- An apply in RUNNING, once its tables are checked. -/
theorem exec_applyLayout_running {t : Moment} (hr : s.port.part = .running) (hq : quiet s = true)
    (hc : checkTables (readTables s.mem) = none) :
    exec (.applyLayout t) s = .next (applyWhileRunning (readTables s.mem) (s.setNow (max s.now t))) := by
  have hb : ¬ ((s.setNow (max s.now t)).port.part = .running ∧ quiet (s.setNow (max s.now t)) = false) := by
    rintro ⟨-, h⟩
    have h : quiet s = false := h
    simp [hq] at h
  have hc' : checkTables (readTables (s.setNow (max s.now t)).mem) = none := hc
  rw [exec_applyLayout, applyTables, if_neg hb]
  dsimp only
  rw [hc']
  exact congrArg _ (if_pos hr)

/-- An apply in RUNNING is none of the chambers' business but their pages'. -/
theorem runningParts_keeps : ∀ c : Chamber, .pump c ∉ runningParts ∧ .econ c ∉ runningParts ∧ .seq c ∉ runningParts ∧
    .rf c ∉ runningParts := by decide

theorem field_installTables {a n : Nat} (h : 0x200 ≤ a ∧ a + n ≤ 0xD00) :
    memField (installTables tab s).mem a n = memField s.mem a n := by
  refine (Frame.installTables (fs := [])).field (by simp only [Config.memorySize]; omega) ?_
  simp only [imageBytes, imageAddr, tableBytes, List.mem_cons, List.not_mem_nil, or_false, forall_eq_or_imp, forall_eq,
    Config.memorySize]
  omega

/-- Settles O12: the frame of the apply for what it keeps, and the installed tables and pages for what it renews. -/
theorem applyWhileRunningKeepsTheChambers : Obligations.ApplyWhileRunningKeepsTheChambers := by
  intro s t hr hq hc
  obtain ⟨h1, h2⟩ := checkTables_partition hc
  refine ⟨_, exec_applyLayout_running hr hq hc, ?_⟩
  set s0 := s.setNow (max s.now t) with hs0
  set tab := readTables s.mem with htab
  have hf : Frame runningParts (applyBytes tab.partition) applyFlags s0 (applyWhileRunning tab s0) :=
    .applyWhileRunning h1 h2
  have hpages : changesOnly pageParts (installTables tab s0) (forChambers fixPages (installTables tab s0)) :=
    fixAllPages_parts
  have hrec : changesOnly [.layoutResult, .summary] (forChambers fixPages (installTables tab s0)) (applyWhileRunning tab s0) :=
    recordLayout_blocks
  have same : ∀ p, p ∉ pageParts → p ≠ .layoutResult → p ≠ .summary →
      p.same (installTables tab s0) (applyWhileRunning tab s0) := fun p hp hl hs =>
    Part.same_trans (hpages p hp) (hrec p (by simp [hl, hs]))
  have hscan : (applyWhileRunning tab s0).scan = (installTables tab s0).scan :=
    same .scan (by simp [pageParts]) (by simp) (by simp)
  have hilk : ∀ k, (applyWhileRunning tab s0).ilk k = (installTables tab s0).ilk k := fun k =>
    same (.ilk k) (by simp [pageParts]) (by simp) (by simp)
  have harb : ∀ k, (applyWhileRunning tab s0).arb k = purgedArb tab.lines[k] s0.now := fun k =>
    (same (.arb k) (by simp [pageParts]) (by simp) (by simp)).trans installTables_arb
  have hpress : ∀ c, (applyWhileRunning tab s0).press c = (s.press c).applied := fun c =>
    (same (.press c) (by simp [pageParts]) (by simp) (by simp)).trans installTables_press
  have hnow : (applyWhileRunning tab s0).now = s0.now :=
    (same .now (by simp [pageParts]) (by simp) (by simp)).trans installTables_now
  have hrep : ∀ c, (applyWhileRunning tab s0).rep c = (forChambers fixPages (installTables tab s0)).rep c := fun c =>
    hrec (.rep c) (by simp)
  have hctl : ∀ c, memField (installTables tab s0).mem (controlAddr c + 4) 2 = memField s.mem (controlAddr c + 4) 2 :=
    fun c => field_installTables (by have := controlAddr_bounds c; omega)
  refine ⟨⟨?_, ?_, ?_, ?_⟩, applyWhileRunning_tables, ?_, fun k => ?_, fun k => ?_, fun c => ?_, fun k => ?_, ?_, ?_,
    fun a ha ho => ?_⟩
  · exact (hf.parts .partState (by decide)).trans hr
  · rw [applyWhileRunning, recordLayout_result]
  · rw [applyWhileRunning, recordLayout_entry]
  · exact flagSet_layout_recordLayout
  · rw [hscan]; exact installTables_scan
  · rw [hilk]
    refine ⟨installTables_ilk.1, installTables_ilk.2, ?_⟩
    rw [Keeps.installTables.core.trips]
    exact noTrips_of_quiet hq k
  · rw [harb, hnow, State.lineCfg, applyWhileRunning_tables]
    rfl
  · have ht : (installTables tab s0).tables = tab := installTables_tables
    obtain ⟨g1, g2, g3⟩ := fixAllPages_layout (s := installTables tab s0) (c := c) (by rw [ht]; exact h1)
      (by rw [ht]; exact h2)
    rw [hrep, hpress, applyWhileRunning_tables, g1, g3, ht, hctl, installTables_rep]
    rw [g1, ht, hctl] at g2
    obtain ⟨hpump, hecon, hseq, hrf⟩ := runningParts_keeps c
    exact ⟨hf.parts (.pump c) hpump, hf.parts (.econ c) hecon, hf.parts (.seq c) hseq, hf.parts (.rf c) hrf, rfl, rfl, g2,
      rfl⟩
  · exact hf.parts (.line k) (by revert k; decide)
  · exact hf.parts .waitQueue (by decide)
  · exact hf.parts .rough (by decide)
  · rw [applyWhileRunning_tables] at ho
    exact hf.bytes a ha (not_inBytes_of_hostOwned h2 ho)

/-! ### From HALTED (R13) -/

/-- An apply from HALTED, once its tables are checked. -/
theorem exec_applyLayout_halted {t : Moment} (hr : s.port.part = .halted) (hc : checkTables (readTables s.mem) = none) :
    exec (.applyLayout t) s = .next (applyFromHalted (readTables s.mem) (s.setNow (max s.now t))) := by
  have hp : (s.setNow (max s.now t)).port.part ≠ .running := by
    intro h
    have h : s.port.part = .running := h
    simp [hr] at h
  have hc' : checkTables (readTables (s.setNow (max s.now t)).mem) = none := hc
  rw [exec_applyLayout, applyTables, if_neg fun h => hp h.1]
  dsimp only
  rw [hc']
  exact congrArg _ (if_neg hp)

/-- An apply from HALTED is none of the RF Supervisors', the Flow Unit's, the queues' and the host's business. -/
theorem haltedParts_keeps : (∀ c : Chamber, .rf c ∉ haltedParts ∧ .gasInhibit c ∉ haltedParts) ∧
    (∀ k : LineId, .line k ∉ haltedParts) ∧ .waitQueue ∉ haltedParts ∧ .rough ∉ haltedParts ∧ .pins ∉ haltedParts ∧
    .enable ∉ haltedParts := by decide

/-- The slots of a chamber over the whole apply from HALTED (R13). -/
theorem applyFromHalted_lostOrKept {i : Fin 2} (h1 : 6 ≤ tab.partition) (h2 : tab.partition ≤ 26) :
    lostOrKept c i s (applyFromHalted tab s) := by
  have hb := slotAddr_top c i
  have hm : ∀ j, j < 64 →
      memRead (installTables tab s).mem (slotAddr c i + j) = memRead s.mem (slotAddr c i + j) := fun j hj => by
    refine (Frame.installTables (fs := [])).byte (by simp only [Config.memorySize]; omega) ?_
    simp only [imageBytes, imageAddr, tableBytes, List.mem_cons, List.not_mem_nil, or_false, forall_eq_or_imp, forall_eq,
      Config.memorySize]
    omega
  have hstart : lostOrKept c i s (forChambers startChamber (installTables tab s)) := startAll_chamber.1.before hm
  have ht : (forChambers startChamber (installTables tab s)).tables = tab := startAll_tables.trans installTables_tables
  unfold applyFromHalted
  generalize forChambers startChamber (installTables tab s) = u at hstart ht ⊢
  have hfix : lostOrKept c i s (forChambers fixPages u) :=
    hstart.after (Frame.fixAllPages h1 h2 ht) (.forChambers fun _ _ => .fixPages) fun r hr =>
      pagesBytes_outside h1 h2 (by omega) r hr
  generalize forChambers fixPages u = v at hfix ⊢
  refine ⟨fun hs => ⟨?_, ?_⟩, fun hs j hj => ?_⟩
  · refine Frame.recordLayout.slotReads ?_ (hfix.1 hs).1
    simp only [List.mem_cons, List.not_mem_nil, or_false, forall_eq, Config.memorySize]
    omega
  · rw [recordLayout, flagSet_raise]
    exact (Bool.or_eq_true _ _).mpr (.inr (hfix.1 hs).2)
  · rw [Frame.recordLayout.byte (by simp only [Config.memorySize]; omega) (by
      simp only [List.mem_cons, List.not_mem_nil, or_false, forall_eq, Config.memorySize]
      omega)]
    exact hfix.2 hs j hj

/-- Settles O11: the start of each chamber within the pass, the pages after it, and the frame of the whole for the rest. -/
theorem applyFromHaltedStartsThePart : Obligations.ApplyFromHaltedStartsThePart := by
  intro s t hr hc
  obtain ⟨h1, h2⟩ := checkTables_partition hc
  refine ⟨_, exec_applyLayout_halted hr hc, ?_⟩
  set s0 := s.setNow (max s.now t) with hs0
  set tab := readTables s.mem with htab
  have hf : Frame haltedParts (applyBytes tab.partition) applyFlags s0 (applyFromHalted tab s0) := .applyFromHalted h1 h2
  set u := forChambers startChamber (installTables tab s0) with hu
  have hut : u.tables = tab := startAll_tables.trans installTables_tables
  have hstart : changesOnly startParts (installTables tab s0) u := (Frame.startAll (n := 0)).parts
  have hpages : changesOnly pageParts u (forChambers fixPages u) := fixAllPages_parts
  have hrun : changesOnly [.partState] (forChambers fixPages u) (startRunning (forChambers fixPages u)) :=
    startRunning_blocks
  have hrec : changesOnly [.layoutResult, .summary] (startRunning (forChambers fixPages u)) (applyFromHalted tab s0) :=
    recordLayout_blocks
  have late : ∀ p, p ∉ pageParts → p ≠ .layoutResult → p ≠ .summary → p ≠ .partState →
      p.same u (applyFromHalted tab s0) := fun p hp hl hs hq =>
    Part.same_trans (hpages p hp) (Part.same_trans (hrun p (by simp [hq])) (hrec p (by simp [hl, hs])))
  have same : ∀ p, p ∉ pageParts → p ∉ startParts → p ≠ .layoutResult → p ≠ .summary → p ≠ .partState →
      p.same (installTables tab s0) (applyFromHalted tab s0) := fun p hp hst hl hs hq =>
    Part.same_trans (hstart p hst) (late p hp hl hs hq)
  have hscan : (applyFromHalted tab s0).scan = (installTables tab s0).scan :=
    same .scan (by simp [pageParts]) (by simp [startParts]) (by simp) (by simp) (by simp)
  have hilk : ∀ k, (applyFromHalted tab s0).ilk k = (installTables tab s0).ilk k := fun k =>
    same (.ilk k) (by simp [pageParts]) (by simp [startParts]) (by simp) (by simp) (by simp)
  have harb : ∀ k, (applyFromHalted tab s0).arb k = purgedArb tab.lines[k] s0.now := fun k =>
    (same (.arb k) (by simp [pageParts]) (by simp [startParts]) (by simp) (by simp) (by simp)).trans installTables_arb
  have hpress : ∀ c, (applyFromHalted tab s0).press c = (s.press c).applied := fun c =>
    (same (.press c) (by simp [pageParts]) (by simp [startParts]) (by simp) (by simp) (by simp)).trans installTables_press
  have hnow : (applyFromHalted tab s0).now = s0.now :=
    (same .now (by simp [pageParts]) (by simp [startParts]) (by simp) (by simp) (by simp)).trans installTables_now
  have hrep : ∀ c, (applyFromHalted tab s0).rep c = (forChambers fixPages u).rep c := fun c =>
    Part.same_trans (p := .rep c) (hrun (.rep c) (by simp)) (hrec (.rep c) (by simp))
  have hecon : ∀ c, (applyFromHalted tab s0).econ c = u.econ c := fun c =>
    late (.econ c) (by simp [pageParts]) (by simp) (by simp) (by simp)
  have hseq : ∀ c, (applyFromHalted tab s0).seq c = u.seq c := fun c =>
    late (.seq c) (by simp [pageParts]) (by simp) (by simp) (by simp)
  have hctl : ∀ c, memField u.mem (controlAddr c + 4) 2 = memField s.mem (controlAddr c + 4) 2 := by
    intro c
    have hb := controlAddr_bounds c
    have hstartBytes := (Frame.startAll (s := installTables tab s0) (n := 26)).field (a := controlAddr c + 4) (n := 2)
      (by simp only [Config.memorySize]; omega) (by
        simp only [applyBytes, imageBytes, imageAddr, tableBytes, List.mem_cons, List.not_mem_nil, or_false,
          forall_eq_or_imp, forall_eq, Config.memorySize]
        omega)
    rw [hstartBytes]
    exact field_installTables (by omega)
  have hslot : ∀ c i, lostOrKept c i s (applyFromHalted tab s0) := fun c i =>
    (applyFromHalted_lostOrKept h1 h2).before fun _ _ => rfl
  obtain ⟨hcham, hline, hwait, hrough, hpins, hen⟩ := haltedParts_keeps
  refine ⟨⟨applyFromHalted_part, ?_, ?_, ?_⟩, applyFromHalted_tables, ⟨?_, ?_, ?_⟩, ?_, fun k => ?_, fun k => ?_,
    fun c => ?_, fun c i hs => ?_, fun c i hs => ?_, fun c k => ?_, hf.parts .waitQueue hwait, hf.parts .rough hrough,
    hf.parts .pins hpins, hf.parts .enable hen, fun a ha ho => ?_⟩
  · rw [applyFromHalted, recordLayout_result]
  · rw [applyFromHalted, recordLayout_entry]
  · exact flagSet_layout_recordLayout
  · exact recordLayout_words.1
  · exact recordLayout_words.2.1
  · rw [applyFromHalted_tables]
    have ht : (startRunning (forChambers fixPages u)).tables = tab :=
      (Part.same_trans (p := .tables) (hpages .tables (by simp [pageParts])) (hrun .tables (by simp))).trans hut
    have h := (recordLayout_words (s := startRunning (forChambers fixPages u)) (r := .ok)).2.2
    rw [ht] at h
    exact h (by omega)
  · rw [hscan]; exact installTables_scan
  · rw [hilk]
    refine ⟨installTables_ilk.1, installTables_ilk.2, ?_⟩
    rw [Keeps.installTables.core.trips]
    rfl
  · rw [harb, hnow, State.lineCfg, applyFromHalted_tables]
    rfl
  · obtain ⟨g1, g2, -⟩ := fixAllPages_layout (s := u) (c := c) (by rw [hut]; exact h1) (by rw [hut]; exact h2)
    obtain ⟨-, e1, e2, e3⟩ := startAll_chamber (s := installTables tab s0) (c := c) (i := 0)
    rw [hut, hctl] at g1
    rw [hut] at g2
    rw [applyFromHalted_pump, hecon, hseq, hpress, hrep, applyFromHalted_tables, e3]
    refine ⟨rfl, e1, e2, rfl, rfl, ?_, rfl, rfl, rfl, g1, g2⟩
    exact field_installTables (by have := controlAddr_bounds c; omega)
  · exact (hslot c i).1 hs
  · exact (hslot c i).2 hs
  · exact ⟨hf.parts (.rf c) (hcham c).1, hf.parts (.gasInhibit c) (hcham c).2, hf.parts (.line k) (hline k)⟩
  · rw [applyFromHalted_tables] at ho
    exact hf.bytes a ha (not_inBytes_of_hostOwned h2 ho)

end Sys2Proof.Machine
end

section
/-! What an event of the Time Base answers, and the counts that it raises or lowers (R44, R53, R56, R65, R135). -/

namespace Sys2Proof.Machine

variable {s s' : State} {c : Chamber} {k : LineId} {t : Moment}

/-! ### Answers -/

/-- A command that is an event of a tap answers with the event's work at its moment. -/
theorem answers_atTap {i : Instr} {tap : Tap} {body : State → State} {P : State → Prop} (h : eventAt tap t s)
    (e : exec i s = atTap tap t s body) (p : P (body (s.setNow t))) : answers i s P :=
  ⟨_, e.trans (atTap_of_eventAt h body), p⟩

/-- A row of a condition that holds does its work. -/
theorem workIf_true {p : State → Bool} {f : State → State} (h : p s = true) : workIf p f s = f s := if_pos h
/-- A row of a condition that fails does nothing. -/
theorem workIf_false {p : State → Bool} {f : State → State} (h : p s = false) : workIf p f s = s := by simp [workIf, h]

/-- A frame without bytes keeps the memory. -/
theorem Frame.memory {ps : List Part} {fs : List EventFlag} (h : Frame ps [] fs s s') : keepsMemory s s' :=
  fun a ha => h.bytes a ha (by simp)

/-- A frame without bytes, as the statements name it. -/
theorem Frame.keeps {ps : List Part} {fs : List EventFlag} (h : Frame ps [] fs s s') :
    changesOnly ps s s' ∧ keepsMemory s s' := ⟨h.parts, h.memory⟩

/-- A frame's parts and bytes, as the statements name them. -/
theorem Frame.stores {ps : List Part} {rs : List Bytes} {fs : List EventFlag} (h : Frame ps rs fs s s') :
    changesOnly ps s s' ∧ storesOnly rs s s' := ⟨h.parts, h.bytes⟩

/-- An event that does nothing moves the Time Base only. -/
theorem setNow_keeps : changesOnly [.now] s (s.setNow t) ∧ keepsMemory s (s.setNow t) :=
  Frame.keeps (fs := []) .setNow

theorem eventAt.falls {tap : Tap} (h : eventAt tap t s) : tapFalls tap t = true := h.2.2

@[simp] theorem setNow_after {m : Moment} : (s.setNow t).after m = decide (m < t) := rfl

/-! ### RF-on time and elapsed time (R65, R135, R158) -/

theorem Rf.countsAt_iff {x : Rf} : x.countsAt t = true ↔
    (∃ e, x.onSince = some e ∧ e < t) ∨ ∃ e, x.lastOn = some (e, t) ∧ e < t := by
  unfold Rf.countsAt
  rw [Bool.or_eq_true]
  refine or_congr ?_ ?_
  · cases x.onSince <;> simp
  · cases h : x.lastOn with
    | none => simp
    | some p =>
      obtain ⟨e, d⟩ := p
      constructor
      · rintro h
        obtain ⟨h1, rfl⟩ := of_decide_eq_true h
        exact ⟨e, rfl, h1⟩
      · rintro ⟨e', h1, h2⟩
        obtain ⟨rfl, rfl⟩ := Prod.mk.inj (Option.some.inj h1)
        exact decide_eq_true ⟨h2, rfl⟩

theorem rfOnTick_counted (h : (s.rf c).countsAt s.now = true) (m : (s.rf c).countMark < s.now) :
    rfOnTick c s = (s.setRf c { s.rf c with stepRfOn := satSucc32 (s.rf c).stepRfOn, countMark := s.now }).modSeq c
      fun q => { q with rfTotal := satSucc32 q.rfTotal } := by
  simp [rfOnTick, h, State.after, m]

theorem rfOnTick_uncounted (h : s.now ≤ (s.rf c).countMark ∨ (s.rf c).countsAt s.now = false) : rfOnTick c s = s := by
  refine if_neg fun g => ?_
  obtain ⟨g1, g2⟩ := (Bool.and_eq_true _ _).mp g
  rcases h with h | h
  · exact absurd (of_decide_eq_true g2) (Nat.not_lt.mpr h)
  · exact absurd (h.symm.trans g1) (by decide)

/-- Settles O41: each count's tick, by whether the event counts. -/
theorem rfOnAndElapsedCountsRise : Obligations.RfOnAndElapsedCountsRise := by
  refine ⟨?_, ?_, ?_, ?_, ?_⟩
  · intro s t c h m hc
    refine answers_atTap h (body := rfOnTick c) rfl ?_
    rw [rfOnTick_counted (Rf.countsAt_iff.mpr hc) m]
    refine ⟨by simp [State.modSeq_eq, satSucc32], by simp [State.modSeq_eq, satSucc32], ?_⟩
    exact Frame.keeps (fs := []) (.trans .setNow (.trans .setRf .modSeq))
  · intro s t c h hc
    refine answers_atTap h (body := rfOnTick c) rfl ?_
    rw [rfOnTick_uncounted]
    · exact setNow_keeps
    · refine hc.imp id fun ⟨h1, h2⟩ => ?_
      rw [Bool.eq_false_iff, Ne, Rf.countsAt_iff]
      rintro (⟨e, g, l⟩ | ⟨e, g, l⟩)
      · exact absurd (h1 e g) (by simpa using l)
      · exact absurd (h2 e g) (by simpa using l)
  · intro s t c h hr m
    refine answers_atTap h (body := elapsedTick c) rfl ?_
    have e : elapsedTick c (s.setNow t) = (s.setNow t).setSeq c
        { s.seq c with elapsed := satSucc32 (s.seq c).elapsed, elapsedMark := t } := by
      simp [elapsedTick, hr, m]
    rw [e]
    exact ⟨by simp [satSucc32], Frame.keeps (fs := []) (.trans .setNow .setSeq)⟩
  · intro s t c h hr m
    refine answers_atTap h (body := elapsedTick c) rfl ?_
    have e : elapsedTick c (s.setNow t) = (s.setNow t).setSeq c
        { s.seq c with closeElapsed := satSucc32 (s.seq c).closeElapsed, closeElapsedMark := t } := by
      simp [elapsedTick, hr, m]
    rw [e]
    exact ⟨by simp [satSucc32], Frame.keeps (fs := []) (.trans .setNow .setSeq)⟩
  · intro s t c h h1 h2
    refine answers_atTap h (body := elapsedTick c) rfl ?_
    have e : elapsedTick c (s.setNow t) = s.setNow t := by
      unfold elapsedTick
      simp only [State.setNow_seq]
    rw [e]
    exact setNow_keeps

/-! ### The step timer (R44, R53) -/

theorem tapFalls_iff (n : Nat) : (tapFalls .t0 n = true ↔ 0 < n) ∧ (tapFalls .t1 n = true ↔ 0 < n ∧ n % 10 = 0) ∧
    (tapFalls .t2 n = true ↔ 0 < n ∧ n % 100 = 0) ∧ (tapFalls .t3 n = true ↔ 0 < n ∧ n % 1000 = 0) :=
  ⟨decide_eq_true_iff, decide_eq_true_iff, decide_eq_true_iff, decide_eq_true_iff⟩

theorem tapFalls_spec (t : Moment) : (tapFalls .t0 t = true ↔ 0 < t) ∧
    (tapFalls .t1 t = true ↔ tapFalls .t0 t = true ∧ 10 ∣ t) ∧
    (tapFalls .t2 t = true ↔ tapFalls .t1 t = true ∧ 100 ∣ t) ∧
    (tapFalls .t3 t = true ↔ tapFalls .t2 t = true ∧ 1000 ∣ t) := by
  obtain ⟨h0, h1, h2, h3⟩ := tapFalls_iff t
  refine ⟨h0, h1.trans ?_, h2.trans ?_, h3.trans ?_⟩
  · rw [h0, Nat.dvd_iff_mod_eq_zero]
  · rw [h1, Nat.dvd_iff_mod_eq_zero]; constructor <;> intro h <;> omega
  · rw [h2, Nat.dvd_iff_mod_eq_zero]; constructor <;> intro h <;> omega

/-- The state of the step timer one lower, shown. -/
def timerLower (c : Chamber) (s : State) : State :=
  showWord c .timer (s.modSeq c fun q => { q with timer := q.timer - 1, timerMark := s.now })

theorem timerTick_running (h : 1 < (s.seq c).timer) : timerTick c s = timerLower c s := by
  unfold timerTick timerLower
  refine if_neg ?_
  simp only [showWord_seq, State.modSeq_eq, State.setSeq_seq_same]
  omega

theorem timerTick_last (h : (s.seq c).timer ≤ 1) : timerTick c s = timerExpired c (timerLower c s) := by
  unfold timerTick timerLower
  refine if_pos ?_
  simp only [showWord_seq, State.modSeq_eq, State.setSeq_seq_same]
  omega

theorem timerLower_seq : (timerLower c s).seq c = { s.seq c with timer := (s.seq c).timer - 1, timerMark := s.now } := by
  simp [timerLower, State.modSeq_eq]

theorem field_pack16_low {m : Memory} {a v w : Nat} : memField (memPutWord m a (pack16 v w)) a 2 = v % 65536 := by
  rw [← Nat.add_zero a, memField_memPutWord_part (i := 0) (n := 2) (by decide)]
  simp only [pack16]; omega

theorem field_pack16_high {m : Memory} {a v w : Nat} : memField (memPutWord m a (pack16 v w)) (a + 2) 2 = w % 65536 := by
  rw [memField_memPutWord_part (i := 2) (n := 2) (by decide)]
  simp only [pack16]; omega

theorem timerLower_shown : memField (timerLower c s).mem (statusAddr c + 20) 2 = ((s.seq c).timer - 1) % 65536 := by
  have e : statusValue (s.modSeq c fun q => { q with timer := q.timer - 1, timerMark := s.now }) c .timer =
      pack16 ((s.seq c).timer - 1) (shownCount 16 (s.seq c).segNumber) := by
    simp [statusValue, State.modSeq_eq]
  unfold timerLower
  rw [showWord_mem_same, e]
  exact field_pack16_low

theorem Frame.timerLower {ps : List Part} {rs : List Bytes} {fs : List EventFlag} (hp : .seq c ∈ ps := by simp)
    (h : covered rs (statusAddr c + StatusWord.offset .timer, 4) := by simp [covered, statusBytes, StatusWord.offset]) :
    Frame ps rs fs s (Machine.timerLower c s) := (Frame.modSeq hp).trans (.showWord h)

theorem timerCounts_iff : timerCounts s c = true ↔ (s.seq c).run = .step ∧ 0 < (s.seq c).timer ∧
    (s.seq c).timerMark < s.now ∧ ∃ tap, (s.seq c).step.tap? = some tap ∧ tapFalls tap s.now = true := by
  unfold timerCounts State.after
  simp only [Bool.and_eq_true, decide_eq_true_eq]
  cases h : (s.seq c).step.tap? with
  | none => simp
  | some tap => simp [and_assoc]

/-- Settles O24: the moments of the taps, and the timer's tick by whether its own tap falls. -/
theorem stepTimerCountsItsOwnTap : Obligations.StepTimerCountsItsOwnTap := by
  refine ⟨tapFalls_spec, ?_, ?_⟩
  · intro s t c tap h hr htap hf hm ht
    refine answers_atTap h (body := workIf (fun s => timerCounts s c) (timerTick c)) rfl ?_
    have hc : timerCounts (s.setNow t) c = true := timerCounts_iff.mpr ⟨hr, Nat.lt_of_succ_lt ht, hm, tap, htap, hf⟩
    rw [workIf_true hc, timerTick_running (s := s.setNow t) ht]
    refine ⟨timerLower_seq, timerLower_shown, Frame.stores (fs := []) (.trans .setNow (.timerLower ?_ ?_))⟩
    · simp
    · simp [covered, StatusWord.offset]
  · intro s t c h hn
    refine answers_atTap h (body := workIf (fun s => timerCounts s c) (timerTick c)) rfl ?_
    rw [workIf_false]
    · exact setNow_keeps
    · rw [Bool.eq_false_iff, Ne, timerCounts_iff]
      rintro ⟨h1, -, h2, tap, h3, h4⟩
      rcases hn with hn | hn | hn
      · exact hn h1
      · exact absurd h2 (Nat.not_lt.mpr hn)
      · exact absurd ((hn tap h3).symm.trans h4) (by decide)

/-! ### Pulse edges and endpoint samples (R45, R53, R54, R56) -/

theorem exec_extEvent_running (h : s.port.part = .running) :
    exec (.extEvent t c) s = .next (pulseEdge c (s.setNow (max s.now t))) := if_pos h
theorem exec_extEvent_halted (h : s.port.part = .halted) : exec (.extEvent t c) s = .next s :=
  if_neg (by rw [h]; decide)

theorem pulseEdge_off (h : (s.seq c).run ≠ .step ∨ (s.seq c).step.onExt = false) : pulseEdge c s = s := by
  refine if_neg ?_
  rintro ⟨h1, h2⟩
  rcases h with h | h
  · exact h h1
  · exact absurd (h.symm.trans h2) (by decide)

theorem endpointArmed_iff {q : Seq} : endpointArmed q = true ↔
    q.run = .step ∧ q.step.exitsEndpoint = true ∧ q.timer ≤ q.step.duration - q.step.endpointMin := by
  simp [endpointArmed, and_assoc]

/-- Settles O23: the edge is a tick of the timer with the pulse timer reloaded, and an armed sample moves the count. -/
theorem pulseEdgesAndEndpointSamplesCount : Obligations.PulseEdgesAndEndpointSamplesCount := by
  refine ⟨⟨?_, ?_⟩, ?_, ?_⟩
  · intro s t c hp hr hx ht
    refine ⟨_, exec_extEvent_running hp, ?_⟩
    have e : pulseEdge c (s.setNow (max s.now t)) = timerLower c ((s.setNow (max s.now t)).modSeq c fun q =>
        { q with pulse := (s.chamberCfg c).pulseLossTime, pulseMark := max s.now t }) := by
      refine (if_pos ⟨hr, hx⟩).trans (timerTick_running ?_)
      simpa [State.modSeq_eq] using ht
    rw [e]
    refine ⟨by simp [timerLower_seq, State.modSeq_eq], ?_, ?_⟩
    · rw [timerLower_shown]; simp [State.modSeq_eq]
    · refine Frame.stores (fs := []) (.trans .setNow (.trans .modSeq (.timerLower ?_ ?_)))
      · simp
      · simp [covered, StatusWord.offset]
  · intro s t c h
    cases hp : s.port.part with
    | halted => exact ⟨_, exec_extEvent_halted hp, Frame.keeps (fs := []) (.refl s)⟩
    | running =>
      refine ⟨_, exec_extEvent_running hp, ?_⟩
      rw [pulseEdge_off]
      · exact setNow_keeps
      · exact h.resolve_left (by rw [hp]; decide)
  · intro s t c level h hr hx ht hm hn
    refine answers_atTap h (body := workIf (fun s => endpointArmed (s.seq c))
      fun s => endpointSampled c (endpointPin c level s)) rfl ?_
    have ha : endpointArmed (s.seq c) = true := endpointArmed_iff.mpr ⟨hr, hx, ht⟩
    rw [workIf_true (by exact ha)]
    have e : endpointSampled c (endpointPin c level (s.setNow t)) = (endpointPin c level (s.setNow t)).modSeq c fun q =>
        { q with endpointCount := if level then q.endpointCount + 1 else 0, endpointMark := t } := by
      unfold endpointSampled
      have pin : (endpointPin c level (s.setNow t)).pins.endpoint[c] = level := by simp [endpointPin]
      have seq : (endpointPin c level (s.setNow t)).seq c = s.seq c := rfl
      have after : (endpointPin c level (s.setNow t)).after (s.seq c).endpointMark = true := decide_eq_true hm
      simp only [seq, pin, ha, after, Bool.and_self, if_true, State.modSeq_eq]
      refine if_neg ?_
      rcases hn with rfl | hn
      · simp
      · split <;> omega
    rw [e]
    refine ⟨by simp [State.modSeq_eq, endpointPin], rfl, Frame.keeps (fs := []) ?_⟩
    exact .trans (.setNow (t := t)) (.trans (.setPins (s := s.setNow t)) .modSeq)
  · intro s t c level h hn
    refine answers_atTap h (body := workIf (fun s => endpointArmed (s.seq c))
      fun s => endpointSampled c (endpointPin c level s)) rfl ?_
    rw [workIf_false]
    · exact setNow_keeps
    · rw [Bool.eq_false_iff, Ne, endpointArmed_iff]
      rintro ⟨h1, h2, h3⟩
      rcases hn with hn | hn | hn
      · exact hn h1
      · exact absurd (hn.symm.trans h2) (by decide)
      · simp only [State.setNow_seq] at h3
        omega

end Sys2Proof.Machine
end

section
/-! The T1 events of a struck or striking plasma, of a pressure channel and of a line that begin no close-out
(R73 to R78, R101 to R103, R127 to R133). -/

namespace Sys2Proof.Machine

variable {s s' : State} {c : Chamber} {k : LineId} {t : Moment}

/-! ### The strike test (R127, R130) -/

theorem Rf.ramped_idle {x : Rf} {span : Nat} (h : x.ramp = none ∨ t ≤ x.rampMark) : x.ramped span t = x := by
  unfold Rf.ramped
  split
  · rfl
  · next r hr =>
    rw [hr] at h
    exact if_neg (Nat.not_lt.mpr (h.resolve_left (by simp)))

theorem Rf.ramped_step {x : Rf} {span : Nat} {r : Ramp} (h : x.ramp = some r) (m : x.rampMark < t) :
    x.ramped span t = { x with
      power := rampValue r.start r.stop (r.taken + 1) r.len
      ramp := if r.taken + 1 < r.len then some { r with taken := r.taken + 1 } else none
      output := rfCount (rampValue r.start r.stop (r.taken + 1) r.len) span } := by
  simp [Rf.ramped, h, m]

/-- A ramp step moves the power, the ramp and the output only. -/
theorem Rf.ramped_eq (x : Rf) (span : Nat) (t : Moment) : ∃ p r o, x.ramped span t = { x with power := p, ramp := r, output := o } := by
  unfold Rf.ramped
  split
  · exact ⟨x.power, x.ramp, x.output, rfl⟩
  · split
    · exact ⟨_, _, _, rfl⟩
    · exact ⟨x.power, x.ramp, x.output, rfl⟩

theorem strikeMet_iff {p : Nat} : strikeMet s c p = true ↔
    ∃ f r, s.freshAt (s.chamberCfg c).forward = some f ∧ s.freshAt (s.chamberCfg c).reflected = some r ∧
      p * (s.chamberCfg c).strikeRatio / 1000 ≤ f ∧ r ≤ (s.chamberCfg c).reflectedLimit := by
  unfold strikeMet
  simp only []
  cases s.freshAt (s.chamberCfg c).forward with
  | none => simp
  | some f =>
    cases s.freshAt (s.chamberCfg c).reflected with
    | none => simp
    | some r =>
      refine decide_eq_true_iff.trans ⟨fun h => ⟨f, r, rfl, rfl, h⟩, ?_⟩
      rintro ⟨_, _, e, g, h⟩
      cases e
      cases g
      exact h

/-- The work of a Supervisor in STRIKING: the ramp's step, and the test of what it gives. -/
theorem rfWork_striking {x : Rf} (hp : (s.rf c).phase = .striking) (hm : (s.rf c).mark < s.now)
    (hx : x = (s.rf c).ramped (s.chamberCfg c).rfSpan s.now) :
    rfWork c s = s.setRf c { x.tested (s.chamberCfg c) (strikeMet s c x.power) s.now with mark := s.now } := by
  subst hx
  simp [rfWork, hp, State.after, hm]

theorem rfWork_uncounted (hm : s.now ≤ (s.rf c).mark) : rfWork c s = s := by
  simp [rfWork, State.after, Nat.not_lt.mpr hm]

/-- In STRIKING, while the work leaves the phase on, the event is that work. -/
theorem strikeEvent_striking (hp : (s.rf c).phase = .striking) (h : ((rfWork c s).rf c).phase ≠ .off) :
    strikeEvent c s = rfWork c s := by
  simp [strikeEvent, hp, h]

theorem strikeEvent_idle (h : (s.rf c).phase = .off ∨ (s.rf c).phase = .struck ∨ s.now ≤ (s.rf c).mark) :
    strikeEvent c s = s := by
  unfold strikeEvent
  cases hp : (s.rf c).phase with
  | off => rfl
  | struck => rfl
  | retryPause =>
    rw [hp] at h
    exact rfWork_uncounted ((h.resolve_left (by simp)).resolve_left (by simp))
  | striking =>
    rw [hp] at h
    have hw := rfWork_uncounted ((h.resolve_left (by simp)).resolve_left (by simp))
    simp [hw, hp]

/-- Settles O38: the ramp's step, the test that is met, the test that is not, and an event that is not counted. -/
theorem strikeTestStrikesOrCountsTheWindow : Obligations.StrikeTestStrikesOrCountsTheWindow := by
  refine ⟨fun x span t => ⟨Rf.ramped_idle, fun r h m => Rf.ramped_step h m⟩, ?_, ?_⟩
  · intro s t c x h hp hm hx
    have hw := rfWork_striking (s := s.setNow t) hp hm hx
    obtain ⟨p, r, o, hr⟩ := (s.rf c).ramped_eq (s.chamberCfg c).rfSpan t
    have phase : x.phase = .striking ∧ x.window = (s.rf c).window := by rw [hx, hr]; exact ⟨hp, rfl⟩
    constructor
    · intro met
      refine answers_atTap h (body := strikeEvent c) rfl ?_
      have hmet : strikeMet (s.setNow t) c x.power = true := strikeMet_iff.mpr met
      rw [hmet] at hw
      rw [strikeEvent_striking (s := s.setNow t) hp (by rw [hw]; simp [Rf.tested]), hw]
      exact ⟨by simp [Rf.tested], by simp [State.rfEnable, Rf.tested], Frame.keeps (fs := []) (.trans .setNow .setRf)⟩
    · intro unmet window
      refine answers_atTap h (body := strikeEvent c) rfl ?_
      have hmet : strikeMet (s.setNow t) c x.power = false := by
        rw [Bool.eq_false_iff, Ne, strikeMet_iff]
        exact unmet
      have ht : x.tested (s.chamberCfg c) false t = { x with window := (s.rf c).window - 1 } := by
        simp [Rf.tested, phase.2, window]
      rw [hmet] at hw
      simp only [State.setNow_chamberCfg, State.setNow_now_same, ht] at hw
      rw [strikeEvent_striking (s := s.setNow t) hp (by rw [hw]; simp [phase.1]), hw]
      exact ⟨by simp, by simp [State.rfEnable, phase.1], Frame.keeps (fs := []) (.trans .setNow .setRf)⟩
  · intro s t c h hn
    refine answers_atTap h (body := strikeEvent c) rfl ?_
    rw [strikeEvent_idle (s := s.setNow t) hn]
    exact setNow_keeps

/-! ### Pressure evaluations (R100 to R103) -/

theorem pressureInBand_iff : pressureInBand s c = true ↔ s.staleAt (s.chamberCfg c).manometer = false ∧
    ((s.valueAt (s.chamberCfg c).manometer : Int) - (s.press c).target * 100).natAbs ≤
      pressureBand (s.press c).target (s.chamberCfg c) := by
  unfold pressureInBand State.freshAt
  simp only []
  cases h : s.staleAt (s.chamberCfg c).manometer with
  | true => simp
  | false => simp [absDiff_eq_natAbs]

theorem pressureWork_counted (h : (s.press c).evaluating = true) (hm : (s.press c).mark < s.now) :
    pressureWork c s = s.setPress c
      { ((s.press c).settled (s.chamberCfg c)).judged (s.chamberCfg c) (pressureInBand s c) with mark := s.now } := by
  simp [pressureWork, h, State.after, hm]

theorem pressureWork_idle (h : (s.press c).evaluating = false ∨ s.now ≤ (s.press c).mark) : pressureWork c s = s := by
  refine if_neg ?_
  rintro ⟨h1, h2⟩
  rcases h with h | h
  · exact absurd (h.symm.trans h1) (by decide)
  · exact Nat.not_lt.mpr h (of_decide_eq_true h2)

/-- The settle count's work in full (R101, R103). -/
theorem Press.settled_eq (p : Press) (cfg : ChamberCfg) : p.settled cfg = { p with
    settle := if p.armed then p.settle else p.settle - 1
    armed := p.armed || decide (p.settle = 1 ∧ cfg.pressureFaultTime ≠ 0) } := by
  unfold Press.settled
  cases ha : p.armed with
  | true => cases p; simp_all
  | false =>
    by_cases hs : 0 < p.settle
    · simp [hs]
    · have h0 : p.settle = 0 := Nat.eq_zero_of_not_pos hs
      cases p; simp_all

/-- An event at which the pressure does not become stable is the channel's work alone. -/
theorem pressureEvent_of_not_becomesStable (h : pressureBecomesStable s c = false) :
    pressureEvent c s = pressureWork c s := by simp [pressureEvent, h]

theorem pressureEvent_idle (h : (s.press c).evaluating = false ∨ s.now ≤ (s.press c).mark) : pressureEvent c s = s := by
  have hw := pressureWork_idle h
  rw [pressureEvent_of_not_becomesStable, hw]
  simp [pressureBecomesStable, hw]

/-- Settles O33: the settle count's work and the judgement by their equations, and the band by its definition. -/
theorem pressureEvaluationSettlesThenJudges : Obligations.PressureEvaluationSettlesThenJudges := by
  refine ⟨⟨?_, ?_⟩, fun _ _ => rfl, fun _ _ => pressureInBand_iff, ?_⟩
  · intro s t c i armed n h hi he hm hd harmed hn
    have hw := pressureWork_counted (s := s.setNow t) he hm
    have event : pressureEvent c (s.setNow t) = pressureWork c (s.setNow t) := by
      refine pressureEvent_of_not_becomesStable ?_
      simp only [pressureBecomesStable, hw, State.setPress_press_same]
      cases hb : pressureInBand (s.setNow t) c <;> simp [Press.settled_eq, Press.judged, hd]
    have arms : i = .pressureFaultArmed t c → pressureArms (s.setNow t) c = true := by
      rintro rfl
      obtain ⟨-, h1, h2, h3⟩ := hi.resolve_left (by simp)
      simp only [pressureArms, hw, State.setPress_press_same]
      cases hb : pressureInBand (s.setNow t) c <;> simp [Press.settled_eq, Press.judged, hd, h1, h2, h3]
    have key : exec i s = .next (pressureWork c (s.setNow t)) := by
      rw [← event]
      rcases hi with rfl | ⟨rfl, -⟩
      · exact atTap_of_eventAt h _
      · exact (atTap_of_eventAt h _).trans (congrArg _ (workIf_true (arms rfl)))
    refine ⟨_, key, ?_⟩
    have band : pressureInBand (s.setNow t) c = pressureInBand s c := rfl
    rw [hw, band]
    refine ⟨?_, Frame.keeps (fs := []) (.trans .setNow .setPress)⟩
    have hs := (s.press c).settled_eq (s.chamberCfg c)
    rw [← harmed] at hs
    rw [State.setPress_press_same, State.setNow_press, State.setNow_chamberCfg, hs, hn]
    cases hb : pressureInBand s c <;> simp [Press.judged, hd, he]
  · intro s t c h hn
    refine answers_atTap h (body := pressureEvent c) rfl ?_
    rw [pressureEvent_idle (s := s.setNow t) hn]
    exact setNow_keeps
  · intro s t c d h he hm hd hs ha
    refine answers_atTap h (body := pressureEvent c) rfl ?_
    rw [pressureEvent_of_not_becomesStable (by simp [pressureBecomesStable, hs]),
      pressureWork_counted (s := s.setNow t) he hm, State.setPress_press_same]
    show _ = pressureInBand (s.setNow t) c
    cases hb : pressureInBand (s.setNow t) c <;> simp [Press.settled_eq, Press.judged, hd, hs]

/-! ### Flow events (R73 to R77) -/

theorem lineWork_idle (h : (s.line k).openTo = none ∨ s.now ≤ (s.line k).mark) : lineWork k s = s := by
  unfold lineWork
  simp only []
  split
  · rfl
  · next c ho =>
    rw [ho] at h
    exact if_neg (by simpa [State.after] using h.resolve_left (by simp))

theorem lineEvent_idle (h : (s.line k).openTo = none ∨ s.now ≤ (s.line k).mark) : lineEvent k s = s := by
  have hw := lineWork_idle h
  unfold lineEvent
  split
  · rw [if_neg (by simp [lineBecomesStable, hw]), hw]
  · rfl

/-- A step of a ramp that runs on (R73). -/
theorem Line.ramped_running {l : Line} {cfg : LineCfg} {stepping : Bool} {r : Ramp} (h : l.ramp = some r)
    (hl : r.taken + 1 < r.len) : l.ramped cfg stepping = { l with
      setpoint := rampValue r.start r.stop (r.taken + 1) r.len
      ramp := some { r with taken := r.taken + 1 }
      command := commandCount (rampValue r.start r.stop (r.taken + 1) r.len) cfg
      clamped := l.clamped || (stepping && commandClamps (rampValue r.start r.stop (r.taken + 1) r.len) cfg) } := by
  simp [Line.ramped, h, hl]

/-- While the ramp runs on, a line's event is its ramp step (R73, R76). -/
theorem lineEvent_ramping {r : Ramp} (ho : (s.line k).openTo = some c) (hm : (s.line k).mark < s.now)
    (hr : (s.line k).ramp = some r) (hl : r.taken + 1 < r.len) : lineEvent k s = rampLine k c s := by
  have ramped : ((rampLine k c s).line k).ramp = some { r with taken := r.taken + 1 } := by
    simp [rampLine, Line.ramped, hr, hl]
  have hw : lineWork k s = rampLine k c s := by
    rw [lineWork_of_open ho hm]
    refine if_neg fun he => ?_
    obtain ⟨_, -, -, -, h, -⟩ := evaluated_iff.mp he
    rw [ramped] at h
    exact absurd h (by simp)
  rw [lineEvent_of_not_becomesStable ho, hw]
  simp [lineBecomesStable, hw, rampLine, Line.ramped, hr]

/-- A report that leaves an item of the step not stable ends nothing (R57). -/
theorem stableReport_of_unstable {m : LineId} (hn : (s.seq c).step.names m = true) (hs : (s.line m).stable = false) :
    stableReport c s = s := by
  obtain ⟨e, he, rfl⟩ : ∃ e ∈ (s.seq c).step.entries, e.1 = m := by simpa [StepRec.names] using hn
  refine if_neg fun h => ?_
  obtain ⟨-, h⟩ := (Bool.and_eq_true _ _).mp h
  obtain ⟨h, -⟩ := (Bool.and_eq_true _ _).mp h
  exact absurd ((List.all_eq_true.mp h e he).symm.trans hs) (by decide)

/-- An evaluation in band that brings the in-band count to the dwell (R77). -/
theorem lineWork_stabilizes {d : Nat} (he : evaluated s k = true) (hm : (s.line k).mark < s.now)
    (hd : (s.line k).dwell = some d) (hi : max d 1 ≤ (s.line k).inCount + 1) (hb : lineInBand s k = true) :
    lineWork k s = s.setLine k { s.line k with
      outCount := 0, inCount := min ((s.line k).inCount + 1) 255, stable := true, mark := s.now } := by
  rw [lineWork_of_evaluated he hm, hb]
  simp only [Line.judged, Line.marked, hd, if_true, decide_eq_true hi, Bool.or_true]

/-- Settles O31: the ramp step, the evaluation outside a STABLE step, the events without work, and the report of a line
beside which another item is not stable. -/
theorem flowEventRampsOrEvaluates : Obligations.FlowEventRampsOrEvaluates := by
  refine ⟨⟨?_, ?_, ?_⟩, ?_⟩
  · intro s t c k r h ho hm hr hl
    refine answers_atTap h (body := lineEvent k) rfl ?_
    rw [lineEvent_ramping (s := s.setNow t) ho hm hr hl]
    exact ⟨(State.setLine_line_same ..).trans (congrArg (Line.marked · t) (Line.ramped_running hr hl)),
      Frame.keeps (fs := []) (.trans .setNow .setLine)⟩
  · intro s t c k h ho hs hr hm hrun hn hd
    have he : evaluated (s.setNow t) k = true := evaluated_iff.mpr ⟨c, ho, hs, hrun, hr, hn⟩
    refine answers_atTap h (body := lineEvent k) rfl ?_
    rw [lineEvent_of_not_becomesStable (s := s.setNow t) ho (lineBecomesStable_of_dwell_none he hm hd),
      lineWork_of_evaluated he hm, lineInBand_setNow]
    refine ⟨?_, Frame.keeps (fs := []) (.trans .setNow .setLine)⟩
    rw [State.setLine_line_same]
    cases hb : lineInBand s k <;> simp [Line.judged, Line.marked, hd, ho]
  · intro s t k h hn
    refine answers_atTap h (body := lineEvent k) rfl ?_
    rw [lineEvent_idle (s := s.setNow t) hn]
    exact setNow_keeps
  · intro s t c k m d i h hi ho hs hr hm hrun hn hd hin hst hb hmk hnm hsm
    have he : evaluated (s.setNow t) k = true := evaluated_iff.mpr ⟨c, ho, hs, hrun, hr, hn⟩
    have hw := lineWork_stabilizes he hm hd hin hb
    have becomes : lineBecomesStable (s.setNow t) k = true := by
      rw [lineBecomesStable, hw]; simp [hst]
    have event : lineEvent k (s.setNow t) = lineWork k (s.setNow t) := by
      unfold lineEvent
      simp only [State.setNow_line, ho, becomes, if_true]
      rw [hw]
      exact stableReport_of_unstable (m := m) hnm ((congrArg Line.stable (State.setLine_line_ne _ _ _ _ hmk)).trans hsm)
    have key : exec i s = .next (lineWork k (s.setNow t)) := by
      rw [← event]
      rcases hi with rfl | rfl
      · exact (atTap_of_eventAt h _).trans (congrArg _ (workIf_true becomes))
      · exact atTap_of_eventAt h _
    refine ⟨_, key, ?_⟩
    rw [hw]
    exact ⟨by simp, Frame.keeps (fs := []) (.trans .setNow .setLine)⟩

end Sys2Proof.Machine
end

section
/-! The start of close-out (R30, R31, R40, R153, R154): what it leaves in the sequencer, the supervisor, the pressure
channel, the context record and the status block, and what it may change. -/

namespace Sys2Proof.Machine

variable {s s' s₀ : State} {c : Chamber} {k : LineId} {cause : Code} {item pos rem : Nat}

/-! ### Halves of a word -/

theorem memField_low (m : Memory) (a : Nat) : memField m a 2 = memField m a 4 % 65536 := by
  have h0 := (memRead m a).isLt
  have h1 := (memRead m (a + 1)).isLt
  simp only [memField]
  omega

theorem memField_high (m : Memory) (a : Nat) : memField m (a + 2) 2 = memField m a 4 / 65536 := by
  have h0 := (memRead m a).isLt
  have h1 := (memRead m (a + 1)).isLt
  have h2 := (memRead m (a + 2)).isLt
  have h3 := (memRead m (a + 3)).isLt
  simp only [memField, Nat.add_assoc, Nat.reduceAdd]
  omega

theorem pack16_mod {v w : Nat} : pack16 v w % 4294967296 % 65536 = v % 65536 := by simp only [pack16]; omega
theorem pack16_div {v w : Nat} : pack16 v w % 4294967296 / 65536 = w % 65536 := by simp only [pack16]; omega

theorem contextAddr_bounds (c : Chamber) : 0xC00 ≤ contextAddr c ∧ contextAddr c + 64 ≤ 0xD00 := by
  have := c.isLt; simp only [contextAddr]; omega

/-! ### The context record (R40) -/

theorem writeContext_word {j : Nat} (hj : j < 14 + 2) : ∃ v, (writeContext c cause pos rem s).word (contextAddr c + 4 * j) = v % 4294967296 ∧
    (j = 0 → v = (s.seq c).tag) ∧ (j = 2 → v = pack16 pos (s.seq c).loop.length) ∧ (j = 3 → v = pack16 rem cause.code) := by
  have hb := contextAddr_bounds c
  have len : ([(s.seq c).tag, pack16 (s.seq c).seg.first (s.seq c).seg.count, pack16 pos (s.seq c).loop.length,
      pack16 rem cause.code] ++ loopWords (s.seq c).loop ++ [(s.seq c).rfTotal, shownCount 32 (s.seq c).stepsRun] ++
        List.replicate 6 0).length = 16 := by simp [loopWords_length]
  refine ⟨_, memField_memPutWords_inside _ _ _ j (by rw [len]; exact hj) (by rw [len]; simp only [Config.memorySize]; omega), ?_⟩
  refine ⟨?_, ?_, ?_⟩ <;> rintro rfl <;> rfl

/-- The fields of a context record that the statements name. -/
theorem writeContext_reads :
    (writeContext c cause pos rem s).word (contextAddr c) = (s.seq c).tag % 4294967296 ∧
      memField (writeContext c cause pos rem s).mem (contextAddr c + 8) 2 = pos % 65536 ∧
      memField (writeContext c cause pos rem s).mem (contextAddr c + 10) 2 = (s.seq c).loop.length % 65536 ∧
      memField (writeContext c cause pos rem s).mem (contextAddr c + 12) 2 = rem % 65536 ∧
      memField (writeContext c cause pos rem s).mem (contextAddr c + 14) 2 = cause.code := by
  obtain ⟨v0, h0, e0, -⟩ := writeContext_word (s := s) (c := c) (cause := cause) (pos := pos) (rem := rem) (j := 0) (by decide)
  obtain ⟨v2, h2, -, e2, -⟩ := writeContext_word (s := s) (c := c) (cause := cause) (pos := pos) (rem := rem) (j := 2) (by decide)
  obtain ⟨v3, h3, -, -, e3⟩ := writeContext_word (s := s) (c := c) (cause := cause) (pos := pos) (rem := rem) (j := 3) (by decide)
  rw [e0 rfl] at h0
  rw [e2 rfl] at h2
  rw [e3 rfl] at h3
  refine ⟨h0, ?_, ?_, ?_, ?_⟩
  · rw [memField_low]; exact (congrArg (· % 65536) h2).trans pack16_mod
  · rw [show contextAddr c + 10 = contextAddr c + 8 + 2 from rfl, memField_high]
    exact (congrArg (· / 65536) h2).trans pack16_div
  · rw [memField_low]; exact (congrArg (· % 65536) h3).trans pack16_mod
  · rw [show contextAddr c + 14 = contextAddr c + 12 + 2 from rfl, memField_high]
    exact ((congrArg (· / 65536) h3).trans pack16_div).trans (Nat.mod_eq_of_lt cause.code_lt_65536)

theorem Frame.writeContext {ps : List Part} {rs : List Bytes} {fs : List EventFlag} (h : contextBytes c ∈ rs := by simp) :
    Frame ps rs fs s (Machine.writeContext c cause pos rem s) := by
  have hb := contextAddr_bounds c
  have hl : ∀ (a b c d e f : Nat) (l : List LoopEntry),
      4 * ([a, b, c, d] ++ loopWords l ++ [e, f] ++ List.replicate 6 0).length = 64 := by simp [loopWords_length]
  refine .putWords ⟨_, h, le_rfl, ?_⟩ ?_ <;> simp only [hl, contextBytes, Config.memorySize, le_refl]
  omega

/-! ### The latch -/

theorem clearLatch_seq : (clearLatch c s).seq c = { s.seq c with latch := false } := by
  unfold clearLatch
  split
  · simp [State.modSeq_eq]
  · next h =>
    rw [Bool.not_eq_true] at h
    rw [← h]

theorem Frame.clearLatch {ps : List Part} {rs : List Bytes} {fs : List EventFlag} (hp : .seq c ∈ ps := by simp)
    (h : covered rs (statusAddr c + 4, 4) := by simp [covered, statusBytes]) :
    Frame ps rs fs s (Machine.clearLatch c s) :=
  .ite (fun _ => .trans (.modSeq hp) (.showWord h)) fun _ => .refl _

/-! ### The start of close-out -/

/-- The sequencer's own change at the start of close-out. -/
def Seq.closing (q : Seq) (cause : Code) (item : Nat) (r : Restriction) (now : Moment) : Seq :=
  { q with
    outcome := cause, item := item, latch := false, run := .closing, stage := .rfOff, restriction := r, stageMark := now
    closeElapsed := 0, closeElapsedMark := now, closeClamped := false, pumpOutIncomplete := false }

/-- The outcome fixed, the context written and the latch cleared (R31, R40). -/
def closePrep (c : Chamber) (cause : Code) (item pos rem : Nat) (s : State) : State :=
  clearLatch c (writeContext c cause pos rem (s.modSeq c fun q => { q with outcome := cause, item := item }))

/-- The stage RF_OFF entered: the run CLOSING, RF off and the pressure no longer judged (R128, R153, R154). -/
def closeTail (c : Chamber) (s : State) : State :=
  stopPressure c (rfOff c (setRun c .closing (s.modSeq c fun q =>
    { q with
      stage := .rfOff, restriction := restrictionNow s c, stageMark := s.now, closeElapsed := 0, closeElapsedMark := s.now
      closeClamped := false, pumpOutIncomplete := false })))

/-- The start of close-out of a chamber that waits for no shared line, the fault's notice apart. -/
def closeStart (c : Chamber) (cause : Code) (item pos rem : Nat) (s : State) : State :=
  closeTail c (closePrep c cause item pos rem s)

/-- The notice of a run fault: FAULT and a FAULT entry (R31). -/
def faultNotice (c : Chamber) (cause : Code) (s : State) : State :=
  if cause.reportsFault then produce c { kind := .fault, fault := cause.code } (raise (.fault c) s) else s

theorem leaveQueue_self (h : notWaiting s c) : leaveQueue c s = s := by
  refine if_neg fun g => ?_
  obtain ⟨w, hw, e⟩ := List.any_eq_true.mp g
  exact h w hw (beq_iff_eq.mp e)

/-- The trips' demands depend on the trips and the applied copies only. -/
theorem restrictionNow_congr (ht : s'.tables = s.tables) (hk : ∀ k, s'.ilk k = s.ilk k) :
    restrictionNow s' c = restrictionNow s c := by
  have : ∀ n, tripped s' c n = tripped s c n := fun n => by
    simp only [tripped, hk, State.ilkCfg_of_tables ht]
  simp only [restrictionNow, this]

theorem Frame.closePrep {fs : List EventFlag} :
    Frame [.seq c] [(statusAddr c + 4, 4), contextBytes c] fs s (Machine.closePrep c cause item pos rem s) := by
  unfold Machine.closePrep
  exact .trans .modSeq (.trans .writeContext (.clearLatch (by simp) (by simp [covered])))

section prep
theorem closePrep_parts : changesOnly [.seq c] s (closePrep c cause item pos rem s) := (Frame.closePrep (fs := [])).parts
@[simp] theorem closePrep_now : (closePrep c cause item pos rem s).now = s.now := closePrep_parts .now (by simp)
@[simp] theorem closePrep_rf : (closePrep c cause item pos rem s).rf c = s.rf c := closePrep_parts (.rf c) (by simp)
@[simp] theorem closePrep_press : (closePrep c cause item pos rem s).press c = s.press c :=
  closePrep_parts (.press c) (by simp)
@[simp] theorem closePrep_waitQueue : (closePrep c cause item pos rem s).waitQueue = s.waitQueue :=
  closePrep_parts .waitQueue (by simp)
theorem closePrep_restriction : restrictionNow (closePrep c cause item pos rem s) c = restrictionNow s c :=
  restrictionNow_congr (closePrep_parts .tables (by simp)) fun k => closePrep_parts (.ilk k) (by simp)
theorem closePrep_seq : (closePrep c cause item pos rem s).seq c =
    { s.seq c with outcome := cause, item := item, latch := false } := by
  rw [closePrep, clearLatch_seq, writeContext]
  simp [State.modSeq_eq]
end prep

theorem closeBegin_eq (h : notWaiting s c) :
    closeBegin c cause item pos rem s = faultNotice c cause (closeStart c cause item pos rem s) := by
  have hq : leaveQueue c (closePrep c cause item pos rem s) = closePrep c cause item pos rem s :=
    leaveQueue_self (by simpa only [notWaiting, closePrep_waitQueue] using h)
  have e : closeBegin c cause item pos rem s =
      faultNotice c cause (closeTail c (leaveQueue c (closePrep c cause item pos rem s))) := rfl
  rw [e, hq, closeStart]

theorem Frame.closeTail {fs : List EventFlag} :
    Frame [.seq c, .rf c, .press c] [(statusAddr c, 4)] fs s (Machine.closeTail c s) := by
  unfold Machine.closeTail
  exact .trans .modSeq <| .trans (.setRun (by simp) (by simp [covered, StatusWord.offset])) <| .trans .modRf .modPress

theorem Frame.closeStart {fs : List EventFlag} : Frame [.seq c, .rf c, .press c] [(statusAddr c, 8), contextBytes c] fs s
    (Machine.closeStart c cause item pos rem s) := by
  refine .trans ((Frame.closePrep (fs := fs)).mono ?_ ?_) ((Frame.closeTail (fs := fs)).mono ?_ ?_)
  · simp
  · simp [covered, contextBytes]
  · simp
  · simp [covered, contextBytes]

theorem closeStart_seq : (closeStart c cause item pos rem s).seq c =
    (s.seq c).closing cause item (restrictionNow s c) s.now := by
  simp [closeStart, closeTail, stopPressure, rfOff, setRun, State.modSeq_eq, State.modRf_eq, State.modPress_eq,
    closePrep_seq, closePrep_restriction, Seq.closing]

theorem closeStart_rf : (closeStart c cause item pos rem s).rf c = (s.rf c).released .off s.now := by
  simp [closeStart, closeTail, stopPressure, rfOff, setRun, State.modSeq_eq, State.modRf_eq, State.modPress_eq]

theorem closeStart_press : (closeStart c cause item pos rem s).press c = { s.press c with evaluating := false } := by
  simp [closeStart, closeTail, stopPressure, rfOff, setRun, State.modSeq_eq, State.modRf_eq, State.modPress_eq]

theorem pack8_low {a b d e : Nat} : pack8 a b d e / 256 ^ 0 % 256 ^ 1 = a % 256 := by
  simp only [pack8]; omega

/-- The run state that a status word shows. -/
theorem setRun_shown {r : RunState} : memField (setRun c r s).mem (statusAddr c) 1 = r.code := by
  have h := field_showWord (c := c) (w := .states) (s := s.modSeq c fun q => { q with run := r }) (i := 0) (n := 1) (by decide)
  rw [show statusAddr c + StatusWord.states.offset + 0 = statusAddr c from rfl] at h
  rw [setRun, h, statusValue, pack8_low]
  simp only [State.modSeq_eq, State.setSeq_seq_same]
  exact Nat.mod_eq_of_lt (by cases r <;> decide)

theorem closeStart_shown : memField (closeStart c cause item pos rem s).mem (statusAddr c) 1 = RunState.closing.code := by
  simp only [closeStart, closeTail, stopPressure, rfOff, State.modRf_eq, State.modPress_eq, State.setPress_mem,
    State.setRf_mem, setRun_shown]

/-- The context record after the start of close-out. -/
theorem closeStart_context :
    (closeStart c cause item pos rem s).word (contextAddr c) = (s.seq c).tag % 4294967296 ∧
      memField (closeStart c cause item pos rem s).mem (contextAddr c + 8) 2 = pos % 65536 ∧
      memField (closeStart c cause item pos rem s).mem (contextAddr c + 10) 2 = (s.seq c).loop.length % 65536 ∧
      memField (closeStart c cause item pos rem s).mem (contextAddr c + 12) 2 = rem % 65536 ∧
      memField (closeStart c cause item pos rem s).mem (contextAddr c + 14) 2 = cause.code := by
  have hb := contextAddr_bounds c
  have hs := statusAddr_bounds c
  have after : Frame [.seq c, .rf c, .press c] [statusBytes c] []
      (writeContext c cause pos rem (s.modSeq c fun q => { q with outcome := cause, item := item }))
      (closeStart c cause item pos rem s) := by
    exact .trans (.clearLatch (s := writeContext c cause pos rem _))
      ((Frame.closeTail (fs := [])).mono (by simp) (by simp [covered, statusBytes]))
  have field : ∀ j n, j + n ≤ 64 → memField (closeStart c cause item pos rem s).mem (contextAddr c + j) n =
      memField (writeContext c cause pos rem (s.modSeq c fun q => { q with outcome := cause, item := item })).mem
        (contextAddr c + j) n := fun j n hj => by
    refine after.field (by simp only [Config.memorySize]; omega) fun r hr => ?_
    obtain rfl : r = statusBytes c := by simpa using hr
    simp only [statusBytes, Config.memorySize]
    omega
  obtain ⟨h0, h1, h2, h3, h4⟩ := writeContext_reads (c := c) (cause := cause) (pos := pos) (rem := rem)
    (s := s.modSeq c fun q => { q with outcome := cause, item := item })
  simp only [State.modSeq_eq, State.setSeq_seq_same] at h0 h1 h2 h3 h4 field
  refine ⟨(field 0 4 (by decide)).trans h0, (field 8 2 (by decide)).trans h1, (field 10 2 (by decide)).trans h2,
    (field 12 2 (by decide)).trans h3, (field 14 2 (by decide)).trans h4⟩

/-! ### The notice of a fault -/

/-- The bytes of a chamber's report entries under a partition number. -/
def noticeBytes (n : Nat) (c : Chamber) : List Bytes := [pageBytes c, reportBytes n c]

theorem Frame.produce_notice {e : Entry} (h : PagesFit s) :
    Frame [.rep c, .summary] (noticeBytes s.tables.partition c) [.report c] s (Machine.produce c e s) :=
  .produce (covered_of_mem (by simp [noticeBytes])) (h.entryArea (covered_of_mem (by simp [noticeBytes])))

/-- A field of the status block before the report words, or of the context record, that an entry leaves. -/
theorem noticeBytes_apart {n a j : Nat} (hn : 6 ≤ n ∧ n ≤ 26)
    (h : a + j ≤ statusAddr c + 28 ∨ (statusAddr c + 60 ≤ a ∧ a + j ≤ 0x2000)) :
    ∀ r ∈ noticeBytes n c, r.1 + r.2 ≤ Config.memorySize ∧ (a + j ≤ r.1 ∨ r.1 + r.2 ≤ a) := by
  have hr := reportAddr_bounds (c := c) (n := n) (by omega)
  have hs := statusAddr_bounds c
  simp only [noticeBytes, List.mem_cons, List.not_mem_nil, or_false, forall_eq_or_imp, forall_eq, pageBytes, reportBytes,
    Config.memorySize] at *
  omega

theorem faultNotice_off (h : cause.reportsFault = false) : faultNotice c cause s = s := by simp [faultNotice, h]
theorem faultNotice_on (h : cause.reportsFault = true) :
    faultNotice c cause s = produce c { kind := .fault, fault := cause.code } (raise (.fault c) s) := by
  simp [faultNotice, h]

theorem Frame.faultNotice (h : PagesFit s) :
    Frame [.rep c, .summary] (noticeBytes s.tables.partition c) [.fault c, .report c] s (Machine.faultNotice c cause s) := by
  refine .ite (fun _ => ?_) fun _ => .refl _
  have produced : Frame [.rep c, .summary] (noticeBytes s.tables.partition c) [.report c] (Machine.raise (.fault c) s)
      (Machine.produce c { kind := .fault, fault := cause.code } (Machine.raise (.fault c) s)) :=
    Frame.produce_notice (s := Machine.raise (.fault c) s) h
  exact .trans .raise (produced.mono (by simp) (fun _ hr => covered_of_mem hr))

theorem faultNotice_next : ((faultNotice c cause s).rep c).next =
    if cause.reportsFault then ((s.rep c).next + 1) % 65536 else (s.rep c).next := by
  unfold faultNotice
  split <;> simp

theorem faultNotice_flag (h : cause.reportsFault = true) : (faultNotice c cause s).flagSet (.fault c) = true := by
  rw [faultNotice_on h]
  exact Keeps.produce.flagSet flagSet_raise_same

end Sys2Proof.Machine
end

section
/-! A run fault's close-out (R30, R79, R104, R134): what it takes over of the state before it, the faults of the same
event that it makes due, and the frame of both. -/

namespace Sys2Proof.Machine

variable {s s' s₀ s₁ : State} {c : Chamber} {k : LineId} {cause : Code} {item pos rem : Nat}

/-! ### What close-out takes over -/

/-- What close-out takes over of the state before it is the same in two states. -/
structure StartsFrom (c : Chamber) (s₀ s : State) : Prop where
  restriction : restrictionNow s c = restrictionNow s₀ c
  tag : (s.seq c).tag = (s₀.seq c).tag
  depth : (s.seq c).loop.length = (s₀.seq c).loop.length
  target : (s.press c).target = (s₀.press c).target
  output : (s.press c).output = (s₀.press c).output
  throttle : (s.press c).throttleOpen = (s₀.press c).throttleOpen
  fault : s.flagSet (.fault c) = s₀.flagSet (.fault c)

theorem StartsFrom.trans (h : StartsFrom c s₀ s) (g : StartsFrom c s s') : StartsFrom c s₀ s' :=
  ⟨g.restriction.trans h.restriction, g.tag.trans h.tag, g.depth.trans h.depth, g.target.trans h.target,
    g.output.trans h.output, g.throttle.trans h.throttle, g.fault.trans h.fault⟩

/-- A change that leaves the trips, the applied copies, the chamber's pressure and FAULT. -/
theorem StartsFrom.of_frame {ps : List Part} {rs : List Bytes} {fs : List EventFlag} (h : Frame ps rs fs s s')
    (tag : (s'.seq c).tag = (s.seq c).tag) (depth : (s'.seq c).loop = (s.seq c).loop)
    (hp : Part.tables ∉ ps ∧ Part.press c ∉ ps ∧ ∀ k, Part.ilk k ∉ ps) (hf : .fault c ∉ fs := by simp) :
    StartsFrom c s s' := by
  have press : s'.press c = s.press c := h.parts _ hp.2.1
  exact ⟨restrictionNow_congr (h.parts _ hp.1) fun k => h.parts _ (hp.2.2 k), tag, congrArg _ depth,
    congrArg _ press, congrArg _ press, congrArg _ press, h.flags _ hf⟩

theorem pagesFit_congr (ht : s'.tables = s.tables) (hr : ∀ d, s'.rep d = s.rep d) (h : PagesFit s) : PagesFit s' := by
  simpa only [PagesFit, ht, hr] using h

/-- What the start of close-out leaves. -/
theorem closeBegin_closesOut (hs : StartsFrom c s₀ s) (hw : notWaiting s c)
    (hp : cause.reportsFault = true → PagesFit s) :
    ClosesOut c cause item pos rem s₀ (closeBegin c cause item pos rem s) := by
  rw [closeBegin_eq hw]
  have hb := contextAddr_bounds c
  have hst := statusAddr_bounds c
  obtain ⟨x0, x1, x2, x3, x4⟩ := closeStart_context (s := s) (c := c) (cause := cause) (item := item) (pos := pos) (rem := rem)
  have seq : (faultNotice c cause (closeStart c cause item pos rem s)).seq c =
      (s.seq c).closing cause item (restrictionNow s c) s.now := by
    rw [← closeStart_seq (pos := pos) (rem := rem)]
    unfold faultNotice
    split <;> simp
  have rf : (faultNotice c cause (closeStart c cause item pos rem s)).rf c = (s.rf c).released .off s.now := by
    rw [← closeStart_rf (pos := pos) (rem := rem) (cause := cause) (item := item)]
    unfold faultNotice
    split <;> simp
  have press : (faultNotice c cause (closeStart c cause item pos rem s)).press c = { s.press c with evaluating := false } := by
    rw [← closeStart_press (pos := pos) (rem := rem) (cause := cause) (item := item)]
    unfold faultNotice
    split <;> simp
  have parts := (Frame.closeStart (c := c) (cause := cause) (item := item) (pos := pos) (rem := rem) (s := s) (fs := [])).parts
  have field : ∀ a n, a + n ≤ statusAddr c + 28 ∨ (statusAddr c + 60 ≤ a ∧ a + n ≤ 0x2000) →
      memField (faultNotice c cause (closeStart c cause item pos rem s)).mem a n =
        memField (closeStart c cause item pos rem s).mem a n := fun a n ha => by
    cases hc : cause.reportsFault with
    | false => rw [faultNotice_off hc]
    | true =>
      have fit : PagesFit (closeStart c cause item pos rem s) :=
        pagesFit_congr (parts .tables (by simp)) (fun d => parts (.rep d) (by simp)) (hp hc)
      exact (Frame.faultNotice fit).field (by simp only [Config.memorySize]; omega)
        (noticeBytes_apart ⟨fit.1, fit.2.1⟩ ha)
  refine ⟨?_, ?_, ?_, ?_, ?_, ?_, ?_, ?_, ?_, ?_, ?_, ?_⟩
  · rw [seq]; rfl
  · rw [seq]; rfl
  · rw [seq]; rfl
  · rw [seq]; rfl
  · rw [seq]; rfl
  · rw [seq]; exact hs.restriction
  · exact (field _ _ (.inl (by omega))).trans closeStart_shown
  · rw [rf]; exact ⟨rfl, rfl, rfl, rfl⟩
  · rw [press]; exact ⟨rfl, hs.target, hs.output, hs.throttle⟩
  · rw [← hs.tag, ← hs.depth]
    exact ⟨(field _ 4 (.inr (by omega))).trans x0, (field _ 2 (.inr (by omega))).trans x1,
      (field _ 2 (.inr (by omega))).trans x2, (field _ 2 (.inr (by omega))).trans x3,
      (field _ 2 (.inr (by omega))).trans x4⟩
  · exact faultNotice_flag
  · intro hc
    rw [faultNotice_off hc, ← hs.fault]
    exact (Frame.closeStart (fs := [])).flags _ (by simp)

theorem closeBegin_next (hw : notWaiting s c) : ((closeBegin c cause item pos rem s).rep c).next =
    if cause.reportsFault then ((s.rep c).next + 1) % 65536 else (s.rep c).next := by
  have h : (closeStart c cause item pos rem s).rep c = s.rep c := (Frame.closeStart (fs := [])).parts (.rep c) (by simp)
  rw [closeBegin_eq hw, faultNotice_next, h]

theorem closeBytes_context (s : State) (c : Chamber) : covered (closeBytes s c) (contextBytes c) :=
  covered_of_mem (by simp [closeBytes])
theorem closeBytes_status {a n : Nat} (h1 : statusAddr c ≤ a) (h2 : a + n ≤ statusAddr c + 128) :
    covered (closeBytes s c) (a, n) := ⟨statusBytes c, by simp [closeBytes], h1, h2⟩
theorem closeBytes_report (s : State) (c : Chamber) : covered (closeBytes s c) (reportBytes s.tables.partition c) :=
  covered_of_mem (by simp [closeBytes])

theorem noticeBytes_closeBytes : ∀ r ∈ noticeBytes s.tables.partition c, covered (closeBytes s c) r := by
  simp only [noticeBytes, List.mem_cons, List.not_mem_nil, or_false, forall_eq_or_imp, forall_eq]
  exact ⟨closeBytes_status (by simp) (by simp), closeBytes_report s c⟩

/-- What the start of close-out may change. -/
theorem Frame.closeBegin (hw : notWaiting s c) (hp : PagesFit s) :
    Frame [.summary, .seq c, .rf c, .press c, .rep c] (closeBytes s c) [.fault c, .report c] s
      (Machine.closeBegin c cause item pos rem s) := by
  rw [closeBegin_eq hw]
  have start := Frame.closeStart (c := c) (cause := cause) (item := item) (pos := pos) (rem := rem) (s := s) (fs := [])
  have fit : PagesFit (Machine.closeStart c cause item pos rem s) :=
    pagesFit_congr (start.parts .tables (by simp)) (fun d => start.parts (.rep d) (by simp)) hp
  have notice := Frame.faultNotice (c := c) (cause := cause) fit
  have ht : (Machine.closeStart c cause item pos rem s).tables = s.tables := start.parts .tables (by simp)
  rw [ht] at notice
  refine .trans (start.mono (by simp) ?_) (notice.mono (by simp) noticeBytes_closeBytes)
  simp only [List.mem_cons, List.not_mem_nil, or_false, forall_eq_or_imp, forall_eq]
  exact ⟨closeBytes_status le_rfl (by simp), closeBytes_context s c⟩

/-- A close-out that reports no fault writes no entry. -/
theorem Frame.closeBegin_quiet {fs : List EventFlag} (hw : notWaiting s c) (hc : cause.reportsFault = false) :
    Frame [.seq c, .rf c, .press c] [(statusAddr c, 8), contextBytes c] fs s (Machine.closeBegin c cause item pos rem s) := by
  rw [closeBegin_eq hw, faultNotice_off hc]
  exact .closeStart

/-! ### The faults that the same event reaches (log 14) -/

/-- What a line's T1 event does to the line depends on the line, the moment, the steps that run, the applied copies and
the scanner only. -/
theorem lineWork_congr (hl : s'.line k = s.line k) (hn : s'.now = s.now) (ht : s'.tables = s.tables)
    (hs : s'.scan = s.scan) (hc : ∀ j, s'.chan j = s.chan j)
    (hq : ∀ d, (s'.seq d).run = (s.seq d).run ∧ (s'.seq d).step = (s.seq d).step) :
    (lineWork k s').line k = (lineWork k s).line k := by
  cases ho : (s.line k).openTo with
  | none => rw [lineWork_idle (.inl ho), lineWork_idle (.inl (hl ▸ ho)), hl]
  | some c =>
    by_cases hm : (s.line k).mark < s.now
    · have cfg : s'.lineCfg k = s.lineCfg k := by simp only [State.lineCfg, ht]
      have hrl : (rampLine k c s').line k = (rampLine k c s).line k := by
        simp only [rampLine, State.setLine_line_same, hl, cfg, (hq c).1, hn]
      have he : evaluated (rampLine k c s') k = evaluated (rampLine k c s) k := by
        have hs' : ∀ d, (rampLine k c s').seq d = s'.seq d := fun _ => rfl
        have hs : ∀ d, (rampLine k c s).seq d = s.seq d := fun _ => rfl
        rw [Bool.eq_iff_iff, evaluated_iff, evaluated_iff, hrl]
        simp only [hs', hs, fun d => (hq d).1, fun d => (hq d).2]
      have chanAt : ∀ j, s'.chanAt j = s.chanAt j := fun j => by simp only [State.chanAt, hc]
      have hb : lineInBand (rampLine k c s') k = lineInBand (rampLine k c s) k := by
        have h1 : (rampLine k c s').flowAt k = (rampLine k c s).flowAt k := by
          show s'.flowAt k = s.flowAt k
          simp only [State.flowAt, chanAt, cfg]
        have h2 : ∀ j, (rampLine k c s').staleAt j = (rampLine k c s).staleAt j := fun j => by
          show s'.staleAt j = s.staleAt j
          simp only [State.staleAt, chanAt, ht, hs]
        have h3 : (rampLine k c s').lineCfg k = (rampLine k c s).lineCfg k := cfg
        simp only [lineInBand, h1, h2, h3, hrl]
      rw [lineWork_of_open (hl ▸ ho) (by rw [hl, hn]; exact hm), lineWork_of_open ho hm, he]
      split
      · simp only [State.modLine_eq, State.setLine_line_same, hrl, hb, cfg]
      · exact hrl
    · have hm := Nat.not_lt.mp hm
      rw [lineWork_idle (.inr hm), lineWork_idle (.inr (by rw [hl, hn]; exact hm)), hl]

theorem lineReaches_congr (hl : s'.line k = s.line k) (hn : s'.now = s.now) (ht : s'.tables = s.tables)
    (hs : s'.scan = s.scan) (hc : ∀ j, s'.chan j = s.chan j)
    (hq : ∀ d, (s'.seq d).run = (s.seq d).run ∧ (s'.seq d).step = (s.seq d).step) :
    lineReaches s' k c = lineReaches s k c := by
  simp only [lineReaches, lineWork_congr hl hn ht hs hc hq, hl]

theorem reachedLines_congr (hl : ∀ k, s'.line k = s.line k) (hn : s'.now = s.now) (ht : s'.tables = s.tables)
    (hs : s'.scan = s.scan) (hc : ∀ j, s'.chan j = s.chan j)
    (hq : ∀ d, (s'.seq d).run = (s.seq d).run ∧ (s'.seq d).step = (s.seq d).step) :
    reachedLines s' c = reachedLines s c := by
  simp only [reachedLines, hn, fun k => lineReaches_congr (c := c) (hl k) hn ht hs hc hq]

/-- Only a chamber in STEP has a line that reaches FLOW_FAULT. -/
theorem lineReaches_run (h : lineReaches s k c = true) : (s.seq c).run = .step := by
  obtain ⟨ho, hd, hw⟩ := of_decide_eq_true h
  by_contra hr
  have same : ((lineWork k s).line k).faultDue = none := by
    by_cases hm : (s.line k).mark < s.now
    · rw [lineWork_of_open ho hm, if_neg]
      · simp only [rampLine, State.setLine_line_same, Line.marked, Line.ramped]
        split <;> exact hd
      · rintro he
        obtain ⟨d, hd, -, hrun, -⟩ := evaluated_iff.mp he
        simp only [rampLine, State.setLine_line_same, Line.marked_openTo, Line.ramped_openTo, ho] at hd
        cases hd
        exact hr hrun
    · rw [lineWork_idle (.inr (Nat.not_lt.mp hm)), hd]
  rw [same] at hw
  exact absurd hw (by simp)

theorem mem_reachedLines {j : LineId} : Part.line j ∈ reachedLines s c ↔ tapFalls .t1 s.now = true ∧ lineReaches s j c = true := by
  simp [reachedLines]

/-- What making the faults of an event due may change. -/
theorem Frame.reachFaults {rs : List Bytes} {fs : List EventFlag} :
    Frame ([.rf c, .press c] ++ reachedLines s c) rs fs s (Machine.reachFaults c s) := by
  rcases reachFaults_spec c s with ⟨-, e⟩ | ⟨⟨-, ht⟩, ls, x, y, e, hl⟩
  · rw [e]; exact .refl s
  · have lines : ∀ j, Part.line j ∉ reachedLines s c → (Machine.reachFaults c s).line j = s.line j := fun j hj => by
      rw [hl j, if_neg fun h => hj (mem_reachedLines.mpr ⟨ht, h⟩)]
    rw [e] at lines ⊢
    refine ⟨fun p hp => ?_, fun a _ _ => rfl, fun f _ => rfl⟩
    simp only [List.mem_append, List.mem_cons, List.not_mem_nil, or_false, not_or] at hp
    cases p with
    | line j => exact lines j hp.2
    | rf d => exact State.setRf_rf_ne _ _ _ _ fun e => hp.1.1 (e ▸ rfl)
    | press d => exact State.setPress_press_ne { s with lines := ls } c x d fun e => hp.1.2 (e ▸ rfl)
    | layoutResult => exact ⟨rfl, rfl⟩
    | _ => rfl

/-- The evaluation of a pressure leaves what drives the throttle. -/
theorem pressureWork_drives : ((pressureWork c s).press c).target = (s.press c).target ∧
    ((pressureWork c s).press c).output = (s.press c).output ∧
    ((pressureWork c s).press c).throttleOpen = (s.press c).throttleOpen := by
  unfold pressureWork
  simp only []
  split
  · rw [State.setPress_press_same, Press.settled_eq]
    unfold Press.judged
    split
    · split <;> exact ⟨rfl, rfl, rfl⟩
    · exact ⟨rfl, rfl, rfl⟩
  · exact ⟨rfl, rfl, rfl⟩

theorem rfWork_press : (rfWork c s).press c = s.press c := by
  obtain ⟨x, h⟩ := rfWork_eq (s := s) (c := c)
  rw [h]; rfl

theorem reachFaults_drives : ((reachFaults c s).press c).target = (s.press c).target ∧
    ((reachFaults c s).press c).output = (s.press c).output ∧
    ((reachFaults c s).press c).throttleOpen = (s.press c).throttleOpen := by
  unfold reachFaults
  split
  · obtain ⟨ls, hl⟩ := reachLines_eq (c := c) s
    simp only [hl]
    have hp := pressureWork_drives (c := c) (s := { s with lines := ls })
    have work : ∀ (b : Bool) (x : State), (if b then rfWork c x else x).press c = x.press c := fun b x => by
      cases b <;> simp [rfWork_press]
    rw [work]
    split
    · exact hp
    · exact ⟨rfl, rfl, rfl⟩
  · exact ⟨rfl, rfl, rfl⟩

theorem line_not_reached {ps : List Part} (hs : ∀ p ∈ ps, ∃ k, p = Part.line k) {p : Part} (h : ∀ k, p ≠ .line k) : p ∉ ps :=
  fun hp => let ⟨k, e⟩ := hs p hp; h k e

theorem reachedLines_lines : ∀ p ∈ reachedLines s c, ∃ k, p = Part.line k := by
  intro p hp
  simp only [reachedLines, List.mem_map] at hp
  obtain ⟨k, -, e⟩ := hp
  exact ⟨k, e.symm⟩

theorem reachFaults_same {p : Part} (h : ∀ k, p ≠ .line k) (h1 : p ≠ .rf c) (h2 : p ≠ .press c) : p.same s (reachFaults c s) := by
  refine (Frame.reachFaults (rs := []) (fs := [])).parts p ?_
  simp only [List.mem_append, List.mem_cons, List.not_mem_nil, or_false, not_or]
  exact ⟨⟨h1, h2⟩, line_not_reached reachedLines_lines h⟩

@[simp] theorem reachFaults_seq (d : Chamber) : (reachFaults c s).seq d = s.seq d :=
  reachFaults_same (p := .seq d) (by simp) (by simp) (by simp)
theorem reachFaults_tables : (reachFaults c s).tables = s.tables :=
  reachFaults_same (p := .tables) (by simp) (by simp) (by simp)
@[simp] theorem reachFaults_rep (d : Chamber) : (reachFaults c s).rep d = s.rep d :=
  reachFaults_same (p := .rep d) (by simp) (by simp) (by simp)
theorem reachFaults_waitQueue : (reachFaults c s).waitQueue = s.waitQueue :=
  reachFaults_same (p := .waitQueue) (by simp) (by simp) (by simp)

theorem StartsFrom.reachFaults : StartsFrom c s (Machine.reachFaults c s) := by
  obtain ⟨h1, h2, h3⟩ := reachFaults_drives (c := c) (s := s)
  exact ⟨restrictionNow_congr reachFaults_tables fun k => reachFaults_same (p := .ilk k) (by simp) (by simp) (by simp),
    by rw [reachFaults_seq], by rw [reachFaults_seq], h1, h2, h3, (Frame.reachFaults (rs := []) (fs := [])).flags _ (by simp)⟩

/-! ### A run fault's close-out -/

theorem closeNow_closesOut (hs : StartsFrom c s₀ s) (hw : notWaiting s c)
    (hp : cause.reportsFault = true → PagesFit s) :
    ClosesOut c cause item (s.seq c).closePoint.1 (s.seq c).closePoint.2 s₀ (closeNow c cause item s) :=
  closeBegin_closesOut (hs.trans .reachFaults) (by simpa only [notWaiting, reachFaults_waitQueue] using hw) fun h =>
    pagesFit_congr reachFaults_tables reachFaults_rep (hp h)

theorem closeNow_next (hw : notWaiting s c) : ((closeNow c cause item s).rep c).next =
    if cause.reportsFault then ((s.rep c).next + 1) % 65536 else (s.rep c).next := by
  rw [closeNow, closeBegin_next (by simpa only [notWaiting, reachFaults_waitQueue] using hw), reachFaults_rep]

/-- What a run fault's close-out may change. -/
theorem Frame.closeNow (hw : notWaiting s c) (hp : PagesFit s) :
    Frame ([.summary, .seq c, .rf c, .press c, .rep c] ++ reachedLines s c) (closeBytes s c) [.fault c, .report c] s
      (Machine.closeNow c cause item s) := by
  have hb : closeBytes (Machine.reachFaults c s) c = closeBytes s c := by simp only [closeBytes, reachFaults_tables]
  have reach := Frame.reachFaults (s := s) (c := c) (rs := closeBytes s c) (fs := [.fault c, .report c])
  refine .trans (reach.mono ?_ (fun _ hr => covered_of_mem hr)) ?_
  · intro p hp
    simp only [List.mem_append, List.mem_cons, List.not_mem_nil, or_false] at hp ⊢
    tauto
  · have := Frame.closeBegin (c := c) (cause := cause) (item := item) (pos := (s.seq c).closePoint.1)
      (rem := (s.seq c).closePoint.2) (s := Machine.reachFaults c s)
      (by simpa only [notWaiting, reachFaults_waitQueue] using hw) (pagesFit_congr reachFaults_tables reachFaults_rep hp)
    rw [hb] at this
    exact this.mono (by simp) fun _ hr => covered_of_mem hr

/-- The lines after a run fault's close-out are those that the event's faults left. -/
theorem closeNow_line (hw : notWaiting s c) (j : LineId) : (closeNow c cause item s).line j = (reachFaults c s).line j := by
  have hw' : notWaiting (reachFaults c s) c := by simpa only [notWaiting, reachFaults_waitQueue] using hw
  rw [closeNow, closeBegin_eq hw']
  have h : (closeStart c cause item (s.seq c).closePoint.1 (s.seq c).closePoint.2 (reachFaults c s)).line j =
      (reachFaults c s).line j := (Frame.closeStart (fs := [])).parts (.line j) (by simp)
  rw [← h]
  unfold faultNotice
  split <;> simp

/-- A line whose own event would reach FLOW_FAULT has it due after a close-out of that moment. -/
theorem closeNow_due {j : LineId} (hw : notWaiting s c) (ht : tapFalls .t1 s.now = true) (h : lineReaches s j c = true) :
    ((closeNow c cause item s).line j).faultDue = some c := by
  rw [closeNow_line hw]
  rcases reachFaults_spec c s with ⟨hn, -⟩ | ⟨-, _, _, _, -, hl⟩
  · exact absurd ⟨lineReaches_run h, ht⟩ hn
  · rw [hl j, if_pos h]
    exact (of_decide_eq_true h).2.2

theorem deliverFault_faults (h : (s.seq c).run.faults = true) : deliverFault c cause item s = closeNow c cause item s := by
  unfold deliverFault
  cases hr : (s.seq c).run with
  | idle => simp [hr, RunState.faults] at h
  | starting => simp [hr, RunState.faults] at h
  | closing => simp [hr, RunState.faults] at h
  | _ => rfl

theorem deliverFault_closing (h : (s.seq c).run = .closing) : deliverFault c cause item s =
    s.modSeq c fun q => { q with second := if q.second = .nil then cause else q.second } := by
  simp [deliverFault, h]

/-- A close-out stands over a change that leaves the sequencer, the memory, FAULT and the resting outputs. -/
theorem ClosesOut.over (h : ClosesOut c cause item pos rem s₀ s) (seq : s'.seq c = s.seq c) (mem : s'.mem = s.mem)
    (rf : (s'.rf c).phase = (s.rf c).phase ∧ (s'.rf c).output = (s.rf c).output ∧ (s'.rf c).power = (s.rf c).power ∧
      (s'.rf c).ramp = (s.rf c).ramp)
    (press : (s'.press c).evaluating = (s.press c).evaluating ∧ (s'.press c).target = (s.press c).target ∧
      (s'.press c).output = (s.press c).output ∧ (s'.press c).throttleOpen = (s.press c).throttleOpen)
    (flag : s'.flagSet (.fault c) = s.flagSet (.fault c)) : ClosesOut c cause item pos rem s₀ s' := by
  obtain ⟨r1, r2, r3, r4⟩ := rf
  obtain ⟨p1, p2, p3, p4⟩ := press
  exact
    { run := seq ▸ h.run, stage := seq ▸ h.stage, outcome := seq ▸ h.outcome, item := seq ▸ h.item, latch := seq ▸ h.latch
      restriction := seq ▸ h.restriction
      shown := by rw [mem]; exact h.shown
      rf := by rw [r1, r2, r3, r4]; exact h.rf
      pressure := by rw [p1, p2, p3, p4]; exact h.pressure
      context := by
        have hw : s'.word (contextAddr c) = s.word (contextAddr c) := by simp only [State.word, mem]
        rw [hw, mem]; exact h.context
      fault := fun e => flag.trans (h.fault e)
      noFault := fun e => flag.trans (h.noFault e) }

end Sys2Proof.Machine
end

section
/-! The run faults of an evaluation, of a strike window, of lost pulses and of a timeout (R54, R59, R79, R104, R131,
R134). -/

namespace Sys2Proof.Machine

variable {s s' s₁ : State} {c : Chamber} {k : LineId} {t : Moment} {cause : Code} {item : Nat}

/-! ### A fault delivered -/

/-- What the delivery of a run fault leaves and may change, from a state that the event's own work has reached. -/
theorem deliverFault_closes {ps : List Part} {rs : List Bytes} (hf : Frame ps rs [] s s₁) (hps : ps ⊆ closeParts c)
    (hrep : Part.rep c ∉ ps) (hrs : ∀ r ∈ rs, covered (closeBytes s c) r) (hs : StartsFrom c s s₁)
    (hr : (s₁.seq c).run.faults = true) (hw : notWaiting s c) (hp : PagesFit s) (hc : cause.reportsFault = true) :
    ClosesOut c cause item (s₁.seq c).closePoint.1 (s₁.seq c).closePoint.2 s (deliverFault c cause item s₁) ∧
      ((deliverFault c cause item s₁).rep c).next = ((s.rep c).next + 1) % 65536 ∧
      Frame (closeParts c ++ reachedLines s₁ c) (closeBytes s c) [.fault c, .report c] s (deliverFault c cause item s₁) := by
  have part : ∀ p, p ∉ closeParts c → p.same s s₁ := fun p hn => hf.parts p fun h => hn (hps h)
  have ht : s₁.tables = s.tables := part .tables (by simp [closeParts])
  have hq : s₁.waitQueue = s.waitQueue := part .waitQueue (by simp [closeParts])
  have hrc : s₁.rep c = s.rep c := hf.parts (.rep c) hrep
  have hrd : ∀ d, s₁.rep d = s.rep d := fun d => by
    by_cases e : d = c
    · exact e ▸ hrc
    · exact part (.rep d) (by simp [closeParts, e])
  have hw₁ : notWaiting s₁ c := by simpa only [notWaiting, hq] using hw
  have hp₁ : PagesFit s₁ := pagesFit_congr ht hrd hp
  have hb : closeBytes s₁ c = closeBytes s c := by simp only [closeBytes, ht]
  rw [deliverFault_faults hr]
  refine ⟨closeNow_closesOut hs hw₁ fun _ => hp₁, ?_, ?_⟩
  · rw [closeNow_next hw₁, if_pos hc, hrc]
  · have close := Frame.closeNow (cause := cause) (item := item) hw₁ hp₁
    rw [hb] at close
    refine .trans (hf.mono ?_ hrs ?_) (close.mono ?_ (fun _ hr => covered_of_mem hr))
    · exact fun p hp => List.mem_append_left _ (hps hp)
    · simp
    · intro p hp
      simp only [List.mem_append, List.mem_cons, List.not_mem_nil, or_false, closeParts] at hp ⊢
      tauto

/-- The lines that an event reaches at a state that its own work has changed in sequencer counts, RF or pressure. -/
theorem reachedLines_of_frame {ps : List Part} {rs : List Bytes} {fs : List EventFlag} (hf : Frame ps rs fs s s₁)
    (hps : ps ⊆ closeParts c) (hn : s₁.now = t)
    (hq : (s₁.seq c).run = (s.seq c).run ∧ (s₁.seq c).step = (s.seq c).step) :
    reachedLines s₁ c = reachedLines (s.setNow t) c := by
  have part : ∀ p, p ∉ closeParts c → p.same s s₁ := fun p hn => hf.parts p fun h => hn (hps h)
  refine reachedLines_congr (fun k => part (.line k) (by simp [closeParts])) hn (part .tables (by simp [closeParts]))
    (part .scan (by simp [closeParts])) (fun j => part (.chan j) (by simp [closeParts])) fun d => ?_
  by_cases e : d = c
  · subst e; exact hq
  · have h : s₁.seq d = s.seq d := part (.seq d) (by simp [closeParts, e])
    rw [h]
    exact ⟨rfl, rfl⟩

/-- Over a moved Time Base and changed RF, a run fault's delivery is an RF run fault's close-out. -/
theorem rfClosesOut_deliverFault (hf : Frame [.now, .rf c] [] [] s s₁) (hr : (s.seq c).run.faults = true)
    (hw : notWaiting s c) (hp : PagesFit s) (hc : cause.reportsFault = true) :
    rfClosesOut c cause s (deliverFault c cause (s.seq c).stepIdx s₁) := by
  have hq : s₁.seq c = s.seq c := hf.parts (.seq c) (by simp)
  have hps : [Part.now, .rf c] ⊆ closeParts c := by simp [closeParts]
  obtain ⟨h1, h2, h3⟩ := deliverFault_closes (item := (s.seq c).stepIdx) hf hps (by simp) (by simp)
    (.of_frame hf (by rw [hq]) (by rw [hq]) (by simp)) (hq ▸ hr) hw hp hc
  rw [hq] at h1
  have hn : (deliverFault c cause (s.seq c).stepIdx s₁).now = s₁.now := by
    have hr₁ : (s₁.seq c).run.faults = true := hq ▸ hr
    have close := Frame.closeNow (cause := cause) (item := (s.seq c).stepIdx) (s := s₁) (c := c)
      (by simpa only [notWaiting, show s₁.waitQueue = s.waitQueue from hf.parts .waitQueue (by simp)] using hw)
      (pagesFit_congr (hf.parts .tables (by simp)) (fun d => hf.parts (.rep d) (by simp)) hp)
    rw [deliverFault_faults hr₁]
    refine close.parts .now ?_
    simp only [List.mem_append, not_or]
    exact ⟨by simp, line_not_reached reachedLines_lines (by simp)⟩
  refine ⟨h1, h2, h3.flags, ?_, h3.bytes⟩
  rw [hn, ← reachedLines_of_frame hf hps rfl (by rw [hq]; exact ⟨rfl, rfl⟩)]
  exact h3.parts

/-- An RF run fault's close-out stands when a due flag of the Supervisor is taken back. -/
theorem rfClosesOut.modRf {f : Rf → Rf} (h : rfClosesOut c cause s s')
    (hf : ∀ x, (f x).phase = x.phase ∧ (f x).output = x.output ∧ (f x).power = x.power ∧ (f x).ramp = x.ramp) :
    rfClosesOut c cause s (s'.modRf c f) := by
  obtain ⟨h1, h2, h3, h4, h5⟩ := h
  refine ⟨h1.over rfl rfl ?_ ⟨rfl, rfl, rfl, rfl⟩ rfl, h2, h3, ?_, h5⟩
  · simp only [State.modRf_eq, State.setRf_rf_same]
    exact hf _
  · intro p hp
    exact Part.same_trans (h4 p hp) (((Frame.modRf (ps := [.rf c]) (rs := []) (fs := [])).parts p) fun h => hp (by
      rw [List.mem_singleton.mp h]
      exact List.mem_append_left _ (by simp [closeParts])))

/-! ### Struck evaluations (R133, R134) -/

theorem reflectFails_iff : reflectFails s c = false ↔
    ∃ r, s.freshAt (s.chamberCfg c).reflected = some r ∧ r ≤ (s.chamberCfg c).reflectedLimit := by
  unfold reflectFails
  cases s.freshAt (s.chamberCfg c).reflected <;> simp

theorem forwardFails_iff {p : Nat} : forwardFails s c p = false ↔
    ∃ f, s.freshAt (s.chamberCfg c).forward = some f ∧ p * (s.chamberCfg c).strikeRatio / 1000 ≤ f := by
  unfold forwardFails
  cases s.freshAt (s.chamberCfg c).forward with
  | none => simp
  | some f =>
    refine decide_eq_false_iff_not.trans (Nat.not_lt.trans ⟨fun h => ⟨f, rfl, h⟩, ?_⟩)
    rintro ⟨_, e, h⟩
    cases e
    exact h

theorem rfWork_struck {x : Rf} (hp : (s.rf c).phase = .struck) (hm : (s.rf c).mark < s.now)
    (hx : x = (s.rf c).ramped (s.chamberCfg c).rfSpan s.now) : rfWork c s = s.setRf c
      { x.judged (s.chamberCfg c) (reflectFails s c) (forwardFails s c x.power) with mark := s.now } := by
  subst hx
  simp [rfWork, hp, State.after, hm]

theorem struckEvent_idle (h : (s.rf c).phase ≠ .struck ∨ s.now ≤ (s.rf c).mark) : struckEvent c s = s := by
  unfold struckEvent
  split
  · next hp => exact rfWork_uncounted (h.resolve_left fun g => g hp)
  · rfl

theorem deliverReflect_due (h : (s.rf c).reflectDue = true) : deliverReflect c s =
    (deliverFault c .rfReflect (s.seq c).stepIdx s).modRf c fun x => { x with reflectDue := false } := if_pos h
theorem deliverLost_due (hr : (s.rf c).reflectDue = false) (h : (s.rf c).lostDue = true) : deliverLost c s =
    (deliverFault c .plasmaLost (s.seq c).stepIdx s).modRf c fun x => { x with lostDue := false } := by
  have e : deliverReflect c s = s := if_neg (by rw [hr]; decide)
  unfold deliverLost
  simp only [e]
  exact if_pos h

/-- Settles O40: the counts by the equation of a struck evaluation, a due fault by its delivery. -/
theorem struckEvaluationsCountAndFault : Obligations.StruckEvaluationsCountAndFault := by
  refine ⟨?_, ?_, ?_, ?_⟩
  · intro s t c x badR badF n m h hp hm hx hbR hbF hn hm'
    refine answers_atTap h (body := struckEvent c) rfl ?_
    have e : struckEvent c (s.setNow t) = rfWork c (s.setNow t) := if_pos hp
    have hR : reflectFails (s.setNow t) c = badR := by
      rw [Bool.eq_iff_iff, ← not_iff_not, Bool.not_eq_true, Bool.not_eq_true]
      exact reflectFails_iff.trans hbR.symm
    have hF : forwardFails (s.setNow t) c x.power = badF := by
      rw [Bool.eq_iff_iff, ← not_iff_not, Bool.not_eq_true, Bool.not_eq_true]
      exact forwardFails_iff.trans hbF.symm
    obtain ⟨p, r, o, hr⟩ := (s.rf c).ramped_eq (s.chamberCfg c).rfSpan t
    have keep : x.reflect = (s.rf c).reflect ∧ x.lost = (s.rf c).lost ∧ x.reflectDue = (s.rf c).reflectDue ∧
        x.lostDue = (s.rf c).lostDue ∧ x.phase = .struck := by
      rw [hx, hr]; exact ⟨rfl, rfl, rfl, rfl, hp⟩
    obtain ⟨k1, k2, k3, k4, k5⟩ := keep
    have judged : x.judged (s.chamberCfg c) badR badF = { x with
        reflect := n
        lost := m
        reflectDue := (s.rf c).reflectDue || (badR && decide (n = (s.chamberCfg c).reflectTime))
        lostDue := (s.rf c).lostDue || (badF && decide (m = (s.chamberCfg c).reflectTime)) } := by
      simp only [Rf.judged, k1, k2, k3, k4, ← hn, ← hm']
    rw [e, rfWork_struck (s := s.setNow t) hp hm hx, hR, hF, State.setNow_chamberCfg, judged]
    exact ⟨by simp, by simp [State.rfEnable, k5], Frame.keeps (fs := []) (.trans .setNow .setRf)⟩
  · intro s t c h hn
    refine answers_atTap h (body := struckEvent c) rfl ?_
    rw [struckEvent_idle (s := s.setNow t) hn]
    exact setNow_keeps
  · intro s t c h hp hw hr
    constructor
    · intro hd
      refine answers_atTap h (body := reflectEvent c) rfl ?_
      have e : reflectEvent c (s.setNow t) = deliverReflect c (s.setNow t) := if_pos hd
      rw [e, deliverReflect_due (s := s.setNow t) hd]
      exact ⟨by simp [State.modRf_eq],
        (rfClosesOut_deliverFault (s₁ := s.setNow t) .setNow hr hw hp rfl).modRf fun x => ⟨rfl, rfl, rfl, rfl⟩⟩
    · intro hn hd
      refine answers_atTap h (body := lostEvent c) rfl ?_
      have e : lostEvent c (s.setNow t) = deliverLost c (s.setNow t) := if_pos hd
      rw [e, deliverLost_due (s := s.setNow t) hn hd]
      exact ⟨by simp [State.modRf_eq],
        (rfClosesOut_deliverFault (s₁ := s.setNow t) .setNow hr hw hp rfl).modRf fun x => ⟨rfl, rfl, rfl, rfl⟩⟩
  · intro s t c h hr
    constructor
    · intro hd
      refine answers_atTap h (body := reflectEvent c) rfl ?_
      have e : reflectEvent c (s.setNow t) = deliverReflect c (s.setNow t) := if_pos hd
      rw [e, deliverReflect_due (s := s.setNow t) hd, deliverFault_closing (s := s.setNow t) hr]
      exact ⟨State.setSeq_seq_same (s.setNow t) c _, by simp [State.modRf_eq, State.modSeq_eq],
        Frame.keeps (fs := []) (.trans .setNow (.trans .modSeq .modRf))⟩
    · intro hn hd
      refine answers_atTap h (body := lostEvent c) rfl ?_
      have e : lostEvent c (s.setNow t) = deliverLost c (s.setNow t) := if_pos hd
      rw [e, deliverLost_due (s := s.setNow t) hn hd, deliverFault_closing (s := s.setNow t) hr]
      exact ⟨State.setSeq_seq_same (s.setNow t) c _, by simp [State.modRf_eq, State.modSeq_eq],
        Frame.keeps (fs := []) (.trans .setNow (.trans .modSeq .modRf))⟩

/-! ### The last tests of a strike window (R131) -/

theorem rfWork_pausing (hp : (s.rf c).phase = .retryPause) (hm : (s.rf c).mark < s.now) :
    rfWork c s = s.setRf c { (s.rf c).paused (s.chamberCfg c) s.now with mark := s.now } := by
  simp [rfWork, hp, State.after, hm]

theorem strikeEvent_pausing (hp : (s.rf c).phase = .retryPause) : strikeEvent c s = rfWork c s := by
  simp [strikeEvent, hp]

/-- In STRIKING, work that turns RF off is followed by STRIKE_FAIL. -/
theorem strikeEvent_failing (hp : (s.rf c).phase = .striking) (h : ((rfWork c s).rf c).phase = .off) :
    strikeEvent c s = deliverFault c .strikeFail (s.seq c).stepIdx (rfWork c s) := by
  simp [strikeEvent, hp, h]

theorem Frame.rfWork {ps : List Part} {rs : List Bytes} {fs : List EventFlag} (h : .rf c ∈ ps := by simp) :
    Frame ps rs fs s (Machine.rfWork c s) := by
  obtain ⟨x, e⟩ := rfWork_eq (s := s) (c := c)
  rw [e]
  exact .setRf h

/-- Settles O39: the last test of a window into a pause or into STRIKE_FAIL, and the pause's count and end. -/
theorem strikeWindowsRetryAndFail : Obligations.StrikeWindowsRetryAndFail := by
  refine ⟨?_, ?_, ?_⟩
  · intro i s t c hi h hp hm hwin hmet
    obtain ⟨p, r, o, hr⟩ := (s.rf c).ramped_eq (s.chamberCfg c).rfSpan t
    have hw := rfWork_striking (s := s.setNow t) hp hm rfl
    have hmet' : strikeMet (s.setNow t) c (((s.setNow t).rf c).ramped ((s.setNow t).chamberCfg c).rfSpan (s.setNow t).now).power =
        false := hmet
    rw [hmet'] at hw
    simp only [State.setNow_rf, State.setNow_chamberCfg, State.setNow_now_same, hr] at hw
    have row : windowExpires (s.setNow t) c = true → exec i s = .next (strikeEvent c (s.setNow t)) := fun g => by
      rcases hi with rfl | rfl
      · exact (atTap_of_eventAt h _).trans (congrArg _ (workIf_true g))
      · exact atTap_of_eventAt h _
    constructor
    · intro hret
      simp only [Rf.tested, Bool.false_eq_true, if_false, Nat.not_lt.mpr hwin, hret, if_true] at hw
      have phase : ((rfWork c (s.setNow t)).rf c).phase = .retryPause := by rw [hw, State.setRf_rf_same]; rfl
      refine ⟨_, row (by simp [windowExpires, hp, phase]), ?_⟩
      rw [strikeEvent_striking (s := s.setNow t) hp (by rw [phase]; simp), hw]
      refine ⟨?_, ?_, ?_, ?_, ?_, ?_, ?_, ?_, ?_, ?_, ?_, Frame.keeps (fs := []) (.trans .setNow .setRf)⟩ <;>
        simp [State.rfEnable, Rf.released]
    · intro hret hpf hnw hrun
      simp only [Rf.tested, Bool.false_eq_true, if_false, Nat.not_lt.mpr hwin, Nat.not_lt.mpr hret] at hw
      have phase : ((rfWork c (s.setNow t)).rf c).phase = .off := by rw [hw, State.setRf_rf_same]; rfl
      refine ⟨_, row (by simp [windowExpires, hp, phase]), ?_⟩
      rw [strikeEvent_failing (s := s.setNow t) hp phase]
      have closes := rfClosesOut_deliverFault (s := s) (s₁ := rfWork c (s.setNow t)) (c := c) (cause := .strikeFail)
        (.trans .setNow .rfWork) hrun hnw hpf rfl
      refine ⟨?_, closes⟩
      have off := closes.1.rf.1
      simp only [State.rfEnable, State.setNow_seq, off]
  · intro i s t c hi h hp hm hpause
    have hw := rfWork_pausing (s := s.setNow t) hp hm
    simp only [State.setNow_rf, State.setNow_chamberCfg, State.setNow_now_same, Rf.paused, Nat.not_lt.mpr hpause,
      if_false] at hw
    have key : exec i s = .next (rfWork c (s.setNow t)) := by
      rw [← strikeEvent_pausing (s := s.setNow t) hp]
      rcases hi with rfl | rfl
      · exact (atTap_of_eventAt h _).trans (congrArg _ (workIf_true (by simp [pauseEnds, hp, hpause, hm])))
      · exact atTap_of_eventAt h _
    refine ⟨_, key, ?_⟩
    rw [hw]
    refine ⟨?_, ?_, ?_, ?_, ?_, ?_, ?_, ?_, ?_, ?_, ?_, ?_, ?_, Frame.keeps (fs := []) (.trans .setNow .setRf)⟩ <;>
      simp [State.rfEnable, Rf.enabled, Rf.rampFrom, rfCount]
  · intro s t c h hp hm hpause
    refine answers_atTap h (body := strikeEvent c) rfl ?_
    have hw := rfWork_pausing (s := s.setNow t) hp hm
    simp only [State.setNow_rf, State.setNow_chamberCfg, State.setNow_now_same, Rf.paused, hpause, if_true] at hw
    rw [strikeEvent_pausing (s := s.setNow t) hp, hw]
    exact ⟨by simp, by simp [State.rfEnable, hp], Frame.keeps (fs := []) (.trans .setNow .setRf)⟩

end Sys2Proof.Machine
end

section
/-! Faults of lines and pressures, lost pulses and timeouts, and the end of a run's last step (R28, R31, R54 to R59,
R64, R79, R104). -/

namespace Sys2Proof.Machine

variable {s s' s₁ : State} {c : Chamber} {k : LineId} {t : Moment} {cause : Code} {item : Nat}

/-! ### Faults of a line and of the pressure (R79, R104) -/

theorem deliverFlowFault_due (h : (s.line k).faultDue = some c) : deliverFlowFault k s =
    (deliverFault c .flowFault (k.val + 1) s).modLine k fun l => { l with faultDue := none } := by
  simp [deliverFlowFault, h]

theorem flowFaultEvent_due (h : (s.line k).faultDue = some c) : flowFaultEvent k s = deliverFlowFault k s := by
  simp [flowFaultEvent, h]

theorem deliverPressureFault_due (h : (s.press c).faultDue = true) : deliverPressureFault c s =
    (deliverFault c .pressureFault (s.seq c).stepIdx s).modPress c fun p => { p with faultDue := false } := if_pos h

theorem pressureFaultEvent_due (h : (s.press c).faultDue = true) : pressureFaultEvent c s = deliverPressureFault c s :=
  if_pos h

/-- A fault delivered at the moment of its event, before any other work of it. -/
theorem deliverFault_at {tap : Tap} (h : eventAt tap t s) (hp : PagesFit s) (hw : notWaiting s c)
    (hr : (s.seq c).run.faults = true) (hc : cause.reportsFault = true) :
    ClosesOut c cause item (s.seq c).closePoint.1 (s.seq c).closePoint.2 s (deliverFault c cause item (s.setNow t)) ∧
      ((deliverFault c cause item (s.setNow t)).rep c).next = ((s.rep c).next + 1) % 65536 ∧
      Frame (closeParts c ++ reachedLines (s.setNow t) c) (closeBytes s c) [.fault c, .report c] s
        (deliverFault c cause item (s.setNow t)) ∧
      (tap = .t1 → ∀ j, lineReaches (s.setNow t) j c = true →
        ((deliverFault c cause item (s.setNow t)).line j).faultDue = some c) := by
  have frame : Frame [.now] [] [] s (s.setNow t) := .setNow
  obtain ⟨h1, h2, h3⟩ := deliverFault_closes (item := item) frame (by simp [closeParts]) (by simp) (by simp)
    (.of_frame frame rfl rfl (by simp)) hr hw hp hc
  refine ⟨h1, h2, h3, ?_⟩
  rintro rfl j hj
  rw [deliverFault_faults (s := s.setNow t) hr]
  exact closeNow_due hw h.falls hj

/-- Settles O34: the fault's row delivers it, and takes the due flag back. -/
theorem flowAndPressureFaultsCloseTheRunOut : Obligations.FlowAndPressureFaultsCloseTheRunOut := by
  refine ⟨⟨?_, ?_⟩, ?_, ?_⟩
  · intro s t c k h hp hw hd hr
    refine answers_atTap h (body := flowFaultEvent k) rfl ?_
    obtain ⟨h1, h2, h3, h4⟩ := deliverFault_at (cause := .flowFault) (item := k.val + 1) h hp hw hr rfl
    rw [flowFaultEvent_due (s := s.setNow t) hd, deliverFlowFault_due (s := s.setNow t) hd]
    have frame : Frame (.line k :: closeParts c ++ reachedLines (s.setNow t) c) (closeBytes s c) [.fault c, .report c] s
        ((deliverFault c .flowFault (k.val + 1) (s.setNow t)).modLine k fun l => { l with faultDue := none }) :=
      .trans (h3.mono (by simp) (fun _ hr => covered_of_mem hr)) .modLine
    refine ⟨h1.over rfl rfl ⟨rfl, rfl, rfl, rfl⟩ ⟨rfl, rfl, rfl, rfl⟩ rfl, by simp [State.modLine_eq], h2, ?_,
      frame.flags, frame.parts, frame.bytes⟩
    intro j hj
    have hjk : j ≠ k := by
      rintro rfl
      obtain ⟨-, hn, -⟩ := of_decide_eq_true hj
      exact absurd (hd.symm.trans hn) (by simp)
    rw [State.modLine_eq, State.setLine_line_ne _ _ _ _ hjk]
    exact h4 rfl j hj
  · intro s t c k h hd hr
    refine answers_atTap h (body := flowFaultEvent k) rfl ?_
    rw [flowFaultEvent_due (s := s.setNow t) hd, deliverFlowFault_due (s := s.setNow t) hd,
      deliverFault_closing (s := s.setNow t) hr]
    exact ⟨State.setSeq_seq_same (s.setNow t) c _, by simp [State.modLine_eq, State.modSeq_eq],
      Frame.keeps (fs := []) (.trans .setNow (.trans .modSeq .modLine))⟩
  · intro s t c h hp hw hd hr
    refine answers_atTap h (body := pressureFaultEvent c) rfl ?_
    obtain ⟨h1, h2, h3, h4⟩ := deliverFault_at (cause := .pressureFault) (item := (s.seq c).stepIdx) h hp hw hr rfl
    rw [pressureFaultEvent_due (s := s.setNow t) hd, deliverPressureFault_due (s := s.setNow t) hd]
    have frame : Frame (closeParts c ++ reachedLines (s.setNow t) c) (closeBytes s c) [.fault c, .report c] s
        ((deliverFault c .pressureFault (s.seq c).stepIdx (s.setNow t)).modPress c fun p => { p with faultDue := false }) :=
      .trans h3 (.modPress (List.mem_append_left _ (by simp [closeParts])))
    refine ⟨h1.over rfl rfl ⟨rfl, rfl, rfl, rfl⟩ ?_ rfl, ?_, h2, h4 rfl, frame.flags, frame.parts, frame.bytes⟩
    · simp [State.modPress_eq]
    · simp [State.modPress_eq]
  · intro s t c h hd hr
    refine answers_atTap h (body := pressureFaultEvent c) rfl ?_
    rw [pressureFaultEvent_due (s := s.setNow t) hd, deliverPressureFault_due (s := s.setNow t) hd,
      deliverFault_closing (s := s.setNow t) hr]
    exact ⟨State.setSeq_seq_same (s.setNow t) c _, by simp [State.modPress_eq, State.modSeq_eq],
      Frame.keeps (fs := []) (.trans .setNow (.trans .modSeq .modPress))⟩

/-! ### Lost pulses and timeouts (R54, R59) -/

theorem closeBegin_seq {pos rem : Nat} (hw : notWaiting s c) : (closeBegin c cause item pos rem s).seq c =
    (s.seq c).closing cause item (restrictionNow s c) s.now := by
  rw [closeBegin_eq hw, ← closeStart_seq (pos := pos) (rem := rem)]
  unfold faultNotice
  split <;> simp

/-- A close-out begun by a fault keeps the step timer and the step counts. -/
theorem deliverFault_counts (hr : (s.seq c).run.faults = true) (hw : notWaiting s c) :
    ((deliverFault c cause item s).seq c).timer = (s.seq c).timer ∧
      ((deliverFault c cause item s).seq c).stepsRun = (s.seq c).stepsRun ∧
      ((deliverFault c cause item s).seq c).segDone = (s.seq c).segDone := by
  rw [deliverFault_faults hr, closeNow,
    closeBegin_seq (by simpa only [notWaiting, reachFaults_waitQueue] using hw), reachFaults_seq]
  exact ⟨rfl, rfl, rfl⟩

/-- The pulse-loss timer one lower. -/
def pulseLower (c : Chamber) (s : State) : State := s.modSeq c fun q => { q with pulse := q.pulse - 1, pulseMark := s.now }

theorem pulseLower_seq : (pulseLower c s).seq c = { s.seq c with pulse := (s.seq c).pulse - 1, pulseMark := s.now } := by
  simp [pulseLower, State.modSeq_eq]

theorem pulseTick_running (hr : (s.seq c).run = .step) (hx : (s.seq c).step.onExt = true)
    (hm : (s.seq c).pulseMark < s.now) (h : 1 < (s.seq c).pulse) : pulseTick c s = pulseLower c s := by
  have hz : ((pulseLower c s).seq c).pulse ≠ 0 := by rw [pulseLower_seq]; simp only; omega
  simp only [pulseTick, hr, hx, State.after, hm, decide_true, Bool.and_self, if_true]
  exact if_neg hz

theorem pulseTick_last (hr : (s.seq c).run = .step) (hx : (s.seq c).step.onExt = true)
    (hm : (s.seq c).pulseMark < s.now) (h : (s.seq c).pulse ≤ 1) :
    pulseTick c s = deliverFault c .pulseLost (s.seq c).stepIdx (pulseLower c s) := by
  have hz : ((pulseLower c s).seq c).pulse = 0 := by rw [pulseLower_seq]; simp only; omega
  simp only [pulseTick, hr, hx, State.after, hm, decide_true, Bool.and_self, if_true]
  exact if_pos hz

theorem timerExpired_aborts (h1 : (s.seq c).step.exitsTime = false) (h2 : (s.seq c).step.abortsOnTimeout = true) :
    timerExpired c s = deliverFault c .timeoutAbort (s.seq c).stepIdx s := by
  simp [timerExpired, h1, h2]

/-- Settles O27: a lost pulse and an aborting timeout are run faults, delivered after the timer's own count. -/
theorem pulseLossAndTimeoutAbortCloseTheRunOut : Obligations.PulseLossAndTimeoutAbortCloseTheRunOut := by
  refine ⟨⟨?_, ?_⟩, ?_⟩
  · intro s t c h hr hx hm hp
    refine answers_atTap h (body := pulseTick c) rfl ?_
    rw [pulseTick_running (s := s.setNow t) hr hx hm hp]
    exact ⟨pulseLower_seq, Frame.keeps (fs := []) (.trans .setNow .modSeq)⟩
  · intro i s t c hi h hp hw hr hx hm hpulse
    have key : exec i s = .next (pulseTick c (s.setNow t)) := by
      rcases hi with rfl | rfl
      · exact (atTap_of_eventAt h _).trans (congrArg _ (workIf_true (by simp [pulseEnds, hr, hx, hpulse, hm])))
      · exact atTap_of_eventAt h _
    refine ⟨_, key, ?_⟩
    rw [pulseTick_last (s := s.setNow t) hr hx hm hpulse]
    have frame : Frame [.now, .seq c] [] [] s (pulseLower c (s.setNow t)) := .trans .setNow .modSeq
    have seq := pulseLower_seq (s := s.setNow t) (c := c)
    have hps : [Part.now, .seq c] ⊆ closeParts c := by simp [closeParts]
    obtain ⟨h1, h2, h3⟩ := deliverFault_closes (cause := .pulseLost) (item := (s.seq c).stepIdx) frame hps (by simp) (by simp)
      (.of_frame frame (by rw [seq]; rfl) (by rw [seq]; rfl) (by simp)) (by rw [seq]; simp [hr, RunState.faults]) hw hp rfl
    rw [reachedLines_of_frame frame hps rfl (by rw [seq]; exact ⟨rfl, rfl⟩)] at h3
    have point : ((pulseLower c (s.setNow t)).seq c).closePoint = ((s.seq c).pos, (s.seq c).timer) := by
      rw [seq]; simp [Seq.closePoint, hr]
    rw [point] at h1
    exact ⟨h1, h2, h3.flags, h3.parts, h3.bytes⟩
  · intro s t c tap h hp hw hr ht hm htap hf h1 h2
    refine answers_atTap h (body := workIf (fun s => timerEnds s c) (timerTick c)) rfl ?_
    have ends : timerEnds (s.setNow t) c = true := by
      have counts : timerCounts (s.setNow t) c = true := timerCounts_iff.mpr ⟨hr, by simp [ht], hm, tap, htap, hf⟩
      simp [timerEnds, counts, ht]
    have seq := timerLower_seq (s := s.setNow t) (c := c)
    have lower : Frame [.now, .seq c] [(statusAddr c + 20, 4)] [] s (timerLower c (s.setNow t)) :=
      .trans .setNow (.timerLower (by simp) (by simp [covered, StatusWord.offset]))
    have hps : [Part.now, .seq c] ⊆ closeParts c := by simp [closeParts]
    have run : ((timerLower c (s.setNow t)).seq c).run.faults = true := by rw [seq]; simp [hr, RunState.faults]
    have idx : ((timerLower c (s.setNow t)).seq c).stepIdx = (s.seq c).stepIdx := by rw [seq]; rfl
    rw [workIf_true ends, timerTick_last (s := s.setNow t) (by simp [ht]), timerExpired_aborts (by rw [seq]; exact h1)
      (by rw [seq]; exact h2), idx]
    obtain ⟨g1, g2, g3⟩ := deliverFault_closes (cause := .timeoutAbort) (item := (s.seq c).stepIdx) lower hps (by simp)
      (by simpa using closeBytes_status (by omega) (by omega))
      (.of_frame lower (by rw [seq]; rfl) (by rw [seq]; rfl) (by simp)) run hw hp rfl
    rw [reachedLines_of_frame lower hps rfl (by rw [seq]; exact ⟨rfl, rfl⟩)] at g3
    obtain ⟨k1, k2, k3⟩ := deliverFault_counts (cause := .timeoutAbort) (item := (s.seq c).stepIdx)
      (s := timerLower c (s.setNow t)) run hw
    have point : ((timerLower c (s.setNow t)).seq c).closePoint = ((s.seq c).pos, 0) := by
      rw [seq]; simp [Seq.closePoint, hr, ht]
    rw [point] at g1
    rw [seq] at k1 k2 k3
    exact ⟨g1, k1.trans (by simp [ht]), k2, k3, g2, g3.flags, g3.parts, g3.bytes⟩

/-! ### The end of a step (R64, R65) -/

/-- The counts of a step that ends, shown (R64). -/
def stepCount (c : Chamber) (s : State) : State :=
  showWord c .steps (s.modSeq c fun q =>
    { q with
      stepsRun := q.stepsRun + 1
      segDone := q.segDone + 1
      segLast := some q.stepIdx
      segClamped := q.segClamped || stepClamped s c
      segPclamped := q.segPclamped || (s.press c).pclamped
      segRclamped := q.segRclamped || (s.rf c).rclamped })

/-- A step that ends, counted and reported (R64, R65). -/
def stepCounted (c : Chamber) (cause : ExitCause) (s : State) : State :=
  if ((stepCount c s).seq c).step.reports then
    produce c
      { kind := .stepEnd, kindByte := cause.code, flags := stepFlags s c cause, elapsed := ((stepCount c s).seq c).elapsed
        rfOn := ((stepCount c s).rf c).stepRfOn
        pressure := (stepCount c s).valueAt ((stepCount c s).chamberCfg c).manometer } (stepCount c s)
  else stepCount c s

theorem stepCount_seq : (stepCount c s).seq c = { s.seq c with
    stepsRun := (s.seq c).stepsRun + 1
    segDone := (s.seq c).segDone + 1
    segLast := some (s.seq c).stepIdx
    segClamped := (s.seq c).segClamped || stepClamped s c
    segPclamped := (s.seq c).segPclamped || (s.press c).pclamped
    segRclamped := (s.seq c).segRclamped || (s.rf c).rclamped } := by
  simp [stepCount, State.modSeq_eq]

theorem stepEnd_eq (x : ExitCause) : stepEnd c x s =
    if (s.seq c).seg.count ≤ (s.seq c).pos + 1 then segmentEnd c (stepCounted c x s)
    else if (s.seq c).latch then enterHeld c ((s.seq c).pos + 1) 0 (stepCounted c x s)
    else stepStart c ((s.seq c).pos + 1) (stepCounted c x s) := by
  have e : stepEnd c x s = if ((stepCount c s).seq c).seg.count ≤ ((stepCount c s).seq c).pos + 1 then
      segmentEnd c (stepCounted c x s)
    else if ((stepCount c s).seq c).latch then enterHeld c (((stepCount c s).seq c).pos + 1) 0 (stepCounted c x s)
    else stepStart c (((stepCount c s).seq c).pos + 1) (stepCounted c x s) := rfl
  rw [e, stepCount_seq]

theorem stepCounted_seq {x : ExitCause} : (stepCounted c x s).seq c = (stepCount c s).seq c := by
  unfold stepCounted
  split <;> simp

theorem stepCounted_next {x : ExitCause} : ((stepCounted c x s).rep c).next =
    if (s.seq c).step.reports then ((s.rep c).next + 1) % 65536 else (s.rep c).next := by
  have reports : ((stepCount c s).seq c).step.reports = (s.seq c).step.reports := by rw [stepCount_seq]
  have rep : (stepCount c s).rep c = s.rep c := rfl
  unfold stepCounted
  rw [reports]
  split
  · rw [produce_next, rep]
  · rw [rep]

theorem Frame.stepCount {rs : List Bytes} {fs : List EventFlag}
    (h : covered rs (statusAddr c + 24, 4) := by simp [covered, statusBytes]) :
    Frame [.seq c] rs fs s (Machine.stepCount c s) := .trans .modSeq (.showWord h)

theorem Frame.stepCounted {x : ExitCause} {rs : List Bytes} (h : covered rs (statusBytes c)) (he : entryArea rs c s) :
    Frame [.seq c, .rep c, .summary] rs [.report c] s (Machine.stepCounted c x s) := by
  have count : Frame [.seq c, .rep c, .summary] rs [.report c] s (Machine.stepCount c s) :=
    ((Frame.stepCount (fs := []) (h.sub (by simp [statusBytes]) (by simp [statusBytes]))).mono (by simp)
      (fun _ hr => covered_of_mem hr))
  unfold Machine.stepCounted
  split
  · refine .trans count ((Frame.produce (h.sub ?_ ?_) (he.keeps (Keeps.trans .modSeq .showWord))).mono (by simp)
      (fun _ hr => covered_of_mem hr))
    · simp [statusBytes]
    · simp [statusBytes]
  · exact count

/-- Of the sequencer, what the end of a step reads is the same in two states. -/
structure SameStep (c : Chamber) (s s₁ : State) : Prop where
  stepsRun : (s₁.seq c).stepsRun = (s.seq c).stepsRun
  segDone : (s₁.seq c).segDone = (s.seq c).segDone
  stepIdx : (s₁.seq c).stepIdx = (s.seq c).stepIdx
  step : (s₁.seq c).step = (s.seq c).step
  seg : (s₁.seq c).seg = (s.seq c).seg
  pos : (s₁.seq c).pos = (s.seq c).pos

theorem SameStep.of_seq (h : s₁.seq c = s.seq c) : SameStep c s s₁ := by
  constructor <;> rw [h]

/-- The last step of a FINAL segment ends the run's steps: close-out with COMPLETE (R28, R31). -/
theorem stepEnd_last {x : ExitCause} (h1 : (s.seq c).seg.isOpen = false) (h2 : (s.seq c).seg.count ≤ (s.seq c).pos + 1) :
    stepEnd c x s = closeBegin c .complete 0 (s.seq c).seg.count 0 (stepCounted c x s) := by
  rw [stepEnd_eq, if_pos h2]
  simp [segmentEnd, stepCounted_seq, stepCount_seq, h1]

theorem stepCount_shown : (stepCount c s).word (statusAddr c + 24) =
    shownCount 32 ((s.seq c).stepsRun + 1) % 4294967296 := by
  have h := word_showWord (c := c) (w := .steps) (s := s.modSeq c fun q =>
    { q with
      stepsRun := q.stepsRun + 1
      segDone := q.segDone + 1
      segLast := some q.stepIdx
      segClamped := q.segClamped || stepClamped s c
      segPclamped := q.segPclamped || (s.press c).pclamped
      segRclamped := q.segRclamped || (s.rf c).rclamped })
  refine h.trans ?_
  simp [statusValue, State.modSeq_eq]

theorem stepCounted_shown {x : ExitCause} (hp : PagesFit s) : (stepCounted c x s).word (statusAddr c + 24) =
    shownCount 32 ((s.seq c).stepsRun + 1) % 4294967296 := by
  have hb := statusAddr_bounds c
  have fit : PagesFit (stepCount c s) := pagesFit_congr rfl (fun _ => rfl) hp
  rw [← stepCount_shown]
  unfold stepCounted
  split
  · exact (Frame.produce_notice fit).word (by simp only [Config.memorySize]; omega)
      (noticeBytes_apart ⟨fit.1, fit.2.1⟩ (.inl (by omega)))
  · rfl

/-- What the end of the last step of a FINAL segment leaves and may change, from a state that the event's own work has
reached. -/
theorem stepEnd_completes {x : ExitCause} {ps : List Part} {rs : List Bytes} (hf : Frame ps rs [] s s₁)
    (hps : ∀ p ∈ ps, p ∈ closeParts c ∨ p = .pins ∨ ∃ k, p = .line k) (hrep : Part.rep c ∉ ps)
    (hrs : ∀ r ∈ rs, covered (closeBytes s c) r) (hs : StartsFrom c s s₁) (hk : SameStep c s s₁)
    (hw : notWaiting s c) (hp : PagesFit s) (h1 : (s.seq c).seg.isOpen = false)
    (h2 : (s.seq c).seg.count ≤ (s.seq c).pos + 1) :
    ClosesOut c .complete 0 (s.seq c).seg.count 0 s (stepEnd c x s₁) ∧ CountsStep c s (stepEnd c x s₁) ∧
      Frame (ps ++ closeParts c) (closeBytes s c) [.report c] s (stepEnd c x s₁) ∧
      (∀ k, (stepEnd c x s₁).line k = s₁.line k) ∧ ((stepEnd c x s₁).press c).stable = (s₁.press c).stable := by
  have part : ∀ p, p ∉ closeParts c → p ≠ .pins → (∀ k, p ≠ .line k) → p.same s s₁ := fun p h1 h2 h3 =>
    hf.parts p fun h => (hps p h).elim h1 fun h => h.elim h2 fun ⟨k, e⟩ => h3 k e
  have ht : s₁.tables = s.tables := part .tables (by simp [closeParts]) (by simp) (by simp)
  have hrc : s₁.rep c = s.rep c := hf.parts (.rep c) hrep
  have hp₁ : PagesFit s₁ := pagesFit_congr ht (fun d => by
    by_cases e : d = c
    · exact e ▸ hrc
    · exact part (.rep d) (by simp [closeParts, e]) (by simp) (by simp)) hp
  have hb : closeBytes s₁ c = closeBytes s c := by simp only [closeBytes, ht]
  have area : entryArea (closeBytes s c) c s₁ := hp₁.entryArea (by rw [ht]; exact closeBytes_report s c)
  rw [stepEnd_last (hk.seg ▸ h1) (by rw [hk.seg, hk.pos]; exact h2), hk.seg]
  have counted := Frame.stepCounted (x := x) (rs := closeBytes s c) (covered_of_mem (by simp [closeBytes])) area
  have useq := (stepCounted_seq (x := x) (s := s₁) (c := c)).trans stepCount_seq
  have unext := stepCounted_next (x := x) (s := s₁) (c := c)
  have ushown := stepCounted_shown (x := x) (c := c) hp₁
  generalize stepCounted c x s₁ = u at counted useq unext ushown ⊢
  have hw₂ : notWaiting u c := by
    have e1 : u.waitQueue = s₁.waitQueue := counted.parts .waitQueue (by simp)
    have e2 : s₁.waitQueue = s.waitQueue := part .waitQueue (by simp [closeParts]) (by simp) (by simp)
    simpa only [notWaiting, e1, e2] using hw
  have starts : StartsFrom c s₁ u := .of_frame counted (by rw [useq]) (by rw [useq]) (by simp)
  have close := Frame.closeBegin_quiet (fs := [.report c]) (cause := .complete) (item := 0) (pos := (s.seq c).seg.count)
    (rem := 0) hw₂ rfl
  have hn := closeBegin_next (cause := .complete) (item := 0) (pos := (s.seq c).seg.count) (rem := 0) hw₂
  have hq := closeBegin_seq (cause := .complete) (item := 0) (pos := (s.seq c).seg.count) (rem := 0) hw₂
  have outs := closeBegin_closesOut (cause := .complete) (item := 0) (pos := (s.seq c).seg.count) (rem := 0)
    (hs.trans starts) hw₂ (by simp [Code.reportsFault, Code.code])
  have hpress : ((closeBegin c .complete 0 (s.seq c).seg.count 0 u).press c).stable = (u.press c).stable := by
    rw [closeBegin_eq hw₂, faultNotice_off rfl, closeStart_press]
  generalize closeBegin c .complete 0 (s.seq c).seg.count 0 u = v at close hn hq outs hpress ⊢
  have hst := statusAddr_bounds c
  have hcx := contextAddr_bounds c
  have keep : ∀ k, v.line k = s₁.line k := fun k =>
    Eq.trans (close.parts (.line k) (by simp)) (counted.parts (.line k) (by simp))
  have upress : u.press c = s₁.press c := counted.parts (.press c) (by simp)
  refine ⟨outs, ⟨?_, ?_, ?_, ?_, ?_⟩, ?_, keep, hpress.trans (by rw [upress])⟩
  · rw [hq, useq, ← hk.stepsRun]; rfl
  · rw [hq, useq, ← hk.segDone]; rfl
  · rw [hq, useq, ← hk.stepIdx]; rfl
  · rw [← hk.stepsRun, ← ushown]
    refine close.word (by simp only [Config.memorySize]; omega) fun r hr => ?_
    simp only [List.mem_cons, List.not_mem_nil, or_false] at hr
    rcases hr with rfl | rfl
    · simp only [Config.memorySize]; omega
    · simp only [contextBytes, Config.memorySize]; omega
  · rw [hn, if_neg (by decide), unext, hk.step, hrc]
  · refine .trans (hf.mono (by simp) hrs (by simp)) (.trans (counted.mono ?_ (fun _ hr => covered_of_mem hr))
      (close.mono ?_ ?_))
    · intro p hp
      refine List.mem_append_right _ ?_
      simp only [List.mem_cons, List.not_mem_nil, or_false, closeParts] at hp ⊢
      tauto
    · intro p hp
      refine List.mem_append_right _ ?_
      simp only [List.mem_cons, List.not_mem_nil, or_false, closeParts] at hp ⊢
      tauto
    · simp only [List.mem_cons, List.not_mem_nil, or_false, forall_eq_or_imp, forall_eq]
      exact ⟨closeBytes_status le_rfl (by simp), closeBytes_context s c⟩

end Sys2Proof.Machine
end

section
/-! The exits of a step (R52 to R59, R77, R102) at the last position of a FINAL segment. -/

namespace Sys2Proof.Machine

variable {s s' s₁ : State} {c : Chamber} {k : LineId} {t : Moment}

theorem timerExpired_ends (h : (s.seq c).step.exitsTime = true ∨ (s.seq c).step.abortsOnTimeout = false) :
    ∃ x, timerExpired c s = stepEnd c x s := by
  unfold timerExpired
  by_cases h1 : (s.seq c).step.exitsTime = true
  · exact ⟨.time, if_pos h1⟩
  · refine ⟨.timeout, (if_neg h1).trans (if_neg ?_)⟩
    rw [h.resolve_left h1]
    decide

/-- The count of asserted samples one higher. -/
def endpointRaise (c : Chamber) (s : State) : State :=
  s.modSeq c fun q => { q with endpointCount := q.endpointCount + 1, endpointMark := s.now }

theorem endpointRaise_seq : (endpointRaise c s).seq c =
    { s.seq c with endpointCount := (s.seq c).endpointCount + 1, endpointMark := s.now } := by
  simp [endpointRaise, State.modSeq_eq]

/-- The asserted sample that brings the count above the dwell ends the step (R56). -/
theorem endpointSampled_ends (ha : endpointArmed (s.seq c) = true) (hm : (s.seq c).endpointMark < s.now)
    (hd : (s.seq c).step.endpointDwell < (s.seq c).endpointCount + 1) (hp : s.pins.endpoint[c] = true) :
    endpointSampled c s = stepEnd c .endpoint (endpointRaise c s) := by
  simp only [endpointSampled, ha, State.after, hm, decide_true, Bool.and_self, if_true, hp, hd]
  rfl

theorem pressureBelow_iff : pressureBelow s c = true ↔ (s.seq c).run = .step ∧ (s.seq c).step.exitsPressure = true ∧
    ∃ v, s.freshAt (s.chamberCfg c).manometer = some v ∧ v ≤ (s.seq c).step.target * 100 := by
  unfold pressureBelow
  cases s.freshAt (s.chamberCfg c).manometer <;> simp [and_assoc]

/-- A report that leaves no item not stable ends a STABLE step (R57). -/
theorem stableReport_ends (hr : (s.seq c).run = .step) (hx : (s.seq c).step.exitsStable = true)
    (hl : ∀ e ∈ (s.seq c).step.entries, (s.line e.1).stable = true)
    (hp : (s.seq c).step.target = 0 ∨ (s.press c).stable = true) : stableReport c s = stepEnd c .stable s := by
  have all : allStable s c = true := by
    simp only [allStable, Bool.and_eq_true, List.all_eq_true, Bool.or_eq_true, decide_eq_true_eq]
    exact ⟨hl, hp⟩
  simp [stableReport, hr, hx, all]

/-- An evaluation in band that brings the pressure's in-band count to the dwell (R102). -/
theorem pressureWork_stabilizes {d : Nat} (he : (s.press c).evaluating = true) (hm : (s.press c).mark < s.now)
    (hd : (s.press c).dwell = some d) (hi : max d 1 ≤ (s.press c).inCount + 1) (hb : pressureInBand s c = true) :
    ∃ p, pressureWork c s = s.setPress c p ∧ p.stable = true := by
  refine ⟨_, pressureWork_counted he hm, ?_⟩
  simp [hb, Press.settled_eq, Press.judged, hd, (le_max_left d 1).trans hi]

/-- Settles O25: each exit is a step end of the state that the exit's own count has reached. -/
theorem stepEndAtTheLastPositionClosesOutComplete : Obligations.StepEndAtTheLastPositionClosesOutComplete := by
  refine ⟨?_, ?_, ?_⟩
  · intro s t c i hp hw hr h1 h2 hi
    have main : ∀ {x : ExitCause} {s₁ : State} {ps : List Part} {rs : List Bytes}, Frame ps rs [] s s₁ →
        ps ⊆ .pins :: closeParts c → Part.rep c ∉ ps → (∀ r ∈ rs, covered (closeBytes s c) r) → StartsFrom c s s₁ →
        SameStep c s s₁ → exec i s = .next (stepEnd c x s₁) → answers i s fun s' =>
          ClosesOut c .complete 0 (s.seq c).seg.count 0 s s' ∧ CountsStep c s s' ∧ flagsOnly [.report c] s s' ∧
            changesOnly (.pins :: closeParts c) s s' ∧ storesOnly (closeBytes s c) s s' := by
      intro x s₁ ps rs hf hps hrep hrs hs hk e
      refine ⟨_, e, ?_⟩
      obtain ⟨g1, g2, g3, -⟩ := stepEnd_completes (x := x) hf (fun p hp => by
        rcases List.mem_cons.mp (hps hp) with h | h
        · exact .inr (.inl h)
        · exact .inl h) hrep hrs hs hk hw hp h1 h2
      refine ⟨g1, g2, g3.flags, (g3.mono (fs' := [.report c]) ?_ (fun _ hr => covered_of_mem hr)).parts, g3.bytes⟩
      exact List.append_subset.mpr ⟨hps, List.subset_cons_self _ _⟩
    rcases hi with ⟨hi, h, ht, hm, ⟨tap, htap, hf⟩, hx⟩ | ⟨hi, h, hx, ht, hm, hd⟩ | ⟨rfl, h, hx, v, hv, hle⟩
    · have counts : timerCounts (s.setNow t) c = true := timerCounts_iff.mpr ⟨hr, by simp [ht], hm, tap, htap, hf⟩
      have seq := timerLower_seq (s := s.setNow t) (c := c)
      have lower : Frame [.now, .seq c] [(statusAddr c + 20, 4)] [] s (timerLower c (s.setNow t)) :=
        .trans .setNow (.timerLower (by simp) (by simp [covered, StatusWord.offset]))
      obtain ⟨x, ends⟩ := timerExpired_ends (s := timerLower c (s.setNow t)) (c := c) (by rw [seq]; exact hx)
      have key : exec i s = .next (stepEnd c x (timerLower c (s.setNow t))) := by
        rw [← ends, ← timerTick_last (s := s.setNow t) (by simp [ht])]
        rcases hi with rfl | rfl
        · exact (atTap_of_eventAt h _).trans (congrArg _ (workIf_true (by simp [timerEnds, counts, ht])))
        · exact (atTap_of_eventAt h _).trans (congrArg _ (workIf_true counts))
      refine main lower (by simp [closeParts]) (by simp) (by simpa using closeBytes_status (by omega) (by omega))
        (.of_frame lower (by rw [seq]; rfl) (by rw [seq]; rfl) (by simp)) ?_ key
      constructor <;> rw [seq] <;> rfl
    · have armed : endpointArmed (s.seq c) = true := endpointArmed_iff.mpr ⟨hr, hx, ht⟩
      have seq := endpointRaise_seq (s := endpointPin c true (s.setNow t)) (c := c)
      have sampled := endpointSampled_ends (s := endpointPin c true (s.setNow t)) (c := c) armed hm hd (by simp [endpointPin])
      have key : exec i s = .next (stepEnd c .endpoint (endpointRaise c (endpointPin c true (s.setNow t)))) := by
        rw [← sampled]
        rcases hi with rfl | rfl
        · exact (atTap_of_eventAt h _).trans (congrArg _ (workIf_true (by simp [endpointEnds, armed, hm, hd])))
        · exact (atTap_of_eventAt h _).trans (congrArg _ (workIf_true (by exact armed)))
      have raised : Frame [.now, .pins, .seq c] [] [] s (endpointRaise c (endpointPin c true (s.setNow t))) :=
        .trans (.setNow (t := t)) (.trans (.setPins (s := s.setNow t)) .modSeq)
      refine main raised (by simp [closeParts]) (by simp) (by simp)
        (.of_frame raised (by rw [seq]; rfl) (by rw [seq]; rfl) (by simp)) ?_ key
      constructor <;> rw [seq] <;> rfl
    · have below : pressureBelow (s.setNow t) c = true := pressureBelow_iff.mpr ⟨hr, hx, v, hv, hle⟩
      have moved : Frame [.now] [] [] s (s.setNow t) := .setNow
      exact main moved (by simp [closeParts]) (by simp) (by simp) (.of_frame moved rfl rfl (by simp)) (.of_seq rfl)
        ((atTap_of_eventAt h _).trans (congrArg _ (workIf_true below)))
  · intro s t c k d i hp hw h hi hr h1 h2 hx ho hsrc hramp hm hn hd hin hst hb hall hpress
    have he : evaluated (s.setNow t) k = true := evaluated_iff.mpr ⟨c, ho, hsrc, hr, hramp, hn⟩
    have work := lineWork_stabilizes he hm hd hin hb
    have becomes : lineBecomesStable (s.setNow t) k = true := by
      rw [lineBecomesStable, work]; simp [hst]
    have worked : Frame [.now, .line k] [] [] s (lineWork k (s.setNow t)) := by
      rw [work]; exact .trans .setNow .setLine
    have stable : ((lineWork k (s.setNow t)).line k).stable = true := by rw [work, State.setLine_line_same]
    have others : ∀ j, j ≠ k → (lineWork k (s.setNow t)).line j = s.line j := fun j hj =>
      worked.parts (.line j) (by simp [hj])
    have seq : (lineWork k (s.setNow t)).seq c = s.seq c := worked.parts (.seq c) (by simp)
    have prs : (lineWork k (s.setNow t)).press c = s.press c := worked.parts (.press c) (by simp)
    have ends : lineEvent k (s.setNow t) = stepEnd c .stable (lineWork k (s.setNow t)) := by
      have e : lineEvent k (s.setNow t) = stableReport c (lineWork k (s.setNow t)) := by
        simp [lineEvent, ho, becomes]
      rw [e, stableReport_ends (by rw [seq]; exact hr) (by rw [seq]; exact hx)]
      · rw [seq]
        intro e hmem
        by_cases hek : e.1 = k
        · rw [hek]; exact stable
        · rw [others _ hek]; exact hall e hmem hek
      · rw [seq, prs]; exact hpress
    have key : exec i s = .next (stepEnd c .stable (lineWork k (s.setNow t))) := by
      rw [← ends]
      rcases hi with rfl | rfl
      · exact (atTap_of_eventAt h _).trans (congrArg _ (workIf_true becomes))
      · exact atTap_of_eventAt h _
    refine ⟨_, key, ?_⟩
    obtain ⟨g1, g2, g3, g4, -⟩ := stepEnd_completes (x := .stable) worked (by simp [closeParts]) (by simp) (by simp)
      (.of_frame worked (by rw [seq]) (by rw [seq]) (by simp)) (.of_seq seq) hw hp h1 h2
    refine ⟨by rw [g4]; exact stable, g1, g2, g3.flags, (g3.mono (fs' := [.report c]) ?_ (fun _ hr => covered_of_mem hr)).parts, g3.bytes⟩
    simp [closeParts]
  · intro s t c d i hp hw h hi hr h1 h2 hx he hm hd hin hst hb hall
    obtain ⟨p, work, hps⟩ := pressureWork_stabilizes (s := s.setNow t) he hm hd hin hb
    have worked : Frame [.now, .press c] [] [] s (pressureWork c (s.setNow t)) := by
      rw [work]; exact .trans .setNow .setPress
    have stable : ((pressureWork c (s.setNow t)).press c).stable = true := by rw [work, State.setPress_press_same]; exact hps
    have becomes : pressureBecomesStable (s.setNow t) c = true := by simp [pressureBecomesStable, hst, stable]
    have seq : (pressureWork c (s.setNow t)).seq c = s.seq c := worked.parts (.seq c) (by simp)
    have lines : ∀ j, (pressureWork c (s.setNow t)).line j = s.line j := fun j => worked.parts (.line j) (by simp)
    have ends : pressureEvent c (s.setNow t) = stepEnd c .stable (pressureWork c (s.setNow t)) := by
      have e : pressureEvent c (s.setNow t) = stableReport c (pressureWork c (s.setNow t)) := by
        simp [pressureEvent, becomes]
      rw [e, stableReport_ends (by rw [seq]; exact hr) (by rw [seq]; exact hx) ?_ (.inr stable)]
      rw [seq]
      intro e hmem
      rw [lines]; exact hall e hmem
    have key : exec i s = .next (stepEnd c .stable (pressureWork c (s.setNow t))) := by
      rw [← ends]
      rcases hi with rfl | rfl
      · exact (atTap_of_eventAt h _).trans (congrArg _ (workIf_true becomes))
      · exact atTap_of_eventAt h _
    obtain ⟨d1, d2, d3⟩ := pressureWork_drives (s := s.setNow t) (c := c)
    have starts : StartsFrom c s (pressureWork c (s.setNow t)) :=
      ⟨restrictionNow_congr (worked.parts .tables (by simp)) fun k => worked.parts (.ilk k) (by simp), by rw [seq],
        by rw [seq], d1, d2, d3, worked.flags _ (by simp)⟩
    refine ⟨_, key, ?_⟩
    obtain ⟨g1, g2, g3, -, g5⟩ := stepEnd_completes (x := .stable) worked (by simp [closeParts]) (by simp) (by simp)
      starts (.of_seq seq) hw hp h1 h2
    refine ⟨by rw [g5]; exact stable, g1, g2, g3.flags, (g3.mono (fs' := [.report c]) ?_ (fun _ hr => covered_of_mem hr)).parts, g3.bytes⟩
    simp [closeParts]

end Sys2Proof.Machine
end

section
/-! The end of a run (R20, R32, R157, R158) and the lines that a chamber without shared lines drops (R68). -/

namespace Sys2Proof.Machine

variable {s s' s₁ : State} {c : Chamber} {k : LineId} {t : Moment}

/-! ### Lines dropped -/

/-- A line closed where it is open to a chamber and a test picks it. -/
def shutOpen (c : Chamber) (p : LineId → Bool) (k : LineId) (s : State) : State :=
  s.setLine k (if p k = true ∧ (s.line k).openTo = some c then (s.line k).shut else s.line k)

theorem dropLine_shutOpen {p : LineId → Bool} (h : ownsNoLine s c) :
    (if p k then dropLine c k s else s) = shutOpen c p k s := by
  have release : ∀ x, releaseLine c k (s.setLine k x) = s.setLine k x := fun x => if_neg (h k)
  have released : releaseLine c k s = s := if_neg (h k)
  unfold dropLine shutOpen
  by_cases hp : p k = true
  · by_cases ho : (s.line k).openTo = some c
    · simp only [hp, ho, if_true, true_and, State.modLine_eq, release]
    · simp only [hp, ho, if_true, if_false, and_false, released, State.setLine_self]
  · rw [if_neg hp, if_neg fun g => hp g.1, State.setLine_self]

theorem ownsNoLine_shutOpen {p : LineId → Bool} (h : ownsNoLine s c) : ownsNoLine (shutOpen c p k s) c := h

/-- A chamber that owns no shared line releases none with the lines it drops (R68, R89). -/
theorem dropLines_eq {p : LineId → Bool} (h : ownsNoLine s c) : dropLines c p s = forLines (shutOpen c p) s := by
  unfold dropLines forLines
  generalize List.finRange 16 = ks
  induction ks generalizing s with
  | nil => rfl
  | cons k ks ih =>
    rw [List.foldl_cons, List.foldl_cons]
    beta_reduce
    rw [dropLine_shutOpen h]
    exact ih (ownsNoLine_shutOpen h)

/-- The lines after a drop. -/
theorem dropLines_line {p : LineId → Bool} (h : ownsNoLine s c) (j : LineId) : (dropLines c p s).line j =
    if p j = true ∧ (s.line j).openTo = some c then (s.line j).shut else s.line j := by
  rw [dropLines_eq h, forLines]
  rw [foldl_lines (f := shutOpen c p)
    (g := fun k s => if p k = true ∧ (s.line k).openTo = some c then (s.line k).shut else s.line k) (fun _ _ => rfl)
    (fun j k s x e => by simp only [State.setLine_line_ne s j x k (Ne.symm e)]) _ (List.nodup_finRange 16)]
  simp

theorem mem_allLines : Part.line k ∈ allLines := by simp [allLines]

theorem Frame.dropLines {ps : List Part} {rs : List Bytes} {fs : List EventFlag} {p : LineId → Bool} (h : ownsNoLine s c)
    (hp : allLines ⊆ ps) : Frame ps rs fs s (Machine.dropLines c p s) := by
  rw [dropLines_eq h]
  exact .forLines fun k s => .setLine (hp mem_allLines)

/-! ### Slots answered -/

/-- The sequencer with the slot that a test picks not-TAKEN. -/
def Seq.freed (q : Seq) (p : SlotHold → Bool) : Seq :=
  match q.slotWith p with
  | some i => { q with slots := q.slots.set i .free }
  | none => q

theorem slotWith_some {q : Seq} {p : SlotHold → Bool} {i : Fin 2} (h : q.slotWith p = some i) : p q.slots[i] = true := by
  simpa using List.find?_some h

theorem Seq.freed_slots {q : Seq} {p : SlotHold → Bool} (i : Fin 2) :
    (q.freed p).slots[i] = if q.slotWith p = some i then .free else q.slots[i] := by
  unfold Seq.freed
  split
  · next j hj =>
    rw [hj, Fin.getElem_fin, Vector.getElem_set]
    simp only [Option.some.injEq, Fin.ext_iff]
    rfl
  · next hn => rw [hn, if_neg (by simp)]

theorem doneSlot_seq {i : Fin 2} {o : Code} {d n : Nat} :
    (doneSlot c i o d n s).seq c = { s.seq c with slots := (s.seq c).slots.set i .free } := by
  simp [doneSlot, holdSlot, State.modSeq_eq]

theorem doneHeld_seq {p : SlotHold → Bool} {o : Code} {d n : Nat} : (doneHeld c p o d n s).seq c = (s.seq c).freed p := by
  unfold doneHeld Seq.freed
  cases (s.seq c).slotWith p with
  | some i => exact doneSlot_seq
  | none => rfl

/-- What answering a slot DONE may change (R20). -/
theorem Frame.doneSlot {i : Fin 2} {o : Code} {d n : Nat} :
    Frame [.seq c, .summary] (answerBytes c i) [.order c] s (Machine.doneSlot c i o d n s) :=
  .trans (.writeSlot fun r hr => covered_of_mem hr) (.trans .modSeq .raise)

theorem Frame.doneHeld {p : SlotHold → Bool} {o : Code} {d n : Nat} :
    Frame [.seq c, .summary] [slotBytes c] [.order c] s (Machine.doneHeld c p o d n s) := by
  unfold Machine.doneHeld
  split
  · exact Frame.doneSlot.mono (fs' := [.order c]) (by simp) (covered_answerBytes (by simp))
  · exact .refl s

theorem doneSlot_reads {i : Fin 2} {o : Code} {d n : Nat} : (doneSlot c i o d n s).word (slotAddr c i) = 3 ∧
    (doneSlot c i o d n s).word (slotAddr c i + 20) = o.code ∧ (doneSlot c i o d n s).flagSet (.order c) = true := by
  have hb := slotAddr_top c i
  have ho := o.code_lt_65536
  have mem : (doneSlot c i o d n s).mem = memPutWord (memPutWords s.mem (slotAddr c i + 20) [o.code, d, n]) (slotAddr c i) 3 := by
    simp only [doneSlot, holdSlot, writeSlot, raise_mem, State.modSeq_eq, State.setSeq_mem, State.putWord_mem_same,
      State.putWords_mem_same]
  refine ⟨?_, ?_, flagSet_raise_same⟩
  · rw [State.word, mem, memField_memPutWord_same]
  · have h := memField_memPutWords_inside s.mem (slotAddr c i + 20) [o.code, d, n] 0 (by simp)
      (by simp only [List.length_cons, List.length_nil, Config.memorySize]; omega)
    rw [State.word, mem, memField_memPutWord_outside _ _ _ _ _ (by simp only [Config.memorySize]; omega)
      (by simp only [Config.memorySize]; omega) (by omega)]
    exact h.trans (Nat.mod_eq_of_lt (by simp only [List.getElem_cons_zero]; omega))

/-- The two slots lie apart. -/
theorem answerBytes_apart {i j : Fin 2} (h : j ≠ i) {a : Nat} (h1 : slotAddr c i ≤ a) (h2 : a + 4 ≤ slotAddr c i + 64) :
    ∀ r ∈ answerBytes c j, r.1 + r.2 ≤ Config.memorySize ∧ (a + 4 ≤ r.1 ∨ r.1 + r.2 ≤ a) := by
  have hi := slotAddr_top c i
  have hj := slotAddr_top c j
  have apart : slotAddr c j + 64 ≤ slotAddr c i ∨ slotAddr c i + 64 ≤ slotAddr c j := by
    have : j.val ≠ i.val := fun e => h (Fin.ext e)
    have := i.isLt
    have := j.isLt
    simp only [slotAddr]
    omega
  simp only [answerBytes, List.mem_cons, List.not_mem_nil, or_false, forall_eq_or_imp, forall_eq, Config.memorySize]
  omega

/-! ### The end of a run -/

/-- The sequencer of a run that has ended (R32). -/
def Seq.ended (q : Seq) : Seq :=
  { (q.freed SlotHold.isCurrent).freed SlotHold.isPending with
    loop := [], pendingSeg := none, lastOutcome := q.outcome, shownDepth := 0, saved := 0, stage := .none, run := .idle }

theorem Seq.freed_outcome {q : Seq} {p : SlotHold → Bool} : (q.freed p).outcome = q.outcome := by
  unfold Seq.freed
  split <;> rfl

/-- The run's slots answered (R20, R32). -/
def answerRun (c : Chamber) (q : Seq) (s : State) : State :=
  doneHeld c SlotHold.isPending .notRun 0 0
    (doneHeld c SlotHold.isCurrent q.outcome q.runDetail (shownCount 32 q.segDone) s)

/-- The run IDLE, and its status words (R32). -/
def showEnd (c : Chamber) (s : State) : State :=
  showWord c .pending (showWord c .index (showWord c .outcome (setRun c .idle (s.modSeq c fun r =>
    { r with loop := [], pendingSeg := none, lastOutcome := r.outcome, shownDepth := 0, saved := 0, stage := .none }))))

/-- The RUN_END entry of a run (R32, R158). -/
def runEndEntry (c : Chamber) (elapsed flags : Nat) (s : State) : Entry :=
  { kind := .runEnd
    fault := if (s.seq c).outcome = .complete ∨ (s.seq c).outcome = .abortedHost then 0 else (s.seq c).outcome.code
    second := (s.seq c).second.code, flags := flags, elapsed := elapsed, rfOn := (s.seq c).rfTotal
    pressure := s.valueAt (s.chamberCfg c).manometer }

theorem finishRun_eq {e f : Nat} : finishRun c e f s =
    showEnd c (answerRun c (s.seq c) (closeShort c (produce c (runEndEntry c e f s) s))) := by
  simp only [finishRun, showEnd, answerRun, runEndEntry]

theorem showEnd_seq : (showEnd c s).seq c = { s.seq c with
    loop := [], pendingSeg := none, lastOutcome := (s.seq c).outcome, shownDepth := 0, saved := 0, stage := .none
    run := .idle } := by
  simp [showEnd, setRun, State.modSeq_eq]

theorem answerRun_seq {q : Seq} :
    (answerRun c q s).seq c = ((s.seq c).freed SlotHold.isCurrent).freed SlotHold.isPending := by
  rw [answerRun, doneHeld_seq, doneHeld_seq]

theorem reportTail {e : Entry} (hp : PagesFit s) : Frame [.rep c, .summary] (noticeBytes s.tables.partition c) [.report c] s
    (closeShort c (produce c e s)) :=
  .trans (.produce_notice hp) (.closeShort (covered_of_mem (by simp [noticeBytes])))

theorem closeShort_next : ((closeShort c s).rep c).next = (s.rep c).next := by
  unfold closeShort
  split
  · split
    · rw [announceFull_rep, State.modPage_next]
    · rfl
  · rfl

theorem Frame.answerRun {q : Seq} : Frame [.seq c, .summary] [slotBytes c] [.order c] s (Machine.answerRun c q s) :=
  .trans .doneHeld .doneHeld

theorem Frame.showEnd {fs : List EventFlag} : Frame [.seq c] [statusBytes c] fs s (Machine.showEnd c s) :=
  .trans .modSeq <| .trans .setRun <| .trans .showWord <| .trans .showWord .showWord

/-- The words that the end of a run shows. -/
theorem showEnd_shown : memField (showEnd c s).mem (statusAddr c) 1 = 0 ∧
    memField (showEnd c s).mem (statusAddr c + 10) 2 = (s.seq c).outcome.code ∧
    memField (showEnd c s).mem (statusAddr c + 18) 2 = 0 ∧ memField (showEnd c s).mem (statusAddr c + 62) 2 = 0 := by
  have hb := statusAddr_bounds c
  have apart : ∀ {u : State} {w : StatusWord} {a n : Nat}, a + n ≤ 0x1000 → (a + n ≤ statusAddr c + w.offset ∨ statusAddr c + w.offset + 4 ≤ a) →
      memField (showWord c w u).mem a n = memField u.mem a n := fun {u w a n} h1 h2 => by
    have := w.offset_le
    exact memField_memPutWord_outside _ _ _ _ _ (by simp only [Config.memorySize]; omega)
      (by simp only [Config.memorySize]; omega) (by omega)
  have high : ∀ {u : State} {w : StatusWord} {v x : Nat}, statusValue u c w = pack16 v x →
      memField (showWord c w u).mem (statusAddr c + w.offset + 2) 2 = x % 65536 := fun {u w v x} h => by
    rw [showWord_mem_same, h]; exact field_pack16_high
  unfold showEnd
  generalize hu : (s.modSeq c fun r =>
    { r with loop := [], pendingSeg := none, lastOutcome := r.outcome, shownDepth := 0, saved := 0, stage := .none }) = u
  have hq : u.seq c = { s.seq c with
      loop := [], pendingSeg := none, lastOutcome := (s.seq c).outcome, shownDepth := 0, saved := 0, stage := .none } := by
    rw [← hu]; simp [State.modSeq_eq]
  have hv : (setRun c .idle u).seq c = { u.seq c with run := .idle } := by simp [setRun, State.modSeq_eq]
  refine ⟨?_, ?_, ?_, ?_⟩
  · rw [apart (by omega) (.inl (by simp [StatusWord.offset])), apart (by omega) (.inl (by simp [StatusWord.offset])),
      apart (by omega) (.inl (by simp [StatusWord.offset])), setRun_shown]
    rfl
  · rw [apart (by omega) (.inl (by simp [StatusWord.offset])), apart (by omega) (.inl (by simp [StatusWord.offset]))]
    refine (high (w := .outcome) rfl).trans ?_
    rw [hv, hq]
    exact Nat.mod_eq_of_lt (s.seq c).outcome.code_lt_65536
  · rw [apart (by omega) (.inl (by simp [StatusWord.offset]))]
    refine (high (w := .index) rfl).trans ?_
    rw [showWord_seq, hv, hq]
    rfl
  · refine (high (w := .pending) rfl).trans ?_
    rw [showWord_seq, showWord_seq, hv, hq]
    rfl

/-- The slot of the current segment, answered DONE at the end of its run. -/
theorem answerRun_slot {q : Seq} {i : Fin 2} (h : (s.seq c).slotWith SlotHold.isCurrent = some i) :
    (((s.seq c).freed SlotHold.isCurrent).freed SlotHold.isPending).slots[i] = .free ∧
      (answerRun c q s).word (slotAddr c i) = 3 ∧ (answerRun c q s).word (slotAddr c i + 20) = q.outcome.code ∧
      (answerRun c q s).flagSet (.order c) = true := by
  have hb := slotAddr_top c i
  have freed : ((s.seq c).freed SlotHold.isCurrent).slots[i] = .free := by rw [Seq.freed_slots, if_pos h]
  have first : doneHeld c SlotHold.isCurrent q.outcome q.runDetail (shownCount 32 q.segDone) s =
      doneSlot c i q.outcome q.runDetail (shownCount 32 q.segDone) s := by
    unfold doneHeld; rw [h]
  obtain ⟨r1, r2, r3⟩ := doneSlot_reads (s := s) (c := c) (i := i) (o := q.outcome) (d := q.runDetail)
    (n := shownCount 32 q.segDone)
  have seq := doneHeld_seq (s := s) (c := c) (p := SlotHold.isCurrent) (o := q.outcome) (d := q.runDetail)
    (n := shownCount 32 q.segDone)
  rw [first] at seq
  rw [answerRun, first]
  generalize doneSlot c i q.outcome q.runDetail (shownCount 32 q.segDone) s = u at r1 r2 r3 seq
  refine ⟨?_, ?_⟩
  · rw [Seq.freed_slots, freed]
    split <;> rfl
  · unfold doneHeld
    split
    · next j hj =>
      have hne : j ≠ i := by
        rintro rfl
        have := slotWith_some hj
        rw [seq, freed] at this
        exact absurd this (by decide)
      have done := Frame.doneSlot (s := u) (c := c) (i := j) (o := .notRun) (d := 0) (n := 0)
      exact ⟨(done.word (by simp only [Config.memorySize]; omega) (answerBytes_apart hne le_rfl (by omega))).trans r1,
        (done.word (by simp only [Config.memorySize]; omega) (answerBytes_apart hne (by omega) (by omega))).trans r2,
        flagSet_raise_same⟩
    · exact ⟨r1, r2, r3⟩

/-- What the END stage leaves (R32, R99, R157). -/
theorem endStage_ends (hp : PagesFit s) : EndsRun c s (endStage c s) ∧ (endStage c s).seq c = (s.seq c).ended ∧
    Frame [.summary, .seq c, .press c, .rep c] (endBytes s c) [.order c, .report c] s (endStage c s) := by
  have e : endStage c s = openThrottle c (finishRun c (s.seq c).closeElapsed
      (bitIf (s.seq c).closeClamped 1 + bitIf (s.seq c).pumpOutIncomplete 16) s) := rfl
  rw [e, finishRun_eq]
  generalize runEndEntry c (s.seq c).closeElapsed
    (bitIf (s.seq c).closeClamped 1 + bitIf (s.seq c).pumpOutIncomplete 16) s = entry
  have report := reportTail (c := c) (e := entry) hp
  have hnext : ((closeShort c (produce c entry s)).rep c).next = ((s.rep c).next + 1) % 65536 := by
    rw [closeShort_next, produce_next]
  generalize closeShort c (produce c entry s) = u at report hnext
  have useq : u.seq c = s.seq c := report.parts (.seq c) (by simp)
  have answered := Frame.answerRun (s := u) (c := c) (q := s.seq c)
  have aseq := answerRun_seq (s := u) (c := c) (q := s.seq c)
  have aslot := fun i h => answerRun_slot (s := u) (c := c) (q := s.seq c) (i := i) h
  rw [useq] at aseq aslot
  generalize answerRun c (s.seq c) u = v at answered aseq aslot
  have shown := Frame.showEnd (s := v) (c := c) (fs := [])
  have sseq := showEnd_seq (s := v) (c := c)
  obtain ⟨w1, w2, w3, w4⟩ := showEnd_shown (s := v) (c := c)
  generalize showEnd c v = w at shown sseq w1 w2 w3 w4
  have wseq : w.seq c = (s.seq c).ended := by simp only [sseq, aseq, Seq.ended, Seq.freed_outcome]
  rw [aseq, Seq.freed_outcome, Seq.freed_outcome] at w2
  have hseq : (openThrottle c w).seq c = w.seq c := rfl
  have hmem : (openThrottle c w).mem = w.mem := rfl
  have hb := statusAddr_bounds c
  have wrep : w.rep c = u.rep c := Eq.trans (shown.parts (.rep c) (by simp)) (answered.parts (.rep c) (by simp))
  refine ⟨?_, hseq.trans wseq, ?_⟩
  · refine ⟨by rw [hseq, wseq]; rfl, by rw [hseq, wseq]; rfl, by rw [hseq, wseq]; rfl, by rw [hseq, wseq]; rfl, w1, w2, w3, w4,
      ?_, ?_, fun i hi => ?_⟩
    · exact (congrArg Rep.next wrep).trans hnext
    · simp [openThrottle, State.modPress_eq, Press.driven, pressureOutput]
    · obtain ⟨a1, a2, a3, a4⟩ := aslot i hi
      have hs := slotAddr_top c i
      have keep : ∀ j, j + 4 ≤ 64 → w.word (slotAddr c i + j) = v.word (slotAddr c i + j) := fun j hj =>
        shown.word (by simp only [Config.memorySize]; omega) fun r hr => by
          obtain rfl : r = statusBytes c := by simpa using hr
          simp only [statusBytes, Config.memorySize]; omega
      refine ⟨by rw [hseq, wseq]; exact a1, (keep 0 (by decide)).trans a2, (keep 20 (by decide)).trans a3, ?_⟩
      exact (shown.flags _ (by simp)).trans a4
  · refine .trans (report.mono (by simp) ?_) <| .trans (answered.mono (by simp) ?_) <| .trans (shown.mono (by simp) ?_)
      .modPress
    · simp only [noticeBytes, List.mem_cons, List.not_mem_nil, or_false, forall_eq_or_imp, forall_eq]
      exact ⟨⟨statusBytes c, by simp [endBytes], by simp [pageBytes, statusBytes], by simp [pageBytes, statusBytes]⟩,
        covered_of_mem (by simp [endBytes])⟩
    · simpa using covered_of_mem (by simp [endBytes])
    · simpa using covered_of_mem (by simp [endBytes])

/-- The end of a run over work that leaves its outcome, its slots and its sequence number. -/
theorem EndsRun.of_start (h : EndsRun c s₁ s') (outcome : (s₁.seq c).outcome = (s.seq c).outcome)
    (slots : (s₁.seq c).slots = (s.seq c).slots) (next : (s₁.rep c).next = (s.rep c).next) : EndsRun c s s' := by
  have held : ∀ p, (s₁.seq c).slotWith p = (s.seq c).slotWith p := fun p => by simp only [Seq.slotWith, slots]
  exact
    { h with
      outcome := h.outcome.trans outcome
      shownOutcome := h.shownOutcome.trans (congrArg Code.code outcome)
      entry := next ▸ h.entry
      slot := fun i hi => outcome ▸ h.slot i ((held _).trans hi) }

end Sys2Proof.Machine
end

section
/-! The stages of close-out: GAS_OFF, PURGE, PUMP_OUT and END (R154 to R157). -/

namespace Sys2Proof.Machine

variable {s s' : State} {c : Chamber} {k : LineId} {t : Moment}

/-! ### PUMP_OUT and END -/

theorem Seq.freed_pumpOutIncomplete {q : Seq} {p : SlotHold → Bool} :
    (q.freed p).pumpOutIncomplete = q.pumpOutIncomplete := by
  unfold Seq.freed
  split <;> rfl

theorem Seq.ended_pumpOutIncomplete (q : Seq) : q.ended.pumpOutIncomplete = q.pumpOutIncomplete :=
  Seq.freed_pumpOutIncomplete.trans Seq.freed_pumpOutIncomplete

/-- Whether PUMP_OUT is entered (R156). -/
def pumpsOut (s : State) (c : Chamber) : Prop :=
  (s.seq c).restriction ≠ .noPurgeNoPumpOut ∧ (s.pump c).st = .pumped ∧ (s.chamberCfg c).closeLimit ≠ 0

theorem judgePumpOut_enters (h : pumpsOut s c) : judgePumpOut c s = s.modSeq c fun q =>
    { q with stage := .pumpOut, closeLimit := (s.chamberCfg c).closeLimit, closeLimitMark := s.now, stageMark := s.now } :=
  if_pos h
theorem judgePumpOut_skips (h : ¬ pumpsOut s c) : judgePumpOut c s = endStage c s := if_neg h

/-- Whether PURGE is entered on leaving GAS_OFF (R155). -/
def purges (s : State) (c : Chamber) : Prop :=
  (s.seq c).restriction = .none ∧ (s.pump c).st = .pumped ∧ (s.chamberCfg c).purgeLine ≠ 0 ∧ (s.chamberCfg c).purgeTime ≠ 0

/-- A purge line opens at once where the gas inhibit does not stand (R81, R83). -/
theorem openPurge_opens {src : Source} {flow : Nat} (hk : s.purgeLine c = some k) (hg : s.gasInhibit c = false) :
    openPurge c src flow s = s.modLine k fun l => l.purging c src (s.lineCfg k) flow := by
  unfold openPurge
  rw [hk]
  simp only [hg, Bool.false_eq_true, if_false]

theorem judgePurge_skips (h : ¬ purges s c) : judgePurge c s = judgePumpOut c s := if_neg h
theorem judgePurge_enters (h : purges s c) (hk : s.purgeLine c = some k) (hg : s.gasInhibit c = false) :
    judgePurge c s = (s.modSeq c fun q =>
      { q with
        stage := .purge, purgeTimer := (s.chamberCfg c).purgeTime, stageMark := s.now
        closeClamped := q.closeClamped || commandClamps (s.chamberCfg c).purgeFlow (s.lineCfg k) }).modLine k fun l =>
        l.purging c .purge (s.lineCfg k) (s.chamberCfg c).purgeFlow := by
  have clamps : purgeClamps s c (s.chamberCfg c).purgeFlow = commandClamps (s.chamberCfg c).purgeFlow (s.lineCfg k) := by
    simp [purgeClamps, hk, hg]
  refine (if_pos h).trans ?_
  rw [clamps]
  exact openPurge_opens hk hg

/-- The gas off and the throttle open, before close-out goes on (R99, R154). -/
def gasOff (c : Chamber) (s : State) : State := openThrottle c (dropAll c s)

theorem gasOffStage_eq : gasOffStage c s = judgePurge c (gasOff c s) := rfl

theorem gasOff_line (h : ownsNoLine s c) (j : LineId) :
    (gasOff c s).line j = if (s.line j).openTo = some c then (s.line j).shut else s.line j := by
  have e := dropLines_line (p := fun _ => true) h j
  simp only [true_and] at e
  simp only [gasOff, openThrottle, dropAll, State.modPress_eq, State.setPress_line, e]

theorem Frame.dropAll {ps : List Part} {rs : List Bytes} {fs : List EventFlag} (h : ownsNoLine s c) (hp : allLines ⊆ ps) :
    Frame ps rs fs s (Machine.dropAll c s) := by
  unfold Machine.dropAll
  exact .dropLines h hp

/-- A frame's parts beside all lines. -/
theorem subset_lines {as bs : List Part} (h : as ⊆ bs) : as ++ allLines ⊆ bs ++ allLines :=
  List.append_subset.mpr ⟨fun _ hp => List.mem_append_left _ (h hp), List.subset_append_right _ _⟩

theorem Frame.openThrottle {ps : List Part} {rs : List Bytes} {fs : List EventFlag} (h : .press c ∈ ps := by simp) :
    Frame ps rs fs s (Machine.openThrottle c s) := .modPress h

theorem Frame.gasOff {rs : List Bytes} {fs : List EventFlag} (h : ownsNoLine s c) :
    Frame (.press c :: allLines) rs fs s (Machine.gasOff c s) :=
  Frame.trans (.dropAll h (List.subset_cons_self _ _)) (.openThrottle (List.mem_cons_self ..))

theorem gasOff_press : ((gasOff c s).press c).target = 0 ∧ ((gasOff c s).press c).output = 0 ∧
    ((gasOff c s).press c).throttleOpen = true ∧ ((gasOff c s).press c).evaluating = false := by
  simp [gasOff, openThrottle, State.modPress_eq, Press.driven, pressureOutput]

theorem inStage_iff {stage : CloseStage} : inStage s c stage = true ↔
    (s.seq c).run = .closing ∧ (s.seq c).stage = stage ∧ (s.seq c).stageMark < s.now := by
  simp [inStage, State.after, and_assoc]

theorem purgeLine_ne_zero (h : s.purgeLine c = some k) : (s.chamberCfg c).purgeLine ≠ 0 := by
  intro e
  rw [State.purgeLine, e, show lineIndex? 0 = none from rfl] at h
  cases h

/-- The parts that GAS_OFF leaves. -/
theorem gasOff_same {p : Part} (h : ownsNoLine s c) (h1 : p ≠ .press c) (h2 : ∀ k, p ≠ .line k) : p.same s (gasOff c s) := by
  refine (Frame.gasOff (rs := []) (fs := []) h).parts p fun hp => ?_
  rcases List.mem_cons.mp hp with e | hl
  · exact h1 e
  · obtain ⟨k, -, e⟩ := List.mem_map.mp hl
    exact h2 k e.symm

/-- Settles O47: the lines and the throttle by what GAS_OFF leaves, then the branches of PURGE and PUMP_OUT. -/
theorem gasOffDropsTheLinesAndGoesOn : Obligations.GasOffDropsTheLinesAndGoesOn := by
  have start : ∀ (s : State) (t : Moment) (c : Chamber), eventAt .t1 t s → (s.seq c).run = .closing →
      (s.seq c).stage = .rfOff → (s.seq c).stageMark < t → ownsNoLine s c →
      exec (.gasOff t c) s = .next (judgePurge c (gasOff c (s.setNow t))) ∧
        Frame ([.now, .press c] ++ allLines) [] [] s (gasOff c (s.setNow t)) ∧
        (∀ p : Part, p ≠ .press c → (∀ k, p ≠ .line k) → p.same (s.setNow t) (gasOff c (s.setNow t))) := by
    intro s t c h hr hs hm ho
    have ho' : ownsNoLine (s.setNow t) c := ho
    refine ⟨?_, .trans .setNow ((Frame.gasOff (rs := []) (fs := []) ho').mono (by simp)), fun p h1 h2 => gasOff_same ho' h1 h2⟩
    rw [← gasOffStage_eq]
    exact (atTap_of_eventAt h _).trans (congrArg _ (workIf_true (inStage_iff.mpr ⟨hr, hs, hm⟩)))
  refine ⟨?_, ?_, ?_, ?_⟩
  · intro s t c k h hr hs hm ho hres hpump hk htime hg
    obtain ⟨e, frame, same⟩ := start s t c h hr hs hm ho
    have line := gasOff_line (s := s.setNow t) (c := c) ho
    have press := gasOff_press (s := s.setNow t) (c := c)
    generalize gasOff c (s.setNow t) = u at e frame same line press
    have seq : u.seq c = s.seq c := same (.seq c) (by simp) (by simp)
    have pump : u.pump c = s.pump c := same (.pump c) (by simp) (by simp)
    have tables : u.tables = s.tables := same .tables (by simp) (by simp)
    have gas : u.gasInhibit c = s.gasInhibit c := same (.gasInhibit c) (by simp) (by simp)
    have now : u.now = t := same .now (by simp) (by simp)
    have cfg : u.chamberCfg c = s.chamberCfg c := by simp only [State.chamberCfg, tables]
    have lcfg : u.lineCfg k = s.lineCfg k := by simp only [State.lineCfg, tables]
    have pl : u.purgeLine c = some k := by rw [State.purgeLine, cfg]; exact hk
    have enter := judgePurge_enters (s := u) (c := c) (k := k)
      ⟨by rw [seq]; exact hres, by rw [pump]; exact hpump, purgeLine_ne_zero pl, by rw [cfg]; exact htime⟩ pl (gas.trans hg)
    rw [cfg, lcfg, now] at enter
    refine ⟨_, e, ?_⟩
    rw [enter]
    refine ⟨by simp [State.modLine_eq, State.modSeq_eq, seq], fun j => ?_, press, Frame.keeps (fs := []) ?_⟩
    · rw [State.modLine_eq]
      by_cases hj : j = k
      · subst hj
        rw [State.setLine_line_same, if_pos rfl, State.modSeq_eq, State.setSeq_line, line j]
        by_cases hj : (s.line j).openTo = some c
        · rw [if_pos (by exact hj)]; rfl
        · rw [if_neg (by exact hj)]; rfl
      · rw [State.setLine_line_ne _ _ _ _ hj, if_neg hj, State.modSeq_eq, State.setSeq_line, line j]
        rfl
    · exact .trans (frame.mono (subset_lines (by simp))) (.trans .modSeq (.modLine (by simp [mem_allLines])))
  · intro s t c h hr hs hm ho hres hpump hlim
    obtain ⟨e, frame, same⟩ := start s t c h hr hs hm ho
    have line := gasOff_line (s := s.setNow t) (c := c) ho
    have press := gasOff_press (s := s.setNow t) (c := c)
    generalize gasOff c (s.setNow t) = u at e frame same line press
    have seq : u.seq c = s.seq c := same (.seq c) (by simp) (by simp)
    have pump : u.pump c = s.pump c := same (.pump c) (by simp) (by simp)
    have tables : u.tables = s.tables := same .tables (by simp) (by simp)
    have now : u.now = t := same .now (by simp) (by simp)
    have cfg : u.chamberCfg c = s.chamberCfg c := by simp only [State.chamberCfg, tables]
    have skip : ¬ purges u c := by
      rintro ⟨h1, -, h3, h4⟩
      rw [seq] at h1
      rw [cfg] at h3 h4
      rcases hres with hres | ⟨-, hz | hz⟩
      · rw [hres] at h1; exact absurd h1 (by decide)
      · exact h3 hz
      · exact h4 hz
    have out : pumpsOut u c := by
      refine ⟨?_, by rw [pump]; exact hpump, by rw [cfg]; exact hlim⟩
      rw [seq]
      rcases hres with hres | ⟨hres, -⟩ <;> rw [hres] <;> decide
    refine ⟨_, e, ?_⟩
    rw [judgePurge_skips skip, judgePumpOut_enters out, cfg, now]
    exact ⟨by simp [State.modSeq_eq, seq], line, ⟨press.1, press.2.1, press.2.2.1⟩,
      Frame.keeps (fs := []) (.trans (frame.mono (subset_lines (by simp))) .modSeq)⟩
  · intro s t c h hp hr hs hm ho hres
    obtain ⟨e, frame, same⟩ := start s t c h hr hs hm ho
    have line := gasOff_line (s := s.setNow t) (c := c) ho
    generalize gasOff c (s.setNow t) = u at e frame same line
    have seq : u.seq c = s.seq c := same (.seq c) (by simp) (by simp)
    have pump : u.pump c = s.pump c := same (.pump c) (by simp) (by simp)
    have tables : u.tables = s.tables := same .tables (by simp) (by simp)
    have rep : ∀ d, u.rep d = s.rep d := fun d => same (.rep d) (by simp) (by simp)
    have skip : ¬ purges u c := by
      rintro ⟨h1, h2, -⟩
      rw [seq] at h1
      rw [pump] at h2
      rcases hres with hres | hres
      · rw [hres] at h1; exact absurd h1 (by decide)
      · exact hres h2
    have noOut : ¬ pumpsOut u c := by
      rintro ⟨h1, h2, -⟩
      rw [seq] at h1
      rw [pump] at h2
      exact hres.elim h1 fun g => g h2
    obtain ⟨ends, -, ending⟩ := endStage_ends (s := u) (c := c) (pagesFit_congr tables rep hp)
    have bytes : endBytes u c = endBytes s c := by simp only [endBytes, tables]
    rw [bytes] at ending
    refine ⟨_, e, ?_⟩
    rw [judgePurge_skips skip, judgePumpOut_skips noOut]
    generalize endStage c u = v at ends ending
    have full : Frame ([.now, .summary, .seq c, .press c, .rep c] ++ allLines) (endBytes s c) [.order c, .report c] s v :=
      .trans (frame.mono (subset_lines (by simp)) (by simp) (by simp)) (ending.mono (by simp) fun _ hr => covered_of_mem hr)
    exact ⟨ends.of_start (by rw [seq]) (by rw [seq]) (by rw [rep]),
      fun j => Eq.trans (ending.parts (.line j) (by simp)) (line j), full.flags, full.parts, full.bytes⟩
  · intro s t c h hn
    refine answers_atTap h (body := workIf (fun s => inStage s c .rfOff) (gasOffStage c)) rfl ?_
    rw [workIf_false]
    · exact setNow_keeps
    · rw [Bool.eq_false_iff, Ne, inStage_iff]
      rintro ⟨h1, h2, h3⟩
      exact hn.elim (fun g => g h1) fun g => g.elim (fun g => g h2) fun g => Nat.not_lt.mpr g h3

end Sys2Proof.Machine
end

section
/-! The timers and ends of the close-out stages (R155 to R157). -/

namespace Sys2Proof.Machine

variable {s s' s₁ : State} {c : Chamber} {k : LineId} {t : Moment}

/-- The purge timer one lower. -/
def purgeLower (c : Chamber) (s : State) : State :=
  s.modSeq c fun q => { q with purgeTimer := q.purgeTimer - 1, stageMark := s.now }
/-- The close limit one lower. -/
def closeLimitLower (c : Chamber) (s : State) : State :=
  s.modSeq c fun q => { q with closeLimit := q.closeLimit - 1, closeLimitMark := s.now }

theorem purgeLower_seq : (purgeLower c s).seq c =
    { s.seq c with purgeTimer := (s.seq c).purgeTimer - 1, stageMark := s.now } := by simp [purgeLower, State.modSeq_eq]
theorem closeLimitLower_seq : (closeLimitLower c s).seq c =
    { s.seq c with closeLimit := (s.seq c).closeLimit - 1, closeLimitMark := s.now } := by
  simp [closeLimitLower, State.modSeq_eq]

theorem purgeTick_running (h : 1 < (s.seq c).purgeTimer) : purgeTick c s = purgeLower c s := by
  refine if_neg (c := ((purgeLower c s).seq c).purgeTimer = 0) ?_
  rw [purgeLower_seq]; simp only; omega
theorem purgeTick_last (h : (s.seq c).purgeTimer ≤ 1) : purgeTick c s = endPurge c (purgeLower c s) := by
  refine if_pos (c := ((purgeLower c s).seq c).purgeTimer = 0) ?_
  rw [purgeLower_seq]; simp only; omega
theorem closeLimitTick_running (h : 1 < (s.seq c).closeLimit) : closeLimitTick c s = closeLimitLower c s := by
  refine if_neg (c := ((closeLimitLower c s).seq c).closeLimit = 0) ?_
  rw [closeLimitLower_seq]; simp only; omega
theorem closeLimitTick_last (h : (s.seq c).closeLimit ≤ 1) : closeLimitTick c s = pumpOutFails c (closeLimitLower c s) := by
  refine if_pos (c := ((closeLimitLower c s).seq c).closeLimit = 0) ?_
  rw [closeLimitLower_seq]; simp only; omega

theorem closeLimitCounts_iff : closeLimitCounts s c = true ↔
    (s.seq c).run = .closing ∧ (s.seq c).stage = .pumpOut ∧ (s.seq c).closeLimitMark < s.now := by
  simp [closeLimitCounts, State.after, and_assoc]

theorem pumpOutReached_iff : pumpOutReached s c = true ↔
    ∃ v, s.freshAt (s.chamberCfg c).manometer = some v ∧ v ≤ (s.chamberCfg c).closePressure := by
  unfold pumpOutReached
  cases s.freshAt (s.chamberCfg c).manometer <;> simp

/-- The purge line dropped at the end of PURGE, before PUMP_OUT is judged (R155). -/
def purgeOff (c : Chamber) (s : State) : State := dropPurge c (s.modSeq c fun q => { q with purgeEndMark := s.now })

theorem endPurge_eq : endPurge c s = judgePumpOut c (purgeOff c s) := rfl

theorem purgeOff_line (h : ownsNoLine s c) (j : LineId) : (purgeOff c s).line j =
    if (s.line j).openTo = some c ∧ ((s.line j).source = .purge ∨ (s.line j).source = .idlePurge) then (s.line j).shut
    else s.line j := by
  have h' : ownsNoLine (s.modSeq c fun q => { q with purgeEndMark := s.now }) c := h
  rw [purgeOff, dropPurge, dropLines_line h']
  simp only [State.modSeq_eq, State.setSeq_line]
  exact if_congr ⟨fun h => of_decide_eq_true h.1, fun h => ⟨decide_eq_true h, h.1⟩⟩ rfl rfl

theorem Frame.dropPurge {ps : List Part} {rs : List Bytes} {fs : List EventFlag} (h : ownsNoLine s c) (hp : allLines ⊆ ps) :
    Frame ps rs fs s (Machine.dropPurge c s) := by
  unfold Machine.dropPurge
  exact .dropLines h hp

theorem Frame.purgeOff {rs : List Bytes} {fs : List EventFlag} (h : ownsNoLine s c) :
    Frame (.seq c :: allLines) rs fs s (Machine.purgeOff c s) := by
  unfold Machine.purgeOff
  exact .trans (.modSeq (List.mem_cons_self ..)) (.dropPurge (s := s.modSeq c _) h (List.subset_cons_self _ _))

theorem purgeOff_seq (h : ownsNoLine s c) : (purgeOff c s).seq c = { s.seq c with purgeEndMark := s.now } := by
  have h' : ownsNoLine (s.modSeq c fun q => { q with purgeEndMark := s.now }) c := h
  have e := (Frame.dropPurge (ps := allLines) (rs := []) (fs := []) h' (by simp)).parts (.seq c) (by simp [allLines])
  exact Eq.trans e (by simp [State.modSeq_eq])

/-- The END stage over work that leaves the run's outcome, its slots and its reports. -/
theorem endStage_ends_of {ps : List Part} (hf : Frame ps [] [] s s₁)
    (outcome : (s₁.seq c).outcome = (s.seq c).outcome) (slots : (s₁.seq c).slots = (s.seq c).slots)
    (ht : s₁.tables = s.tables) (hr : ∀ d, s₁.rep d = s.rep d) (hp : PagesFit s) :
    EndsRun c s (endStage c s₁) ∧ (endStage c s₁).seq c = (s₁.seq c).ended ∧
      (∀ j, (endStage c s₁).line j = s₁.line j) ∧
      Frame ([.summary, .seq c, .press c, .rep c] ++ ps) (endBytes s c) [.order c, .report c] s (endStage c s₁) := by
  obtain ⟨ends, seq, ending⟩ := endStage_ends (c := c) (pagesFit_congr ht hr hp)
  have bytes : endBytes s₁ c = endBytes s c := by simp only [endBytes, ht]
  rw [bytes] at ending
  refine ⟨ends.of_start outcome slots (by rw [hr]), seq, fun j => ending.parts (.line j) (by simp), ?_⟩
  exact .trans (hf.mono (List.subset_append_right _ _) (by simp) (by simp))
    (ending.mono (List.subset_append_left _ _) fun _ hr => covered_of_mem hr)

/-- Settles O48: the timers' counts, and each end of a stage by what the END stage leaves. -/
theorem closeOutStagesCountDownAndEndTheRun : Obligations.CloseOutStagesCountDownAndEndTheRun := by
  refine ⟨?_, ?_, ?_, ?_, ?_, ?_⟩
  · intro s t c h hr hs hm hn
    refine answers_atTap h (body := workIf (fun s => inStage s c .purge) (purgeTick c)) rfl ?_
    rw [workIf_true ((inStage_iff (s := s.setNow t)).mpr ⟨hr, hs, hm⟩), purgeTick_running (s := s.setNow t) hn]
    exact ⟨purgeLower_seq, Frame.keeps (fs := []) (.trans .setNow .modSeq)⟩
  · intro i s t c hi h hp hr hs hm hn ho
    have stage : inStage (s.setNow t) c .purge = true := inStage_iff.mpr ⟨hr, hs, hm⟩
    have key : exec i s = .next (judgePumpOut c (purgeOff c (purgeLower c (s.setNow t)))) := by
      rw [← endPurge_eq, ← purgeTick_last (s := s.setNow t) hn]
      rcases hi with rfl | rfl
      · exact (atTap_of_eventAt h _).trans (congrArg _ (workIf_true (by simp [stage, hn])))
      · exact (atTap_of_eventAt h _).trans (congrArg _ (workIf_true stage))
    have ho' : ownsNoLine (purgeLower c (s.setNow t)) c := ho
    have frame : Frame ([.now, .seq c] ++ allLines) [] [] s (purgeOff c (purgeLower c (s.setNow t))) :=
      .trans .setNow (.trans (.modSeq (by simp)) ((Frame.purgeOff (rs := []) (fs := []) ho').mono (by simp)))
    have line := purgeOff_line ho'
    have seq := (purgeOff_seq ho').trans (by rw [purgeLower_seq])
    have unow : (purgeOff c (purgeLower c (s.setNow t))).now = t :=
      (Frame.purgeOff (rs := []) (fs := []) ho').parts .now (by simp [allLines])
    generalize purgeOff c (purgeLower c (s.setNow t)) = u at key frame line seq unow
    have same : ∀ p : Part, p ≠ .now → p ≠ .seq c → (∀ k, p ≠ .line k) → p.same s u := fun p h1 h2 h3 =>
      frame.parts p fun hp => by
        rcases List.mem_append.mp hp with hp | hp
        · simp only [List.mem_cons, List.not_mem_nil, or_false] at hp
          exact hp.elim h1 h2
        · obtain ⟨k, -, e⟩ := List.mem_map.mp hp
          exact h3 k e.symm
    have pump : u.pump c = s.pump c := same (.pump c) (by simp) (by simp) (by simp)
    have tables : u.tables = s.tables := same .tables (by simp) (by simp) (by simp)
    have cfg : u.chamberCfg c = s.chamberCfg c := by simp only [State.chamberCfg, tables]
    have line' : ∀ j, u.line j = if (s.line j).openTo = some c ∧
        ((s.line j).source = .purge ∨ (s.line j).source = .idlePurge) then (s.line j).shut else s.line j := line
    have judged : pumpsOut u c ↔ (s.seq c).restriction ≠ .noPurgeNoPumpOut ∧ (s.pump c).st = .pumped ∧
        (s.chamberCfg c).closeLimit ≠ 0 := by simp only [pumpsOut, seq, pump, cfg, State.setNow_seq]
    refine ⟨_, key, ?_⟩
    beta_reduce
    by_cases hout : pumpsOut u c
    · rw [judgePumpOut_enters hout, if_pos (judged.mp hout)]
      refine ⟨line', ?_, ?_, ?_, ?_, Frame.keeps (fs := []) (.trans frame (.modSeq (by simp)))⟩
      all_goals simp [State.modSeq_eq, seq, hr, cfg, unow]
    · rw [judgePumpOut_skips hout, if_neg fun g => hout (judged.mpr g)]
      obtain ⟨ends, -, lines, full⟩ := endStage_ends_of (c := c) frame (by rw [seq]; rfl) (by rw [seq]; rfl) tables
        (fun d => same (.rep d) (by simp) (by simp) (by simp)) hp
      refine ⟨fun j => (lines j).trans (line' j), ends, full.flags, (full.mono (fs' := [.order c, .report c]) ?_ fun _ hr => covered_of_mem hr).parts,
        full.bytes⟩
      refine List.append_subset.mpr ⟨?_, subset_lines (by simp)⟩
      exact fun _ hp => List.mem_append_left _ (List.mem_cons_of_mem _ hp)
  · intro s t c v h hp hr hs hm hv hle
    refine answers_atTap h (body := workIf (fun s => inStage s c .pumpOut && pumpOutReached s c) (endStage c)) rfl ?_
    have stage : inStage (s.setNow t) c .pumpOut = true := inStage_iff.mpr ⟨hr, hs, hm⟩
    have reached : pumpOutReached (s.setNow t) c = true := pumpOutReached_iff.mpr ⟨v, hv, hle⟩
    rw [workIf_true (by rw [stage, reached]; rfl)]
    have moved : Frame [.now] [] [] s (s.setNow t) := .setNow
    obtain ⟨ends, seq, -, full⟩ := endStage_ends_of (c := c) moved rfl rfl rfl (fun _ => rfl) hp
    refine ⟨ends, by rw [seq, Seq.ended_pumpOutIncomplete]; rfl, full.flags,
      (full.mono (fs' := [.order c, .report c]) (by simp) fun _ hr => covered_of_mem hr).parts, full.bytes⟩
  · intro s t c h hn
    refine answers_atTap h (body := workIf (fun s => inStage s c .pumpOut && pumpOutReached s c) (endStage c)) rfl ?_
    rw [workIf_false]
    · exact setNow_keeps
    · rw [Bool.and_eq_false_iff]
      refine .inr ?_
      rw [Bool.eq_false_iff, Ne, pumpOutReached_iff]
      rintro ⟨v, hv, hle⟩
      exact absurd (hn v hv) (Nat.not_lt.mpr hle)
  · intro s t c h hr hs hm hn
    refine answers_atTap h (body := workIf (fun s => closeLimitCounts s c) (closeLimitTick c)) rfl ?_
    rw [workIf_true ((closeLimitCounts_iff (s := s.setNow t)).mpr ⟨hr, hs, hm⟩), closeLimitTick_running (s := s.setNow t) hn]
    exact ⟨closeLimitLower_seq, Frame.keeps (fs := []) (.trans .setNow .modSeq)⟩
  · intro i s t c hi h hp hr hs hm hn
    have counts : closeLimitCounts (s.setNow t) c = true := closeLimitCounts_iff.mpr ⟨hr, hs, hm⟩
    have key : exec i s = .next (pumpOutFails c (closeLimitLower c (s.setNow t))) := by
      rw [← closeLimitTick_last (s := s.setNow t) hn]
      rcases hi with rfl | rfl
      · exact (atTap_of_eventAt h _).trans (congrArg _ (workIf_true (by simp [counts, hn])))
      · exact (atTap_of_eventAt h _).trans (congrArg _ (workIf_true counts))
    refine ⟨_, key, ?_⟩
    have frame : Frame [.now, .seq c] [] [] s
        ((closeLimitLower c (s.setNow t)).modSeq c fun q => { q with pumpOutIncomplete := true }) :=
      .trans .setNow (.trans .modSeq .modSeq)
    have seq : ((closeLimitLower c (s.setNow t)).modSeq c fun q => { q with pumpOutIncomplete := true }).seq c =
        { s.seq c with closeLimit := (s.seq c).closeLimit - 1, closeLimitMark := t, pumpOutIncomplete := true } := by
      simp [State.modSeq_eq, closeLimitLower]
    obtain ⟨ends, ended, -, full⟩ := endStage_ends_of (c := c) frame (by rw [seq]) (by rw [seq]) rfl (fun _ => rfl) hp
    refine ⟨ends, ?_, full.flags, (full.mono (fs' := [.order c, .report c]) (by simp) fun _ hr => covered_of_mem hr).parts,
      full.bytes⟩
    have e := congrArg Seq.pumpOutIncomplete ended
    rw [Seq.ended_pumpOutIncomplete, seq] at e
    exact e

end Sys2Proof.Machine
end

section
/-! The wakes of the economy logic: their begin, the turbo's samples and the counts (R160 to R162). -/

namespace Sys2Proof.Machine

variable {s : State} {c : Chamber} {t : Moment} {turbo : Bool}

/-- A wake's phases and counts as its begin leaves them, its lines not dropped yet (R161). -/
def wakeBegun (c : Chamber) (cause : WakeCause) (s : State) : State :=
  s.modEcon c fun e =>
    { e with
      phase := .turboWait, cause := cause, limit := (s.chamberCfg c).recoveryLimit
      sampleMark := s.now, countMark := s.now }

theorem beginWake_asleep {cause : WakeCause} (h : (s.econ c).phase = .none) :
    beginWake c cause s = dropPurge c (wakeBegun c cause s) := if_pos h

theorem dropPurge_line (h : ownsNoLine s c) (j : LineId) : (dropPurge c s).line j =
    if (s.line j).openTo = some c ∧ ((s.line j).source = .purge ∨ (s.line j).source = .idlePurge) then (s.line j).shut
    else s.line j := by
  rw [dropPurge, dropLines_line h]
  exact if_congr ⟨fun h => of_decide_eq_true h.1, fun h => ⟨decide_eq_true h, h.1⟩⟩ rfl rfl

theorem wakeBegun_econ {cause : WakeCause} : (wakeBegun c cause s).econ c = { s.econ c with
    phase := .turboWait, cause := cause, limit := (s.chamberCfg c).recoveryLimit, sampleMark := s.now
    countMark := s.now } := by simp [wakeBegun, State.modEcon_eq]

theorem economyRead_wakes {v : Nat} (hm : (s.econ c).mode = .economy) (hp : (s.econ c).phase = .none)
    (hw : bitSet (s.chamberCfg c).wakeEnables 1 = true) (hv : s.freshAt (s.chamberCfg c).manometer = some v)
    (hr : (s.chamberCfg c).economyRise < v) : economyRead c s = beginWake c .pressure s := by
  simp [economyRead, hm, hp, hw, hv, hr]

theorem economyRead_sleeps (h : (s.econ c).mode = .active ∨ (s.econ c).phase ≠ .none ∨
    bitSet (s.chamberCfg c).wakeEnables 1 = false ∨
      ∀ v, s.freshAt (s.chamberCfg c).manometer = some v → v ≤ (s.chamberCfg c).economyRise) :
    economyRead c s = s := by
  rcases h with h | h | h | h
  · exact if_neg fun g => by simp [h] at g
  · exact if_neg fun g => h g.2.1
  · exact if_neg fun g => by simp [h] at g
  · simp only [economyRead]
    split
    · split
      next v hv => exact if_neg (Nat.not_lt.mpr (h v hv))
      next => rfl
    · rfl

/-- A wake's economy after a turbo sample, its Recovery Dwell not 0 (R162). -/
def Econ.sampled (e : Econ) (dwell : Nat) (turbo : Bool) (t : Moment) : Econ :=
  if e.phase = .turboWait ∧ turbo = true then { e with phase := .dwell, dwell := dwell, sampleMark := t, countMark := t }
  else if e.phase = .dwell ∧ turbo = false then { e with phase := .turboWait, dwell := 0, sampleMark := t, countMark := t }
  else { e with sampleMark := t }

theorem wakeSample_counted (hm : (s.econ c).sampleMark < s.now) (hp : (s.econ c).phase ≠ .none)
    (hd : (s.chamberCfg c).recoveryDwell ≠ 0) : wakeSample c turbo s =
      (samplePin c turbo s).setEcon c ((s.econ c).sampled (s.chamberCfg c).recoveryDwell turbo s.now) := by
  have after : (samplePin c turbo s).after ((samplePin c turbo s).econ c).sampleMark = true := decide_eq_true hm
  refine (if_pos after).trans ?_
  change (match (s.econ c).phase with | .none => _ | .turboWait => _ | .dwell => _) = _
  cases h : (s.econ c).phase with
  | none => exact absurd h hp
  | turboWait =>
    cases turbo with
    | true => exact (if_pos rfl).trans ((if_neg hd).trans (congrArg _ (if_pos ⟨h, rfl⟩).symm))
    | false =>
      exact (if_neg (by decide)).trans (congrArg _ ((if_neg (by simp)).trans (if_neg (by simp [h]))).symm)
  | dwell =>
    cases turbo with
    | true => exact (if_pos rfl).trans (congrArg _ ((if_neg (by simp [h])).trans (if_neg (by simp))).symm)
    | false => exact (if_neg (by decide)).trans (congrArg _ ((if_neg (by simp)).trans (if_pos ⟨h, rfl⟩)).symm)

theorem wakeTick_waits (hm : (s.econ c).countMark < s.now) (hp : (s.econ c).phase = .turboWait)
    (hn : 1 < (s.econ c).limit) :
    wakeTick c s = s.setEcon c { s.econ c with limit := (s.econ c).limit - 1, countMark := s.now } := by
  simp [wakeTick, State.after, hm, hp, hn]

theorem wakeTick_dwells (hm : (s.econ c).countMark < s.now) (hp : (s.econ c).phase = .dwell)
    (hn : 1 < (s.econ c).dwell) :
    wakeTick c s = s.setEcon c { s.econ c with dwell := (s.econ c).dwell - 1, countMark := s.now } := by
  simp [wakeTick, State.after, hm, hp, hn]

theorem wakeTick_idle (h : (s.econ c).phase = .none ∨ s.now ≤ (s.econ c).countMark) : wakeTick c s = s := by
  rcases h with h | h
  · simp [wakeTick, h]
  · exact if_neg fun g => absurd (of_decide_eq_true g) (Nat.not_lt.mpr h)

/-- Settles O49: the begin, each sample and each count by the equation of its case. -/
theorem wakesBeginAndWaitForTheTurbo : Obligations.WakesBeginAndWaitForTheTurbo := by
  refine ⟨?_, ?_, ?_, fun s t c h hm => ⟨?_, ?_⟩, ?_⟩
  · intro s t c v h hm hp hw hv hr ho
    refine answers_atTap h (body := economyRead c) rfl ?_
    rw [economyRead_wakes (s := s.setNow t) hm hp hw hv hr, beginWake_asleep (s := s.setNow t) hp]
    have owns : ownsNoLine (wakeBegun c .pressure (s.setNow t)) c := ho
    have lines := dropPurge_line owns
    have drops : Frame allLines [] [] _ (dropPurge c (wakeBegun c .pressure (s.setNow t))) := .dropPurge owns (by simp)
    have econ := (drops.parts (.econ c) (by simp [allLines])).trans (wakeBegun_econ (s := s.setNow t) (cause := .pressure))
    have frame : Frame ([.now, .econ c] ++ allLines) [] [] s _ :=
      .trans .setNow (.trans (.modEcon (by simp)) (drops.mono (List.subset_append_right _ _)))
    generalize dropPurge c (wakeBegun c .pressure (s.setNow t)) = u at lines econ frame ⊢
    exact ⟨econ, by simp [State.turboEconomy, econ], lines, frame.keeps⟩
  · intro s t c h ha
    refine answers_atTap h (body := economyRead c) rfl ?_
    rw [economyRead_sleeps (s := s.setNow t) ha]
    exact setNow_keeps
  · intro s t c turbo h hm hp hd
    refine answers_atTap h (body := wakeSample c turbo) rfl ?_
    rw [wakeSample_counted (s := s.setNow t) hm hp hd]
    exact ⟨State.setEcon_econ_same .., rfl, Frame.keeps (fs := []) (.trans .setNow (.trans .setPins .setEcon))⟩
  · intro hp hn
    refine answers_atTap h (body := wakeTick c) rfl ?_
    rw [wakeTick_waits (s := s.setNow t) hm hp hn]
    exact ⟨State.setEcon_econ_same .., Frame.keeps (fs := []) (.trans .setNow .setEcon)⟩
  · intro hp hn
    refine answers_atTap h (body := wakeTick c) rfl ?_
    rw [wakeTick_dwells (s := s.setNow t) hm hp hn]
    exact ⟨State.setEcon_econ_same .., Frame.keeps (fs := []) (.trans .setNow .setEcon)⟩
  · intro s t c h hc
    refine answers_atTap h (body := wakeTick c) rfl ?_
    rw [wakeTick_idle (s := s.setNow t) hc]
    exact setNow_keeps

end Sys2Proof.Machine
end

section
/-! Pump machines: what a change of stage shows and reports, FAULT_HOLD, and the foreline guard (R106, R110, R116). -/

namespace Sys2Proof.Machine

variable {s s₁ : State} {c : Chamber} {t : Moment} {turbo : Bool} {p : Pump} {o : Code} {d : Nat}

/-! ### A pump machine shown -/

theorem PumpState.code_lt (x : PumpState) : x.code < 256 := by cases x <;> decide

@[simp] theorem putPump_pump : (putPump c p s).pump c = p := by
  unfold putPump showWord
  simp only
  split <;> split <;> simp

theorem Frame.putPump : Frame [.pump c] [statusBytes c] [] s (Machine.putPump c p s) := by
  refine .trans (b := if (s.pump c).st = p.st then s.setPump c p else Machine.showWord c .states (s.setPump c p)) ?_ ?_
  · exact .ite (fun _ => .setPump) fun _ => .trans .setPump .showWord
  · exact .ite (fun _ => .refl _) fun _ => .showWord

theorem putPump_paused (h : (s.pump c).st = p.st) (g : (s.pump c).paused ≠ p.paused) :
    putPump c p s = showWord c .flags (s.setPump c p) := by simp [putPump, h, g]

/-- The pump state that the status block shows (R106). -/
theorem putPump_shown (h : (s.pump c).st = p.st → memField s.mem (statusAddr c + 1) 1 = p.st.code) :
    memField (putPump c p s).mem (statusAddr c + 1) 1 = p.st.code := by
  have hs := statusAddr_bounds c
  have states : memField (showWord c .states (s.setPump c p)).mem (statusAddr c + 1) 1 = p.st.code := by
    have shown := field_showWord (c := c) (w := .states) (s := s.setPump c p) (i := 1) (n := 1) (by decide)
    rw [show statusAddr c + StatusWord.states.offset + 1 = statusAddr c + 1 from rfl] at shown
    have code := p.st.code_lt
    rw [shown, statusValue, State.setPump_pump_same, pack8]
    omega
  have placed : memField (if (s.pump c).st = p.st then s.setPump c p else showWord c .states (s.setPump c p)).mem
      (statusAddr c + 1) 1 = p.st.code := by
    split
    next e => exact h e
    next => exact states
  unfold putPump
  simp only
  split
  · exact placed
  · refine Eq.trans ?_ placed
    refine (Frame.showWord (ps := []) (rs := [(statusAddr c + 4, 4)]) (fs := []) ?_).field
      (by simp only [Config.memorySize]; omega) ?_
    · exact covered_of_mem (by simp [StatusWord.offset])
    · simp only [List.mem_cons, List.not_mem_nil, or_false, forall_eq, Config.memorySize]; omega

/-- A field of the status block before the report words reads as before the entry. -/
theorem produce_status {e : Entry} {a n : Nat} (hp : PagesFit s) (h : a + n ≤ statusAddr c + 28) :
    memField (Machine.produce c e s).mem a n = memField s.mem a n := by
  have hs := statusAddr_bounds c
  exact (Frame.produce_notice hp).field (by simp only [Config.memorySize]; omega)
    (noticeBytes_apart ⟨hp.1, hp.2.1⟩ (by omega))

theorem noticeBytes_status {n : Nat} {r : Bytes} {rs : List Bytes} (h1 : statusBytes c ∈ rs) (h2 : reportBytes n c ∈ rs)
    (h : r ∈ noticeBytes n c) : covered rs r := by
  simp only [noticeBytes, List.mem_cons, List.not_mem_nil, or_false] at h
  have hs := statusAddr_bounds c
  rcases h with rfl | rfl
  · exact ⟨_, h1, by simp only [pageBytes, statusBytes]; omega⟩
  · exact covered_of_mem h2

/-! ### A stage entered (R106) -/

theorem pumpEntry_pump {fault : Nat} : (pumpEntry c fault s).pump c = s.pump c := produce_pump
theorem pumpEntry_seq {fault : Nat} : (pumpEntry c fault s).seq c = s.seq c := produce_seq
theorem pumpEntry_next {fault : Nat} : ((pumpEntry c fault s).rep c).next = ((s.rep c).next + 1) % 65536 := produce_next
theorem pumpEntry_status {fault a n : Nat} (hp : PagesFit s) (h : a + n ≤ statusAddr c + 28) :
    memField (pumpEntry c fault s).mem a n = memField s.mem a n := produce_status hp h
theorem pumpEntry_flag {fault : Nat} {f : EventFlag} (h : s.flagSet f = true) : (pumpEntry c fault s).flagSet f = true :=
  Keeps.produce.flagSet h
theorem Frame.pumpEntry {fault : Nat} (hp : PagesFit s) : Frame [.rep c, .summary] (noticeBytes s.tables.partition c)
    [.report c] s (Machine.pumpEntry c fault s) := .produce_notice hp

theorem stageTo_moves (h : (s.pump c).st ≠ p.st) : stageTo c p s = pumpEntry c 0 (putPump c p s) := if_neg h

/-- What a change of stage leaves. -/
theorem stageTo_enters (hp : PagesFit s) (h : (s.pump c).st ≠ p.st) :
    (stageTo c p s).pump c = p ∧ memField (stageTo c p s).mem (statusAddr c + 1) 1 = p.st.code ∧
      ((stageTo c p s).rep c).next = ((s.rep c).next + 1) % 65536 ∧
      Frame [.summary, .pump c, .rep c] [statusBytes c, reportBytes s.tables.partition c] [.report c] s (stageTo c p s) := by
  rw [stageTo_moves h]
  have put := Frame.putPump (s := s) (c := c) (p := p)
  have tables : (putPump c p s).tables = s.tables := put.parts .tables (by simp)
  have rep : ∀ d, (putPump c p s).rep d = s.rep d := fun d => put.parts (.rep d) (by simp)
  have fit : PagesFit (putPump c p s) := pagesFit_congr tables rep hp
  refine ⟨pumpEntry_pump.trans putPump_pump, (pumpEntry_status fit (by omega)).trans (putPump_shown fun e => absurd e h),
    pumpEntry_next.trans (by rw [rep]), ?_⟩
  refine .trans (put.mono (by simp) fun _ hr => covered_of_mem (List.mem_cons.mpr (.inl (List.mem_singleton.mp hr)))) ?_
  refine (Frame.pumpEntry fit).mono (by simp) fun r hr => ?_
  rw [tables] at hr
  exact noticeBytes_status (by simp) (by simp) hr

/-- A flag raised and a change of stage reported. -/
theorem Frame.raiseEntry {f : EventFlag} {fault : Nat} (hp : PagesFit s) :
    Frame [.summary, .rep c] (noticeBytes s.tables.partition c) [f, .report c] s
      (Machine.pumpEntry c fault (Machine.raise f s)) := by
  have fit : PagesFit (Machine.raise f s) := hp
  exact .trans .raise ((Frame.pumpEntry fit).mono (by simp) (fun _ hr => covered_of_mem hr) (by simp))

/-! ### A stage that answers a pump order (R110, R118, R120) -/

/-- A machine put in its new stage, the TAKEN pump order answered, a flag raised and the change reported. -/
def pumpAnswered (c : Chamber) (p : Pump) (o : Code) (d : Nat) (f : EventFlag) (fault : Nat) (s : State) : State :=
  pumpEntry c fault (raise f (doneHeld c SlotHold.isPump o d 0 (putPump c p s)))

/-- A held slot answered DONE with an outcome and its detail. -/
def heldDone (s s' : State) (c : Chamber) (q : SlotHold → Bool) (o : Code) (d : Nat) : Prop :=
  ∀ i, (s.seq c).slotWith q = some i →
    slotReads s' (slotAddr c i) 3 o.code d 0 ∧ (s'.seq c).slots[i] = .free ∧ s'.flagSet (.order c) = true

theorem doneHeld_held {q : SlotHold → Bool} (h : d < 4294967296) : heldDone s (doneHeld c q o d 0 s) c q o d := by
  intro i hi
  have ho := o.code_lt_65536
  have done : doneHeld c q o d 0 s = doneSlot c i o d 0 s := by unfold doneHeld; rw [hi]
  refine ⟨?_, ?_, ?_⟩
  · rw [done]
    unfold doneSlot holdSlot
    have reads := writeSlot_reads (s := s) (c := c) (i := i) (o := o.code) (v := d) (n := 0) (st := 3) (by omega) (by omega)
      h (by omega)
    simp only [slotReads, State.word, raise_mem, State.modSeq_eq, State.setSeq_mem] at reads ⊢
    exact reads
  · rw [doneHeld_seq, Seq.freed_slots, if_pos hi]
  · rw [done]
    exact flagSet_raise_same

theorem doneHeld_none {q : SlotHold → Bool} (h : (s.seq c).slotWith q = none) : doneHeld c q o d 0 s = s := by
  unfold doneHeld; rw [h]

/-- A slot answer outlasts later work that stays off the slot. -/
theorem heldDone.over {q : SlotHold → Bool} {s' : State} {ps : List Part} {rs : List Bytes} {fs : List EventFlag}
    (h : heldDone s s₁ c q o d) (hf : Frame ps rs fs s₁ s') (hs : .seq c ∉ ps)
    (ho : s₁.flagSet (.order c) = true → s'.flagSet (.order c) = true)
    (hr : ∀ i, ∀ r ∈ rs, r.1 + r.2 ≤ Config.memorySize ∧ (slotAddr c i + 32 ≤ r.1 ∨ r.1 + r.2 ≤ slotAddr c i)) :
    heldDone s s' c q o d := by
  intro i hi
  obtain ⟨reads, slot, flag⟩ := h i hi
  have seq : s'.seq c = s₁.seq c := hf.parts (.seq c) hs
  exact ⟨hf.slotReads (hr i) reads, by rw [seq]; exact slot, ho flag⟩

theorem noticeBytes_slots {n : Nat} (hn : 6 ≤ n ∧ n ≤ 26) (i : Fin 2) : ∀ r ∈ noticeBytes n c,
    r.1 + r.2 ≤ Config.memorySize ∧ (slotAddr c i + 32 ≤ r.1 ∨ r.1 + r.2 ≤ slotAddr c i) := by
  have hs := statusAddr_bounds c
  have hi := slotAddr_top c i
  have hr := reportAddr_bounds (c := c) (n := n) (by omega)
  simp only [noticeBytes, List.mem_cons, List.not_mem_nil, or_false, forall_eq_or_imp, forall_eq, pageBytes, reportBytes,
    Config.memorySize] at *
  omega

theorem slotBytes_status {a n : Nat} (h1 : statusAddr c ≤ a) (h2 : a + n ≤ statusAddr c + 128) :
    ∀ r ∈ [slotBytes c], r.1 + r.2 ≤ Config.memorySize ∧ (a + n ≤ r.1 ∨ r.1 + r.2 ≤ a) := by
  have hs := statusAddr_bounds c
  have hi := slotAddr_top c 1
  have hc := c.isLt
  simp only [slotAddr] at hi
  simp only [List.mem_cons, List.not_mem_nil, or_false, forall_eq, slotBytes, slotAddr, Config.memorySize, Fin.val_zero]
  simp only [Fin.val_one] at hi
  omega

/-- What such a change of stage leaves. -/
theorem pumpAnswered_enters {f : EventFlag} {fault : Nat} (hp : PagesFit s)
    (h : (s.pump c).st = p.st → memField s.mem (statusAddr c + 1) 1 = p.st.code) (hd : d < 4294967296) :
    (pumpAnswered c p o d f fault s).pump c = p ∧
      memField (pumpAnswered c p o d f fault s).mem (statusAddr c + 1) 1 = p.st.code ∧
      ((pumpAnswered c p o d f fault s).rep c).next = ((s.rep c).next + 1) % 65536 ∧
      (pumpAnswered c p o d f fault s).flagSet f = true ∧
      (pumpAnswered c p o d f fault s).seq c = (s.seq c).freed SlotHold.isPump ∧
      heldDone s (pumpAnswered c p o d f fault s) c SlotHold.isPump o d ∧
      Frame [.summary, .seq c, .pump c, .rep c] [statusBytes c, slotBytes c, reportBytes s.tables.partition c]
        [f, .order c, .report c] s (pumpAnswered c p o d f fault s) := by
  have put := Frame.putPump (s := s) (c := c) (p := p)
  have seq : (putPump c p s).seq c = s.seq c := put.parts (.seq c) (by simp)
  have answered := Frame.doneHeld (s := putPump c p s) (c := c) (p := SlotHold.isPump) (o := o) (d := d) (n := 0)
  have held : heldDone s (doneHeld c SlotHold.isPump o d 0 (putPump c p s)) c SlotHold.isPump o d := by
    have g := doneHeld_held (s := putPump c p s) (c := c) (o := o) (q := SlotHold.isPump) hd
    simpa only [heldDone, seq] using g
  have hs := statusAddr_bounds c
  have freed : (doneHeld c SlotHold.isPump o d 0 (putPump c p s)).seq c = (s.seq c).freed SlotHold.isPump := by
    rw [doneHeld_seq, seq]
  have shown := (answered.field (a := statusAddr c + 1) (n := 1) (by simp only [Config.memorySize]; omega)
    (slotBytes_status (by omega) (by omega))).trans (putPump_shown h)
  have pump : (doneHeld c SlotHold.isPump o d 0 (putPump c p s)).pump c = p :=
    (answered.parts (.pump c) (by simp)).trans putPump_pump
  have frame : Frame [.summary, .seq c, .pump c] [statusBytes c, slotBytes c] [.order c] s
      (doneHeld c SlotHold.isPump o d 0 (putPump c p s)) :=
    .trans (put.mono (by simp) fun _ hr => covered_of_mem (List.mem_cons.mpr (.inl (List.mem_singleton.mp hr))))
      (answered.mono (by simp) fun _ hr => covered_of_mem (List.mem_cons_of_mem _ hr))
  rw [pumpAnswered]
  generalize doneHeld c SlotHold.isPump o d 0 (putPump c p s) = u at held freed shown pump frame ⊢
  have tables : u.tables = s.tables := frame.parts .tables (by simp)
  have rep : ∀ d, u.rep d = s.rep d := fun d => frame.parts (.rep d) (by simp)
  have fit : PagesFit (raise f u) := pagesFit_congr (s := s) (by rw [raise_tables, tables]) (fun d => by rw [raise_rep, rep]) hp
  have notice : Frame [.summary, .rep c] (noticeBytes s.tables.partition c) [f, .report c] u
      (pumpEntry c fault (raise f u)) := by
    have g := Frame.raiseEntry (c := c) (f := f) (fault := fault) (pagesFit_congr (s := s) tables rep hp)
    rw [tables] at g
    exact g
  refine ⟨pumpEntry_pump.trans pump, (pumpEntry_status fit (by omega)).trans shown,
    pumpEntry_next.trans (by rw [raise_rep, rep]), ?_, pumpEntry_seq.trans freed, ?_, ?_⟩
  · exact pumpEntry_flag flagSet_raise_same
  · refine held.over notice (by simp) (fun g => pumpEntry_flag (Keeps.raise.flagSet g)) ?_
    exact fun i => noticeBytes_slots ⟨hp.1, hp.2.1⟩ i
  · refine .trans (frame.mono (by simp) (fun _ hr => covered_of_mem ?_) (by simp)) (notice.mono (by simp) ?_ (by simp))
    · rcases List.mem_cons.mp hr with rfl | hr
      · exact List.mem_cons_self ..
      · exact List.mem_cons_of_mem _ (List.mem_cons.mpr (.inl (List.mem_singleton.mp hr)))
    · exact fun r hr => noticeBytes_status (by simp) (by simp) hr

theorem pumpAnswered_noOrder {f : EventFlag} {fault : Nat} (h : (s.seq c).slotWith SlotHold.isPump = none) :
    pumpAnswered c p o d f fault s = pumpEntry c fault (raise f (putPump c p s)) := by
  have seq : (putPump c p s).seq c = s.seq c := Frame.putPump.parts (.seq c) (by simp)
  rw [pumpAnswered, doneHeld_none (by rw [seq]; exact h)]

/-- Without a TAKEN pump order the slots keep their bytes. -/
theorem pumpAnswered_quiet {f : EventFlag} {fault : Nat} (hp : PagesFit s) (h : (s.seq c).slotWith SlotHold.isPump = none) :
    Frame [.summary, .pump c, .rep c] [statusBytes c, reportBytes s.tables.partition c] [f, .report c] s
      (pumpAnswered c p o d f fault s) := by
  rw [pumpAnswered_noOrder h]
  have put := Frame.putPump (s := s) (c := c) (p := p)
  have tables : (putPump c p s).tables = s.tables := put.parts .tables (by simp)
  have fit : PagesFit (putPump c p s) := pagesFit_congr tables (fun d => put.parts (.rep d) (by simp)) hp
  refine .trans (put.mono (by simp) fun _ hr => covered_of_mem (List.mem_cons.mpr (.inl (List.mem_singleton.mp hr)))) ?_
  refine (Frame.raiseEntry fit).mono (by simp) (fun r hr => ?_) (by simp)
  rw [tables] at hr
  exact noticeBytes_status (by simp) (by simp) hr

end Sys2Proof.Machine
end

section
/-! The T1 and T3 events of a pump machine: its guard, thresholds, delays and limits (R108, R109, R115 to R120). -/

namespace Sys2Proof.Machine

variable {s s₁ : State} {c : Chamber} {t : Moment} {turbo : Bool} {p : Pump} {o : Code} {d : Nat}

/-! ### A machine outside the rough line -/

/-- The chamber neither holds the rough line nor waits for it. -/
def offRough (s : State) (c : Chamber) : Prop := s.rough.holder ≠ some c ∧ c ∉ s.rough.queue

theorem leaveRough_off (h : offRough s c) : leaveRough c s = s := by
  simp [leaveRough, h.1, h.2]

theorem putFaultHold_off (h : offRough s c) : putFaultHold c o d s =
    raise (.fault c) (doneHeld c SlotHold.isPump o d 0 (putPump c { st := .faultHold, mark := s.now } s)) := by
  have rough : (putPump c { st := .faultHold, mark := s.now } s).rough = s.rough :=
    Frame.putPump.parts .rough (by simp)
  have off : offRough (putPump c { st := .faultHold, mark := s.now } s) c := by simpa only [offRough, rough] using h
  rw [putFaultHold, leaveRough_off off]

/-- FAULT_HOLD of a machine outside the rough line answers its order and reports the change (R110). -/
theorem enterFaultHold_off (h : offRough s c) : enterFaultHold c o d s =
    pumpAnswered c { st := .faultHold, mark := s.now } o d (.fault c) o.code s := by
  rw [enterFaultHold, putFaultHold_off h, pumpAnswered]

/-- A turbo loss over an IDLE run (R119). -/
theorem turboLoss_idle (h : offRough s c) (hr : (s.seq c).run = .idle) :
    turboLoss c s = enterFaultHold c .turboLost (s.pump c).st.code s := by
  have run : ((putFaultHold c .turboLost (s.pump c).st.code s).seq c).run = .idle := by
    have put : (putPump c { st := .faultHold, mark := s.now } s).seq c = s.seq c := Frame.putPump.parts (.seq c) (by simp)
    rw [putFaultHold_off h, raise_seq, doneHeld_seq, put]
    unfold Seq.freed
    split
    · exact hr
    · exact hr
  exact if_pos run

/-! ### A T1 event -/

/-- A machine at a T1 event that counts: its turbo input sampled and its mark moved (R108). -/
def pumpSampled (c : Chamber) (turbo : Bool) (s : State) : State :=
  (samplePin c turbo s).modPump c fun p => { p with mark := s.now }

theorem pumpWork_counted (h : (s.pump c).mark < s.now) :
    pumpWork c turbo s = pumpStageWork c turbo (pumpSampled c turbo s) := if_pos (decide_eq_true h)

@[simp] theorem pumpSampled_pump : (pumpSampled c turbo s).pump c = { s.pump c with mark := s.now } := by
  simp [pumpSampled, State.modPump_eq, samplePin]

theorem Frame.pumpSampled {rs : List Bytes} {fs : List EventFlag} :
    Frame [.pins, .pump c] rs fs s (Machine.pumpSampled c turbo s) := .trans .setPins .modPump

theorem pumpSampled_moved : Frame [.now, .pins, .pump c] [] [] s (pumpSampled c turbo (s.setNow t)) :=
  .trans .setNow (.mono (ps := [.pins, .pump c]) (rs := []) (fs := []) .pumpSampled (by simp))

/-! ### The foreline guard and the threshold tests (R115, R116, R118) -/

theorem pumpStageWork_roughs (h : (s.pump c).st = .softRough ∨ (s.pump c).st = .fastRough) :
    pumpStageWork c turbo s = guardAndTest c s := by
  rcases h with h | h <;> simp [pumpStageWork, h]

theorem guardAndTest_pauses (h : (s.pump c).paused = false) (g : forelineAllows s = false) :
    guardAndTest c s = putPump c { s.pump c with paused := true } s := by simp [guardAndTest, h, g]

theorem guardAndTest_waits (h : (s.pump c).paused = true) (g : forelineResumes s = false) : guardAndTest c s = s := by
  simp [guardAndTest, h, g]

theorem guardAndTest_tests (h : (s.pump c).paused = false) (g : forelineAllows s = true) :
    guardAndTest c s = roughTest c s := by simp [guardAndTest, h, g]

theorem forelineResumes_off (h : ∀ v, s.foreline = some v →
    (s.chamberCfg 0).forelineResume < v ∨ (s.chamberCfg 0).forelineLimit < v) : forelineResumes s = false := by
  unfold forelineResumes
  split
  next v hv => exact decide_eq_false fun g => (h v hv).elim (Nat.not_lt.mpr g.1) (Nat.not_lt.mpr g.2)
  next => rfl

theorem roughAtOrBelow_iff {n v : Nat} (h : s.freshAt (s.chamberCfg c).roughGauge = some v) :
    roughAtOrBelow s c n = decide (v ≤ n) := by simp [roughAtOrBelow, h]

theorem roughTest_crosses (h : roughAtOrBelow s c (s.chamberCfg c).crossoverPressure = true) :
    roughTest c s = leaveRoughing c s := if_pos h

theorem roughTest_fastens (h : roughAtOrBelow s c (s.chamberCfg c).crossoverPressure = false)
    (hs : (s.pump c).st = .softRough) (g : roughAtOrBelow s c (s.chamberCfg c).softRoughPressure = true) :
    roughTest c s = stageTo c
      { st := .fastRough, limit := loadLimit (s.chamberCfg c).fastRoughLimit, limitMark := s.now, mark := s.now } s :=
  (if_neg (by simp [h])).trans (if_pos ⟨hs, g⟩)

theorem highVacTest_passes {v : Nat} (h : s.freshAt (s.chamberCfg c).manometer = some v)
    (g : v ≤ (s.chamberCfg c).basePressure) : highVacTest c s =
      pumpAnswered c { st := .pumped, mark := s.now } .complete PumpState.pumped.code (.pump c) 0 s := by
  simp only [highVacTest, h, if_pos g, pumpAnswered]

/-- The line released with nobody waiting (R113). -/
theorem leaveRough_last (h : s.rough = { holder := some c, queue := [] }) :
    leaveRough c s = imageRough (s.setRough { holder := none, queue := [] }) := by
  simp [leaveRough, releaseRough, h]

theorem imageRough_words (h : s.rough = { holder := none, queue := [] }) :
    (imageRough s).word 0x120 = 0 ∧ (imageRough s).word 0x124 = 0 := by
  have h20 : imageAddr 0x20 = 0x120 := rfl
  have h24 : imageAddr 0x24 = 0x124 := rfl
  refine ⟨?_, ?_⟩
  · rw [State.word, imageRough, State.putWord_mem_same, h]
    exact memField_memPutWord_same _ _ _
  · rw [State.word, imageRough, State.putWord_mem_same, memField_memPutWord_outside _ _ _ _ _
      (by simp only [Config.memorySize]; omega) (by simp only [Config.memorySize]; omega) (by omega), State.putWord_mem_same, h]
    exact memField_memPutWord_same _ _ _

/-- The paused flag that the status block shows (R106). -/
theorem putPump_pausedShown (h : (s.pump c).st = p.st) (g : (s.pump c).paused = false) (hp : p.paused = true) :
    memField (putPump c p s).mem (statusAddr c + 4) 1 % 2 = 1 := by
  have shown := field_showWord (c := c) (w := .flags) (s := s.setPump c p) (i := 0) (n := 1) (by decide)
  rw [show statusAddr c + StatusWord.flags.offset + 0 = statusAddr c + 4 from rfl] at shown
  rw [putPump_paused h (by simp [g, hp]), shown, statusValue, State.setPump_pump_same, hp, pack8]
  simp only [bitIf, if_true]
  split <;> split <;> omega

/-- Settles O36: the guard's answers by its cases, and a loss by what FAULT_HOLD leaves. -/
theorem forelineGuardAndTurboLoss : Obligations.ForelineGuardAndTurboLoss := by
  refine ⟨⟨?_, ?_⟩, ?_, ?_⟩
  · intro s t c turbo h hm hs hp hf
    refine answers_atTap h (body := pumpWork c turbo) rfl ?_
    have st : ((pumpSampled c turbo (s.setNow t)).pump c).st = (s.pump c).st := by simp
    rw [pumpWork_counted (s := s.setNow t) hm, pumpStageWork_roughs (by rw [st]; exact hs),
      guardAndTest_pauses (s := pumpSampled c turbo (s.setNow t)) (by simpa using hp) hf]
    have moved := pumpSampled_moved (s := s) (c := c) (turbo := turbo) (t := t)
    have pump : (pumpSampled c turbo (s.setNow t)).pump c = { s.pump c with mark := t } := pumpSampled_pump
    generalize pumpSampled c turbo (s.setNow t) = u at moved pump ⊢
    have frame : Frame [.now, .pins, .pump c] [(statusAddr c + 4, 4)] [] s
        (putPump c { u.pump c with paused := true } u) := by
      rw [putPump_paused (p := { u.pump c with paused := true }) rfl (by simp [pump, hp])]
      exact .trans (moved.mono (by simp)) (.trans .setPump (.showWord (covered_of_mem (by simp [StatusWord.offset]))))
    refine ⟨by rw [putPump_pump, pump], ?_, ?_, putPump_pausedShown rfl (by rw [pump]; exact hp) rfl, frame.stores⟩
    · simp [State.softRoughOpen]
    · simp [State.fastRoughOpen]
  · intro s t c turbo h hm hs hp hf
    refine answers_atTap h (body := pumpWork c turbo) rfl ?_
    have st : ((pumpSampled c turbo (s.setNow t)).pump c).st = (s.pump c).st := by simp
    rw [pumpWork_counted (s := s.setNow t) hm, pumpStageWork_roughs (by rw [st]; exact hs),
      guardAndTest_waits (s := pumpSampled c turbo (s.setNow t)) (by simpa using hp)
        (forelineResumes_off (s := pumpSampled c turbo (s.setNow t)) hf)]
    exact ⟨pumpSampled_pump, pumpSampled_moved.keeps⟩
  · intro s t c h hp hm hs hecon hr hslot hold hq
    refine answers_atTap h (body := pumpWork c false) rfl ?_
    rw [pumpWork_counted (s := s.setNow t) hm]
    have moved := pumpSampled_moved (s := s) (c := c) (turbo := false) (t := t)
    have pump : (pumpSampled c false (s.setNow t)).pump c = { s.pump c with mark := t } := pumpSampled_pump
    have now : (pumpSampled c false (s.setNow t)).now = t := rfl
    have fit : PagesFit (pumpSampled c false (s.setNow t)) := hp
    generalize pumpSampled c false (s.setNow t) = u at moved pump now fit ⊢
    have seq : u.seq c = s.seq c := moved.parts (.seq c) (by simp)
    have econ : u.econ c = s.econ c := moved.parts (.econ c) (by simp)
    have rough : u.rough = s.rough := moved.parts .rough (by simp)
    have tables : u.tables = s.tables := moved.parts .tables (by simp)
    have rep : u.rep c = s.rep c := moved.parts (.rep c) (by simp)
    have off : offRough u c := by simpa only [offRough, rough] using ⟨hold, hq⟩
    have lost : pumpStageWork c false u = turboLoss c u := by simp [pumpStageWork, pump, hs, econ, hecon]
    have change : (u.pump c).st ≠ .faultHold := by rw [pump, hs]; decide
    have code : (u.pump c).st.code < 4294967296 := Nat.lt_of_lt_of_le (PumpState.code_lt _) (by decide)
    rw [lost, turboLoss_idle off (by rw [seq, hr]), enterFaultHold_off off, now]
    obtain ⟨entered, shown, next, flag, -, -, -⟩ := pumpAnswered_enters (c := c) (p := { st := .faultHold, mark := t })
      (o := .turboLost) (f := .fault c) (fault := Code.turboLost.code) fit (fun e => absurd e change) code
    have quiet := pumpAnswered_quiet (p := { st := .faultHold, mark := t }) (o := .turboLost) (f := .fault c)
      (d := (u.pump c).st.code) (fault := Code.turboLost.code) fit (by rw [seq]; exact hslot)
    rw [tables] at quiet
    have frame : Frame [.now, .pins, .summary, .pump c, .rep c] [statusBytes c, reportBytes s.tables.partition c]
        [.fault c, .report c] s _ := .trans (moved.mono (by simp)) (quiet.mono (by simp) fun _ hr => covered_of_mem hr)
    generalize pumpAnswered c { st := .faultHold, mark := t } .turboLost (u.pump c).st.code (.fault c) Code.turboLost.code u = v
      at entered shown next flag frame ⊢
    exact ⟨entered, by simp [State.gateOpen, entered], flag, shown, by rw [next, rep], frame.flags, frame.stores⟩
  · intro s t c turbo h hm hs hecon
    refine answers_atTap h (body := pumpWork c turbo) rfl ?_
    rw [pumpWork_counted (s := s.setNow t) hm]
    have econ : ((pumpSampled c turbo (s.setNow t)).econ c).mode = .economy := hecon
    have rest : pumpStageWork c turbo (pumpSampled c turbo (s.setNow t)) = pumpSampled c turbo (s.setNow t) := by
      simp [pumpStageWork, hs, econ]
    rw [rest]
    exact ⟨pumpSampled_pump, pumpSampled_moved.keeps⟩

end Sys2Proof.Machine
end

section
/-! The thresholds, delays and limits of the pump machines (O35, O37). -/

namespace Sys2Proof.Machine

variable {s s₁ : State} {c : Chamber} {t : Moment} {turbo : Bool} {p : Pump} {o : Code} {d : Nat}

/-- What a state after a T1 event of a pump machine keeps of the state before it, its pump machine apart. -/
structure PumpEventFrom (c : Chamber) (t : Moment) (s u : State) : Prop where
  moved : Frame [.now, .pins, .pump c] [] [] s u
  pump : u.pump c = { s.pump c with mark := t }
  now : u.now = t
  fit : PagesFit s → PagesFit u
  tables : u.tables = s.tables
  fresh : ∀ k, u.freshAt k = s.freshAt k
  allows : forelineAllows u = forelineAllows s

theorem pumpSampled_from : PumpEventFrom c t s (pumpSampled c turbo (s.setNow t)) where
  moved := pumpSampled_moved
  pump := pumpSampled_pump
  now := rfl
  fit h := h
  tables := rfl
  fresh _ := rfl
  allows := rfl

theorem PumpEventFrom.cfg (h : PumpEventFrom c t s s₁) : s₁.chamberCfg c = s.chamberCfg c := by
  simp only [State.chamberCfg, h.tables]
theorem PumpEventFrom.st (h : PumpEventFrom c t s s₁) : (s₁.pump c).st = (s.pump c).st := by rw [h.pump]
theorem PumpEventFrom.rep (h : PumpEventFrom c t s s₁) : s₁.rep c = s.rep c := h.moved.parts (.rep c) (by simp)
theorem PumpEventFrom.seq (h : PumpEventFrom c t s s₁) : s₁.seq c = s.seq c := h.moved.parts (.seq c) (by simp)

/-- A change of stage at a T1 event. -/
theorem PumpEventFrom.enters (h : PumpEventFrom c t s s₁) (hp : PagesFit s) (hs : (s.pump c).st ≠ p.st) :
    (stageTo c p s₁).pump c = p ∧ memField (stageTo c p s₁).mem (statusAddr c + 1) 1 = p.st.code ∧
      ((stageTo c p s₁).rep c).next = ((s.rep c).next + 1) % 65536 ∧
      Frame [.now, .pins, .summary, .pump c, .rep c] [statusBytes c, reportBytes s.tables.partition c] [.report c] s
        (stageTo c p s₁) := by
  obtain ⟨pump, shown, next, frame⟩ := stageTo_enters (c := c) (p := p) (h.fit hp) (by rw [h.st]; exact hs)
  rw [h.tables] at frame
  refine ⟨pump, shown, by rw [next, h.rep], ?_⟩
  exact .trans (h.moved.mono (by simp)) (frame.mono (by simp) fun _ hr => covered_of_mem hr)

/-- Settles O35: each threshold by the work of its branch, and that work by what a change of stage leaves. -/
theorem pumpdownPassesItsThresholds : Obligations.PumpdownPassesItsThresholds := by
  refine ⟨?_, ?_, ?_⟩
  · intro s t c turbo v h hp hm hs hpaused hf hv hx hsoft
    refine answers_atTap h (body := pumpWork c turbo) rfl ?_
    rw [pumpWork_counted (s := s.setNow t) hm]
    have ev := pumpSampled_from (s := s) (c := c) (t := t) (turbo := turbo)
    generalize pumpSampled c turbo (s.setNow t) = u at ev ⊢
    have gauge : u.freshAt (u.chamberCfg c).roughGauge = some v := by rw [ev.cfg, ev.fresh, hv]
    rw [pumpStageWork_roughs (.inl (ev.st.trans hs)),
      guardAndTest_tests (by rw [ev.pump]; exact hpaused) (ev.allows.trans hf),
      roughTest_fastens (by rw [roughAtOrBelow_iff gauge, ev.cfg]; exact decide_eq_false (Nat.not_le.mpr hx)) (ev.st.trans hs)
        (by rw [roughAtOrBelow_iff gauge, ev.cfg]; exact decide_eq_true hsoft), ev.cfg, ev.now]
    obtain ⟨pump, shown, next, frame⟩ := ev.enters (p :=
      { st := .fastRough, limit := loadLimit (s.chamberCfg c).fastRoughLimit, limitMark := t, mark := t }) hp (by simp [hs])
    exact ⟨pump, shown, next, frame.flags, frame.stores⟩
  · intro s t c turbo v h hp hm hs hpaused hf hv hx hr
    refine answers_atTap h (body := pumpWork c turbo) rfl ?_
    rw [pumpWork_counted (s := s.setNow t) hm]
    have ev := pumpSampled_from (s := s) (c := c) (t := t) (turbo := turbo)
    generalize pumpSampled c turbo (s.setNow t) = u at ev ⊢
    have gauge : u.freshAt (u.chamberCfg c).roughGauge = some v := by rw [ev.cfg, ev.fresh, hv]
    rw [pumpStageWork_roughs (by rw [ev.st]; exact hs),
      guardAndTest_tests (by rw [ev.pump]; exact hpaused) (ev.allows.trans hf),
      roughTest_crosses (by rw [roughAtOrBelow_iff gauge, ev.cfg]; exact decide_eq_true hx), leaveRoughing, ev.cfg, ev.now]
    obtain ⟨pump, shown, next, frame⟩ := ev.enters (p := crossoverPump (s.chamberCfg c) t) hp
      (by rcases hs with hs | hs <;> simp [hs, crossoverPump])
    have rough := (frame.parts .rough (by simp)).trans hr
    generalize stageTo c (crossoverPump (s.chamberCfg c) t) u = v at pump shown next frame rough ⊢
    rw [leaveRough_last rough]
    have hb := statusAddr_bounds c
    have words := imageRough_words (s := v.setRough { holder := none, queue := [] }) rfl
    have image : Frame [.rough] [(0x120, 8)] [] v (imageRough (v.setRough { holder := none, queue := [] })) :=
      .trans .setRough (.imageRough (covered_of_mem (by simp)))
    have whole : Frame [.now, .pins, .summary, .pump c, .rep c, .rough]
        [statusBytes c, (0x120, 8), reportBytes s.tables.partition c] [.report c] s
        (imageRough (v.setRough { holder := none, queue := [] })) :=
      .trans (frame.mono (by simp) (fun _ hr => covered_of_mem ?_)) (image.mono (by simp) (fun _ hr => covered_of_mem ?_))
    · refine ⟨(image.parts (.pump c) (by simp)).trans pump, rfl, words.1, words.2, ?_, ?_, whole.flags, whole.stores⟩
      · refine (image.field (by simp only [Config.memorySize]; omega) ?_).trans shown
        simp only [List.mem_cons, List.not_mem_nil, or_false, forall_eq, Config.memorySize]
        omega
      · exact (congrArg Rep.next (image.parts (.rep c) (by simp))).trans next
    · rcases List.mem_cons.mp hr with rfl | hr
      · exact List.mem_cons_self ..
      · exact List.mem_cons_of_mem _ (List.mem_cons_of_mem _ hr)
    · rw [List.mem_singleton.mp hr]
      exact List.mem_cons_of_mem _ (List.mem_cons_self ..)
  · intro s t c v h hp hm hs hv hx
    refine answers_atTap h (body := pumpWork c true) rfl ?_
    rw [pumpWork_counted (s := s.setNow t) hm]
    have ev := pumpSampled_from (s := s) (c := c) (t := t) (turbo := true)
    generalize pumpSampled c true (s.setNow t) = u at ev ⊢
    have work : pumpStageWork c true u = highVacTest c u := by simp [pumpStageWork, ev.st, hs]
    rw [work, highVacTest_passes (v := v) (by rw [ev.cfg, ev.fresh, hv]) (by rw [ev.cfg]; exact hx), ev.now]
    obtain ⟨pump, shown, next, flag, -, held, frame⟩ := pumpAnswered_enters (c := c) (p := { st := .pumped, mark := t })
      (o := .complete) (d := PumpState.pumped.code) (f := .pump c) (fault := 0) (ev.fit hp) (fun e => absurd e (by simp [ev.st, hs])) (by decide)
    have whole : Frame [.now, .pins, .summary, .seq c, .pump c, .rep c]
        [statusBytes c, slotBytes c, reportBytes s.tables.partition c] [.pump c, .order c, .report c] s
        (pumpAnswered c { st := .pumped, mark := t } .complete PumpState.pumped.code (.pump c) 0 u) := by
      rw [ev.tables] at frame
      exact .trans (ev.moved.mono (by simp)) (frame.mono (by simp) (fun _ hr => covered_of_mem hr) (by simp))
    generalize pumpAnswered c { st := .pumped, mark := t } .complete PumpState.pumped.code (.pump c) 0 u = w
      at pump shown next flag held whole ⊢
    exact ⟨by rw [pump], by rw [pump], by simp [State.gateOpen, pump], flag, shown, by rw [next, ev.rep],
      fun i hi => held i (by rw [ev.seq]; exact hi), whole.flags, whole.stores⟩

/-! ### Delays and limits (R109, R117, R120) -/

theorem crossoverWork_opens (h : (s.pump c).delay = some 1) :
    crossoverWork c true s = stageTo c { s.pump c with st := .highVac, delay := none, mark := s.now } s := by
  simp [crossoverWork, h]

theorem crossoverWork_waits (h : (s.pump c).delay = some 1) :
    crossoverWork c false s = s.setPump c { s.pump c with delay := some 0 } := by
  simp [crossoverWork, h]

theorem ventWork_opens (h : (s.pump c).ventOpened = false) (hd : (s.pump c).delay = some 1 ∨ (s.pump c).delay = some 0) :
    ventWork c s = s.setPump c { s.pump c with delay := none, ventOpened := true } := by
  rcases hd with hd | hd <;> simp [ventWork, h, hd]

/-- The event that meets the Crossover Delay does the work of CROSSOVER under either of its rows. -/
theorem exec_crossover {i : Instr} (hi : i = .crossoverDelayEnd t c turbo ∨ i = .pumpMachineT1 t c turbo)
    (h : eventAt .t1 t s) (hm : (s.pump c).mark < t) (hs : (s.pump c).st = .crossover) (hd : (s.pump c).delay = some 1) :
    exec i s = .next (crossoverWork c turbo (pumpSampled c turbo (s.setNow t))) := by
  have ends : crossoverEnds (s.setNow t) c = true := by simp [crossoverEnds, hs, hd, hm]
  have work : pumpWork c turbo (s.setNow t) = crossoverWork c turbo (pumpSampled c turbo (s.setNow t)) := by
    rw [pumpWork_counted (s := s.setNow t) hm]
    simp [pumpStageWork, hs]
  rw [← work]
  rcases hi with rfl | rfl
  · exact (atTap_of_eventAt h _).trans (congrArg _ (workIf_true ends))
  · exact atTap_of_eventAt h _

theorem limitTick_lower {n : Nat} (h : (s.pump c).limit = some n) (hm : (s.pump c).limitMark < s.now)
    (hn : 1 < n ∨ (s.pump c).paused = true) : limitTick c s = s.setPump c
      { s.pump c with limit := some (if (s.pump c).paused then n else n - 1), limitMark := s.now } := by
  cases hp : (s.pump c).paused with
  | true => simp [limitTick, h, State.after, hm, hp]
  | false =>
    have : 1 < n := hn.resolve_right (by simp [hp])
    simp [limitTick, h, State.after, hm, hp, this]

theorem limitTick_off (h : (s.pump c).limit = none ∨ s.now ≤ (s.pump c).limitMark) : limitTick c s = s := by
  simp only [limitTick]
  split
  · rfl
  next n hn =>
    refine if_neg fun g => ?_
    exact h.elim (by simp [hn]) fun h => absurd (of_decide_eq_true g) (Nat.not_lt.mpr h)

theorem limitTick_expires {n : Nat} (h : (s.pump c).limit = some n) (hm : (s.pump c).limitMark < s.now)
    (hp : (s.pump c).paused = false) (hn : n ≤ 1) :
    limitTick c s = enterFaultHold c .pumpTimeout (s.pump c).st.code s := by
  simp [limitTick, h, State.after, hm, hp, Nat.not_lt.mpr hn]

theorem limitExpires_last {n : Nat} (h : (s.pump c).limit = some n) (hm : (s.pump c).limitMark < s.now)
    (hp : (s.pump c).paused = false) (hn : n ≤ 1) : limitExpires s c = true := by
  simp [limitExpires, limitRuns, h, State.after, hm, hp, hn]

theorem samplePin_self : samplePin c s.pins.turbo[c] s = s := by
  simp [samplePin]; rfl

/-- Settles O37: each delay and limit by the equation of its event. -/
theorem pumpDelaysAndLimitsCount : Obligations.PumpDelaysAndLimitsCount := by
  refine ⟨⟨?_, ?_, ?_⟩, ?_, ?_, ?_⟩
  · intro i s t c hi h hp hm hs hd
    refine ⟨_, exec_crossover hi h hm hs hd, ?_⟩
    have ev := pumpSampled_from (s := s) (c := c) (t := t) (turbo := true)
    generalize pumpSampled c true (s.setNow t) = u at ev ⊢
    rw [crossoverWork_opens (by rw [ev.pump]; exact hd)]
    obtain ⟨pump, shown, next, frame⟩ := ev.enters (p := { u.pump c with st := .highVac, delay := none, mark := u.now }) hp
      (by simp [hs])
    generalize stageTo c _ u = w at pump shown next frame ⊢
    exact ⟨by rw [pump], by rw [pump, ev.pump], by simp [State.gateOpen, pump], shown, next, frame.flags, frame.stores⟩
  · intro i s t c hi h hm hs hd
    refine ⟨_, exec_crossover hi h hm hs hd, ?_⟩
    have ev := pumpSampled_from (s := s) (c := c) (t := t) (turbo := false)
    generalize pumpSampled c false (s.setNow t) = u at ev ⊢
    rw [crossoverWork_waits (by rw [ev.pump]; exact hd)]
    refine ⟨by rw [State.setPump_pump_same, ev.pump], Frame.keeps (fs := []) (.trans ev.moved .setPump)⟩
  · intro s t c h hm hs ho hd
    refine answers_atTap h
      (body := workIf (fun s => gateCloseEnds s c) fun s => pumpWork c s.pins.turbo[c] s) rfl ?_
    have ends : gateCloseEnds (s.setNow t) c = true := by
      rcases hd with hd | hd <;> simp [gateCloseEnds, hs, hd, ho, hm]
    have work : pumpWork c (s.setNow t).pins.turbo[c] (s.setNow t) =
        ((s.setNow t).modPump c fun p => { p with mark := (s.setNow t).now }).setPump c
          { s.pump c with delay := none, ventOpened := true, mark := t } := by
      rw [pumpWork_counted (s := s.setNow t) hm, pumpSampled, samplePin_self]
      have st : (((s.setNow t).modPump c fun p => { p with mark := (s.setNow t).now }).pump c) = { s.pump c with mark := t } := by
        simp [State.modPump_eq]
      generalize (s.setNow t).modPump c (fun p => { p with mark := (s.setNow t).now }) = u at st ⊢
      have vents : pumpStageWork c (s.setNow t).pins.turbo[c] u = ventWork c u := by simp [pumpStageWork, st, hs]
      rw [vents, ventWork_opens (by rw [st]; exact ho) (by rw [st]; exact hd), st]
    rw [workIf_true ends, work]
    refine ⟨State.setPump_pump_same .., by simp [State.ventOpen, hs], ?_⟩
    exact Frame.keeps (fs := []) (.trans .setNow (.trans .modPump .setPump))
  · intro s t c n h hl hm hn
    refine answers_atTap h (body := limitTick c) rfl ?_
    rw [limitTick_lower (s := s.setNow t) hl hm hn]
    exact ⟨State.setPump_pump_same .., Frame.keeps (fs := []) (.trans .setNow .setPump)⟩
  · intro s t c h hl
    refine answers_atTap h (body := limitTick c) rfl ?_
    rw [limitTick_off (s := s.setNow t) hl]
    exact setNow_keeps
  · intro i s t c n hi h hp hl hn hm hpaused hs hold hq
    have key : exec i s = .next (enterFaultHold c .pumpTimeout (s.pump c).st.code (s.setNow t)) := by
      refine Eq.trans ?_ (congrArg _ (limitTick_expires (s := s.setNow t) hl hm hpaused hn))
      rcases hi with rfl | rfl
      · exact (atTap_of_eventAt h _).trans (congrArg _ (workIf_true (limitExpires_last (s := s.setNow t) hl hm hpaused hn)))
      · exact atTap_of_eventAt h _
    have fit : PagesFit (s.setNow t) := hp
    have code : (s.pump c).st.code < 4294967296 := Nat.lt_of_lt_of_le (PumpState.code_lt _) (by decide)
    refine ⟨_, key, ?_⟩
    rw [enterFaultHold_off (s := s.setNow t) ⟨hold, hq⟩]
    obtain ⟨pump, shown, next, flag, -, held, frame⟩ := pumpAnswered_enters (c := c) (p := { st := .faultHold, mark := t })
      (o := .pumpTimeout) (d := (s.pump c).st.code) (f := .fault c) (fault := Code.pumpTimeout.code) fit (fun e => absurd e hs) code
    have whole : Frame [.now, .summary, .seq c, .pump c, .rep c]
        [statusBytes c, slotBytes c, reportBytes s.tables.partition c] [.fault c, .order c, .report c] s _ :=
      .trans .setNow (frame.mono (by simp) (fun _ hr => covered_of_mem hr))
    have now : (s.setNow t).now = t := rfl
    rw [now]
    generalize pumpAnswered c { st := .faultHold, mark := t } .pumpTimeout (s.pump c).st.code (.fault c)
      Code.pumpTimeout.code (s.setNow t) = w at pump shown next flag held whole ⊢
    exact ⟨pump, flag, shown, next, held, whole.flags, whole.stores⟩

end Sys2Proof.Machine
end

section
/-! The end and the failure of a wake (R162). -/

namespace Sys2Proof.Machine

variable {s s₁ : State} {c : Chamber} {t : Moment} {p : Pump} {o : Code} {d : Nat} {cause : WakeCause}

/-! ### Two slots answered -/

theorem Seq.freed_slotWith {x : Seq} {p q : SlotHold → Bool} (apart : ∀ h, p h = true → q h = false) (hf : q .free = false) :
    (x.freed p).slotWith q = x.slotWith q := by
  unfold Seq.slotWith
  congr 1
  funext i
  rw [Seq.freed_slots]
  split
  next h => rw [hf, apart _ (slotWith_some h)]
  next => rfl

/-- An answered slot outlasts the answer of another. -/
theorem heldDone.overSlot {q r : SlotHold → Bool} {o' : Code} {d' : Nat} (h : heldDone s s₁ c q o d) (hf : r .free = false) :
    heldDone s (doneHeld c r o' d' 0 s₁) c q o d := by
  intro i hi
  obtain ⟨reads, slot, flag⟩ := h i hi
  have hb := slotAddr_top c i
  unfold doneHeld
  split
  next j hj =>
    have hne : j ≠ i := by
      rintro rfl
      have held := slotWith_some hj
      rw [slot, hf] at held
      exact absurd held (by decide)
    have done := Frame.doneSlot (s := s₁) (c := c) (i := j) (o := o') (d := d') (n := 0)
    have word : ∀ a, slotAddr c i ≤ a → a + 4 ≤ slotAddr c i + 64 → (doneSlot c j o' d' 0 s₁).word a = s₁.word a :=
      fun a h1 h2 => done.word (by simp only [Config.memorySize]; omega) (answerBytes_apart hne h1 h2)
    obtain ⟨r1, r2, r3, r4⟩ := reads
    refine ⟨⟨(word _ (by omega) (by omega)).trans r1, (word _ (by omega) (by omega)).trans r2,
      (word _ (by omega) (by omega)).trans r3, (word _ (by omega) (by omega)).trans r4⟩, ?_, flagSet_raise_same⟩
    rw [doneSlot_seq, Fin.getElem_fin, Vector.getElem_set_ne _ _ (by simpa [Fin.ext_iff] using hne)]
    exact slot
  next => exact h i hi

/-! ### The mode shown and reported (R159) -/

/-- The mode byte of a status word (R106). -/
theorem statusValue_mode : statusValue s c .states / 256 ^ 2 % 256 ^ 1 = (s.econ c).mode.code := by
  have : (s.econ c).mode.code < 256 := by cases (s.econ c).mode <;> decide
  simp only [statusValue, pack8]
  omega

theorem showStates_mode : memField (showWord c .states s).mem (statusAddr c + 2) 1 = (s.econ c).mode.code := by
  have shown := field_showWord (c := c) (w := .states) (s := s) (i := 2) (n := 1) (by decide)
  rw [show statusAddr c + StatusWord.states.offset + 2 = statusAddr c + 2 from rfl] at shown
  rw [shown, statusValue_mode]

theorem showStates_pump : memField (showWord c .states s).mem (statusAddr c + 1) 1 = (s.pump c).st.code := by
  have shown := field_showWord (c := c) (w := .states) (s := s) (i := 1) (n := 1) (by decide)
  rw [show statusAddr c + StatusWord.states.offset + 1 = statusAddr c + 1 from rfl] at shown
  have code := (s.pump c).st.code_lt
  rw [shown, statusValue, pack8]
  omega

/-- A change of the flags word leaves the states word. -/
theorem showFlags_states {a : Nat} (h1 : statusAddr c ≤ a) (h2 : a + 1 ≤ statusAddr c + 4) :
    memField (showWord c .flags s).mem a 1 = memField s.mem a 1 := by
  have hs := statusAddr_bounds c
  refine (Frame.showWord (ps := []) (rs := [(statusAddr c + 4, 4)]) (fs := []) ?_).field
    (by simp only [Config.memorySize]; omega) ?_
  · exact covered_of_mem (by simp [StatusWord.offset])
  · simp only [List.mem_cons, List.not_mem_nil, or_false, forall_eq, Config.memorySize]; omega

theorem putPump_modeShown (h : memField s.mem (statusAddr c + 2) 1 = (s.econ c).mode.code) :
    memField (putPump c p s).mem (statusAddr c + 2) 1 = (s.econ c).mode.code := by
  have placed : memField (if (s.pump c).st = p.st then s.setPump c p else showWord c .states (s.setPump c p)).mem
      (statusAddr c + 2) 1 = (s.econ c).mode.code := by
    split
    · exact h
    · exact showStates_mode
  unfold putPump
  simp only
  split
  · exact placed
  · exact (showFlags_states (by omega) (by omega)).trans placed

theorem pumpAnswered_modeShown {f : EventFlag} {fault : Nat} (hp : PagesFit s)
    (h : memField s.mem (statusAddr c + 2) 1 = (s.econ c).mode.code) :
    memField (pumpAnswered c p o d f fault s).mem (statusAddr c + 2) 1 = (s.econ c).mode.code := by
  have hs := statusAddr_bounds c
  have put := Frame.putPump (s := s) (c := c) (p := p)
  have answered := Frame.doneHeld (s := putPump c p s) (c := c) (p := SlotHold.isPump) (o := o) (d := d) (n := 0)
  have shown := (answered.field (a := statusAddr c + 2) (n := 1) (by simp only [Config.memorySize]; omega)
    (slotBytes_status (by omega) (by omega))).trans (putPump_modeShown h)
  have fit : PagesFit (doneHeld c SlotHold.isPump o d 0 (putPump c p s)) :=
    pagesFit_congr ((answered.parts .tables (by simp)).trans (put.parts .tables (by simp)))
      (fun d => (answered.parts (.rep d) (by simp)).trans (put.parts (.rep d) (by simp))) hp
  rw [pumpAnswered]
  generalize doneHeld c SlotHold.isPump o d 0 (putPump c p s) = u at shown fit ⊢
  have fit' : PagesFit (raise f u) := fit
  exact (pumpEntry_status fit' (by omega)).trans shown

theorem pumpAnswered_fit {f : EventFlag} {fault : Nat} (hp : PagesFit s) : PagesFit (pumpAnswered c p o d f fault s) := by
  have put := Frame.putPump (s := s) (c := c) (p := p)
  have answered := Frame.doneHeld (s := putPump c p s) (c := c) (p := SlotHold.isPump) (o := o) (d := d) (n := 0)
  have fit : PagesFit (raise f (doneHeld c SlotHold.isPump o d 0 (putPump c p s))) :=
    pagesFit_congr ((answered.parts .tables (by simp)).trans (put.parts .tables (by simp)))
      (fun d => (answered.parts (.rep d) (by simp)).trans (put.parts (.rep d) (by simp))) hp
  exact Keeps.produce.core.pagesFit fit

theorem putMode_econ {m : Mode} : (putMode c m s).econ c =
    { s.econ c with mode := m, phase := .none, limit := 0, dwell := 0 } := by
  simp [putMode, State.modEcon_eq, showWord]

theorem putMode_shown {m : Mode} : memField (putMode c m s).mem (statusAddr c + 2) 1 = m.code :=
  showStates_mode.trans (by simp [State.modEcon_eq])

theorem putMode_pumpShown {m : Mode} : memField (putMode c m s).mem (statusAddr c + 1) 1 = (s.pump c).st.code :=
  showStates_pump.trans (by simp [State.modEcon_eq])

theorem Frame.putMode {m : Mode} : Frame [.econ c] [statusBytes c] [] s (Machine.putMode c m s) :=
  .trans .modEcon .showWord

/-- What a MODE entry leaves. -/
theorem modeEntry_reports {fault flags : Nat} (hp : PagesFit s) :
    ((modeEntry c cause fault flags s).rep c).next = ((s.rep c).next + 1) % 65536 ∧
      (modeEntry c cause fault flags s).flagSet (.pump c) = true ∧
      (∀ a n, a + n ≤ statusAddr c + 28 → memField (modeEntry c cause fault flags s).mem a n = memField s.mem a n) ∧
      Frame [.rep c, .summary] (noticeBytes s.tables.partition c) [.pump c, .report c] s
        (modeEntry c cause fault flags s) := by
  refine ⟨produce_next, flagSet_raise_same, fun a n h => produce_status hp h, ?_⟩
  exact .trans ((Frame.produce_notice hp).mono (by simp) (fun _ hr => covered_of_mem hr) (by simp)) .raise

/-! ### The end of a wake (R162) -/

/-- The mode ACTIVE and the last wake's cause shown, the entry not made yet. -/
def wakeShown (c : Chamber) (s : State) : State :=
  showWord c .flags (putMode c .active (s.modEcon c fun e => { e with lastWake := (s.econ c).cause }))

theorem wakeShown_econ : (wakeShown c s).econ c =
    { s.econ c with lastWake := (s.econ c).cause, mode := .active, phase := .none, limit := 0, dwell := 0 } := by
  simp [wakeShown, showWord, putMode_econ, State.modEcon_eq]

theorem Frame.wakeShown : Frame [.econ c] [statusBytes c] [] s (Machine.wakeShown c s) :=
  .trans .modEcon (.trans .putMode .showWord)

theorem wakeShown_mode : memField (wakeShown c s).mem (statusAddr c + 2) 1 = 0 :=
  (showFlags_states (by omega) (by omega)).trans putMode_shown

theorem wakeShown_cause : memField (wakeShown c s).mem (statusAddr c + 5) 1 = (s.econ c).cause.code := by
  have shown := field_showWord (c := c) (w := .flags)
    (s := putMode c .active (s.modEcon c fun e => { e with lastWake := (s.econ c).cause })) (i := 1) (n := 1) (by decide)
  rw [show statusAddr c + StatusWord.flags.offset + 1 = statusAddr c + 5 from rfl] at shown
  have code : (s.econ c).cause.code < 256 := by cases (s.econ c).cause <;> decide
  have last : ((putMode c .active (s.modEcon c fun e => { e with lastWake := (s.econ c).cause })).econ c).lastWake =
      (s.econ c).cause := by rw [putMode_econ]; simp [State.modEcon_eq]
  rw [wakeShown, shown, statusValue, last, pack8]
  omega

/-- A wake reported at its end, its orders not answered yet. -/
def wakeReported (c : Chamber) (s : State) : State := modeEntry c (s.econ c).cause 0 0 (wakeShown c s)

theorem endWake_idle (hr : (s.seq c).run = .idle) (hp : PagesFit s) : endWake c s =
    doneHeld c SlotHold.isPump .already (s.pump c).st.code 0
      (doneHeld c SlotHold.isMode .complete (s.pump c).st.code 0 (wakeReported c s)) := by
  have shown := Frame.wakeShown (s := s) (c := c)
  have fit : PagesFit (wakeShown c s) :=
    pagesFit_congr (shown.parts .tables (by simp)) (fun d => shown.parts (.rep d) (by simp)) hp
  obtain ⟨-, -, -, entry⟩ := modeEntry_reports (c := c) (cause := (s.econ c).cause) (fault := 0) (flags := 0) fit
  have run : ((wakeReported c s).seq c).run ≠ .starting := by
    have e : (wakeReported c s).seq c = s.seq c := (entry.parts (.seq c) (by simp)).trans (shown.parts (.seq c) (by simp))
    rw [e, hr]; decide
  have pump : (wakeReported c s).pump c = s.pump c :=
    (entry.parts (.pump c) (by simp)).trans (shown.parts (.pump c) (by simp))
  have e : endWake c s = doneHeld c SlotHold.isPump .already ((wakeReported c s).pump c).st.code 0
      (doneHeld c SlotHold.isMode .complete ((wakeReported c s).pump c).st.code 0
        (if ((wakeReported c s).seq c).run = .starting then stepStart c ((wakeReported c s).seq c).pos (wakeReported c s)
          else wakeReported c s)) := rfl
  rw [e, if_neg run, pump]

theorem wakeTick_ends (hm : (s.econ c).countMark < s.now) (hp : (s.econ c).phase = .dwell) (hn : (s.econ c).dwell ≤ 1) :
    wakeTick c s = endWake c s := by
  simp [wakeTick, State.after, hm, hp, Nat.not_lt.mpr hn]

theorem wakeTick_fails (hm : (s.econ c).countMark < s.now) (hp : (s.econ c).phase = .turboWait) (hn : (s.econ c).limit ≤ 1) :
    wakeTick c s = failWake c s := by
  simp [wakeTick, State.after, hm, hp, Nat.not_lt.mpr hn]

/-- A wake that ends over an IDLE run. -/
theorem endWake_ends (hr : (s.seq c).run = .idle) (hp : PagesFit s) :
    ((endWake c s).econ c).mode = .active ∧ ((endWake c s).econ c).phase = .none ∧
      ((endWake c s).econ c).lastWake = (s.econ c).cause ∧ (endWake c s).flagSet (.pump c) = true ∧
      memField (endWake c s).mem (statusAddr c + 2) 1 = 0 ∧
      memField (endWake c s).mem (statusAddr c + 5) 1 = (s.econ c).cause.code ∧
      ((endWake c s).rep c).next = ((s.rep c).next + 1) % 65536 ∧
      heldDone s (endWake c s) c SlotHold.isMode .complete (s.pump c).st.code ∧
      heldDone s (endWake c s) c SlotHold.isPump .already (s.pump c).st.code ∧
      Frame [.summary, .seq c, .econ c, .rep c] (endBytes s c) [.pump c, .order c, .report c] s (endWake c s) := by
  rw [endWake_idle hr hp]
  have hs := statusAddr_bounds c
  have code : (s.pump c).st.code < 4294967296 := Nat.lt_of_lt_of_le (PumpState.code_lt _) (by decide)
  have shown := Frame.wakeShown (s := s) (c := c)
  have tables : (wakeShown c s).tables = s.tables := shown.parts .tables (by simp)
  have rep : ∀ d, (wakeShown c s).rep d = s.rep d := fun d => shown.parts (.rep d) (by simp)
  obtain ⟨next, flag, status, entry⟩ := modeEntry_reports (c := c) (cause := (s.econ c).cause) (fault := 0) (flags := 0)
    (pagesFit_congr tables rep hp)
  rw [tables] at entry
  have econ : (wakeReported c s).econ c = _ := (entry.parts (.econ c) (by simp)).trans wakeShown_econ
  have mode := (status (statusAddr c + 2) 1 (by omega)).trans wakeShown_mode
  have cause := (status (statusAddr c + 5) 1 (by omega)).trans wakeShown_cause
  have seq : (wakeReported c s).seq c = s.seq c := (entry.parts (.seq c) (by simp)).trans (shown.parts (.seq c) (by simp))
  have start : Frame [.summary, .econ c, .rep c] (endBytes s c) [.pump c, .report c] s (wakeReported c s) :=
    .trans (shown.mono (by simp) (fun _ hr => covered_of_mem (List.mem_cons.mpr (.inl (List.mem_singleton.mp hr)))))
      (entry.mono (by simp) (fun _ hr => noticeBytes_status (by simp [endBytes]) (by simp [endBytes]) hr))
  rw [rep] at next
  have flag' : (wakeReported c s).flagSet (.pump c) = true := flag
  have next' : ((wakeReported c s).rep c).next = ((s.rep c).next + 1) % 65536 := next
  have mode' : memField (wakeReported c s).mem (statusAddr c + 2) 1 = 0 := mode
  have cause' : memField (wakeReported c s).mem (statusAddr c + 5) 1 = (s.econ c).cause.code := cause
  clear entry status mode cause flag next
  generalize wakeReported c s = u at econ mode' cause' seq start flag' next' ⊢
  have held := doneHeld_held (s := u) (c := c) (o := .complete) (q := SlotHold.isMode) code
  have freed := doneHeld_seq (s := u) (c := c) (p := SlotHold.isMode) (o := .complete) (d := (s.pump c).st.code) (n := 0)
  have first := Frame.doneHeld (s := u) (c := c) (p := SlotHold.isMode) (o := .complete) (d := (s.pump c).st.code) (n := 0)
  generalize doneHeld c SlotHold.isMode .complete (s.pump c).st.code 0 u = v at held freed first ⊢
  have heldPump := doneHeld_held (s := v) (c := c) (o := .already) (q := SlotHold.isPump) code
  have second := Frame.doneHeld (s := v) (c := c) (p := SlotHold.isPump) (o := .already) (d := (s.pump c).st.code) (n := 0)
  have heldMode := held.overSlot (r := SlotHold.isPump) (o' := .already) (d' := (s.pump c).st.code) rfl
  generalize doneHeld c SlotHold.isPump .already (s.pump c).st.code 0 v = w at heldPump second heldMode ⊢
  have answers : Frame [.seq c, .summary] [slotBytes c] [.order c] u w := .trans first second
  have econ' := (answers.parts (.econ c) (by simp)).trans econ
  have apart : ∀ h, SlotHold.isMode h = true → SlotHold.isPump h = false := by
    intro h; cases h <;> simp [SlotHold.isMode, SlotHold.isPump]
  have same : (v.seq c).slotWith SlotHold.isPump = (s.seq c).slotWith SlotHold.isPump := by
    rw [freed, Seq.freed_slotWith apart rfl, seq]
  refine ⟨by rw [econ'], by rw [econ'], by rw [econ'], ?_, ?_, ?_, ?_, ?_, ?_, ?_⟩
  · rw [answers.flags (.pump c) (by simp), flag']
  · exact (answers.field (by simp only [Config.memorySize]; omega) (slotBytes_status (by omega) (by omega))).trans mode'
  · exact (answers.field (by simp only [Config.memorySize]; omega) (slotBytes_status (by omega) (by omega))).trans cause'
  · exact (congrArg Rep.next (answers.parts (.rep c) (by simp))).trans next'
  · exact fun i hi => heldMode i (by rw [seq]; exact hi)
  · exact fun i hi => heldPump i (by rw [same]; exact hi)
  · exact .trans (start.mono (by simp) (fun _ hr => covered_of_mem hr) (by simp))
      (answers.mono (by simp) (fun _ hr => covered_of_mem (by rw [List.mem_singleton.mp hr]; simp [endBytes])) (by simp))

/-! ### The failure of a wake (R162) -/

theorem failWake_idle (hr : (s.seq c).run = .idle) (ho : offRough s c) : failWake c s =
    modeEntry c (s.econ c).cause Code.turboLost.code 0
      (doneHeld c SlotHold.isMode .turboLost (s.pump c).st.code 0
        (pumpAnswered c { st := .faultHold, mark := s.now } .turboLost (s.pump c).st.code (.fault c) Code.turboLost.code
          (putMode c .active s))) := by
  have put := Frame.putMode (s := s) (c := c) (m := .active)
  have seq : (putMode c .active s).seq c = s.seq c := put.parts (.seq c) (by simp)
  have rough : (putMode c .active s).rough = s.rough := put.parts .rough (by simp)
  have pump : (putMode c .active s).pump c = s.pump c := put.parts (.pump c) (by simp)
  have now : (putMode c .active s).now = s.now := put.parts .now (by simp)
  have off : offRough (putMode c .active s) c := by simpa only [offRough, rough] using ho
  have lost := turboLoss_idle off (by rw [seq, hr])
  rw [enterFaultHold_off off, pump, now] at lost
  rw [failWake, lost]

/-- A wake that fails over an IDLE run, its machine outside the rough line. -/
theorem failWake_fails (hr : (s.seq c).run = .idle) (ho : offRough s c) (hp : PagesFit s) :
    (failWake c s).econ c = { s.econ c with mode := .active, phase := .none, limit := 0, dwell := 0 } ∧
      (failWake c s).pump c = { st := .faultHold, mark := s.now } ∧
      (failWake c s).flagSet (.pump c) = true ∧ (failWake c s).flagSet (.fault c) = true ∧
      memField (failWake c s).mem (statusAddr c + 1) 1 = 9 ∧ memField (failWake c s).mem (statusAddr c + 2) 1 = 0 ∧
      ((failWake c s).rep c).next = ((s.rep c).next + 2) % 65536 ∧
      heldDone s (failWake c s) c SlotHold.isMode .turboLost (s.pump c).st.code ∧
      heldDone s (failWake c s) c SlotHold.isPump .turboLost (s.pump c).st.code ∧
      Frame [.summary, .seq c, .pump c, .econ c, .rep c] (endBytes s c) [.pump c, .fault c, .order c, .report c] s
        (failWake c s) := by
  rw [failWake_idle hr ho]
  have hs := statusAddr_bounds c
  have code : (s.pump c).st.code < 4294967296 := Nat.lt_of_lt_of_le (PumpState.code_lt _) (by decide)
  have put := Frame.putMode (s := s) (c := c) (m := .active)
  have econ := putMode_econ (s := s) (c := c) (m := .active)
  have mode := putMode_shown (s := s) (c := c) (m := .active)
  have pumpShown := putMode_pumpShown (s := s) (c := c) (m := .active)
  generalize putMode c .active s = u at put econ mode pumpShown ⊢
  have tables : u.tables = s.tables := put.parts .tables (by simp)
  have rep : ∀ d, u.rep d = s.rep d := fun d => put.parts (.rep d) (by simp)
  have seq : u.seq c = s.seq c := put.parts (.seq c) (by simp)
  have pump : u.pump c = s.pump c := put.parts (.pump c) (by simp)
  have fit : PagesFit u := pagesFit_congr tables rep hp
  have mode' : memField u.mem (statusAddr c + 2) 1 = (u.econ c).mode.code := by rw [mode, econ]
  have fit' := pumpAnswered_fit (c := c) (p := { st := .faultHold, mark := s.now }) (o := .turboLost)
    (d := (s.pump c).st.code) (f := .fault c) (fault := Code.turboLost.code) fit
  have modeStays := pumpAnswered_modeShown (p := { st := .faultHold, mark := s.now }) (o := .turboLost)
    (d := (s.pump c).st.code) (f := .fault c) (fault := Code.turboLost.code) fit mode'
  obtain ⟨held, stShown, next, flag, freed, heldPump, frame⟩ := pumpAnswered_enters (c := c)
    (p := { st := .faultHold, mark := s.now }) (o := .turboLost) (d := (s.pump c).st.code) (f := .fault c)
    (fault := Code.turboLost.code) fit (fun e => by rw [pumpShown, ← e, pump]) code
  rw [tables] at frame
  generalize pumpAnswered c { st := .faultHold, mark := s.now } .turboLost (s.pump c).st.code (.fault c)
    Code.turboLost.code u = v at fit' modeStays held stShown next flag freed heldPump frame ⊢
  have answered := Frame.doneHeld (s := v) (c := c) (p := SlotHold.isMode) (o := .turboLost) (d := (s.pump c).st.code) (n := 0)
  have heldMode := doneHeld_held (s := v) (c := c) (o := .turboLost) (q := SlotHold.isMode) code
  have heldPump' := heldPump.overSlot (r := SlotHold.isMode) (o' := .turboLost) (d' := (s.pump c).st.code) rfl
  generalize doneHeld c SlotHold.isMode .turboLost (s.pump c).st.code 0 v = w at answered heldMode heldPump' ⊢
  have start : Frame [.summary, .seq c, .pump c, .econ c, .rep c] (endBytes s c) [.pump c, .fault c, .order c, .report c] s w := by
    refine .trans (put.mono (by simp) (fun _ hr => covered_of_mem (List.mem_cons.mpr (.inl (List.mem_singleton.mp hr)))) (by simp))
      (.trans (frame.mono (by simp) (fun _ hr => covered_of_mem hr) (by simp))
        (answered.mono (by simp) (fun _ hr => covered_of_mem ?_) (by simp)))
    rw [List.mem_singleton.mp hr]; simp [endBytes]
  have tables' : w.tables = s.tables := start.parts .tables (by simp)
  obtain ⟨next', flag', status, entry⟩ := modeEntry_reports (c := c) (cause := (s.econ c).cause)
    (fault := Code.turboLost.code) (flags := 0)
    (pagesFit_congr (answered.parts .tables (by simp)) (fun d => answered.parts (.rep d) (by simp)) fit')
  rw [tables'] at entry
  have apart : ∀ h, SlotHold.isPump h = true → SlotHold.isMode h = false := by
    intro h; cases h <;> simp [SlotHold.isMode, SlotHold.isPump]
  have same : (v.seq c).slotWith SlotHold.isMode = (s.seq c).slotWith SlotHold.isMode := by
    rw [freed, Seq.freed_slotWith apart rfl, seq]
  have rep' : (w.rep c).next = ((s.rep c).next + 1) % 65536 := by rw [answered.parts (.rep c) (by simp), next, rep]
  have econ' : w.econ c = u.econ c := (answered.parts (.econ c) (by simp)).trans (frame.parts (.econ c) (by simp))
  have slots : ∀ i, ∀ r ∈ noticeBytes s.tables.partition c,
      r.1 + r.2 ≤ Config.memorySize ∧ (slotAddr c i + 32 ≤ r.1 ∨ r.1 + r.2 ≤ slotAddr c i) :=
    fun i => noticeBytes_slots ⟨hp.1, hp.2.1⟩ i
  have flags : w.flagSet (.order c) = true → (modeEntry c (s.econ c).cause Code.turboLost.code 0 w).flagSet (.order c) = true :=
    fun g => (entry.flags (.order c) (by simp)).trans g
  have byte : ∀ a, statusAddr c ≤ a → a + 1 ≤ statusAddr c + 28 → memField w.mem a 1 = memField v.mem a 1 := fun a h1 h2 =>
    answered.field (by simp only [Config.memorySize]; omega) (slotBytes_status h1 (by omega))
  refine ⟨?_, ?_, flag', ?_, ?_, ?_, ?_, ?_, ?_, ?_⟩
  · exact ((entry.parts (.econ c) (by simp)).trans econ').trans econ
  · exact (entry.parts (.pump c) (by simp)).trans ((answered.parts (.pump c) (by simp)).trans held)
  · rw [entry.flags (.fault c) (by simp), answered.flags (.fault c) (by simp), flag]
  · exact (status _ _ (by omega)).trans ((byte _ (by omega) (by omega)).trans stShown)
  · exact (status _ _ (by omega)).trans ((byte _ (by omega) (by omega)).trans (modeStays.trans (by rw [econ]; rfl)))
  · rw [next', rep']; omega
  · have h : heldDone s w c SlotHold.isMode .turboLost (s.pump c).st.code := fun i hi => heldMode i (by rw [same]; exact hi)
    exact h.over entry (by simp) flags slots
  · have h : heldDone s w c SlotHold.isPump .turboLost (s.pump c).st.code := fun i hi => heldPump' i (by rw [seq]; exact hi)
    exact h.over entry (by simp) flags slots
  · refine .trans start (entry.mono (by simp) (fun r hr => noticeBytes_status ?_ ?_ hr) (by simp))
    · simp [endBytes]
    · simp [endBytes]

/-- Settles O50: the end and the failure of a wake by what each leaves, under either of its rows. -/
theorem wakesEndOrFail : Obligations.WakesEndOrFail := by
  refine ⟨?_, ?_⟩
  · intro i s t c hi h hp hph hn hm hr
    have key : exec i s = .next (endWake c (s.setNow t)) := by
      rw [← wakeTick_ends (s := s.setNow t) hm hph hn]
      have ends : wakeDwellEnds (s.setNow t) c = true := by simp [wakeDwellEnds, hph, hn, hm]
      rcases hi with rfl | rfl
      · exact (atTap_of_eventAt h _).trans (congrArg _ (workIf_true ends))
      · exact atTap_of_eventAt h _
    obtain ⟨mode, phase, last, flag, modeShown, causeShown, next, heldMode, heldPump, frame⟩ :=
      endWake_ends (s := s.setNow t) (c := c) hr hp
    have whole : Frame [.now, .summary, .seq c, .econ c, .rep c] (endBytes s c) [.pump c, .order c, .report c] s _ :=
      .trans .setNow (frame.mono (by simp) (fun _ hr => covered_of_mem hr))
    refine ⟨_, key, ?_⟩
    beta_reduce
    generalize endWake c (s.setNow t) = u at mode phase last flag modeShown causeShown next heldMode heldPump whole ⊢
    exact ⟨⟨mode, phase, last, flag⟩, ⟨modeShown, causeShown⟩, next, fun j hj => ⟨(heldMode j hj).1, (heldMode j hj).2.1⟩,
      fun j hj => ⟨(heldPump j hj).1, (heldPump j hj).2.1⟩, whole.flags, whole.stores⟩
  · intro i s t c hi h hp hph hn hm hr hold hq
    have key : exec i s = .next (failWake c (s.setNow t)) := by
      rw [← wakeTick_fails (s := s.setNow t) hm hph hn]
      have expires : wakeLimitExpires (s.setNow t) c = true := by simp [wakeLimitExpires, hph, hn, hm]
      rcases hi with rfl | rfl
      · exact (atTap_of_eventAt h _).trans (congrArg _ (workIf_true expires))
      · exact atTap_of_eventAt h _
    obtain ⟨econ, pump, pumpFlag, faultFlag, stShown, modeShown, next, heldMode, heldPump, frame⟩ :=
      failWake_fails (s := s.setNow t) (c := c) hr ⟨hold, hq⟩ hp
    have whole : Frame [.now, .summary, .seq c, .pump c, .econ c, .rep c] (endBytes s c)
        [.pump c, .fault c, .order c, .report c] s _ :=
      .trans .setNow (frame.mono (by simp) (fun _ hr => covered_of_mem hr))
    refine ⟨_, key, ?_⟩
    beta_reduce
    generalize failWake c (s.setNow t) = u at econ pump pumpFlag faultFlag stShown modeShown next heldMode heldPump whole ⊢
    refine ⟨⟨by rw [econ], by rw [econ], by rw [econ]; rfl⟩, ⟨pump, by simp [State.gateOpen, pump],
      by simp [State.turboEconomy, econ]⟩, ⟨pumpFlag, faultFlag⟩, ⟨stShown, modeShown⟩, next, ?_, whole.flags, whole.stores⟩
    rintro j (hj | hj)
    · exact ⟨(heldMode j hj).1, (heldMode j hj).2.1⟩
    · exact ⟨(heldPump j hj).1, (heldPump j hj).2.1⟩

end Sys2Proof.Machine
end

section
/-! The interlock word and the samples of the interlock inputs (R149). -/

namespace Sys2Proof.Machine

variable {s s₁ : State} {c : Chamber} {k : InputId} {t : Moment} {level : Bool}

/-! ### The interlock word -/

theorem sum_bits {n : Nat} (p : Fin n → Bool) : ((List.finRange n).map fun k => bitIf (p k) (2 ^ k.val)).sum = Nat.ofBits p := by
  induction n with
  | zero => simp
  | succ n ih =>
    have double : ∀ b m, bitIf b (2 ^ (m + 1)) = 2 * bitIf b (2 ^ m) := by
      intro b m; cases b <;> simp [bitIf, Nat.pow_succ, Nat.mul_comm]
    rw [Nat.ofBits_succ, List.finRange_succ, List.map_cons, List.sum_cons, List.map_map]
    simp only [Function.comp_def, Fin.val_succ, double, List.sum_map_mul_left, ih fun k => p k.succ]
    cases p 0 <;> simp [bitIf, Nat.add_comm]

theorem inputBits_testBit (p : InputId → Bool) (j : InputId) : (inputBits p).testBit j = p j := by
  rw [inputBits, sum_bits, Nat.testBit_ofBits_lt _ _ j.isLt]

theorem inputBits_lt (p : InputId → Bool) : inputBits p < 65536 := by
  rw [inputBits, sum_bits]
  exact Nat.ofBits_lt_two_pow p

/-- The interlock word shows the raw levels and the trips (R149). -/
theorem imageInterlock_shown (j : InputId) : ((imageInterlock s).word 0x130).testBit j.val = (s.ilk j).raw ∧
    ((imageInterlock s).word 0x130).testBit (j.val + 16) = (s.ilk j).trip := by
  have lo := inputBits_lt fun k => (s.ilk k).raw
  have hi := inputBits_lt fun k => (s.ilk k).trip
  have word : (imageInterlock s).word 0x130 =
      2 ^ 16 * inputBits (fun k => (s.ilk k).trip) + inputBits fun k => (s.ilk k).raw := by
    rw [State.word, imageInterlock, State.putWord_mem_same, show imageAddr 0x30 = 0x130 from rfl, memField_memPutWord_same,
      pack16]
    omega
  have hj := j.isLt
  rw [word, Nat.testBit_two_pow_mul_add _ (by omega), Nat.testBit_two_pow_mul_add _ (by omega), if_pos (by omega),
    if_neg (by omega), Nat.add_sub_cancel]
  exact ⟨inputBits_testBit _ j, inputBits_testBit _ j⟩

/-! ### A sample (R149) -/

/-- The input as a sample leaves it, its word not written yet. -/
def sampledIlk (k : InputId) (level : Bool) (s : State) : State :=
  (interlockPin k level s).setIlk k
    { s.ilk k with
      raw := (s.ilkCfg k).activeAt level, count := (s.ilk k).counted ((s.ilkCfg k).activeAt level), mark := s.now }

theorem sampleInput_quiet (h : sampled s k = true) (hl : sampleLatches s k level = false) : sampleInput k level s =
    if (s.ilk k).raw = (s.ilkCfg k).activeAt level then sampledIlk k level s else imageInterlock (sampledIlk k level s) := by
  simp only [sampleInput, if_pos h, hl]
  rfl

theorem sampleInput_off (h : sampled s k = false) : sampleInput k level s = s := if_neg (by simp [h])

theorem sampled_iff : sampled s k = true ↔ (s.ilkCfg k).scope ≠ 0 ∧ (s.ilk k).mark < s.now := by
  simp [sampled, InterlockCfg.inUse, State.after]

theorem activeAt_iff {e : InterlockCfg} : e.activeAt level = true ↔ (level = true ↔ e.activeLevel = 1) := by
  cases level <;> simp [InterlockCfg.activeAt]

/-- A sample latches where the input is active, its trip clear and its count at the debounce (R149). -/
theorem sampleLatches_iff (h : sampled s k = true) : sampleLatches s k level = true ↔
    (s.ilkCfg k).activeAt level = true ∧ (s.ilk k).trip = false ∧ (s.ilkCfg k).debounce < (s.ilk k).count + 1 := by
  simp [sampleLatches, h, and_assoc]

theorem Frame.imageInterlock_word {ps : List Part} {fs : List EventFlag} :
    Frame ps [(0x130, 4)] fs s (Machine.imageInterlock s) := .imageInterlock (covered_of_mem (by simp))

/-- Settles O44: the sample's equation, its word by what the image shows. -/
theorem interlockSamplesDebounce : Obligations.InterlockSamplesDebounce := by
  refine ⟨?_, ?_⟩
  · intro s t k level act h hs hm hact hq
    refine answers_atTap h (body := sampleInput k level) rfl ?_
    have active : (s.ilkCfg k).activeAt level = act := by
      rw [Bool.eq_iff_iff, activeAt_iff, hact]
    have on : sampled (s.setNow t) k = true := sampled_iff.mpr ⟨hs, hm⟩
    have quiet : sampleLatches (s.setNow t) k level = false := by
      rw [Bool.eq_false_iff, Ne, sampleLatches_iff on]
      rintro ⟨g1, g2, g3⟩
      rcases hq with hq | hq | hq
      · exact absurd (g1.symm.trans (active.trans hq)) (by decide)
      · exact absurd (hq.symm.trans g2) (by decide)
      · exact absurd g3 (Nat.not_lt.mpr hq)
    rw [sampleInput_quiet on quiet]
    have input : (sampledIlk k level (s.setNow t)).ilk k = { s.ilk k with
        raw := act, count := if act then (if (s.ilk k).trip then (s.ilk k).count else (s.ilk k).count + 1) else 0
        mark := t } := by
      simp [sampledIlk, Ilk.counted, active]
      rfl
    have pins : (sampledIlk k level (s.setNow t)).pins = { s.pins with interlock := s.pins.interlock.set k level } := rfl
    have moved : Frame [.now, .pins, .ilk k] [] [] s (sampledIlk k level (s.setNow t)) :=
      .trans .setNow (.trans .setPins .setIlk)
    generalize sampledIlk k level (s.setNow t) = u at input pins moved ⊢
    have raw : ((s.setNow t).ilkCfg k).activeAt level = act := active
    rw [raw]
    by_cases hraw : (s.ilk k).raw = act
    · rw [if_pos (c := ((s.setNow t).ilk k).raw = act) hraw]
      exact ⟨input, pins, fun g => absurd hraw.symm g, fun _ => moved.memory, moved.parts,
        fun a ha _ => moved.memory a ha⟩
    · rw [if_neg (c := ((s.setNow t).ilk k).raw = act) hraw]
      have frame : Frame [.now, .pins, .ilk k] [(0x130, 4)] [] s (imageInterlock u) :=
        .trans (moved.mono (by simp)) .imageInterlock_word
      exact ⟨input, pins, fun _ => imageInterlock_shown, fun g => absurd g.symm hraw, frame.stores⟩
  · intro s t k level h hoff
    refine answers_atTap h (body := sampleInput k level) rfl ?_
    rw [sampleInput_off]
    · exact setNow_keeps
    · rw [Bool.eq_false_iff, Ne, sampled_iff]
      rintro ⟨g1, g2⟩
      exact hoff.elim (fun h => g1 h) fun h => absurd g2 (Nat.not_lt.mpr h)

end Sys2Proof.Machine
end

section
/-! The acknowledgement of the trips (R152). -/

namespace Sys2Proof.Machine

variable {s s₁ u : State} {c : Chamber} {k : InputId} {j : LineId} {levels : Vector Bool 16}

theorem forChambers_keeps {f : Chamber → State → State} {P : State → Prop} (h : ∀ c s, P s → P (f c s)) (h0 : P s) :
    P (forChambers f s) :=
  List.foldlRecOn (motive := P) _ _ h0 fun s hs c _ => h c s hs

/-! ### The trips cleared -/

theorem Frame.clearTrip {ps : List Part} (hp : .pins ∈ ps) (hk : .ilk k ∈ ps) :
    Frame ps [] [] s (Machine.clearTrip levels k s) := by
  unfold Machine.clearTrip
  refine .ite (fun _ => ?_) fun _ => .refl _
  exact .ite (fun _ => .trans (.setPins hp) (.modIlk hk)) fun _ => .setPins hp

theorem Frame.clearTrips : Frame (.pins :: (List.finRange 16).map .ilk) [] [] s (Machine.clearTrips levels s) :=
  .forInputs fun k _ => .clearTrip (by simp) (by simp)

theorem clearTrip_ilk : (clearTrip levels k s).ilk k =
    if (s.ilk k).trip = true ∧ (s.ilkCfg k).activeAt levels[k] = false then { s.ilk k with trip := false, count := 0 }
    else s.ilk k := by
  unfold clearTrip
  by_cases ht : (s.ilk k).trip = true
  · rw [if_pos ht]
    by_cases ha : (s.ilkCfg k).activeAt levels[k] = false
    · have hk : acknowledges s levels k = true := by rw [acknowledges, ht, ha]; rfl
      simp only [hk, if_true]
      rw [State.modIlk_eq, State.setIlk_ilk_same, interlockPin_ilk, if_pos ⟨ht, ha⟩]
    · have hk : acknowledges s levels k = false := by rw [acknowledges, ht, Bool.not_eq_false _ |>.mp ha]; rfl
      simp only [hk, Bool.false_eq_true, if_false]
      rw [interlockPin_ilk, if_neg fun g => ha g.2]
  · rw [if_neg ht, if_neg fun g => ht g.1]

theorem clearTrips_ilk : (clearTrips levels s).ilk k =
    if (s.ilk k).trip = true ∧ (s.ilkCfg k).activeAt levels[k] = false then { s.ilk k with trip := false, count := 0 }
    else s.ilk k := by
  rw [clearTrips_eq]
  refine forInputs_at (f := clearTrip levels) k (P := fun t => t.ilk k = s.ilk k ∧ t.ilkCfg k = s.ilkCfg k)
    (Q := fun t => t.ilk k = if (s.ilk k).trip = true ∧ (s.ilkCfg k).activeAt levels[k] = false then
      { s.ilk k with trip := false, count := 0 } else s.ilk k) (fun d hd t ht => ?_) (fun t ht => ?_) (fun d hd t ht => ?_) ⟨rfl, rfl⟩
  · exact ⟨(clearTrip_ilk_ne levels t (Ne.symm hd)).trans ht.1, (clearTrip_ilkCfg ..).trans ht.2⟩
  · rw [clearTrip_ilk, ht.1, ht.2]
  · exact (clearTrip_ilk_ne levels t (Ne.symm hd)).trans ht

/-! ### The inhibits derived again -/

/-- A chamber's RF inhibit derived from the trips that remain. -/
def rfDerived (c : Chamber) (s : State) : State := s.modRf c fun x => { x with inhibit := x.inhibit && tripped s c 1 }

/-- Whether a chamber's gas inhibit is lifted. -/
def liftsGas (s : State) (c : Chamber) : Prop := s.gasInhibit c = true ∧ tripped s c 2 = false

theorem liftInhibits_stays (h : ¬ liftsGas s c) : liftInhibits c s = rfDerived c s := if_neg h

theorem liftInhibits_lifts (h : liftsGas s c) : liftInhibits c s =
    if (s.econ c).mode = .economy ∧ (s.econ c).phase = .none then
      openPurge c .idlePurge (s.chamberCfg c).economyPurgeFlow ((rfDerived c s).setGasInhibit c false)
    else (rfDerived c s).setGasInhibit c false := if_pos h

theorem Frame.openPurge_line {ps : List Part} {src : Source} {flow : Nat}
    (h : ∀ k, s.purgeLine c = some k → .line k ∈ ps) : Frame ps [] [] s (Machine.openPurge c src flow s) := by
  unfold Machine.openPurge
  split
  next k hk => exact .ite (fun _ => .refl _) fun _ => .modLine (h k hk)
  next => exact .refl _

/-- What deriving the inhibits of a chamber again may change; its purge line only where the gas inhibit is lifted in
ECONOMY (R152). -/
theorem Frame.liftInhibits {ps : List Part} (h1 : .rf c ∈ ps) (h2 : .gasInhibit c ∈ ps)
    (h3 : ∀ k, liftsGas s c → s.turboEconomy c = true → s.purgeLine c = some k → .line k ∈ ps) :
    Frame ps [] [] s (Machine.liftInhibits c s) := by
  by_cases h : liftsGas s c
  · rw [liftInhibits_lifts h]
    have lifted : Frame ps [] [] s ((rfDerived c s).setGasInhibit c false) := .trans (.modRf h1) (.setGasInhibit h2)
    by_cases he : (s.econ c).mode = .economy ∧ (s.econ c).phase = .none
    · rw [if_pos he]
      exact lifted.trans (.openPurge_line fun k hk => h3 k h (decide_eq_true he) hk)
    · rw [if_neg he]
      exact lifted
  · rw [liftInhibits_stays h]
    exact .modRf h1

theorem openPurge_others {src : Source} {flow : Nat} : (∀ d, (openPurge c src flow s).rf d = s.rf d) ∧
    ∀ d, (openPurge c src flow s).gasInhibit d = s.gasInhibit d := by
  have frame : Frame allLines [] [] s (openPurge c src flow s) := .openPurge_line fun k _ => mem_allLines
  exact ⟨fun d => frame.parts (.rf d) (by simp [allLines]), fun d => frame.parts (.gasInhibit d) (by simp [allLines])⟩

theorem liftInhibits_inhibits : (liftInhibits c s).rf c = { s.rf c with inhibit := (s.rf c).inhibit && tripped s c 1 } ∧
    (liftInhibits c s).gasInhibit c = (s.gasInhibit c && tripped s c 2) := by
  have rf : (rfDerived c s).rf c = { s.rf c with inhibit := (s.rf c).inhibit && tripped s c 1 } := by
    simp [rfDerived, State.modRf_eq]
  by_cases h : liftsGas s c
  · have gas : (s.gasInhibit c && tripped s c 2) = false := by rw [h.2, Bool.and_false]
    rw [liftInhibits_lifts h, gas]
    split
    · rw [openPurge_others.1, openPurge_others.2]
      exact ⟨rf, by simp⟩
    · exact ⟨rf, by simp⟩
  · rw [liftInhibits_stays h]
    refine ⟨rf, ?_⟩
    have same : (rfDerived c s).gasInhibit c = s.gasInhibit c := rfl
    rw [same]
    unfold liftsGas at h
    cases hg : s.gasInhibit c <;> cases ht : tripped s c 2 <;> simp [hg, ht] at h ⊢

/-- The idle purge opened by a gas inhibit lifted in ECONOMY (R82, R152). -/
theorem liftInhibits_line (h : liftsGas s c) (he : s.turboEconomy c = true) (hk : s.purgeLine c = some j) :
    (liftInhibits c s).line j = (s.line j).purging c .idlePurge (s.lineCfg j) (s.chamberCfg c).economyPurgeFlow := by
  rw [liftInhibits_lifts h, if_pos (of_decide_eq_true he), openPurge_opens (s := (rfDerived c s).setGasInhibit c false) (k := j) hk (by simp), State.modLine_eq,
    State.setLine_line_same]
  rfl

/-! ### The whole acknowledgement -/

/-- The trips cleared, shown and raised, the inhibits not derived yet. -/
def tripsCleared (levels : Vector Bool 16) (s : State) : State := raise .interlock (imageInterlock (clearTrips levels s))

theorem acknowledge_clears (h : ∃ k, (s.ilk k).trip = true ∧ (s.ilkCfg k).activeAt levels[k] = false) :
    acknowledge levels s = forChambers liftInhibits (tripsCleared levels s) := by
  obtain ⟨k, h1, h2⟩ := h
  exact if_pos (List.any_eq_true.mpr ⟨k, List.mem_finRange k, by rw [acknowledges, h1, h2]; rfl⟩)

theorem acknowledge_idle (h : ∀ k, (s.ilk k).trip = true → (s.ilkCfg k).activeAt levels[k] = true) :
    acknowledge levels s = s := by
  refine if_neg fun g => ?_
  obtain ⟨k, -, hk⟩ := List.any_eq_true.mp g
  simp only [acknowledges, Bool.and_eq_true, Bool.not_eq_true'] at hk
  exact absurd ((h k hk.1).symm.trans hk.2) (by decide)

theorem shownInterlock_ilk : (raise .interlock (imageInterlock s)).ilk k = s.ilk k := rfl
theorem shownInterlock_word (j : InputId) :
    ((raise .interlock (imageInterlock s)).word 0x130).testBit (j.val + 16) = (s.ilk j).trip := by
  rw [State.word, raise_mem]
  exact (imageInterlock_shown j).2

theorem tripsCleared_ilk : (tripsCleared levels s).ilk k = (clearTrips levels s).ilk k := by
  rw [tripsCleared, shownInterlock_ilk]

theorem tripsCleared_shown (j : InputId) :
    ((tripsCleared levels s).word 0x130).testBit (j.val + 16) = ((tripsCleared levels s).ilk j).trip := by
  rw [tripsCleared, shownInterlock_word, shownInterlock_ilk]

theorem Frame.tripsCleared : Frame ([.pins, .summary] ++ (List.finRange 16).map .ilk) [(0x130, 4)] [.interlock] s
    (Machine.tripsCleared levels s) := by
  have cleared := Frame.clearTrips (s := s) (levels := levels)
  refine .trans (cleared.mono ?_ (by simp) (by simp)) (.trans .imageInterlock_word .raise)
  exact List.cons_subset.mpr ⟨by simp, fun _ hp => List.mem_append_right _ hp⟩

/-- What a pass of the derived inhibits does not touch. -/
def sameDuty (u s : State) : Prop := s.tables = u.tables ∧ (∀ k, s.ilk k = u.ilk k) ∧ ∀ d, s.econ d = u.econ d

theorem sameDuty.tripped (h : sameDuty u s) {n : Nat} : tripped s c n = tripped u c n := by
  simp only [Machine.tripped, h.2.1, State.ilkCfg_of_tables h.1]
theorem sameDuty.purgeLine (h : sameDuty u s) : s.purgeLine c = u.purgeLine c := by
  simp only [State.purgeLine, State.chamberCfg, h.1]
theorem sameDuty.turboEconomy (h : sameDuty u s) : s.turboEconomy c = u.turboEconomy c := by
  simp only [State.turboEconomy, h.2.2]

theorem sameDuty.liftInhibits (h : sameDuty u s) : sameDuty u (Machine.liftInhibits c s) := by
  have frame : Frame ([.rf c, .gasInhibit c] ++ allLines) [] [] s (Machine.liftInhibits c s) :=
    .liftInhibits (by simp) (by simp) fun _ _ _ _ => List.mem_append_right _ mem_allLines
  exact ⟨(frame.parts .tables (by simp [allLines])).trans h.1,
    fun k => (frame.parts (.ilk k) (by simp [allLines])).trans (h.2.1 k),
    fun d => (frame.parts (.econ d) (by simp [allLines])).trans (h.2.2 d)⟩

theorem sameDuty.all (u : State) : sameDuty u (forChambers Machine.liftInhibits u) :=
  forChambers_keeps (P := sameDuty u) (fun _ _ h => h.liftInhibits) ⟨rfl, fun _ => rfl, fun _ => rfl⟩

/-- The inhibits of every chamber after the pass. -/
theorem derived_inhibits : (forChambers liftInhibits u).rf c =
      { u.rf c with inhibit := (u.rf c).inhibit && tripped u c 1 } ∧
    (forChambers liftInhibits u).gasInhibit c = (u.gasInhibit c && tripped u c 2) := by
  have other : ∀ d ≠ c, ∀ s, (liftInhibits d s).rf c = s.rf c ∧ (liftInhibits d s).gasInhibit c = s.gasInhibit c := by
    intro d hd s
    have frame : Frame ([.rf d, .gasInhibit d] ++ allLines) [] [] s (liftInhibits d s) :=
      .liftInhibits (by simp) (by simp) fun _ _ _ _ => List.mem_append_right _ mem_allLines
    exact ⟨frame.parts (.rf c) (by simp [allLines, Ne.symm hd]), frame.parts (.gasInhibit c) (by simp [allLines, Ne.symm hd])⟩
  refine forChambers_at c (P := fun s => sameDuty u s ∧ s.rf c = u.rf c ∧ s.gasInhibit c = u.gasInhibit c)
    (Q := fun s => s.rf c = { u.rf c with inhibit := (u.rf c).inhibit && tripped u c 1 } ∧
      s.gasInhibit c = (u.gasInhibit c && tripped u c 2)) ?_ ?_ ?_ ⟨⟨rfl, fun _ => rfl, fun _ => rfl⟩, rfl, rfl⟩
  · exact fun d hd s ⟨duty, rf, gas⟩ => ⟨duty.liftInhibits, (other d hd s).1.trans rf, (other d hd s).2.trans gas⟩
  · intro s ⟨duty, rf, gas⟩
    obtain ⟨h1, h2⟩ := liftInhibits_inhibits (s := s) (c := c)
    rw [h1, h2, duty.tripped, duty.tripped, rf, gas]
    exact ⟨rfl, rfl⟩
  · exact fun d hd s ⟨rf, gas⟩ => ⟨(other d hd s).1.trans rf, (other d hd s).2.trans gas⟩

/-- A line that is the purge line of no chamber whose pass opens it stays. -/
theorem derived_line_stays (h : ∀ c, u.purgeLine c = some j → ¬ (liftsGas u c ∧ u.turboEconomy c = true)) :
    (forChambers liftInhibits u).line j = u.line j := by
  refine (forChambers_keeps (f := liftInhibits) (P := fun s => sameDuty u s ∧
    (∀ d, s.gasInhibit d = true → u.gasInhibit d = true) ∧ s.line j = u.line j) ?_
    ⟨⟨rfl, fun _ => rfl, fun _ => rfl⟩, fun _ h => h, rfl⟩).2.2
  rintro c s ⟨duty, gas, line⟩
  have frame : Frame ([.rf c, .gasInhibit c] ++ ((List.finRange 16).filter fun k => k ≠ j).map .line) [] [] s
      (liftInhibits c s) := by
    refine .liftInhibits (by simp) (by simp) fun k hl he hk => ?_
    have hne : k ≠ j := by
      rintro rfl
      exact h c (duty.purgeLine.symm.trans hk) ⟨⟨gas c hl.1, duty.tripped.symm.trans hl.2⟩, duty.turboEconomy.symm.trans he⟩
    simp [hne]
  refine ⟨duty.liftInhibits, fun d hd => gas d ?_, (frame.parts (.line j) (by simp)).trans line⟩
  by_cases hdc : d = c
  · subst hdc
    rw [liftInhibits_inhibits.2] at hd
    exact (Bool.and_eq_true _ _ ▸ hd).1
  · rw [← frame.parts (.gasInhibit d) (by simp [hdc])]
    exact hd

/-- The idle purge line of one chamber alone, opened. -/
theorem derived_line_opens (h : liftsGas u c) (he : u.turboEconomy c = true) (hk : u.purgeLine c = some j)
    (alone : ∀ d, d ≠ c → u.purgeLine d ≠ some j) : (forChambers liftInhibits u).line j =
      (u.line j).purging c .idlePurge (u.lineCfg j) (u.chamberCfg c).economyPurgeFlow := by
  have other : ∀ d ≠ c, ∀ s, sameDuty u s → (liftInhibits d s).line j = s.line j ∧
      (liftInhibits d s).gasInhibit c = s.gasInhibit c := by
    intro d hd s duty
    have frame : Frame ([.rf d, .gasInhibit d] ++ ((List.finRange 16).filter fun k => k ≠ j).map .line) [] [] s
        (liftInhibits d s) := by
      refine .liftInhibits (by simp) (by simp) fun k _ _ hkd => ?_
      have hne : k ≠ j := by
        rintro rfl
        exact alone d hd (duty.purgeLine.symm.trans hkd)
      simp [hne]
    exact ⟨frame.parts (.line j) (by simp), frame.parts (.gasInhibit c) (by simp [Ne.symm hd])⟩
  refine (forChambers_at c (P := fun s => sameDuty u s ∧ s.line j = u.line j ∧ s.gasInhibit c = u.gasInhibit c)
    (Q := fun s => sameDuty u s ∧ s.line j = (u.line j).purging c .idlePurge (u.lineCfg j) (u.chamberCfg c).economyPurgeFlow)
    ?_ ?_ ?_ ⟨⟨rfl, fun _ => rfl, fun _ => rfl⟩, rfl, rfl⟩).2
  · exact fun d hd s ⟨duty, line, gas⟩ =>
      ⟨duty.liftInhibits, (other d hd s duty).1.trans line, (other d hd s duty).2.trans gas⟩
  · intro s ⟨duty, line, gas⟩
    refine ⟨duty.liftInhibits, ?_⟩
    rw [liftInhibits_line ⟨gas.trans h.1, duty.tripped.trans h.2⟩ (duty.turboEconomy.trans he) (duty.purgeLine.trans hk), line]
    simp only [State.lineCfg, State.chamberCfg, duty.1]
  · exact fun d hd s ⟨duty, line⟩ => ⟨duty.liftInhibits, (other d hd s duty).1.trans line⟩

theorem Frame.derived : Frame ((List.finRange 4).map .rf ++ (List.finRange 4).map .gasInhibit ++ allLines) [] [] u
    (Machine.forChambers Machine.liftInhibits u) := by
  refine .forChambers fun c s => .liftInhibits (by simp) (by simp) fun k _ _ _ => List.mem_append_right _ mem_allLines

/-- Settles O46: the trips by the pass over the inputs, the inhibits and lines by the pass over the chambers. -/
theorem acknowledgementClearsInactiveTrips : Obligations.AcknowledgementClearsInactiveTrips := by
  refine ⟨?_, ?_⟩
  · intro s levels hr hex
    refine ⟨_, (exec_ackTrips s levels).trans (if_pos hr), ?_⟩
    beta_reduce
    rw [acknowledge_clears hex]
    have cleared := Frame.tripsCleared (s := s) (levels := levels)
    have ilk : ∀ k, (tripsCleared levels s).ilk k =
        if (s.ilk k).trip = true ∧ (s.ilkCfg k).activeAt levels[k] = false then { s.ilk k with trip := false, count := 0 }
        else s.ilk k := fun k => tripsCleared_ilk.trans clearTrips_ilk
    have shown := tripsCleared_shown (levels := levels) (s := s)
    have flag : (tripsCleared levels s).flagSet .interlock = true := flagSet_raise_same
    generalize tripsCleared levels s = u at cleared ilk shown flag ⊢
    have tables : u.tables = s.tables := cleared.parts .tables (by simp)
    have rf : ∀ c, u.rf c = s.rf c := fun c => cleared.parts (.rf c) (by simp)
    have gas : ∀ c, u.gasInhibit c = s.gasInhibit c := fun c => cleared.parts (.gasInhibit c) (by simp)
    have econ : ∀ c, u.econ c = s.econ c := fun c => cleared.parts (.econ c) (by simp)
    have line : ∀ k, u.line k = s.line k := fun k => cleared.parts (.line k) (by simp)
    have purge : ∀ c, u.purgeLine c = s.purgeLine c := fun c => by simp only [State.purgeLine, State.chamberCfg, tables]
    have lifted : ∀ c n, tripped (forChambers liftInhibits u) c n = tripped u c n := fun c n => (sameDuty.all u).tripped
    have stays : ∀ k, (∀ c, u.purgeLine c = some k → ¬ (liftsGas u c ∧ u.turboEconomy c = true)) →
        (forChambers liftInhibits u).line k = u.line k := fun k => derived_line_stays
    have opens : ∀ c k, liftsGas u c → u.turboEconomy c = true → u.purgeLine c = some k →
        (∀ d, d ≠ c → u.purgeLine d ≠ some k) → (forChambers liftInhibits u).line k =
          (u.line k).purging c .idlePurge (u.lineCfg k) (u.chamberCfg c).economyPurgeFlow :=
      fun c k => derived_line_opens
    have inhibits : ∀ c, (forChambers liftInhibits u).rf c = _ ∧ (forChambers liftInhibits u).gasInhibit c = _ :=
      fun c => derived_inhibits (u := u) (c := c)
    have derived := Frame.derived (u := u)
    generalize forChambers liftInhibits u = w at lifted stays opens inhibits derived ⊢
    have same : ∀ k, w.ilk k = u.ilk k := fun k => derived.parts (.ilk k) (by simp [allLines])
    have word : w.word 0x130 = u.word 0x130 := derived.word (by decide) (by simp)
    have liftsOf : ∀ c, s.gasInhibit c = true → w.gasInhibit c = false → liftsGas u c := by
      intro c h1 h2
      have h3 := (inhibits c).2.symm.trans h2
      rw [gas, h1, Bool.true_and] at h3
      exact ⟨(gas c).trans h1, h3⟩
    refine ⟨fun k => (same k).trans (ilk k), fun j => by rw [word, same]; exact shown j, ?_, fun c => ⟨?_, ?_⟩, ?_, ?_, ?_⟩
    · exact (derived.flags .interlock (by simp)).trans flag
    · rw [(inhibits c).1, lifted, rf]
    · rw [(inhibits c).2, lifted, gas]
    · intro c k h1 h2 h3 h4 h5 h6
      rw [opens c k (liftsOf c h1 h2) (decide_eq_true (by rw [econ]; exact ⟨h3, h4⟩)) ((purge c).trans h5)
        fun d hd => by rw [purge]; exact h6 d hd]
      simp only [line, State.lineCfg, State.chamberCfg, tables, Line.purging]
    · intro k hk
      refine (stays k fun c hc hl => ?_).trans (line k)
      obtain ⟨⟨l1, l2⟩, l3⟩ := hl
      have econ' : u.turboEconomy c = s.turboEconomy c := by simp only [State.turboEconomy, econ]
      rcases hk c ((purge c).symm.trans hc) with h | h
      · exact absurd (l3.symm.trans (econ'.trans h)) (by decide)
      · rw [(inhibits c).2, l2, Bool.and_false, ← gas, l1] at h
        exact absurd h (by decide)
    · have whole : Frame ([.pins, .summary] ++ (List.finRange 16).map .ilk ++ (List.finRange 4).map .rf ++
          (List.finRange 4).map .gasInhibit ++ allLines) [(0x130, 4)] [.interlock] s w := by
        refine .trans (cleared.mono (fun p hp => ?_) (fun _ hr => covered_of_mem hr))
          (derived.mono (fun p hp => ?_) (by simp) (by simp))
        · simp only [List.mem_append] at hp ⊢
          exact .inl (.inl (.inl hp))
        · simp only [List.mem_append] at hp ⊢
          exact hp.imp (fun h => h.imp .inr id) id
      exact ⟨whole.flags, whole.stores⟩
  · intro s levels h
    rw [exec_ackTrips]
    split
    · rw [acknowledge_idle h]
    · rfl

end Sys2Proof.Machine
end

section
/-! The passes of the scanner (R137, R138, R141 to R146). -/

namespace Sys2Proof.Machine

variable {s u v : State} {k d : ChannelId} {t : Moment} {e : ScanCfg} {raw : Nat} {fast slow : Bool}
  {counts : Vector (BitVec 12) 48}

/-! ### Work on one channel -/

/-- A channel's row of the Measurement Table. -/
def rowBytes (k : ChannelId) : Bytes := (measurementAddr k.val, 16)

theorem covered_row {a n : Nat} (h1 : measurementAddr k.val ≤ a) (h2 : a + n ≤ measurementAddr k.val + 16) :
    covered [rowBytes k] (a, n) := ⟨rowBytes k, List.mem_singleton.mpr rfl, h1, h2⟩

theorem Frame.publish : Frame [.chan k] [rowBytes k] [] s (Machine.publish k e raw s) := by
  have hb := measurementAddr_bounds k
  refine .trans .setChan (.putWords (covered_row le_rfl (by simp)) ?_)
  simp only [List.length_cons, List.length_nil, Config.memorySize]
  omega

/-- The publishing of one channel in a pass over the chosen classes. -/
def publishChannel (fast slow : Bool) (k : ChannelId) (s : State) : State :=
  match s.tables.channelEntry k.val with
  | some e =>
    if (fast && e.cls == 1) || (slow && e.cls == 2) then publish k e (s.pins.analog[k]).toNat s else s
  | none => s

theorem publishPass_eq : publishPass fast slow s = forChannels (publishChannel fast slow) s := rfl

theorem Frame.publishChannel : Frame [.chan k] [rowBytes k] [] s (Machine.publishChannel fast slow k s) := by
  unfold Machine.publishChannel
  split
  · exact .ite (fun _ => .publish) fun _ => .refl _
  · exact .refl _

theorem Frame.ageChannel : Frame [.chan k] [rowBytes k] [] s (Machine.ageChannel k s) := by
  have hb := measurementAddr_bounds k
  refine .ite (fun _ => .trans .setChan (.putWord (covered_row (by omega) (by omega)) ?_)) fun _ => .refl _
  simp only [Config.memorySize]
  omega

theorem Frame.markStale : Frame [.chan k] [rowBytes k] [] s (Machine.markStale k s) := by
  have hb := measurementAddr_bounds k
  refine .ite (fun _ => .trans .setChan (.putWord (covered_row (by omega) (by omega)) ?_)) fun _ => .refl _
  simp only [Config.memorySize]
  omega

/-! ### What a channel's work reads and shows -/

/-- A channel's record and row are the same, and what its work reads besides. -/
structure SameChan (k : ChannelId) (s u : State) : Prop where
  chan : u.chan k = s.chan k
  tables : u.tables = s.tables
  pins : u.pins = s.pins
  now : u.now = s.now
  scan : u.scan = s.scan
  row : ∀ i, i + 4 ≤ 16 → u.word (measurementAddr k.val + i) = s.word (measurementAddr k.val + i)

theorem SameChan.refl : SameChan k s s := ⟨rfl, rfl, rfl, rfl, rfl, fun _ _ => rfl⟩

theorem SameChan.trans (h : SameChan k s u) (g : SameChan k u v) : SameChan k s v :=
  ⟨g.chan.trans h.chan, g.tables.trans h.tables, g.pins.trans h.pins, g.now.trans h.now, g.scan.trans h.scan,
    fun i hi => (g.row i hi).trans (h.row i hi)⟩

theorem SameChan.of_other (h : Frame [.chan d] [rowBytes d] [] s u) (hd : d ≠ k) : SameChan k s u := by
  refine ⟨h.parts (.chan k) (by simp [Ne.symm hd]), h.parts .tables (by simp), h.parts .pins (by simp),
    h.parts .now (by simp), h.parts .scan (by simp), fun i hi => ?_⟩
  have hk := measurementAddr_bounds k
  have hdb := measurementAddr_bounds d
  have apart : k.val ≠ d.val := fun e => hd (Fin.ext e.symm)
  refine h.word (by simp only [Config.memorySize]; omega) ?_
  simp only [List.mem_cons, List.not_mem_nil, or_false, forall_eq, rowBytes, Config.memorySize, measurementAddr] at *
  omega

/-- A pass over the channels, as one of them sees it. -/
theorem channelPass {f : ChannelId → State → State} {Q : State → Prop} (k : ChannelId)
    (frame : ∀ d s, Frame [.chan d] [rowBytes d] [] s (f d s)) (there : ∀ u, SameChan k s u → Q (f k u))
    (stable : ∀ u v, Q u → SameChan k u v → Q v) : Q (forChannels f s) :=
  forChannels_at k (P := SameChan k s) (Q := Q) (fun d hd u hu => hu.trans (.of_other (frame d u) hd)) there
    (fun d hd u hu => stable u _ hu (.of_other (frame d u) hd)) .refl

/-! ### Publishing -/

theorem publish_chan : (publish k e raw s).chan k =
    freshChan s.tables e k raw s.now := by simp [publish, freshChan]

theorem publish_mem : (publish k e raw s).mem = memPutWords s.mem (measurementAddr k.val)
    [(convertChannel s.tables e k.val raw).1, pack16 raw 0, (convertChannel s.tables e k.val raw).2.code, 0] := by
  rw [publish, State.putWords_mem_same, State.setChan_mem]

theorem publish_measured : measured (publish k e raw s) k := by
  have hb := measurementAddr_bounds k
  have word : ∀ i (hi : i < 4), (publish k e raw s).word (measurementAddr k.val + 4 * i) =
      [(convertChannel s.tables e k.val raw).1, pack16 raw 0, (convertChannel s.tables e k.val raw).2.code, 0][i] %
        4294967296 := fun i hi => by
    rw [State.word, publish_mem]
    refine memField_memPutWords_inside s.mem (measurementAddr k.val)
      [(convertChannel s.tables e k.val raw).1, pack16 raw 0, (convertChannel s.tables e k.val raw).2.code, 0] i hi ?_
    simp only [List.length_cons, List.length_nil, Config.memorySize]
    omega
  have chan := publish_chan (s := s) (k := k) (e := e) (raw := raw)
  have code : (convertChannel s.tables e k.val raw).2.code < 4294967296 := by
    cases (convertChannel s.tables e k.val raw).2 <;> decide
  rw [measured, chan]
  refine ⟨word 0 (by decide), (word 1 (by decide)).trans ?_, (word 2 (by decide)).trans ?_, word 3 (by decide)⟩
  · simp only [List.getElem_cons_succ, List.getElem_cons_zero, freshChan, pack16]
    omega
  · simp only [List.getElem_cons_succ, List.getElem_cons_zero, freshChan]
    omega

/-- Whether a pass publishes a channel's class. -/
def publishes (fast slow : Bool) (e : ScanCfg) : Bool := (fast && e.cls == 1) || (slow && e.cls == 2)

/-- A channel published at a moment from the counts of its pass, and its row shown. -/
def publishedAs (tab : Tables) (e : ScanCfg) (k : ChannelId) (raw : Nat) (t : Moment) (s : State) : Prop :=
  s.chan k = freshChan tab e k raw t ∧ measured s k

theorem SameChan.measured (h : SameChan k s u) (g : measured s k) : measured u k := by
  obtain ⟨g1, g2, g3, g4⟩ := g
  refine ⟨?_, ?_, ?_, ?_⟩
  · rw [h.chan]; exact (h.row 0 (by omega)).trans g1
  · rw [h.row 4 (by omega), h.chan]; exact g2
  · rw [h.row 8 (by omega), h.chan]; exact g3
  · rw [h.row 12 (by omega)]; exact g4

theorem SameChan.publishedAs {tab : Tables} (h : SameChan k s u) (g : publishedAs tab e k raw t s) :
    publishedAs tab e k raw t u := ⟨h.chan.trans g.1, h.measured g.2⟩

theorem publishPass_publishes (ht : s.tables.channelEntry k.val = some e) (hp : publishes fast slow e = true) :
    publishedAs s.tables e k (s.pins.analog[k]).toNat s.now (publishPass fast slow s) := by
  rw [publishPass_eq]
  refine channelPass k (fun d s => .publishChannel) (fun u hu => ?_) fun u v h g => g.publishedAs h
  have here : publishChannel fast slow k u = publish k e (s.pins.analog[k]).toNat u := by
    have hp' : ((fast && e.cls == 1) || (slow && e.cls == 2)) = true := hp
    simp only [publishChannel, hu.tables, ht, hp', hu.pins, if_true]
  rw [here]
  refine ⟨?_, publish_measured⟩
  rw [publish_chan, hu.tables, hu.now]

theorem publishPass_skips (h : ∀ e, s.tables.channelEntry k.val = some e → publishes fast slow e = false) :
    SameChan k s (publishPass fast slow s) := by
  rw [publishPass_eq]
  refine channelPass k (fun d s => .publishChannel) (fun u hu => ?_) fun u v h g => h.trans g
  have here : publishChannel fast slow k u = u := by
    unfold publishChannel
    split
    next e he =>
      rw [hu.tables] at he
      exact if_neg (Bool.eq_false_iff.mp (h e he))
    next => rfl
  rw [here]
  exact hu

/-! ### Ageing and stale marking (R141 to R143) -/

theorem chanAt_val : s.chanAt k.val = s.chan k := by simp [State.chanAt, k.isLt]

/-- A channel one older at a T0 event after its last publish (R142). -/
def Chan.older (used : Bool) (t : Moment) (ch : Chan) : Chan :=
  if used = true ∧ ch.published < t ∧ ch.age < 65535 then { ch with age := ch.age + 1 } else ch

/-- A channel marked STALE (R141). -/
def Chan.marked (stale : Bool) (ch : Chan) : Chan :=
  if stale = true ∧ ch.shownStale = false then { ch with shownStale := true } else ch

theorem Chan.marked_eq {b : Bool} {ch : Chan} : ch.marked b = { ch with shownStale := ch.shownStale || b } := by
  unfold Chan.marked
  cases b with
  | false => simp
  | true =>
    cases h : ch.shownStale with
    | false => simp
    | true => simp [← h]

theorem ageChannel_chan : (ageChannel k s).chan k = (s.chan k).older (s.tables.channelEntry k.val).isSome s.now := by
  unfold ageChannel Chan.older
  simp only [State.after, decide_eq_true_eq]
  split
  · simp
  · rfl

theorem markStale_chan : (markStale k s).chan k =
    (s.chan k).marked ((s.tables.channelEntry k.val).isSome && s.staleAt k.val) := by
  unfold markStale Chan.marked
  simp only [Bool.and_eq_true, and_assoc]
  split
  · simp
  · rfl

theorem staleAt_some (h : s.tables.channelEntry k.val = some e) : s.staleAt k.val =
    decide ((if e.cls = 1 ∧ s.scan.rate ≠ .reduced then 3 else 300) < (s.chan k).age) := by
  simp only [State.staleAt, h, chanAt_val, staleLimit]

/-- The ageing and stale marking that end a T0 event. -/
def agePasses (s : State) : State := forChannels markStale (forChannels ageChannel s)

theorem Frame.agePasses : Frame ((List.finRange 48).map .chan) [(0xD00, 768)] [] s (Machine.agePasses s) := by
  have row : ∀ k : ChannelId, ∀ r ∈ [rowBytes k], covered [(0xD00, 768)] r := by
    intro k r hr
    have := measurementAddr_bounds k
    exact ⟨_, List.mem_singleton.mpr rfl, by rw [List.mem_singleton.mp hr]; exact this.1,
      by rw [List.mem_singleton.mp hr]; exact this.2⟩
  exact .trans (.forChannels fun k _ => Frame.ageChannel.mono (by simp) (row k))
    (.forChannels fun k _ => Frame.markStale.mono (by simp) (row k))

/-- A channel after the pass of the ages, and what the marks read. -/
theorem agePass_chan :
    (forChannels ageChannel s).chan k = (s.chan k).older (s.tables.channelEntry k.val).isSome s.now ∧
      (forChannels ageChannel s).tables = s.tables ∧ (forChannels ageChannel s).scan = s.scan := by
  refine channelPass k (s := s) (Q := fun u => u.chan k = (s.chan k).older (s.tables.channelEntry k.val).isSome s.now ∧
    u.tables = s.tables ∧ u.scan = s.scan)
    (fun d s => .ageChannel) (fun u hu => ?_) fun u v h g => ⟨g.chan.trans h.1, g.tables.trans h.2.1, g.scan.trans h.2.2⟩
  have frame := Frame.ageChannel (s := u) (k := k)
  refine ⟨?_, (frame.parts .tables (by simp)).trans hu.tables, (frame.parts .scan (by simp)).trans hu.scan⟩
  rw [ageChannel_chan, hu.chan, hu.tables, hu.now]

theorem SameChan.staleAt (h : SameChan k s u) : u.staleAt k.val = s.staleAt k.val := by
  simp only [State.staleAt, h.tables, h.scan, chanAt_val, h.chan]

theorem markPass_chan : (forChannels markStale s).chan k =
    (s.chan k).marked ((s.tables.channelEntry k.val).isSome && s.staleAt k.val) := by
  refine channelPass k (s := s)
    (Q := fun u => u.chan k = (s.chan k).marked ((s.tables.channelEntry k.val).isSome && s.staleAt k.val))
    (fun d s => .markStale) (fun u hu => ?_) fun u v h g => g.chan.trans h
  rw [markStale_chan, hu.chan, hu.tables, hu.staleAt]

/-- A channel in use after both passes (R142, R143). -/
theorem agePasses_chan (h : s.tables.channelEntry k.val = some e) :
    (agePasses s).chan k = agedChan e s.scan.rate s.now (s.chan k) := by
  obtain ⟨chan, tables, scan⟩ := agePass_chan (s := s) (k := k)
  have older : (s.chan k).older true s.now = { s.chan k with
      age := if (s.chan k).published < s.now ∧ (s.chan k).age < 65535 then (s.chan k).age + 1 else (s.chan k).age } := by
    unfold Chan.older
    simp only [true_and]
    split <;> rfl
  rw [agePasses, markPass_chan, staleAt_some (by rw [tables]; exact h), tables, scan, chan, h, Option.isSome_some, older,
    Bool.true_and, Chan.marked_eq, agedChan]

theorem agePasses_unused (h : s.tables.channelEntry k.val = none) : (agePasses s).chan k = s.chan k := by
  obtain ⟨chan, tables, scan⟩ := agePass_chan (s := s) (k := k)
  rw [agePasses, markPass_chan, tables, chan, h]
  simp [Chan.older, Chan.marked]

/-- A channel that its T0 event published neither ages nor shows STALE. -/
theorem agePasses_fresh (h : s.tables.channelEntry k.val = some e) (hp : (s.chan k).published = s.now)
    (ha : (s.chan k).age = 0) : SameChan k s (agePasses s) := by
  have young : SameChan k s (forChannels ageChannel s) := by
    refine channelPass k (fun d s => .ageChannel) (fun u hu => ?_) fun u v h g => h.trans g
    have here : ageChannel k u = u := by
      refine if_neg fun g => ?_
      have := of_decide_eq_true g.2.1
      rw [hu.chan, hp, hu.now] at this
      exact lt_irrefl _ this
    rw [here]
    exact hu
  refine young.trans (channelPass k (fun d s => .markStale) (fun u hu => ?_) fun u v h g => h.trans g)
  have here : markStale k u = u := by
    refine if_neg fun g => ?_
    have stale := g.2.1
    rw [staleAt_some (by rw [hu.tables, young.tables]; exact h), hu.chan, young.chan, ha, decide_eq_true_eq] at stale
    exact absurd stale (Nat.not_lt_zero _)
  rw [here]
  exact hu

end Sys2Proof.Machine
end

section
/-! The examination of the scanner's rate, and its passes at T0 and T2 (R138, R144, R146). -/

namespace Sys2Proof.Machine

variable {s u v : State} {k d : ChannelId} {t : Moment} {e : ScanCfg} {raw : Nat} {fast slow : Bool}
  {counts : Vector (BitVec 12) 48}

theorem quietForScan_iff {c : Chamber} : quietForScan s c = true ↔ scanQuiet s c := by
  simp [quietForScan, scanQuiet, and_assoc]

theorem reducedHolds_iff : reducedHolds s = true ↔ ∀ c, scanQuiet s c := by
  simp [reducedHolds, List.all_eq_true, quietForScan_iff]

/-- The scanner after the examination of a T0 event, its row not published yet (R144, R146). -/
def Scan.examined (x : Scan) (quiets : Bool) (t : Moment) : Scan :=
  match x.rate with
  | .stopped => x
  | .normal => if quiets then { x with rate := .reduced } else x
  | .reduced => if quiets then x else { x with rate := .settling, settling := 2, settleMark := t }
  | .settling =>
    if x.settleMark < t then
      if x.settling ≤ 1 then { x with settling := x.settling - 1, rate := .normal } else { x with settling := x.settling - 1 }
    else x

/-- A scanner shown where its rate changed. -/
def scanShown (x : Scan) (s : State) : State := if x.rate = s.scan.rate then s.setScan x else imageRate (s.setScan x)

theorem scanShown_self : scanShown s.scan s = s := if_pos rfl

/-- A T0 event in NORMAL that does not find REDUCED publishes the FAST channels (R138). -/
theorem scanT0_publishes (h : s.scan.rate = .normal) (hq : reducedHolds s = false) :
    scanT0 s = publishPass true false s := by simp [scanT0, h, hq]

/-- Every other T0 event only examines the rate. -/
theorem scanT0_examines (h : s.scan.rate ≠ .normal ∨ reducedHolds s = true) :
    scanT0 s = scanShown (s.scan.examined (reducedHolds s) s.now) s := by
  unfold Scan.examined
  cases hr : s.scan.rate with
  | stopped =>
    simp only [scanT0, hr]
    exact scanShown_self.symm
  | normal =>
    have hq : reducedHolds s = true := h.resolve_left (by simp [hr])
    simp [scanT0, hr, hq, scanShown, setRate]
  | reduced =>
    cases hq : reducedHolds s with
    | true => simp only [scanT0, hr, hq, if_true]; exact scanShown_self.symm
    | false => simp [scanT0, hr, hq, scanShown, enterSettling]
  | settling =>
    by_cases hm : s.scan.settleMark < s.now
    · by_cases hn : s.scan.settling ≤ 1
      · have : s.scan.settling - 1 = 0 := by omega
        simp [scanT0, hr, State.after, hm, hn, scanShown, setRate, this]
        rfl
      · have : s.scan.settling - 1 ≠ 0 := by omega
        simp [scanT0, hr, State.after, hm, hn, scanShown, this]
    · simp only [scanT0, hr, State.after, hm, decide_false, Bool.false_eq_true, if_false]
      exact scanShown_self.symm

theorem Frame.scanShown {x : Scan} : Frame [.scan] [(0x134, 4)] [] s (Machine.scanShown x s) :=
  .ite (fun _ => .setScan) fun _ => .trans .setScan (.imageRate (covered_of_mem (by simp)))

@[simp] theorem scanShown_scan {x : Scan} : (scanShown x s).scan = x := by
  unfold scanShown
  split <;> rfl

theorem scanShown_word {x : Scan} (h : x.rate ≠ s.scan.rate) : (scanShown x s).word 0x134 = x.rate.code := by
  have code : x.rate.code < 4294967296 := by cases x.rate <;> decide
  rw [scanShown, if_neg h, State.word, imageRate, State.putWord_mem_same, show imageAddr 0x34 = 0x134 from rfl,
    memField_memPutWord_same]
  exact Nat.mod_eq_of_lt code

theorem Frame.publishPass : Frame ((List.finRange 48).map .chan) [(0xD00, 768)] [] s (Machine.publishPass fast slow s) := by
  rw [publishPass_eq]
  refine .forChannels fun k _ => Frame.publishChannel.mono (by simp) fun r hr => ?_
  have := measurementAddr_bounds k
  have hk := k.isLt
  refine ⟨_, List.mem_singleton.mpr rfl, ?_, ?_⟩ <;> rw [List.mem_singleton.mp hr] <;>
    simp only [rowBytes, measurementAddr] at * <;> omega

/-- The scanner at a T0 event, before its examination. -/
def scanStarted (counts : Vector (BitVec 12) 48) (s : State) : State :=
  (s.setPins { s.pins with analog := counts }).setScan { s.scan with passMark := s.now }

theorem scannerT0_counted (h : s.scan.passMark < s.now) :
    scannerT0 counts s = agePasses (scanT0 (scanStarted counts s)) := if_pos (decide_eq_true h)

/-- The scanner at a T2 event, before its pass. -/
def slowStarted (counts : Vector (BitVec 12) 48) (s : State) : State :=
  (s.setPins { s.pins with analog := counts }).setScan { s.scan with slowMark := s.now }

/-- The pass of a T2 event by the rate (R138). -/
theorem scannerT2_counted (h : s.scan.slowMark < s.now) : scannerT2 counts s =
    match s.scan.rate with
    | .normal => publishPass false true (slowStarted counts s)
    | .reduced => publishPass true true (slowStarted counts s)
    | .stopped => slowStarted counts s
    | .settling => slowStarted counts s := by
  refine (if_pos (decide_eq_true h)).trans ?_
  change (match s.scan.rate with | .normal => _ | .reduced => _ | _ => _) = _
  cases s.scan.rate <;> rfl

/-- The examined scanner's settling count. -/
theorem examined_settling {x : Scan} {quiets : Bool} : (x.examined quiets t).settling =
    if x.rate = .settling ∧ x.settleMark < t then x.settling - 1
    else if x.rate = .reduced ∧ quiets = false then 2
    else x.settling := by
  unfold Scan.examined
  cases hr : x.rate with
  | stopped => simp
  | normal => cases quiets <;> simp
  | reduced => cases quiets <;> simp
  | settling =>
    by_cases hm : x.settleMark < t
    · by_cases hn : x.settling ≤ 1 <;> simp [hm, hn]
    · simp [hm]

/-! The examined scanner's rate, by the rate before it. -/

section rate
variable {x : Scan} {quiets : Bool}

theorem examined_normal (h : x.rate = .normal) : (x.examined quiets t).rate = if quiets then .reduced else .normal := by
  simp only [Scan.examined, h]
  split
  · rfl
  · exact h

theorem examined_reduced (h : x.rate = .reduced) : (x.examined quiets t).rate = if quiets then .reduced else .settling := by
  simp only [Scan.examined, h]
  split
  · exact h
  · rfl

theorem examined_settlingRate (h : x.rate = .settling) :
    (x.examined quiets t).rate = if x.settleMark < t ∧ x.settling ≤ 1 then .normal else .settling := by
  simp only [Scan.examined, h]
  by_cases hm : x.settleMark < t
  · by_cases hn : x.settling ≤ 1
    · simp [hm, hn]
    · simp [hm, hn]
  · simp [hm, h]

end rate

/-- What a T0 or T2 event of the scanner starts from. -/
structure ScanFrom (t : Moment) (counts : Vector (BitVec 12) 48) (s u : State) : Prop where
  moved : Frame [.now, .pins, .scan] [] [] s u
  tables : u.tables = s.tables
  now : u.now = t
  pins : u.pins = { s.pins with analog := counts }
  chan : ∀ k, u.chan k = s.chan k
  quiets : reducedHolds u = reducedHolds s

theorem scanStarted_from : ScanFrom t counts s (scanStarted counts (s.setNow t)) :=
  ⟨.trans .setNow (.trans .setPins .setScan), rfl, rfl, rfl, fun _ => rfl, rfl⟩
theorem slowStarted_from : ScanFrom t counts s (slowStarted counts (s.setNow t)) :=
  ⟨.trans .setNow (.trans .setPins .setScan), rfl, rfl, rfl, fun _ => rfl, rfl⟩

/-- The pass of the publishes in the frame of a scanner's event. -/
theorem Frame.published (h : ScanFrom t counts s u) : Frame scanParts [(0xD00, 768)] [] s (Machine.publishPass fast slow u) :=
  .trans (h.moved.mono (List.subset_append_left _ _))
    (Frame.publishPass.mono (List.subset_append_right _ _) fun _ hr => covered_of_mem hr)

theorem exec_scanT0 {i : Instr} (hi : i = .scanPassT0 t counts ∨
      (i = .settlingEnd t counts ∧ s.scan.rate = .settling ∧ s.scan.settling ≤ 1 ∧ s.scan.settleMark < t))
    (h : eventAt .t0 t s) (hm : s.scan.passMark < t) :
    exec i s = .next (agePasses (scanT0 (scanStarted counts (s.setNow t)))) := by
  rw [← scannerT0_counted (s := s.setNow t) hm]
  rcases hi with rfl | ⟨rfl, hr, hn, hs⟩
  · exact atTap_of_eventAt h _
  · have ends : settlingEnds (s.setNow t) = true := by simp [settlingEnds, hr, hn, hs, hm]
    exact (atTap_of_eventAt h _).trans (congrArg _ (workIf_true ends))

/-- A T0 event that publishes the FAST channels. -/
theorem scanT0_published (h : ScanFrom t counts s u) :
    (agePasses (publishPass true false u)).scan = u.scan ∧
      (∀ k e, s.tables.channelEntry k.val = some e → e.cls = 1 →
        publishedAs s.tables e k counts[k].toNat t (agePasses (publishPass true false u))) ∧
      (∀ k e, s.tables.channelEntry k.val = some e → e.cls ≠ 1 →
        (agePasses (publishPass true false u)).chan k = agedChan e u.scan.rate t (s.chan k)) ∧
      (∀ k, s.tables.channelEntry k.val = none → (agePasses (publishPass true false u)).chan k = s.chan k) ∧
      (agePasses (publishPass true false u)).pins = { s.pins with analog := counts } ∧
      Frame scanParts [(0xD00, 768)] [] s (agePasses (publishPass true false u)) := by
  have pass := Frame.publishPass (s := u) (fast := true) (slow := false)
  have tables : (publishPass true false u).tables = s.tables := (pass.parts .tables (by simp)).trans h.tables
  have scan : (publishPass true false u).scan = u.scan := pass.parts .scan (by simp)
  have now : (publishPass true false u).now = t := (pass.parts .now (by simp)).trans h.now
  have pins : (publishPass true false u).pins = u.pins := pass.parts .pins (by simp)
  have ages := Frame.agePasses (s := publishPass true false u)
  refine ⟨(ages.parts .scan (by simp)).trans scan, ?_, ?_, ?_, (ages.parts .pins (by simp)).trans (pins.trans h.pins), ?_⟩
  · intro k e he hc
    have published := publishPass_publishes (s := u) (k := k) (fast := true) (slow := false) (by rw [h.tables]; exact he)
      (by simp [publishes, hc])
    rw [h.tables, h.now, h.pins] at published
    refine (agePasses_fresh (by rw [tables]; exact he) ?_ ?_).publishedAs published
    · rw [published.1, now]; rfl
    · rw [published.1]; rfl
  · intro k e he hc
    have skips : SameChan k u (publishPass true false u) := by
      refine publishPass_skips fun e' he' => ?_
      rw [h.tables, he, Option.some.injEq] at he'
      simp [publishes, ← he', hc]
    rw [agePasses_chan (by rw [tables]; exact he), scan, now, skips.chan, h.chan]
  · intro k he
    have skips : SameChan k u (publishPass true false u) := by
      refine publishPass_skips fun e' he' => ?_
      rw [h.tables, he] at he'
      exact absurd he' (by simp)
    rw [agePasses_unused (by rw [tables]; exact he), skips.chan, h.chan]
  · exact (Frame.published h).trans (ages.mono (List.subset_append_right _ _) fun _ hr => covered_of_mem hr)

/-- A T0 event that only examines the rate. -/
theorem scanT0_examined (h : ScanFrom t counts s u) {x : Scan} :
    (agePasses (scanShown x u)).scan = x ∧
      (x.rate ≠ u.scan.rate → (agePasses (scanShown x u)).word 0x134 = x.rate.code) ∧
      (∀ k e, s.tables.channelEntry k.val = some e →
        (agePasses (scanShown x u)).chan k = agedChan e x.rate t (s.chan k)) ∧
      (∀ k, s.tables.channelEntry k.val = none → (agePasses (scanShown x u)).chan k = s.chan k) ∧
      (agePasses (scanShown x u)).pins = { s.pins with analog := counts } ∧
      Frame scanParts [(0xD00, 768), (0x134, 4)] [] s (agePasses (scanShown x u)) := by
  have shown := Frame.scanShown (s := u) (x := x)
  have tables : (scanShown x u).tables = s.tables := (shown.parts .tables (by simp)).trans h.tables
  have now : (scanShown x u).now = t := (shown.parts .now (by simp)).trans h.now
  have chan : ∀ k, (scanShown x u).chan k = s.chan k := fun k => (shown.parts (.chan k) (by simp)).trans (h.chan k)
  have pins : (scanShown x u).pins = u.pins := shown.parts .pins (by simp)
  have ages := Frame.agePasses (s := scanShown x u)
  refine ⟨(ages.parts .scan (by simp)).trans scanShown_scan, fun hx => ?_, ?_, ?_,
    (ages.parts .pins (by simp)).trans (pins.trans h.pins), ?_⟩
  · exact (ages.word (by decide) (by decide)).trans (scanShown_word hx)
  · intro k e he
    rw [agePasses_chan (by rw [tables]; exact he), scanShown_scan, now, chan]
  · intro k he
    rw [agePasses_unused (by rw [tables]; exact he), chan]
  · refine .trans (h.moved.mono (List.subset_append_left _ _))
      (.trans (shown.mono ?_ fun r hr => covered_of_mem (List.mem_cons_of_mem _ hr))
        (ages.mono (List.subset_append_right _ _) fun r hr => covered_of_mem ?_))
    · simp [scanParts]
    · rw [List.mem_singleton.mp hr]; exact List.mem_cons_self ..

/-- What a T2 event leaves that publishes the channels in use of a condition. -/
def slowPass (C : ScanCfg → Prop) (t : Moment) (counts : Vector (BitVec 12) 48) (s s' : State) : Prop :=
  s'.scan = { s.scan with slowMark := t } ∧
    (∀ k e, s.tables.channelEntry k.val = some e → C e → publishedAs s.tables e k counts[k].toNat t s') ∧
    (∀ k, (∀ e, s.tables.channelEntry k.val = some e → ¬ C e) → s'.chan k = s.chan k) ∧
    s'.pins = { s.pins with analog := counts } ∧ changesOnly scanParts s s' ∧ storesOnly [(0xD00, 768)] s s'

theorem channelEntry_inUse {tab : Tables} {n : Nat} (h : tab.channelEntry n = some e) : e.inUse = true := by
  have := List.find?_some h
  exact ((Bool.and_eq_true _ _).mp this).1

theorem slowPass_publishes {C : ScanCfg → Prop} (h : ScanFrom t counts s u) (scan : u.scan = { s.scan with slowMark := t })
    (hC : ∀ e : ScanCfg, e.inUse = true → (publishes fast slow e = true ↔ C e)) :
    slowPass C t counts s (publishPass fast slow u) := by
  have pass := Frame.publishPass (s := u) (fast := fast) (slow := slow)
  refine ⟨(pass.parts .scan (by simp)).trans scan, fun k e he hc => ?_, fun k hk => ?_,
    (pass.parts .pins (by simp)).trans h.pins, (Frame.published h).stores⟩
  · have published := publishPass_publishes (s := u) (k := k) (by rw [h.tables]; exact he)
      ((hC e (channelEntry_inUse he)).mpr hc)
    rw [h.tables, h.now, h.pins] at published
    exact published
  · have skips : SameChan k u (publishPass fast slow u) := by
      refine publishPass_skips fun e he => ?_
      rw [h.tables] at he
      exact Bool.eq_false_iff.mpr fun g => hk e he ((hC e (channelEntry_inUse he)).mp g)
    rw [skips.chan, h.chan]

theorem slowPass_rests {C : ScanCfg → Prop} (h : ScanFrom t counts s u) (scan : u.scan = { s.scan with slowMark := t })
    (hC : ∀ e, ¬ C e) : slowPass C t counts s u :=
  ⟨scan, fun k e _ hc => absurd hc (hC e), fun k _ => h.chan k, h.pins,
    Frame.stores (fs := []) (h.moved.mono (List.subset_append_left _ _))⟩

/-- Settles O43: the T0 event by whether it publishes, the T2 event by the rate. -/
theorem scanPassesAtT0AndT2 : Obligations.ScanPassesAtT0AndT2 := by
  refine ⟨?_, ?_⟩
  · intro i s t counts quiets rate hi h hm hstop hq hrate
    refine ⟨_, exec_scanT0 hi h hm, ?_⟩
    beta_reduce
    have start := scanStarted_from (s := s) (t := t) (counts := counts)
    have scan : (scanStarted counts (s.setNow t)).scan = { s.scan with passMark := t } := rfl
    have quiet : reducedHolds (scanStarted counts (s.setNow t)) = quiets := by
      rw [start.quiets, Bool.eq_iff_iff, reducedHolds_iff, hq]
    generalize scanStarted counts (s.setNow t) = u at start scan quiet ⊢
    have settling : u.scan.settling = s.scan.settling := by rw [scan]
    have urate : u.scan.rate = s.scan.rate := by rw [scan]
    by_cases hp : s.scan.rate = .normal ∧ quiets = false
    · obtain ⟨hn, hf⟩ := hp
      have hrate' : rate = .normal := by rw [hrate, hn, hf]; rfl
      rw [scanT0_publishes (by rw [urate, hn]) (by rw [quiet, hf])]
      obtain ⟨fscan, fresh, aged, unused, pins, frame⟩ := scanT0_published start
      generalize agePasses (publishPass true false u) = w at fscan fresh aged unused pins frame ⊢
      refine ⟨by rw [fscan, urate, hn, hrate'], ?_, fun g => absurd (hrate'.trans hn.symm) g,
        fun k e he _ _ hc => fresh k e he hc, fun k e he hc => ?_, unused, pins, frame.parts,
        (frame.mono (rs' := [(0xD00, 768), (0x134, 4)]) (fs' := []) (fun _ hx => hx) fun r hr => covered_of_mem ?_).bytes⟩
      · rw [fscan, settling, if_neg (by simp [hn]), if_neg (by simp [hn])]
      · rw [aged k e he (hc.resolve_left (by simp [hn]) |>.resolve_left (by simp [hf])), urate, hn, hrate']
      · rw [List.mem_singleton.mp hr]; exact List.mem_cons_self ..
    · have hx : u.scan.rate ≠ .normal ∨ reducedHolds u = true := by
        rw [urate, quiet]
        by_contra hcon
        rw [not_or, not_not, Bool.not_eq_true] at hcon
        exact hp hcon
      rw [scanT0_examines hx, quiet, start.now]
      have xrate : (u.scan.examined quiets t).rate = rate := by
        cases hr : s.scan.rate with
        | stopped => exact absurd hr hstop
        | normal =>
          rw [hr] at hrate
          exact (examined_normal (urate.trans hr)).trans hrate.symm
        | reduced =>
          rw [hr] at hrate
          exact (examined_reduced (urate.trans hr)).trans hrate.symm
        | settling =>
          rw [hr] at hrate
          have mark : u.scan.settleMark = s.scan.settleMark := by rw [scan]
          exact (examined_settlingRate (urate.trans hr)).trans (by rw [mark, settling]; exact hrate.symm)
      have xsettling := examined_settling (x := u.scan) (quiets := quiets) (t := t)
      generalize u.scan.examined quiets t = x at xrate xsettling ⊢
      obtain ⟨fscan, word, aged, unused, pins, frame⟩ := scanT0_examined start (x := x)
      generalize agePasses (scanShown x u) = w at fscan word aged unused pins frame ⊢
      refine ⟨by rw [fscan, xrate], ?_, fun g => ?_, fun k e he hn hf => absurd ⟨hn, hf⟩ hp, fun k e he _ => ?_, unused, pins,
        frame.parts, frame.bytes⟩
      · rw [fscan, xsettling, scan]
      · rw [word (by rw [xrate, urate]; exact g), xrate]
      · rw [aged k e he, xrate]
  · intro s t counts h hm
    refine answers_atTap h (body := scannerT2 counts) rfl ?_
    rw [scannerT2_counted (s := s.setNow t) hm]
    have start := slowStarted_from (s := s) (t := t) (counts := counts)
    have scan : (slowStarted counts (s.setNow t)).scan = { s.scan with slowMark := t } := rfl
    generalize slowStarted counts (s.setNow t) = u at start scan ⊢
    change slowPass (fun e => (s.scan.rate = .normal ∧ e.cls = 2) ∨ s.scan.rate = .reduced) t counts s
      (match s.scan.rate with | .normal => _ | .reduced => _ | .stopped => _ | .settling => _)
    cases s.scan.rate with
    | stopped => exact slowPass_rests start scan fun e => by simp
    | normal => exact slowPass_publishes start scan fun e _ => by simp [publishes]
    | reduced => exact slowPass_publishes start scan fun e he => by simpa [publishes, ScanCfg.inUse] using he
    | settling => exact slowPass_rests start scan fun e => by simp

end Sys2Proof.Machine
end

section
/-! Entries placed, opened and held, and the pages that a slot scan returns (R165 to R168). -/

namespace Sys2Proof.Machine

variable {s u : State} {c : Chamber} {t : Moment} {e : Entry} {i : Fin 2}

/-! ### The sequence number of an entry -/

/-- The state of an entry's chamber with the next sequence number taken and shown (R165). -/
def numbered (c : Chamber) (s : State) : State :=
  showWord c .counts (s.modRep c fun r => { r with next := (r.next + 1) % 65536 })

theorem produce_eq : produce c e s = placeEntry c (commonFields s c e) (numbered c s) := rfl

theorem numbered_rep : (numbered c s).rep c = { s.rep c with next := ((s.rep c).next + 1) % 65536 } := by
  simp [numbered, showWord, State.modRep_eq]

theorem entryAddr_numbered {k : Nat} : entryAddr (numbered c s) c i k = entryAddr s c i k := by
  simp only [entryAddr, numbered_rep]
  rfl

theorem showWord_covered {w : StatusWord} (n m : Nat) (h1 : n ≤ w.offset) (h2 : w.offset + 4 ≤ n + m) :
    Frame [.rep c, .summary] [(statusAddr c + n, m)] [.report c] s (showWord c w s) :=
  .showWord ⟨_, List.mem_singleton.mpr rfl, by simp only; omega, by simp only; omega⟩

/-- The next sequence number that the status block shows. -/
theorem counts_shown : memField (showWord c .counts s).mem (statusAddr c + 58) 2 = (s.rep c).next % 65536 := by
  have shown := field_showWord (c := c) (w := .counts) (s := s) (i := 2) (n := 2) (by decide)
  rw [show statusAddr c + StatusWord.counts.offset + 2 = statusAddr c + 58 from rfl] at shown
  rw [shown, statusValue, pack16]
  omega

theorem numbered_shown : memField (numbered c s).mem (statusAddr c + 58) 2 = ((s.rep c).next + 1) % 65536 := by
  rw [numbered, counts_shown, State.modRep_eq, State.setRep_rep_same]
  exact Nat.mod_mod _ _

theorem commonFields_kind : (commonFields s c e).kind = e.kind := by
  unfold commonFields
  simp only
  split <;> rfl
theorem commonFields_chamber : (commonFields s c e).chamber = c.val + 1 := by
  unfold commonFields
  simp only
  split <;> rfl
theorem commonFields_sequence : (commonFields s c e).sequence = (s.rep c).next := by
  unfold commonFields
  simp only
  split <;> rfl

/-! ### The words of an entry -/

/-- An entry written where it lies. -/
theorem putEntry_word {a : Nat} (ha : a + 32 ≤ Config.memorySize) :
    (s.putWords a (commonFields u c e).words).word a =
      e.kind.code + 256 * (c.val + 1) + 65536 * ((u.rep c).next % 65536) := by
  have h := memField_memPutWords_inside s.mem a (commonFields u c e).words 0 (by simp [Entry.words])
    (by simp only [Entry.words, List.length_cons, List.length_nil]; omega)
  rw [State.word, State.putWords_mem_same]
  refine h.trans ?_
  simp only [Entry.words, List.getElem_cons_zero, commonFields_kind, commonFields_chamber, commonFields_sequence]
  have code : e.kind.code < 256 := by cases e.kind <;> decide
  have hc := c.isLt
  omega

theorem Frame.putEntryWords {a : Nat} (ha : a + 32 ≤ Config.memorySize) :
    Frame [.rep c, .summary] [(a, 32)] [.report c] s (s.putWords a e.words) :=
  .putWords (covered_of_mem (List.mem_singleton.mpr rfl)) ha

/-- Where an entry of a page in use lies under PagesFit. -/
theorem PagesFit.entryAddr_bounds (h : PagesFit s) (hi : (s.rep c).inUse i = true) {k : Nat} (hk : k < (s.rep c).size) :
    0x2000 ≤ entryAddr s c i k ∧ entryAddr s c i k + 32 ≤ Config.memorySize := by
  have h1 := entryAddr_within (h.2.2 c) hi hk
  have h2 := reportAddr_bounds (c := c) (n := s.tables.partition) (h.2.1.trans (by decide))
  simp only [Config.memorySize] at *
  omega

/-! ### The tail of a placement: the page's record and words -/

theorem pageWords_within (i : Fin 2) : (28 ≤ (pageStateWord i).offset ∧ (pageStateWord i).offset + 4 ≤ 56) ∧
    (28 ≤ (pageHeaderWord i).offset ∧ (pageHeaderWord i).offset + 4 ≤ 56) ∧
    28 ≤ (pageSkippedWord i).offset ∧ (pageSkippedWord i).offset + 4 ≤ 56 := by
  revert i; decide

/-- The page words of the status block, the counts apart. -/
def pageWordBytes (c : Chamber) : Bytes := (statusAddr c + 28, 28)

theorem Frame.showPageWord {w : StatusWord} (h1 : 28 ≤ w.offset) (h2 : w.offset + 4 ≤ 56) :
    Frame [.rep c, .summary] [pageWordBytes c] [.report c] s (Machine.showWord c w s) :=
  showWord_covered 28 28 h1 (by omega)

theorem Frame.announce : Frame [.rep c, .summary] [pageWordBytes c] [.report c] s (Machine.announceFull c i s) :=
  .trans (.showPageWord (pageWords_within i).1.1 (pageWords_within i).1.2) .raise

theorem placementNotice_raises {b : Bool} {v : State} (h : b = true ∨ (v.rep c).perEntry = true)
    (hb : b = true → v.flagSet (.report c) = true) : (placementNotice c v).flagSet (.report c) = true := by
  unfold placementNotice
  split
  · exact flagSet_raise_same
  next hp => exact hb (h.resolve_right hp)

/-- The work of an entry placed behind others, its words written. -/
def fillingTail (c : Chamber) (i : Fin 2) (full : Bool) (s : State) : State :=
  let s := showWord c (pageHeaderWord i)
    (s.modPage c i fun p => { p with count := p.count + 1, st := if full then .full else p.st })
  placementNotice c (if full then announceFull c i s else s)

theorem placeFilling_eq : placeFilling c i e s = fillingTail c i (decide ((s.rep c).size ≤ ((s.rep c).page i).count + 1))
    (s.putWords (entryAddr s c i ((s.rep c).page i).count) e.words) := rfl

theorem Frame.fillingTail {full : Bool} :
    Frame [.rep c, .summary] [pageWordBytes c] [.report c] s (Machine.fillingTail c i full s) :=
  .trans .modPage <| .trans (.showPageWord (pageWords_within i).2.1.1 (pageWords_within i).2.1.2) <|
    .trans (.ite (fun _ => .announce) fun _ => .refl _) .placementNotice

theorem setPage_page {r : Rep} {p : Page} : (r.setPage i p).page i = p := by
  unfold Rep.setPage Rep.page
  split <;> rfl

theorem modPage_page {f : Page → Page} : ((s.modPage c i f).rep c).page i = f ((s.rep c).page i) := by
  rw [State.modPage, State.modRep_eq, State.setRep_rep_same, setPage_page]

theorem modPage_perEntry {f : Page → Page} : ((s.modPage c i f).rep c).perEntry = (s.rep c).perEntry := by
  rw [State.modPage, State.modRep_eq, State.setRep_rep_same, Rep.setPage]
  split <;> rfl

theorem announced_rep {b : Bool} : (if b = true then announceFull c i s else s).rep c = s.rep c := by
  split <;> rfl

theorem fillingTail_rep {full : Bool} : (fillingTail c i full s).rep c =
    (s.modPage c i fun p => { p with count := p.count + 1, st := if full then .full else p.st }).rep c := by
  simp only [fillingTail, placementNotice_rep]
  split <;> rfl

theorem fillingTail_flag {full : Bool} (h : full = true ∨ (s.rep c).perEntry = true) :
    (fillingTail c i full s).flagSet (.report c) = true := by
  refine placementNotice_raises (b := full) (h.imp id fun h => ?_) fun hf => ?_
  · rw [announced_rep, showWord_rep, modPage_perEntry, h]
  · rw [hf]
    exact flagSet_raise_same

/-- The work of an entry that opens a page, its words written. -/
def openingTail (c : Chamber) (i : Fin 2) (full : Bool) (first skipped : Nat) (s : State) : State :=
  let s := s.modPage c i fun _ => { st := if full then .full else .filling, count := 1, first := first, skipped := skipped }
  let s := showWord c (pageSkippedWord i) (showWord c (pageHeaderWord i) s)
  let s := showWord c .counts (s.modRep c fun r => { r with skipped := 0 })
  placementNotice c (if full then announceFull c i s else showWord c (pageStateWord i) s)

theorem placeOpening_eq : placeOpening c i e s = openingTail c i (decide ((s.rep c).size ≤ 1)) e.sequence (s.rep c).skipped
    (s.putWords (entryAddr s c i 0) e.words) := rfl

/-- The opened page shown up to its counts. -/
def openingShown (c : Chamber) (i : Fin 2) (full : Bool) (first skipped : Nat) (s : State) : State :=
  showWord c .counts
    ((showWord c (pageSkippedWord i) (showWord c (pageHeaderWord i) (s.modPage c i fun _ =>
      { st := if full then .full else .filling, count := 1, first := first, skipped := skipped }))).modRep c
        fun r => { r with skipped := 0 })

theorem openingTail_eq {full : Bool} {first skipped : Nat} : openingTail c i full first skipped s =
    placementNotice c (if full then announceFull c i (openingShown c i full first skipped s)
      else showWord c (pageStateWord i) (openingShown c i full first skipped s)) := rfl

theorem Frame.openingEnd {full : Bool} : Frame [.rep c, .summary] [pageWordBytes c] [.report c] s
    (Machine.placementNotice c (if full then Machine.announceFull c i s else Machine.showWord c (pageStateWord i) s)) :=
  .trans (.ite (fun _ => .announce) fun _ => .showPageWord (pageWords_within i).1.1 (pageWords_within i).1.2) .placementNotice

theorem Frame.openingShown {full : Bool} {first skipped : Nat} : Frame [.rep c, .summary] [pageBytes c] [.report c] s
    (Machine.openingShown c i full first skipped s) := by
  have cov : covered [pageBytes c] (pageBytes c) := covered_of_mem (List.mem_singleton.mpr rfl)
  exact .trans .modPage <| .trans (.showPageHeader cov) <| .trans (.showPageSkipped cov) <| .trans .modRep (.showReport cov)

theorem openingShown_rep {full : Bool} {first skipped : Nat} : (openingShown c i full first skipped s).rep c =
    { (s.rep c).setPage i { st := if full then .full else .filling, count := 1, first := first, skipped := skipped } with
      skipped := 0 } := by
  simp [openingShown, showWord, State.modRep_eq, State.modPage]

theorem openingTail_rep {full : Bool} {first skipped : Nat} : (openingTail c i full first skipped s).rep c =
    (openingShown c i full first skipped s).rep c := by
  rw [openingTail_eq, placementNotice_rep]
  split <;> rfl

theorem openingTail_flag {full : Bool} {first skipped : Nat} (h : full = true ∨ (s.rep c).perEntry = true) :
    (openingTail c i full first skipped s).flagSet (.report c) = true := by
  rw [openingTail_eq]
  refine placementNotice_raises (b := full) (h.imp id fun h => ?_) fun hf => ?_
  · have per : ((openingShown c i full first skipped s).rep c).perEntry = true := by
      rw [openingShown_rep]
      refine Eq.trans ?_ h
      unfold Rep.setPage
      split <;> rfl
    cases full <;> exact per
  · subst hf
    exact flagSet_raise_same

/-- The sequence number that an opened page leaves shown. -/
theorem openingTail_shown {full : Bool} {first skipped : Nat} :
    memField (openingTail c i full first skipped s).mem (statusAddr c + 58) 2 = (s.rep c).next % 65536 := by
  have hs := statusAddr_bounds c
  rw [openingTail_eq]
  refine ((Frame.openingEnd (s := openingShown c i full first skipped s)).field (by simp only [Config.memorySize]; omega) ?_).trans ?_
  · simp only [List.mem_cons, List.not_mem_nil, or_false, forall_eq, pageWordBytes, Config.memorySize]; omega
  · rw [openingShown, counts_shown]
    simp [showWord, State.modRep_eq, State.modPage_next]

end Sys2Proof.Machine
end

section
/-! What an entry leaves, and the third part of a slot scan (R165 to R168). -/

namespace Sys2Proof.Machine

variable {s u : State} {c : Chamber} {t : Moment} {e : Entry} {i : Fin 2} {n : Nat}

theorem Frame.numbered : Frame [.rep c, .summary] [statusBytes c] [.report c] s (Machine.numbered c s) :=
  .trans .modRep .showWord

/-- The status block and an entry's place. -/
theorem apart_of_status {a m : Nat} (ha : 0x2000 ≤ a) {r : Bytes} (h : r.1 + r.2 ≤ statusAddr c + 128) :
    r.1 + r.2 ≤ Config.memorySize ∧ (a + m ≤ r.1 ∨ r.1 + r.2 ≤ a) := by
  have hs := statusAddr_bounds c
  simp only [Config.memorySize] at *
  omega

theorem pageWordBytes_status {r : Bytes} (hr : r ∈ [pageWordBytes c]) : covered [statusBytes c] r :=
  ⟨_, List.mem_singleton.mpr rfl, by rw [List.mem_singleton.mp hr]; simp only [pageWordBytes, statusBytes]; omega,
    by rw [List.mem_singleton.mp hr]; simp only [pageWordBytes, statusBytes]; omega⟩

theorem pageBytes_status {r : Bytes} (hr : r ∈ [pageBytes c]) : covered [statusBytes c] r :=
  ⟨_, List.mem_singleton.mpr rfl, by rw [List.mem_singleton.mp hr]; simp only [pageBytes, statusBytes]; omega,
    by rw [List.mem_singleton.mp hr]; simp only [pageBytes, statusBytes]; omega⟩

/-! ### An entry behind others (R166) -/

theorem produce_fills_eq (h : (s.rep c).filling? = some i) : produce c e s =
    fillingTail c i (decide ((s.rep c).size ≤ ((s.rep c).page i).count + 1))
      ((numbered c s).putWords (entryAddr s c i ((s.rep c).page i).count) (commonFields s c e).words) := by
  have filling : ((numbered c s).rep c).filling? = some i := by rw [numbered_rep]; exact h
  have size : ((numbered c s).rep c).size = (s.rep c).size := by rw [numbered_rep]
  have page : ((numbered c s).rep c).page i = (s.rep c).page i := by rw [numbered_rep]; rfl
  rw [produce_eq, placeEntry, filling]
  simp only [placeFilling_eq, size, page, entryAddr_numbered]

/-- What an entry that finds a FILLING page leaves. -/
theorem produce_fills (hp : PagesFit s) (h : (s.rep c).filling? = some i) :
    (produce c e s).word (entryAddr s c i ((s.rep c).page i).count) =
        e.kind.code + 256 * (c.val + 1) + 65536 * ((s.rep c).next % 65536) ∧
      ((produce c e s).rep c).page i =
        { (s.rep c).page i with
          count := ((s.rep c).page i).count + 1
          st := if (s.rep c).size ≤ ((s.rep c).page i).count + 1 then .full else .filling } ∧
      ((s.rep c).size ≤ ((s.rep c).page i).count + 1 ∨ (s.rep c).perEntry = true →
        (produce c e s).flagSet (.report c) = true) ∧
      storesOnly [statusBytes c, (entryAddr s c i ((s.rep c).page i).count, 32)] s (produce c e s) ∧
      memField (produce c e s).mem (statusAddr c + 58) 2 = ((s.rep c).next + 1) % 65536 := by
  obtain ⟨inUse, st⟩ := Rep.filling?_spec h
  have room : ((s.rep c).page i).count < (s.rep c).size := by
    rcases hp.2.2 c with g | ⟨-, -, -, g⟩
    · simp [Rep.inUse, g] at inUse
    · exact g i inUse st
  have bounds := hp.entryAddr_bounds inUse room
  have hs := statusAddr_bounds c
  rw [produce_fills_eq h]
  have word := putEntry_word (s := numbered c s) (u := s) (c := c) (e := e) bounds.2
  have put := Frame.putEntryWords (s := numbered c s) (c := c) (e := commonFields s c e) bounds.2
  have rep : ((numbered c s).putWords (entryAddr s c i ((s.rep c).page i).count) (commonFields s c e).words).rep c =
      { s.rep c with next := ((s.rep c).next + 1) % 65536 } := numbered_rep
  generalize entryAddr s c i ((s.rep c).page i).count = a at word put rep bounds ⊢
  have placed := (put.field (a := statusAddr c + 58) (n := 2) (by simp only [Config.memorySize]; omega) (by
    simp only [List.mem_cons, List.not_mem_nil, or_false, forall_eq]; omega)).trans numbered_shown
  have start : Frame [.rep c, .summary] [statusBytes c, (a, 32)] [.report c] s
      ((numbered c s).putWords a (commonFields s c e).words) :=
    .trans (Frame.numbered.mono (by simp) fun _ hr => covered_of_mem (by rw [List.mem_singleton.mp hr]; simp))
      (put.mono (by simp) fun _ hr => covered_of_mem (by rw [List.mem_singleton.mp hr]; simp))
  generalize (numbered c s).putWords a (commonFields s c e).words = v at word put rep placed start ⊢
  have tail := Frame.fillingTail (s := v) (c := c) (i := i) (full := decide ((s.rep c).size ≤ ((s.rep c).page i).count + 1))
  refine ⟨?_, ?_, fun hf => fillingTail_flag ?_, ?_, ?_⟩
  · refine (tail.word (by simp only [Config.memorySize] at *; omega) ?_).trans word
    simp only [List.mem_cons, List.not_mem_nil, or_false, forall_eq]
    exact apart_of_status (c := c) bounds.1 (by simp only [pageWordBytes]; omega)
  · rw [fillingTail_rep, modPage_page, rep]
    simp only [decide_eq_true_eq]
    exact congrArg (fun x => ({ (s.rep c).page i with count := ((s.rep c).page i).count + 1, st := x } : Page))
      (if_congr Iff.rfl rfl st)
  · rw [rep]
    exact hf.imp (fun h => decide_eq_true h) id
  · exact (start.trans (tail.mono (by simp) fun _ hr => (pageWordBytes_status hr).imp fun r ⟨h1, h2⟩ => ⟨by
      rw [List.mem_singleton.mp h1]; simp, h2⟩)).bytes
  · refine (tail.field (by simp only [Config.memorySize]; omega) ?_).trans placed
    simp only [List.mem_cons, List.not_mem_nil, or_false, forall_eq, pageWordBytes, Config.memorySize]
    omega

/-! ### An entry that opens a page (R166) -/

theorem produce_opens_eq (h : (s.rep c).filling? = none) (g : (s.rep c).empty? = some i) : produce c e s =
    openingTail c i (decide ((s.rep c).size ≤ 1)) (s.rep c).next (s.rep c).skipped
      ((numbered c s).putWords (entryAddr s c i 0) (commonFields s c e).words) := by
  have filling : ((numbered c s).rep c).filling? = none := by rw [numbered_rep]; exact h
  have empty : ((numbered c s).rep c).empty? = some i := by rw [numbered_rep]; exact g
  have size : ((numbered c s).rep c).size = (s.rep c).size := by rw [numbered_rep]
  have skipped : ((numbered c s).rep c).skipped = (s.rep c).skipped := by rw [numbered_rep]
  rw [produce_eq, placeEntry, filling]
  simp only [empty, placeOpening_eq, size, skipped, entryAddr_numbered, commonFields_sequence]

/-- What an entry that opens a page leaves. -/
theorem produce_opens (hp : PagesFit s) (h : (s.rep c).filling? = none) (g : (s.rep c).empty? = some i) :
    (produce c e s).word (entryAddr s c i 0) =
        e.kind.code + 256 * (c.val + 1) + 65536 * ((s.rep c).next % 65536) ∧
      ((produce c e s).rep c).page i =
        { st := if (s.rep c).size ≤ 1 then .full else .filling, count := 1, first := (s.rep c).next
          skipped := (s.rep c).skipped } ∧
      ((produce c e s).rep c).skipped = 0 ∧
      ((s.rep c).size ≤ 1 ∨ (s.rep c).perEntry = true → (produce c e s).flagSet (.report c) = true) ∧
      storesOnly [statusBytes c, (entryAddr s c i 0, 32)] s (produce c e s) ∧
      memField (produce c e s).mem (statusAddr c + 58) 2 = ((s.rep c).next + 1) % 65536 := by
  obtain ⟨inUse, -⟩ := Rep.empty?_spec g
  have room : 0 < (s.rep c).size := by
    rcases hp.2.2 c with g | ⟨g, -⟩
    · simp [Rep.inUse, g] at inUse
    · exact g
  have bounds := hp.entryAddr_bounds inUse room
  have hs := statusAddr_bounds c
  rw [produce_opens_eq h g]
  have word := putEntry_word (s := numbered c s) (u := s) (c := c) (e := e) bounds.2
  have put := Frame.putEntryWords (s := numbered c s) (c := c) (e := commonFields s c e) bounds.2
  have rep : ((numbered c s).putWords (entryAddr s c i 0) (commonFields s c e).words).rep c =
      { s.rep c with next := ((s.rep c).next + 1) % 65536 } := numbered_rep
  generalize entryAddr s c i 0 = a at word put rep bounds ⊢
  have start : Frame [.rep c, .summary] [statusBytes c, (a, 32)] [.report c] s
      ((numbered c s).putWords a (commonFields s c e).words) :=
    .trans (Frame.numbered.mono (by simp) fun _ hr => covered_of_mem (by rw [List.mem_singleton.mp hr]; simp))
      (put.mono (by simp) fun _ hr => covered_of_mem (by rw [List.mem_singleton.mp hr]; simp))
  generalize (numbered c s).putWords a (commonFields s c e).words = v at word put rep start ⊢
  have tail : Frame [.rep c, .summary] [statusBytes c] [.report c] v
      (openingTail c i (decide ((s.rep c).size ≤ 1)) (s.rep c).next (s.rep c).skipped v) := by
    rw [openingTail_eq]
    exact .trans (Frame.openingShown.mono (by simp) fun _ hr => pageBytes_status hr)
      (Frame.openingEnd.mono (by simp) fun _ hr => pageWordBytes_status hr)
  refine ⟨?_, ?_, ?_, fun hf => openingTail_flag ?_, ?_, ?_⟩
  · refine (tail.word (by simp only [Config.memorySize] at *; omega) ?_).trans word
    simp only [List.mem_cons, List.not_mem_nil, or_false, forall_eq]
    exact apart_of_status (c := c) bounds.1 (by simp only [statusBytes]; omega)
  · rw [openingTail_rep, openingShown_rep]
    refine Eq.trans (b := ((v.rep c).setPage i _).page i) rfl ?_
    rw [setPage_page]
    simp only [decide_eq_true_eq]
  · rw [openingTail_rep, openingShown_rep]
  · rw [rep]
    exact hf.imp (fun h => decide_eq_true h) id
  · exact (start.trans (tail.mono (by simp) fun _ hr => covered_of_mem (by rw [List.mem_singleton.mp hr]; simp))).bytes
  · rw [openingTail_shown, rep]
    exact Nat.mod_mod _ _

/-! ### An entry held (R167) -/

theorem produce_holds_eq (h : (s.rep c).filling? = none) (g : (s.rep c).empty? = none) : produce c e s =
    holdEntry c (commonFields s c e) (numbered c s) := by
  have filling : ((numbered c s).rep c).filling? = none := by rw [numbered_rep]; exact h
  have empty : ((numbered c s).rep c).empty? = none := by rw [numbered_rep]; exact g
  rw [produce_eq, placeEntry, filling]
  simp only [empty]

/-- What an entry that no page can take leaves. -/
theorem produce_holds (h : (s.rep c).filling? = none) (g : (s.rep c).empty? = none) :
    ((produce c e s).rep c).held = some (commonFields s c e) ∧
      ((produce c e s).rep c).skipped =
        (if (s.rep c).held.isSome then min ((s.rep c).skipped + 1) 65535 else (s.rep c).skipped) ∧
      (∀ f, (produce c e s).flagSet f = s.flagSet f) ∧ storesOnly [statusBytes c] s (produce c e s) ∧
      memField (produce c e s).mem (statusAddr c + 58) 2 = ((s.rep c).next + 1) % 65536 := by
  rw [produce_holds_eq h g]
  have held : ((numbered c s).rep c).held = (s.rep c).held := by rw [numbered_rep]
  have skipped : ((numbered c s).rep c).skipped = (s.rep c).skipped := by rw [numbered_rep]
  have start : Frame [.rep c] [statusBytes c] [] s (numbered c s) := .trans .modRep .showWord
  by_cases hh : (s.rep c).held.isSome = true
  · rw [holdEntry, held, if_pos hh, if_pos hh, ← skipped]
    have next : ((numbered c s).rep c).next = ((s.rep c).next + 1) % 65536 := by rw [numbered_rep]
    generalize numbered c s = u at start next ⊢
    have frame : Frame [.rep c] [statusBytes c] [] s (showWord c .counts (u.modRep c fun r =>
        { r with held := some (commonFields s c e), skipped := min (r.skipped + 1) 65535 })) :=
      start.trans (.trans .modRep .showWord)
    refine ⟨by simp [State.modRep_eq], by simp [State.modRep_eq], fun f => frame.flags f (by simp), frame.bytes, ?_⟩
    rw [counts_shown, State.modRep_eq, State.setRep_rep_same, next]
    exact Nat.mod_mod _ _
  · rw [holdEntry, held, if_neg hh, if_neg hh, ← skipped]
    have shown := numbered_shown (c := c) (s := s)
    generalize numbered c s = u at start shown ⊢
    have frame : Frame [.rep c] [statusBytes c] [] s (u.modRep c fun r => { r with held := some (commonFields s c e) }) :=
      start.trans .modRep
    exact ⟨by simp [State.modRep_eq], by simp [State.modRep_eq], fun f => frame.flags f (by simp), frame.bytes, shown⟩

/-! ### The parts of a slot scan (R18, R33, R168) -/

theorem hostRequest_none (h : noRequest s c) : hostRequest c s = s := if_pos h

theorem examineSlot_none (h : ¬ posted s c) : examineSlot c s = s := if_neg h

theorem examineSlot_posted (h : posted s c) : examineSlot c s = judgeOrder c (expectedOrder s c) s := if_pos h

theorem placeHeld_none (h : (s.rep c).held = none) : placeHeld c s = s := by
  unfold placeHeld
  rw [h]

theorem scanPage_rest (h : ((s.rep c).page i).st ≠ .full) : scanPage c i s = s := by
  simp [scanPage, h]

theorem scanPages_rest (h : pagesAtRest s c) : scanPages c s = s := by
  rw [scanPages, scanPage_rest (h.2 0), scanPage_rest (h.2 1), placeHeld_none h.1]

/-- A FULL page 0 as its state word is read (R168). -/
theorem scanPage_full (h : 1 ≤ (s.rep c).pages) (hf : (s.rep c).page0.st = .full) : scanPage c 0 s =
    if s.word (statusAddr c + 28) = 0 then s.modPage c 0 fun p => { p with st := .empty }
    else if s.word (statusAddr c + 28) = 2 then s else showWord c .page0 s := by
  have full : ((s.rep c).inUse 0 && decide (((s.rep c).page 0).st = .full)) = true := by
    simp [Rep.inUse, Rep.page, hf]; omega
  exact if_pos full

/-- A slot scan's third part where page 0 alone is FULL and no entry is held (R168). -/
theorem scanPages_full (h : 1 ≤ (s.rep c).pages) (h0 : (s.rep c).page0.st = .full) (h1 : (s.rep c).page1.st ≠ .full)
    (hh : (s.rep c).held = none) :
    (scanPages c s).rep c =
        (if s.word (statusAddr c + 28) = 0 then { s.rep c with page0 := { (s.rep c).page0 with st := .empty } }
        else s.rep c) ∧
      (scanPages c s).word (statusAddr c + 28) = (if s.word (statusAddr c + 28) = 0 then 0 else 2) ∧
      Frame [.rep c] [(statusAddr c + 28, 4)] [] s (scanPages c s) := by
  have scanned : (scanPage c 0 s).rep c =
        (if s.word (statusAddr c + 28) = 0 then { s.rep c with page0 := { (s.rep c).page0 with st := .empty } }
        else s.rep c) ∧
      (scanPage c 0 s).word (statusAddr c + 28) = (if s.word (statusAddr c + 28) = 0 then 0 else 2) ∧
      Frame [.rep c] [(statusAddr c + 28, 4)] [] s (scanPage c 0 s) := by
    rw [scanPage_full h h0]
    by_cases hw : s.word (statusAddr c + 28) = 0
    · rw [if_pos hw, if_pos hw, if_pos hw]
      refine ⟨?_, hw, .modPage⟩
      rw [State.modPage, State.modRep_eq, State.setRep_rep_same]
      rfl
    · rw [if_neg hw, if_neg hw, if_neg hw]
      by_cases hf : s.word (statusAddr c + 28) = 2
      · rw [if_pos hf]
        exact ⟨rfl, hf, .refl s⟩
      · rw [if_neg hf]
        refine ⟨rfl, ?_, .showWord (covered_of_mem (List.mem_singleton.mpr rfl))⟩
        have shown := word_showWord (c := c) (w := .page0) (s := s)
        rw [statusValue, h0] at shown
        exact shown
  have page1 : ((scanPage c 0 s).rep c).page1.st ≠ .full := by
    rw [scanned.1]
    split
    · exact h1
    · exact h1
  have held : ((scanPage c 0 s).rep c).held = none := by
    rw [scanned.1]
    split
    · exact hh
    · exact hh
  rw [scanPages, scanPage_rest (i := 1) page1, placeHeld_none held]
  exact scanned

/-- Settles O51: an entry by the page that takes it, the slot scan by the word it reads. -/
theorem entriesArePlacedAndPagesReturned : Obligations.EntriesArePlacedAndPagesReturned := by
  refine ⟨?_, ?_⟩
  · intro s c e hp
    have shown : memField (produce c e s).mem (statusAddr c + 58) 2 = ((s.rep c).next + 1) % 65536 := by
      cases h : (s.rep c).filling? with
      | some i => exact (produce_fills hp h).2.2.2.2
      | none =>
        cases g : (s.rep c).empty? with
        | some i => exact (produce_opens hp h g).2.2.2.2.2
        | none => exact (produce_holds h g).2.2.2.2
    refine ⟨produce_next, shown, fun i h => ?_, fun i h g => ?_, fun h g => ?_, ?_, ?_⟩
    · obtain ⟨word, page, flag, bytes, -⟩ := produce_fills (e := e) hp h
      exact ⟨word, page, flag, bytes⟩
    · obtain ⟨word, page, skipped, flag, bytes, -⟩ := produce_opens (e := e) hp h g
      exact ⟨word, page, skipped, flag, bytes⟩
    · obtain ⟨held, skipped, flags, bytes, -⟩ := produce_holds (c := c) (e := e) h g
      exact ⟨⟨_, held, commonFields_kind, commonFields_sequence⟩, skipped, flags, bytes⟩
    · exact (Frame.produce_notice hp).flags
    · exact ((Frame.produce_notice (c := c) (e := e) hp).mono (ps' := [.summary, .rep c]) (fs' := [.report c]) (by simp)
        fun _ hr => covered_of_mem hr).parts
  · intro s t c h hn hx hpages h0 h1 hh
    refine answers_atTap h (body := slotScan c) rfl ?_
    rw [slotScan, hostRequest_none (s := s.setNow t) hn, examineSlot_none (s := s.setNow t) hx]
    have rep : (s.setNow t).rep c = s.rep c := rfl
    have word : (s.setNow t).word (statusAddr c + 28) = s.word (statusAddr c + 28) := rfl
    obtain ⟨scanned, shown, frame⟩ := scanPages_full (s := s.setNow t) (c := c) hpages h0 h1 hh
    rw [rep, word] at scanned
    rw [word] at shown
    exact ⟨scanned, shown, Frame.stores (fs := []) (.trans .setNow (frame.mono (by simp)))⟩

end Sys2Proof.Machine
end

section
/-! Slots refused and taken, and the requests that a slot scan ignores (R17 to R20, R33). -/

namespace Sys2Proof.Machine

variable {s u : State} {c : Chamber} {t : Moment} {code : Code} {o : Order} {d : Nat} {h : SlotHold}

/-! ### The pages at the end of a slot scan (R168) -/

/-- The third part of a slot scan has nothing to do: a FULL page shows its state, and the held entry has no page. -/
def scanSettled (s : State) (c : Chamber) : Prop :=
  ((s.rep c).held = none ∨ (s.rep c).empty? = none) ∧
    ∀ i, ((s.rep c).page i).st = .full → s.word (statusAddr c + (pageStateWord i).offset) = 2

theorem scanPage_settled {i : Fin 2} (h : ((s.rep c).page i).st = .full → s.word (statusAddr c + (pageStateWord i).offset) = 2) :
    scanPage c i s = s := by
  by_cases hf : ((s.rep c).page i).st = .full
  · have word : memField s.mem (statusAddr c + (pageStateWord i).offset) 4 = 2 := h hf
    unfold scanPage
    simp only [word]
    split
    · exact if_neg (by decide)
    · rfl
  · exact scanPage_rest hf

theorem scanPages_settled (h : scanSettled s c) : scanPages c s = s := by
  rw [scanPages, scanPage_settled (h.2 0), scanPage_settled (h.2 1)]
  unfold placeHeld
  obtain ⟨h | h, -⟩ := h
  · rw [h]
  · rw [h]
    cases (s.rep c).held <;> rfl

theorem pagesAtRest.of_rep (h : pagesAtRest s c) (e : u.rep c = s.rep c) : pagesAtRest u c := by
  unfold pagesAtRest
  rw [e]
  exact h

theorem pageStateWord_within (i : Fin 2) : 28 ≤ (pageStateWord i).offset ∧ (pageStateWord i).offset + 4 ≤ 44 := by
  revert i; decide

/-- Later work that leaves the pages and their state words. -/
theorem scanSettled.over {ps : List Part} {rs : List Bytes} {fs : List EventFlag} (h : scanSettled s c)
    (hf : Frame ps rs fs s u) (hp : .rep c ∉ ps)
    (hr : ∀ r ∈ rs, r.1 + r.2 ≤ Config.memorySize ∧ (statusAddr c + 44 ≤ r.1 ∨ r.1 + r.2 ≤ statusAddr c + 28)) :
    scanSettled u c := by
  have hs := statusAddr_bounds c
  have rep : u.rep c = s.rep c := hf.parts (.rep c) hp
  refine ⟨by rw [rep]; exact h.1, fun i hi => ?_⟩
  have hw := pageStateWord_within i
  refine (hf.word (by simp only [Config.memorySize]; omega) fun r hm => ?_).trans (h.2 i (by rw [← rep]; exact hi))
  have := hr r hm
  omega

/-! ### Answers to the expected slot (R17, R19, R20) -/

theorem turnPointer_seq : (turnPointer c s).seq c = { s.seq c with expected := otherSlot (s.seq c).expected } := by
  simp [turnPointer, showWord, State.modSeq_eq, otherSlot]

/-- The expected slot that the status block shows (R17). -/
theorem turnPointer_shown : memField (turnPointer c s).mem (statusAddr c + 3) 1 = (otherSlot (s.seq c).expected).val := by
  have shown := field_showWord (c := c) (w := .states)
    (s := s.modSeq c fun q => { q with expected := if q.expected = 0 then 1 else 0 }) (i := 3) (n := 1) (by decide)
  rw [show statusAddr c + StatusWord.states.offset + 3 = statusAddr c + 3 from rfl] at shown
  have lt := (otherSlot (s.seq c).expected).isLt
  rw [turnPointer, shown, statusValue, State.modSeq_eq, State.setSeq_seq_same, pack8]
  simp only [otherSlot] at lt ⊢
  omega

theorem Frame.turnPointer : Frame [.seq c] [(statusAddr c, 4)] [] s (Machine.turnPointer c s) :=
  .trans .modSeq (.showWord (covered_of_mem (List.mem_singleton.mpr rfl)))

/-- The bytes of an answer to the expected slot, its pointer shown. -/
theorem answerBytes_left {i : Fin 2} {rs : List Bytes} {r : Bytes} (hr : r ∈ answerBytes c i) :
    covered (answerBytes c i ++ rs) r := covered_of_mem (List.mem_append_left _ hr)

theorem statesWord_slots (i : Fin 2) : ∀ r ∈ [((statusAddr c, 4) : Bytes)],
    r.1 + r.2 ≤ Config.memorySize ∧ (slotAddr c i + 32 ≤ r.1 ∨ r.1 + r.2 ≤ slotAddr c i) := by
  have hs := statusAddr_bounds c
  have hi := slotAddr_top c i
  simp only [List.mem_cons, List.not_mem_nil, or_false, forall_eq, Config.memorySize]
  omega

/-- What a refusal leaves (R19). -/
theorem refuse_answers (hd : d < 4294967296) :
    slotReads (refuse c code d s) (slotAddr c (s.seq c).expected) 4 code.code d 0 ∧
      (refuse c code d s).flagSet (.order c) = true ∧
      (refuse c code d s).seq c = { s.seq c with expected := otherSlot (s.seq c).expected } ∧
      memField (refuse c code d s).mem (statusAddr c + 3) 1 = (otherSlot (s.seq c).expected).val ∧
      Frame [.summary, .seq c] (answerBytes c (s.seq c).expected ++ [(statusAddr c, 4)]) [.order c] s
        (refuse c code d s) := by
  have ho := code.code_lt_65536
  have reads := writeSlot_reads (s := s) (c := c) (i := (s.seq c).expected) (o := code.code) (v := d) (n := 0) (st := 4)
    (by omega) (by omega) hd (by omega)
  have written : Frame [] (answerBytes c (s.seq c).expected ++ [(statusAddr c, 4)]) [] s
      (writeSlot c (s.seq c).expected code.code d 0 4 s) := .writeSlot fun _ hr => answerBytes_left hr
  have seq : (writeSlot c (s.seq c).expected code.code d 0 4 s).seq c = s.seq c := written.parts (.seq c) (by simp)
  rw [refuse]
  generalize writeSlot c (s.seq c).expected code.code d 0 4 s = u at reads seq written ⊢
  have turned := Frame.turnPointer (s := raise (.order c) u) (c := c)
  refine ⟨turned.slotReads (fun r hr => statesWord_slots _ r hr) reads, ?_, ?_, ?_, ?_⟩
  · exact (turned.flags _ (by simp)).trans flagSet_raise_same
  · rw [turnPointer_seq, raise_seq, seq]
  · rw [turnPointer_shown, raise_seq, seq]
  · exact .trans (written.mono (by simp) (fun _ hr => covered_of_mem hr) (by simp))
      (.trans .raise (turned.mono (by simp) (fun _ hr => covered_of_mem (List.mem_append_right _ hr)) (by simp)))

/-- What a take leaves (R20). -/
theorem takeSlot_takes : slotReads (takeSlot c h s) (slotAddr c (s.seq c).expected) 2 0 0 0 ∧
    (takeSlot c h s).seq c = { s.seq c with
      slots := (s.seq c).slots.set (s.seq c).expected h, expected := otherSlot (s.seq c).expected } ∧
    Frame [.seq c] (answerBytes c (s.seq c).expected ++ [(statusAddr c, 4)]) [] s (takeSlot c h s) := by
  have reads := writeSlot_reads (s := s) (c := c) (i := (s.seq c).expected) (o := 0) (v := 0) (n := 0) (st := 2)
    (by omega) (by omega) (by omega) (by omega)
  have written : Frame [] (answerBytes c (s.seq c).expected ++ [(statusAddr c, 4)]) [] s
      (writeSlot c (s.seq c).expected 0 0 0 2 s) := .writeSlot fun _ hr => answerBytes_left hr
  have seq : (writeSlot c (s.seq c).expected 0 0 0 2 s).seq c = s.seq c := written.parts (.seq c) (by simp)
  rw [takeSlot]
  generalize writeSlot c (s.seq c).expected 0 0 0 2 s = u at reads seq written ⊢
  have held : Frame [.seq c] [] [] u (holdSlot c (s.seq c).expected h u) := .modSeq
  have turned := Frame.turnPointer (s := holdSlot c (s.seq c).expected h u) (c := c)
  refine ⟨turned.slotReads (fun r hr => statesWord_slots _ r hr) (held.slotReads (by simp) reads), ?_, ?_⟩
  · rw [turnPointer_seq, holdSlot, State.modSeq_eq, State.setSeq_seq_same, seq]
  · exact .trans (written.mono (by simp) (fun _ hr => covered_of_mem hr)) (.trans (held.mono (by simp))
      (turned.mono (by simp) fun _ hr => covered_of_mem (List.mem_append_right _ hr)))

/-! ### Refusals (R19, R22, R24, R25) -/

theorem runRefusal_busy (h : occupied s c) : runRefusal s c = some .busy := if_pos h

theorem runRefusal_free (h : ¬ occupied s c) : runRefusal s c =
    if tripped s c 1 then some .interlocked
    else if (s.pump c).st ≠ .pumped then some .notPumped
    else if (s.econ c).mode = .economy ∧ bitSet (s.chamberCfg c).wakeEnables 0 = false then some .asleep
    else none := if_neg h

/-- A run order whose state check fails is refused (R22). -/
theorem judgeOrder_runRefused (k : o.kind = 1 ∨ o.kind = 2) (h : runRefusal s c = some code) :
    judgeOrder c o s = refuse c code 0 s := by
  have refusal : ∀ resume, runOrderRefusal s c resume o = some (code, 0) := fun resume => by simp [runOrderRefusal, h]
  rcases k with k | k
  · simp [judgeOrder, k, runNew, refusal]
  · simp [judgeOrder, k, runResume, refusal]

theorem pumpRefusal_busy (h : occupied s c) : pumpRefusal s c = some .busy := if_pos h

theorem pumpRefusal_free (h : ¬ occupied s c) : pumpRefusal s c =
    if tripped s c 3 then some .interlocked else if (s.pump c).st.inProgress then some .busy else none := if_neg h

/-- A pump order whose state check fails is refused (R25). -/
theorem judgeOrder_pumpRefused (k : o.kind = 4 ∨ o.kind = 5) (h : pumpRefusal s c = some code) :
    judgeOrder c o s = refuse c code 0 s := by
  rcases k with k | k
  · simp [judgeOrder, k, pumpDown, h]
  · simp [judgeOrder, k, vent, h]

/-- A continue whose state check fails is refused (R24). -/
theorem judgeOrder_continueRefused (k : o.kind = 3) (h : continueRefusal (s.seq c) o = some code) :
    judgeOrder c o s = refuse c code 0 s := by
  simp [judgeOrder, k, runContinue, h]

theorem judgeOrder_setMode (k : o.kind = 6) : judgeOrder c o s = setMode c o s := by simp [judgeOrder, k]

theorem setMode_free (h : ¬ occupied s c) (p : (s.pump c).st = .pumped) : setMode c o s =
    if 1 < o.targetMode then refuse c .badRange 7 s
    else if o.targetMode = 1 then
      if (s.econ c).mode = .active then answerAtOnce c .complete PumpState.pumped.code (enterEconomy c s)
      else if (s.econ c).phase ≠ .none then refuse c .busy 0 s
      else answerAtOnce c .already PumpState.pumped.code s
    else if (s.econ c).mode = .active then answerAtOnce c .already PumpState.pumped.code s
    else beginWake c .host (takeSlot c .mode s) := by
  refine (if_neg h).trans ((if_neg (not_not_intro p)).trans rfl)

/-- Every order that meets a refusal of the tables is refused with its code (R19, R22, R24, R25). -/
theorem judgeOrder_refused (h : RefusedFor s c o code) :
    judgeOrder c o s = refuse c code (if code = .badRange then 7 else 0) s := by
  cases h with
  | kind h =>
    have other : ∀ n, 1 ≤ n → n ≤ 6 → o.kind ≠ n := fun n h1 h2 e => by omega
    unfold judgeOrder
    split
    next k => exact absurd k (other 1 (by decide) (by decide))
    next k => exact absurd k (other 2 (by decide) (by decide))
    next k => exact absurd k (other 3 (by decide) (by decide))
    next k => exact absurd k (other 4 (by decide) (by decide))
    next k => exact absurd k (other 5 (by decide) (by decide))
    next k => exact absurd k (other 6 (by decide) (by decide))
    next => rfl
  | runBusy k h => exact judgeOrder_runRefused k (runRefusal_busy h)
  | runInterlocked k h g => exact judgeOrder_runRefused k (by rw [runRefusal_free h, if_pos g])
  | runNotPumped k h g p => exact judgeOrder_runRefused k (by rw [runRefusal_free h, g, if_neg (by decide), if_pos p])
  | runAsleep k h g p m w =>
    exact judgeOrder_runRefused k (by
      rw [runRefusal_free h, g, if_neg (by decide), if_neg (not_not_intro p), if_pos ⟨m, w⟩])
  | noRun k h => exact judgeOrder_continueRefused k (if_pos h)
  | closed k h g => exact judgeOrder_continueRefused k ((if_neg h).trans (if_pos g))
  | badTag k h g j p =>
    exact judgeOrder_continueRefused k ((if_neg h).trans ((if_neg (by simp [g, j])).trans (if_pos p)))
  | heldBusy k g j p =>
    exact judgeOrder_continueRefused k ((if_neg (by simp [g])).trans ((if_neg (by simp [g, j])).trans
      ((if_neg (not_not_intro p)).trans (if_pos g))))
  | pumpOccupied k h => exact judgeOrder_pumpRefused k (pumpRefusal_busy h)
  | pumpInterlocked k h g => exact judgeOrder_pumpRefused k (by rw [pumpRefusal_free h, if_pos g])
  | pumpBusy k h g p => exact judgeOrder_pumpRefused k (by rw [pumpRefusal_free h, g, if_neg (by decide), if_pos p])
  | modeBusy k h => exact (judgeOrder_setMode k).trans (if_pos h)
  | modeNotPumped k h p => exact (judgeOrder_setMode k).trans ((if_neg h).trans (if_pos p))
  | modeRange k h p g => rw [judgeOrder_setMode k, setMode_free h p, if_pos g]; rfl
  | economyWaking k h p g m w =>
    rw [judgeOrder_setMode k, setMode_free h p, if_neg (by omega), if_pos g, if_neg (by simp [m]), if_pos w]
    rfl

/-! ### Requests that do not apply (R33) -/

/-- A request that the run state does not take, as the statement lists them. -/
theorem requestActs_ignored {q : Seq} {n : Nat} (h : match n with
      | 1 => q.run ≠ .waitLines ∧ q.run ≠ .step
      | 2 => q.run ≠ .waitLines ∧ q.run ≠ .step
      | 3 => q.run ≠ .held
      | 4 => q.run ≠ .held
      | 5 => q.run = .closing ∨ (q.run = .idle ∧ q.pumpTaken = false)
      | _ => True) : requestActs q n = false := by
  unfold requestActs
  split <;> simp_all

/-- The ignored request as the state shows it, ORDER not raised yet. -/
def requestIgnored (c : Chamber) (s : State) : State :=
  showWord c .outcome ((showWord c .flags (s.modSeq c fun q =>
    { q with lastRequest := memField s.mem (controlAddr c + 2) 2 })).modSeq c fun q => { q with requestResult := 2 })

theorem hostRequest_ignored (hn : ¬ noRequest s c) (h : requestActs (s.seq c) (memField s.mem (controlAddr c) 2) = false) :
    hostRequest c s = raise (.order c) (requestIgnored c s) := by
  refine (if_neg hn).trans ?_
  simp only [h, Bool.false_eq_true, if_false]
  rfl

theorem requestIgnored_seq : (requestIgnored c s).seq c =
    { s.seq c with lastRequest := memField s.mem (controlAddr c + 2) 2, requestResult := 2 } := by
  simp [requestIgnored, showWord, State.modSeq_eq]

theorem field_lt (m : Memory) (a : Nat) : memField m a 2 < 65536 := by
  rw [memField_low]
  exact Nat.mod_lt _ (by decide)

theorem requestIgnored_shown : memField (requestIgnored c s).mem (statusAddr c + 8) 2 = 2 ∧
    memField (requestIgnored c s).mem (statusAddr c + 6) 2 = memField s.mem (controlAddr c + 2) 2 := by
  have hs := statusAddr_bounds c
  have flags := field_showWord (c := c) (w := .flags)
    (s := s.modSeq c fun q => { q with lastRequest := memField s.mem (controlAddr c + 2) 2 }) (i := 2) (n := 2) (by decide)
  rw [show statusAddr c + StatusWord.flags.offset + 2 = statusAddr c + 6 from rfl] at flags
  have number : statusValue (s.modSeq c fun q => { q with lastRequest := memField s.mem (controlAddr c + 2) 2 }) c .flags /
      256 ^ 2 % 256 ^ 2 = memField s.mem (controlAddr c + 2) 2 := by
    have lt := field_lt s.mem (controlAddr c + 2)
    simp only [statusValue, State.modSeq_eq, State.setSeq_seq_same, pack8]
    omega
  rw [number] at flags
  rw [requestIgnored]
  generalize showWord c .flags (s.modSeq c fun q => { q with lastRequest := memField s.mem (controlAddr c + 2) 2 }) = u
    at flags ⊢
  have outcome := field_showWord (c := c) (w := .outcome) (s := u.modSeq c fun q => { q with requestResult := 2 }) (i := 0)
    (n := 2) (by decide)
  rw [show statusAddr c + StatusWord.outcome.offset + 0 = statusAddr c + 8 from rfl] at outcome
  have after : Frame [.seq c] [(statusAddr c + 8, 4)] [] u
      (showWord c .outcome (u.modSeq c fun q => { q with requestResult := 2 })) :=
    .trans .modSeq (.showWord (covered_of_mem (List.mem_singleton.mpr rfl)))
  refine ⟨?_, ?_⟩
  · rw [outcome, statusValue, State.modSeq_eq, State.setSeq_seq_same, pack16]
    simp only
    omega
  · refine (after.field (by simp only [Config.memorySize]; omega) ?_).trans flags
    simp only [List.mem_cons, List.not_mem_nil, or_false, forall_eq, Config.memorySize]
    omega

theorem Frame.requestIgnored : Frame [.seq c] [(statusAddr c + 4, 8)] [] s (Machine.requestIgnored c s) := by
  have cov : ∀ n, n = 4 ∨ n = 8 → covered [(statusAddr c + 4, 8)] ((statusAddr c + n, 4) : Bytes) := fun n hn =>
    ⟨_, List.mem_singleton.mpr rfl, by simp only; omega, by simp only; omega⟩
  exact .trans .modSeq (.trans (.showWord (cov 4 (.inl rfl))) (.trans .modSeq (.showWord (cov 8 (.inr rfl)))))

/-- A slot that is not POSTED stays so over work that leaves the slots. -/
theorem not_posted_of (h : ¬ posted s c) (slots : (u.seq c).slots = (s.seq c).slots)
    (expected : (u.seq c).expected = (s.seq c).expected) (pending : (u.seq c).pendingSeg = (s.seq c).pendingSeg)
    (word : ∀ i, u.word (slotAddr c i) = s.word (slotAddr c i)) : ¬ posted u c := by
  unfold posted
  simp only [slots, expected, pending, word]
  exact h

/-- Settles O15: a refusal by its answer, an ignored request by what it shows. -/
theorem refusalsAndIgnoredRequestsChangeNothingElse : Obligations.RefusalsAndIgnoredRequestsChangeNothingElse := by
  refine ⟨?_, ?_⟩
  · intro s t c code h hn hp hr hx
    refine answers_atTap h (body := slotScan c) rfl ?_
    have refused : judgeOrder c (expectedOrder s c) (s.setNow t) =
        refuse c code (if code = .badRange then 7 else 0) (s.setNow t) := by
      refine judgeOrder_refused ?_
      cases hx with
      | kind h => exact .kind h
      | runBusy k h => exact .runBusy k h
      | runInterlocked k h g => exact .runInterlocked k h g
      | runNotPumped k h g p => exact .runNotPumped k h g p
      | runAsleep k h g p m w => exact .runAsleep k h g p m w
      | noRun k h => exact .noRun k h
      | closed k h g => exact .closed k h g
      | badTag k h g j p => exact .badTag k h g j p
      | heldBusy k g j p => exact .heldBusy k g j p
      | pumpOccupied k h => exact .pumpOccupied k h
      | pumpInterlocked k h g => exact .pumpInterlocked k h g
      | pumpBusy k h g p => exact .pumpBusy k h g p
      | modeBusy k h => exact .modeBusy k h
      | modeNotPumped k h p => exact .modeNotPumped k h p
      | modeRange k h p g => exact .modeRange k h p g
      | economyWaking k h p g m w => exact .economyWaking k h p g m w
    have order : expectedOrder (s.setNow t) c = expectedOrder s c := rfl
    rw [slotScan, hostRequest_none (s := s.setNow t) hn, examineSlot_posted (s := s.setNow t) hp, order, refused]
    obtain ⟨reads, flag, seq, shown, frame⟩ := refuse_answers (s := s.setNow t) (c := c) (code := code)
      (d := if code = .badRange then 7 else 0) (by split <;> decide)
    generalize refuse c code (if code = .badRange then 7 else 0) (s.setNow t) = u at reads flag seq shown frame ⊢
    rw [scanPages_rest (hr.of_rep (frame.parts (.rep c) (by simp)))]
    have whole : Frame [.now, .summary, .seq c] (answerBytes c (s.seq c).expected ++ [(statusAddr c, 4)]) [.order c] s u :=
      .trans .setNow (frame.mono (by simp) fun _ hr => covered_of_mem hr)
    exact ⟨reads, flag, whole.flags, seq, shown, whole.stores⟩
  · intro s t c h hn hact hp hr
    refine answers_atTap h (body := slotScan c) rfl ?_
    rw [slotScan, hostRequest_ignored (s := s.setNow t) hn (requestActs_ignored hact)]
    have seq := requestIgnored_seq (s := s.setNow t) (c := c)
    have shown := requestIgnored_shown (s := s.setNow t) (c := c)
    have frame : Frame [.now, .summary, .seq c] [(statusAddr c + 4, 8)] [.order c] s
        (raise (.order c) (requestIgnored c (s.setNow t))) :=
      .trans .setNow (.trans (Frame.requestIgnored.mono (by simp) (fun _ hr => covered_of_mem hr) (by simp)) .raise)
    have flag : (raise (.order c) (requestIgnored c (s.setNow t))).flagSet (.order c) = true := flagSet_raise_same
    have seq' : (raise (.order c) (requestIgnored c (s.setNow t))).seq c = _ := seq
    have shown' : memField (raise (.order c) (requestIgnored c (s.setNow t))).mem (statusAddr c + 8) 2 = 2 ∧
      memField (raise (.order c) (requestIgnored c (s.setNow t))).mem (statusAddr c + 6) 2 = _ := shown
    clear seq shown
    generalize raise (.order c) (requestIgnored c (s.setNow t)) = u at seq' shown' frame flag ⊢
    have hs := statusAddr_bounds c
    have words : ∀ i, u.word (slotAddr c i) = s.word (slotAddr c i) := fun i => by
      have hi := slotAddr_top c i
      refine frame.word (by simp only [Config.memorySize]; omega) ?_
      simp only [List.mem_cons, List.not_mem_nil, or_false, forall_eq, Config.memorySize]
      omega
    rw [examineSlot_none (not_posted_of hp (by rw [seq']; rfl) (by rw [seq']; rfl) (by rw [seq']; rfl) words),
      scanPages_rest (hr.of_rep (frame.parts (.rep c) (by simp)))]
    exact ⟨seq', shown'.1, shown'.2, flag, frame.flags, frame.stores⟩

end Sys2Proof.Machine
end

section
/-! An entry at a slot scan leaves its pages settled; RUN_CONTINUE as the pending segment (R27, R166 to R168). -/

namespace Sys2Proof.Machine

variable {s u : State} {c : Chamber} {t : Moment} {e : Entry} {i j : Fin 2} {o : Order}

/-! ### A page that becomes FULL shows it -/

theorem setPage_page_ne {r : Rep} {p : Page} (h : j ≠ i) : (r.setPage i p).page j = r.page j := by
  unfold Rep.setPage Rep.page
  by_cases hi : i = 0
  · subst hi
    simp [h]
  · have hj : j = 0 := by omega
    simp [hi, hj]

theorem statusValue_page : statusValue s c (pageStateWord i) = ((s.rep c).page i).st.code := by
  unfold pageStateWord Rep.page
  split
  · rfl
  · rfl

theorem placementNotice_word {a : Nat} : (placementNotice c s).word a = s.word a := by
  unfold placementNotice
  split
  · rfl
  · rfl

/-- A page that an entry has made FULL shows it. -/
theorem announceFull_shown (h : ((s.rep c).page i).st = .full) :
    (placementNotice c (announceFull c i s)).word (statusAddr c + (pageStateWord i).offset) = 2 := by
  rw [placementNotice_word, announceFull, raise_word, word_showWord, statusValue_page, h]
  rfl

theorem fillingTail_shown : (fillingTail c i true s).word (statusAddr c + (pageStateWord i).offset) = 2 := by
  refine announceFull_shown ?_
  rw [showWord_rep, modPage_page]
  rfl

theorem openingTail_full {first skipped : Nat} :
    (openingTail c i true first skipped s).word (statusAddr c + (pageStateWord i).offset) = 2 := by
  refine announceFull_shown ?_
  change ((openingShown c i true first skipped s).rep c |>.page i).st = .full
  rw [openingShown_rep]
  change ((Rep.setPage (s.rep c) i _).page i).st = .full
  rw [setPage_page]
  rfl

/-- An entry produced over pages at rest leaves nothing to the slot scan's third part. -/
theorem produce_settled (h : pagesAtRest s c) : scanSettled (produce c e s) c := by
  obtain ⟨held, rest⟩ := h
  cases hf : (s.rep c).filling? with
  | some k =>
    have filling := (Rep.filling?_spec hf).2
    rw [produce_fills_eq hf]
    have rep : ((numbered c s).putWords (entryAddr s c k ((s.rep c).page k).count) (commonFields s c e).words).rep c =
        { s.rep c with next := ((s.rep c).next + 1) % 65536 } := numbered_rep
    generalize (numbered c s).putWords (entryAddr s c k ((s.rep c).page k).count) (commonFields s c e).words = v at rep ⊢
    generalize decide ((s.rep c).size ≤ ((s.rep c).page k).count + 1) = full
    refine ⟨.inl ?_, fun i hi => ?_⟩
    · rw [fillingTail_rep, State.modPage, State.modRep_eq, State.setRep_rep_same, rep]
      unfold Rep.setPage
      split <;> exact held
    · by_cases hk : i = k
      · subst hk
        cases full with
        | true => exact fillingTail_shown
        | false =>
          rw [fillingTail_rep, modPage_page, rep] at hi
          exact absurd (filling.symm.trans hi) (by decide)
      · rw [fillingTail_rep, State.modPage, State.modRep_eq, State.setRep_rep_same, setPage_page_ne hk, rep] at hi
        exact absurd hi (rest i)
  | none =>
    cases hg : (s.rep c).empty? with
    | some k =>
      rw [produce_opens_eq hf hg]
      have rep : ((numbered c s).putWords (entryAddr s c k 0) (commonFields s c e).words).rep c =
          { s.rep c with next := ((s.rep c).next + 1) % 65536 } := numbered_rep
      generalize (numbered c s).putWords (entryAddr s c k 0) (commonFields s c e).words = v at rep ⊢
      generalize decide ((s.rep c).size ≤ 1) = full
      refine ⟨.inl ?_, fun i hi => ?_⟩
      · rw [openingTail_rep, openingShown_rep, rep]
        unfold Rep.setPage
        split <;> exact held
      · rw [openingTail_rep, openingShown_rep, rep] at hi
        by_cases hk : i = k
        · subst hk
          cases full with
          | true => exact openingTail_full
          | false =>
            change ((Rep.setPage _ i _).page i).st = .full at hi
            rw [setPage_page] at hi
            have filling : PageState.filling = PageState.full := hi
            exact absurd filling (by decide)
        · change ((Rep.setPage _ k _).page i).st = .full at hi
          rw [setPage_page_ne hk] at hi
          exact absurd hi (rest i)
    | none =>
      rw [produce_holds_eq hf hg]
      have rep := numbered_rep (s := s) (c := c)
      generalize numbered c s = v at rep ⊢
      have same : ((holdEntry c (commonFields s c e) v).rep c).empty? = (v.rep c).empty? ∧
          ∀ i, ((holdEntry c (commonFields s c e) v).rep c).page i = (v.rep c).page i := by
        unfold holdEntry
        split
        · rw [showWord_rep, State.modRep_eq, State.setRep_rep_same]; exact ⟨rfl, fun _ => rfl⟩
        · rw [State.modRep_eq, State.setRep_rep_same]; exact ⟨rfl, fun _ => rfl⟩
      refine ⟨.inr (same.1.trans (by rw [rep]; exact hg)), fun i hi => ?_⟩
      rw [same.2, rep] at hi
      exact absurd hi (rest i)

/-! ### RUN_CONTINUE (R24, R27) -/

/-- The pending segment shown in the status block (R27). -/
theorem pending_shown {g : Segment} (h1 : (s.seq c).pendFirstShown < 65536) (h2 : (s.seq c).pendingSeg = some g)
    (h3 : g.count < 65536) : memField (showWord c .pending s).mem (statusAddr c + 60) 2 = (s.seq c).pendFirstShown ∧
      memField (showWord c .pending s).mem (statusAddr c + 62) 2 = g.count := by
  have low := field_showWord (c := c) (w := .pending) (s := s) (i := 0) (n := 2) (by decide)
  have high := field_showWord (c := c) (w := .pending) (s := s) (i := 2) (n := 2) (by decide)
  rw [show statusAddr c + StatusWord.pending.offset + 0 = statusAddr c + 60 from rfl] at low
  rw [show statusAddr c + StatusWord.pending.offset + 2 = statusAddr c + 62 from rfl] at high
  rw [low, high, statusValue, h2, pack16]
  simp only [Option.elim_some]
  omega

theorem runContinue_pends (hc : continueRefusal (s.seq c) o = none) (hs : segmentRefusal s c false o = none)
    (hg : (s.seq c).run ≠ .gap) : runContinue c o s = continuePending c o s := by
  simp [runContinue, hc, hs, hg]

/-- What a continue taken as the pending segment leaves (R27). -/
theorem continuePending_pends (hf : o.first < 65536) (hn : o.count < 65536) :
    slotReads (continuePending c o s) (slotAddr c (s.seq c).expected) 2 0 0 0 ∧
      (continuePending c o s).seq c = { s.seq c with
        slots := (s.seq c).slots.set (s.seq c).expected .pending, expected := otherSlot (s.seq c).expected
        pendingSeg := some o.segment, pendFirstShown := o.first } ∧
      memField (continuePending c o s).mem (statusAddr c + 60) 2 = o.first ∧
      memField (continuePending c o s).mem (statusAddr c + 62) 2 = o.count ∧
      Frame [.seq c] (answerBytes c (s.seq c).expected ++ [(statusAddr c, 4), (statusAddr c + 60, 4)]) [] s
        (continuePending c o s) := by
  obtain ⟨reads, seq, taken⟩ := takeSlot_takes (s := s) (c := c) (h := .pending)
  rw [continuePending]
  generalize takeSlot c .pending s = u at reads seq taken ⊢
  have pends : (u.modSeq c fun q => { q with pendingSeg := some o.segment, pendFirstShown := o.first }).seq c =
      { u.seq c with pendingSeg := some o.segment, pendFirstShown := o.first } := by
    rw [State.modSeq_eq, State.setSeq_seq_same]
  have shown := pending_shown (s := u.modSeq c fun q => { q with pendingSeg := some o.segment, pendFirstShown := o.first })
    (c := c) (g := o.segment) (by rw [pends]; exact hf) (by rw [pends]) hn
  have written : Frame [.seq c] [(statusAddr c + 60, 4)] [] u (showWord c .pending
      (u.modSeq c fun q => { q with pendingSeg := some o.segment, pendFirstShown := o.first })) :=
    .trans .modSeq (.showWord (covered_of_mem (List.mem_singleton.mpr rfl)))
  have seq' : (showWord c .pending (u.modSeq c fun q =>
      { q with pendingSeg := some o.segment, pendFirstShown := o.first })).seq c = _ := pends
  have hs := statusAddr_bounds c
  have hi := slotAddr_top c (s.seq c).expected
  refine ⟨written.slotReads ?_ reads, ?_, ?_, shown.2, ?_⟩
  · simp only [List.mem_cons, List.not_mem_nil, or_false, forall_eq, Config.memorySize]
    omega
  · rw [seq', seq]
  · exact shown.1.trans (by rw [pends])
  · refine .trans (taken.mono (by simp) fun r hr => covered_of_mem ?_) (written.mono (by simp) fun r hr => covered_of_mem ?_)
    · rcases List.mem_append.mp hr with hr | hr
      · exact List.mem_append_left _ hr
      · exact List.mem_append_right _ (List.mem_cons.mpr (.inl (List.mem_singleton.mp hr)))
    · exact List.mem_append_right _ (List.mem_cons_of_mem _ hr)

/-- Settles O17: the checks pass, and the take leaves the pending segment. -/
theorem continueBecomesThePendingSegment : Obligations.ContinueBecomesThePendingSegment := by
  intro s t c o h hn hp hr ho hk hrun hopen htag hseg
  refine answers_atTap h (body := slotScan c) rfl ?_
  have order : expectedOrder (s.setNow t) c = o := ho.symm
  have lt1 : o.first < 65536 := by rw [ho]; exact field_lt _ _
  have lt2 : o.count < 65536 := by rw [ho]; exact field_lt _ _
  have passes : continueRefusal (s.seq c) o = none := by
    have h1 : (s.seq c).run ≠ .idle ∧ (s.seq c).run ≠ .closing ∧ (s.seq c).run ≠ .held := by
      rcases hrun with hrun | hrun | hrun <;> simp [hrun]
    exact (if_neg h1.1).trans ((if_neg (by simp [h1.2.1, hopen])).trans ((if_neg (not_not_intro htag)).trans (if_neg h1.2.2)))
  have notGap : (s.seq c).run ≠ .gap := by rcases hrun with hrun | hrun | hrun <;> simp [hrun]
  have judged : judgeOrder c o (s.setNow t) = continuePending c o (s.setNow t) := by
    rw [← runContinue_pends (s := s.setNow t) passes hseg notGap]
    simp [judgeOrder, hk]
  rw [slotScan, hostRequest_none (s := s.setNow t) hn, examineSlot_posted (s := s.setNow t) hp, order, judged]
  obtain ⟨reads, seq, first, count, frame⟩ := continuePending_pends (s := s.setNow t) (c := c) lt1 lt2
  generalize continuePending c o (s.setNow t) = u at reads seq first count frame ⊢
  rw [scanPages_rest (hr.of_rep (frame.parts (.rep c) (by simp)))]
  have whole : Frame [.now, .seq c] (answerBytes c (s.seq c).expected ++ [(statusAddr c, 4), (statusAddr c + 60, 4)]) [] s u :=
    .trans .setNow (frame.mono (by simp) fun _ hr => covered_of_mem hr)
  exact ⟨reads, seq, first, count, whole.stores⟩

end Sys2Proof.Machine
end

section
/-! Pump orders and mode orders taken at a slot scan (R25, R111, R112, R120, R160). -/

namespace Sys2Proof.Machine

variable {s u v : State} {c : Chamber} {t : Moment} {p : Pump} {h : SlotHold}

/-! ### A stage entered after a take -/

/-- A chamber's expected slot taken, before its order's work: what later work may have changed beside. -/
structure Taken (c : Chamber) (h : SlotHold) (s u : State) : Prop where
  reads : slotReads u (slotAddr c (s.seq c).expected) 2 0 0 0
  seq : u.seq c = { s.seq c with
    slots := (s.seq c).slots.set (s.seq c).expected h, expected := otherSlot (s.seq c).expected }
  frame : Frame [.seq c] (answerBytes c (s.seq c).expected ++ [(statusAddr c, 4)]) [] s u

theorem takeSlot_taken : Taken c h s (takeSlot c h s) :=
  ⟨takeSlot_takes.1, takeSlot_takes.2.1, takeSlot_takes.2.2⟩

theorem Taken.slots (k : Taken c h s u) : (u.seq c).slots[(s.seq c).expected] = h ∧
    (u.seq c).expected = otherSlot (s.seq c).expected := by
  rw [k.seq]
  exact ⟨by simp, rfl⟩

/-- A take's bytes among those of a chamber's work. -/
theorem taken_covers {i : Fin 2} {rs : List Bytes} {r : Bytes} (h : r ∈ answerBytes c i ++ [(statusAddr c, 4)]) :
    covered (answerBytes c i ++ statusBytes c :: rs) r := by
  rcases List.mem_append.mp h with h | h
  · exact answerBytes_left h
  · refine ⟨statusBytes c, List.mem_append_right _ (List.mem_cons_self ..), ?_, ?_⟩ <;>
      rw [List.mem_singleton.mp h] <;> simp only [statusBytes] <;> omega

theorem slotsAbove (i : Fin 2) {r : Bytes} (h1 : 0xA00 ≤ r.1) (h2 : r.1 + r.2 ≤ Config.memorySize) :
    r.1 + r.2 ≤ Config.memorySize ∧ (slotAddr c i + 32 ≤ r.1 ∨ r.1 + r.2 ≤ slotAddr c i) := by
  have hi := slotAddr_top c i
  exact ⟨h2, .inl (by omega)⟩

theorem statusReport_slots {n : Nat} (hn : n ≤ 30) (i : Fin 2) : ∀ r ∈ [statusBytes c, reportBytes n c],
    r.1 + r.2 ≤ Config.memorySize ∧ (slotAddr c i + 32 ≤ r.1 ∨ r.1 + r.2 ≤ slotAddr c i) := by
  have hs := statusAddr_bounds c
  have hr := reportAddr_bounds (c := c) (n := n) hn
  simp only [List.mem_cons, List.not_mem_nil, or_false, forall_eq_or_imp, forall_eq]
  exact ⟨slotsAbove i (by simp only [statusBytes]; omega) (by simp only [statusBytes, Config.memorySize]; omega),
    slotsAbove i (by simp only [reportBytes]; omega) (by simp only [reportBytes, Config.memorySize]; omega)⟩

/-- A change of stage over a taken slot ends the slot scan. -/
theorem stageTo_scanned {rs : List Bytes} (hv : Frame [.seq c, .rough] rs [] s v) (hp : PagesFit s)
    (hr : pagesAtRest s c) (hs : (s.pump c).st ≠ p.st)
    (reads : slotReads v (slotAddr c (s.seq c).expected) 2 0 0 0) :
    scanPages c (stageTo c p v) = stageTo c p v ∧
      slotReads (stageTo c p v) (slotAddr c (s.seq c).expected) 2 0 0 0 ∧ (stageTo c p v).seq c = v.seq c ∧
      (stageTo c p v).rough = v.rough ∧ (stageTo c p v).pump c = p ∧
      memField (stageTo c p v).mem (statusAddr c + 1) 1 = p.st.code ∧
      ((stageTo c p v).rep c).next = ((s.rep c).next + 1) % 65536 ∧
      Frame [.summary, .pump c, .rep c] [statusBytes c, reportBytes s.tables.partition c] [.report c] v (stageTo c p v) := by
  have tables : v.tables = s.tables := hv.parts .tables (by simp)
  have rep : ∀ d, v.rep d = s.rep d := fun d => hv.parts (.rep d) (by simp)
  have pump : v.pump c = s.pump c := hv.parts (.pump c) (by simp)
  have hs' : (v.pump c).st ≠ p.st := by rw [pump]; exact hs
  obtain ⟨entered, shown, next, frame⟩ := stageTo_enters (pagesFit_congr tables rep hp) hs'
  rw [tables] at frame
  rw [rep] at next
  refine ⟨?_, frame.slotReads (fun r hr => statusReport_slots (hp.2.1.trans (by decide)) _ r hr) reads,
    frame.parts (.seq c) (by simp), frame.parts .rough (by simp), entered, shown, next, frame⟩
  rw [stageTo_moves hs']
  refine scanPages_settled (produce_settled (hr.of_rep ?_))
  exact (Frame.putPump.parts (.rep c) (by simp)).trans (rep c)

theorem pumpRefusal_passes (ho : ¬ occupied s c) (ht : tripped s c 3 = false) (hs : (s.pump c).st.inProgress = false) :
    pumpRefusal s c = none := by
  rw [pumpRefusal_free ho, ht, hs]
  rfl

/-! ### VENT (R120) -/

theorem vent_takes (hr : pumpRefusal s c = none) (hs : (s.pump c).st ≠ .vented) (hm : (s.econ c).mode = .active) :
    vent c s = startVent c (takeSlot c (.pump false) s) := by
  have econ : (takeSlot c (.pump false) s).econ c = s.econ c := takeSlot_takes.2.2.parts (.econ c) (by simp)
  have stays : leaveByVent c (takeSlot c (.pump false) s) = takeSlot c (.pump false) s :=
    if_neg (by rw [econ, hm]; decide)
  simp only [vent, hr, if_neg hs, stays]

theorem slotScan_posted (hn : noRequest s c) (hp : posted s c) :
    slotScan c s = scanPages c (judgeOrder c (expectedOrder s c) s) := by
  rw [slotScan, hostRequest_none hn, examineSlot_posted hp]

/-- Settles O19: the take and then the stage that it enters. -/
theorem ventBeginsWithTheValvesClosed : Obligations.VentBeginsWithTheValvesClosed := by
  intro s t c h hp hn hposted hr hk ho ht hm hs
  refine answers_atTap h (body := slotScan c) rfl ?_
  have idle : (s.pump c).st.inProgress = false ∧ (s.pump c).st ≠ .vented ∧ (s.pump c).st ≠ .venting := by
    rcases hs with hs | hs | hs <;> simp [hs, PumpState.inProgress]
  have judged : judgeOrder c (expectedOrder (s.setNow t) c) (s.setNow t) =
      startVent c (takeSlot c (.pump false) (s.setNow t)) := by
    rw [← vent_takes (s := s.setNow t) (pumpRefusal_passes (s := s.setNow t) ho ht idle.1) idle.2.1 hm]
    have hk' : (expectedOrder (s.setNow t) c).kind = 5 := hk
    simp [judgeOrder, hk']
  rw [slotScan_posted (s := s.setNow t) hn hposted, judged]
  have taken := takeSlot_taken (s := s.setNow t) (c := c) (h := .pump false)
  generalize takeSlot c (.pump false) (s.setNow t) = u at taken ⊢
  have tables : u.tables = s.tables := taken.frame.parts .tables (by simp)
  have cfg : u.chamberCfg c = s.chamberCfg c := by simp only [State.chamberCfg, tables]
  have now : u.now = t := taken.frame.parts .now (by simp)
  rw [startVent, cfg, now]
  obtain ⟨scanned, reads, seq, -, pump, shown, next, frame⟩ := stageTo_scanned (p :=
    { st := .venting, limit := loadLimit (s.chamberCfg c).ventLimit, limitMark := t
      delay := some (s.chamberCfg c).gateCloseDelay, mark := t })
    (taken.frame.mono (ps' := [.seq c, .rough]) (by simp) (fun _ hr => covered_of_mem hr)) (s := s.setNow t) hp hr idle.2.2
    taken.reads
  rw [scanned]
  have slots := taken.slots
  rw [← seq] at slots
  have whole : Frame [.now, .summary, .seq c, .pump c, .rep c]
      (answerBytes c (s.seq c).expected ++ [statusBytes c, reportBytes s.tables.partition c]) [.report c] s _ :=
    .trans .setNow (.trans (taken.frame.mono (by simp) fun r hr => taken_covers hr)
      (frame.mono (by simp) fun _ hr => covered_of_mem (List.mem_append_right _ hr)))
  generalize stageTo c _ u = w at reads seq pump shown next slots whole ⊢
  exact ⟨reads, slots.1, slots.2, pump, ⟨by simp [State.gateOpen, pump], by simp [State.ventOpen, pump]⟩, shown, next,
    whole.flags, whole.stores⟩

end Sys2Proof.Machine
end

section
/-! PUMP_DOWN taken at a slot scan (R25, R111, R112, R114). -/

namespace Sys2Proof.Machine

variable {s u v : State} {c : Chamber} {t : Moment} {p : Pump} {h : SlotHold}

theorem freshAt_congr (ht : u.tables = s.tables) (hs : u.scan = s.scan) (hc : ∀ k, u.chan k = s.chan k) (n : Nat) :
    u.freshAt n = s.freshAt n := by
  have chan : u.chanAt n = s.chanAt n := by
    unfold State.chanAt
    split
    · exact hc _
    · rfl
  have stale : u.staleAt n = s.staleAt n := by
    unfold State.staleAt
    rw [ht]
    split
    · rw [hs, chan]
    · rfl
  simp only [State.freshAt, State.valueAt, stale, chan]

/-- What the judgement of a pump order reads, over work on the sequencer and the rough line. -/
theorem pumpReads_of {rs : List Bytes} (hf : Frame [.seq c, .rough] rs [] s u) :
    u.chamberCfg c = s.chamberCfg c ∧ forelineAllows u = forelineAllows s ∧
      ∀ n, roughAtOrBelow u c n = roughAtOrBelow s c n := by
  have tables : u.tables = s.tables := hf.parts .tables (by simp)
  have cfg : ∀ d, u.chamberCfg d = s.chamberCfg d := fun d => by simp only [State.chamberCfg, tables]
  have fresh := freshAt_congr tables (hf.parts .scan (by simp)) fun k => hf.parts (.chan k) (by simp)
  exact ⟨cfg c, by simp only [forelineAllows, State.foreline, fresh, cfg], fun n => by simp only [roughAtOrBelow, fresh, cfg]⟩

theorem pumpDown_takes (hr : pumpRefusal s c = none) (hs : (s.pump c).st ≠ .pumped) :
    pumpDown c s = startPumpdown c (takeSlot c (.pump false) s) := by
  simp only [pumpDown, hr, if_neg hs]

/-! ### What the start of a pumpdown does (R111, R112, R114) -/

/-- The rough line with its image. -/
def roughShown (r : Rough) (s : State) : State := imageRough (s.setRough r)

theorem Frame.roughShown {r : Rough} : Frame [.rough] [(0x120, 8)] [] s (Machine.roughShown r s) :=
  .trans .setRough (.imageRough (covered_of_mem (by simp)))

@[simp] theorem roughShown_rough {r : Rough} : (roughShown r s).rough = r := rfl

theorem startPumpdown_crosses (h : roughAtOrBelow s c (s.chamberCfg c).crossoverPressure = true) :
    startPumpdown c s = stageTo c (crossoverPump (s.chamberCfg c) s.now) s := if_pos h

/-- The stage that a new holder enters. -/
def holderPump (s : State) (c : Chamber) (now : Moment) : Pump :=
  if forelineAllows s then
    { st := .softRough, limit := loadLimit (s.chamberCfg c).softRoughLimit, limitMark := now, mark := now }
  else { st := .roughWait, paused := true, mark := now }

theorem startPumpdown_holds (h : roughAtOrBelow s c (s.chamberCfg c).crossoverPressure = false)
    (hh : s.rough.holder = none) (hs : (s.pump c).st ≠ .roughWait) : startPumpdown c s =
      stageTo c (holderPump (roughShown { s.rough with holder := some c } s) c s.now)
        (roughShown { s.rough with holder := some c } s) := by
  refine (if_neg (by simp [h])).trans ?_
  unfold requestRough
  rw [hh]
  simp only [grantRough, ← roughShown.eq_1]
  have frame := Frame.roughShown (s := s) (r := { s.rough with holder := some c })
  have now : (roughShown { s.rough with holder := some c } s).now = s.now := frame.parts .now (by simp)
  have pump : (roughShown { s.rough with holder := some c } s).pump c = s.pump c := frame.parts (.pump c) (by simp)
  generalize roughShown { s.rough with holder := some c } s = u at now pump ⊢
  rw [← now, holderPump]
  split
  · rfl
  · rw [pump, if_neg hs]

theorem startPumpdown_queues {d : Chamber} (h : roughAtOrBelow s c (s.chamberCfg c).crossoverPressure = false)
    (hh : s.rough.holder = some d) : startPumpdown c s =
      stageTo c { st := .roughWait, mark := s.now } (roughShown { s.rough with queue := s.rough.queue ++ [c] } s) := by
  refine (if_neg (by simp [h])).trans ?_
  unfold requestRough
  rw [hh]
  rfl

/-- The bytes of a pump order's take and of the rough line's words. -/
def pumpTakeBytes (s : State) (c : Chamber) : List Bytes :=
  answerBytes c (s.seq c).expected ++ [statusBytes c, (0x120, 8), reportBytes s.tables.partition c]

/-- What a taken pump order's stage leaves at the end of the slot scan. -/
structure PumpOrderTaken (c : Chamber) (p : Pump) (r : Rough) (s s' : State) : Prop where
  reads : slotReads s' (slotAddr c (s.seq c).expected) 2 0 0 0
  slots : (s'.seq c).slots[(s.seq c).expected] = .pump false ∧ (s'.seq c).expected = otherSlot (s.seq c).expected
  pump : s'.pump c = p
  rough : s'.rough = r
  shown : memField s'.mem (statusAddr c + 1) 1 = p.st.code
  next : (s'.rep c).next = ((s.rep c).next + 1) % 65536
  frame : Frame [.summary, .seq c, .pump c, .rep c, .rough] (pumpTakeBytes s c) [.report c] s s'

theorem pumpOrder_scanned (taken : Taken c (.pump false) s u) (hv : Frame [.rough] [(0x120, 8)] [] u v) (hp : PagesFit s)
    (hr : pagesAtRest s c) (hs : (s.pump c).st ≠ p.st) :
    PumpOrderTaken c p v.rough s (scanPages c (stageTo c p v)) := by
  have start : Frame [.seq c, .rough] (answerBytes c (s.seq c).expected ++ [(statusAddr c, 4), (0x120, 8)]) [] s v := by
    refine .trans (taken.frame.mono (by simp) fun r hr => covered_of_mem ?_)
      (hv.mono (by simp) fun r hr => covered_of_mem (List.mem_append_right _ (List.mem_cons_of_mem _ hr)))
    rcases List.mem_append.mp hr with hr | hr
    · exact List.mem_append_left _ hr
    · exact List.mem_append_right _ (List.mem_cons.mpr (.inl (List.mem_singleton.mp hr)))
  have hi := slotAddr_top c (s.seq c).expected
  have reads : slotReads v (slotAddr c (s.seq c).expected) 2 0 0 0 := by
    refine hv.slotReads ?_ taken.reads
    simp only [List.mem_cons, List.not_mem_nil, or_false, forall_eq, Config.memorySize]
    omega
  have vseq : v.seq c = u.seq c := hv.parts (.seq c) (by simp)
  obtain ⟨scanned, reads', seq, rough, pump, shown, next, frame⟩ := stageTo_scanned start hp hr hs reads
  rw [scanned]
  refine ⟨reads', by rw [seq, vseq]; exact taken.slots, pump, rough, shown, next, ?_⟩
  refine .trans (start.mono (by simp) (fun r hr => ?_) (by simp)) (frame.mono (by simp) fun r hr => covered_of_mem ?_)
  · rcases List.mem_append.mp hr with hr | hr
    · exact answerBytes_left hr
    · rcases List.mem_cons.mp hr with rfl | hr
      · exact ⟨statusBytes c, List.mem_append_right _ (List.mem_cons_self ..), by simp only [statusBytes]; omega,
          by simp only [statusBytes]; omega⟩
      · rw [List.mem_singleton.mp hr]
        exact covered_of_mem (List.mem_append_right _ (List.mem_cons_of_mem _ (List.mem_cons_self ..)))
  · simp only [List.mem_cons, List.not_mem_nil, or_false] at hr
    rcases hr with rfl | rfl
    · exact List.mem_append_right _ (List.mem_cons_self ..)
    · exact List.mem_append_right _ (List.mem_cons_of_mem _ (List.mem_cons_of_mem _ (List.mem_cons_self ..)))

/-- Settles O18: the take, and the stage by the rough gauge and the rough line. -/
theorem pumpDownBeginsRoughingOrCrossesOver : Obligations.PumpDownBeginsRoughingOrCrossesOver := by
  intro s t c h hp hn hposted hr hk ho ht hs
  refine answers_atTap h (body := slotScan c) rfl ?_
  have idle : (s.pump c).st.inProgress = false ∧ (s.pump c).st ≠ .pumped ∧ (s.pump c).st ≠ .crossover ∧
      (s.pump c).st ≠ .softRough ∧ (s.pump c).st ≠ .roughWait := by
    rcases hs with hs | hs | hs <;> simp [hs, PumpState.inProgress]
  have judged : judgeOrder c (expectedOrder (s.setNow t) c) (s.setNow t) =
      startPumpdown c (takeSlot c (.pump false) (s.setNow t)) := by
    rw [← pumpDown_takes (s := s.setNow t) (pumpRefusal_passes (s := s.setNow t) ho ht idle.1) idle.2.1]
    have hk' : (expectedOrder (s.setNow t) c).kind = 4 := hk
    simp [judgeOrder, hk']
  rw [slotScan_posted (s := s.setNow t) hn hposted, judged]
  have taken := takeSlot_taken (s := s.setNow t) (c := c) (h := .pump false)
  generalize takeSlot c (.pump false) (s.setNow t) = u at taken ⊢
  obtain ⟨cfg, allows, gauge⟩ := pumpReads_of (u := u) (s := s.setNow t) (c := c)
    (taken.frame.mono (by simp) fun _ hr => covered_of_mem hr)
  have rough : u.rough = s.rough := taken.frame.parts .rough (by simp)
  have pump : u.pump c = s.pump c := taken.frame.parts (.pump c) (by simp)
  have gauge' : roughAtOrBelow u c (u.chamberCfg c).crossoverPressure =
      roughAtOrBelow s c (s.chamberCfg c).crossoverPressure := by rw [cfg, gauge]; rfl
  have close : ∀ {p : Pump} {r : Rough} {w : State}, PumpOrderTaken c p r (s.setNow t) w →
      Frame [.now, .summary, .seq c, .pump c, .rep c, .rough] (pumpTakeBytes s c) [.report c] s w := fun k =>
    .trans .setNow (k.frame.mono (by simp) fun _ hr => covered_of_mem hr)
  by_cases hx : roughAtOrBelow s c (s.chamberCfg c).crossoverPressure = true
  · rw [startPumpdown_crosses (gauge'.trans hx)]
    have done := pumpOrder_scanned (p := crossoverPump (u.chamberCfg c) u.now) taken (.refl u) hp hr idle.2.2.1
    generalize scanPages c (stageTo c (crossoverPump (u.chamberCfg c) u.now) u) = w at done ⊢
    refine ⟨done.reads, done.slots.1, done.slots.2, ?_, by rw [done.pump]; exact done.shown, done.next, (close done).flags,
      (close done).stores⟩
    rw [if_pos hx, done.pump, done.rough, cfg]
    exact ⟨rfl, rfl, rfl, rough⟩
  · have hx' := Bool.not_eq_true _ |>.mp hx
    cases hh : s.rough.holder with
    | none =>
      have image := Frame.roughShown (s := u) (r := { u.rough with holder := some c })
      rw [startPumpdown_holds (gauge'.trans hx') (by rw [rough, hh]) (by rw [pump]; exact idle.2.2.2.2)]
      have stage : (s.pump c).st ≠ (holderPump (roughShown { u.rough with holder := some c } u) c u.now).st := by
        unfold holderPump
        split
        · exact idle.2.2.2.1
        · exact idle.2.2.2.2
      have done := pumpOrder_scanned (p := holderPump (roughShown { u.rough with holder := some c } u) c u.now) taken image hp
        hr stage
      have reads := pumpReads_of (c := c) (image.mono (ps' := [.seq c, .rough]) (by simp) fun _ hr => covered_of_mem hr)
      have allows' : forelineAllows (roughShown { u.rough with holder := some c } u) = forelineAllows s :=
        reads.2.1.trans allows
      have cfg' : (roughShown { u.rough with holder := some c } u).chamberCfg c = s.chamberCfg c := reads.1.trans cfg
      have pumpRec : holderPump (roughShown { u.rough with holder := some c } u) c u.now = if forelineAllows s then
          { st := .softRough, limit := loadLimit (s.chamberCfg c).softRoughLimit, limitMark := u.now, mark := u.now }
        else { st := .roughWait, paused := true, mark := u.now } := by
        rw [holderPump, allows', cfg']
      rw [roughShown_rough] at done
      generalize scanPages c (stageTo c _ _) = w at done ⊢
      refine ⟨done.reads, done.slots.1, done.slots.2, ?_, by rw [done.pump]; exact done.shown, done.next, (close done).flags,
        (close done).stores⟩
      rw [if_neg hx, if_pos rfl, done.pump, done.rough, pumpRec, rough]
      refine ⟨rfl, ?_⟩
      by_cases ha : forelineAllows s = true
      · rw [if_pos ha, if_pos ha]; exact ⟨rfl, rfl, rfl⟩
      · rw [if_neg ha, if_neg ha]; exact ⟨rfl, rfl, rfl⟩
    | some d =>
      have image := Frame.roughShown (s := u) (r := { u.rough with queue := u.rough.queue ++ [c] })
      rw [startPumpdown_queues (gauge'.trans hx') (by rw [rough, hh])]
      have done := pumpOrder_scanned (p := { st := .roughWait, mark := u.now }) taken image hp hr idle.2.2.2.2
      rw [roughShown_rough] at done
      generalize scanPages c (stageTo c _ _) = w at done ⊢
      refine ⟨done.reads, done.slots.1, done.slots.2, ?_, by rw [done.pump]; exact done.shown, done.next, (close done).flags,
        (close done).stores⟩
      rw [if_neg hx, if_neg (by simp), done.pump, done.rough, rough]
      exact ⟨rfl, rfl, rfl, rfl⟩

end Sys2Proof.Machine
end

section
/-! SET_MODE to ECONOMY at a slot scan (R25, R82, R160). -/

namespace Sys2Proof.Machine

variable {s u v : State} {c : Chamber} {t : Moment} {o : Order} {k : LineId}

/-- The mode ECONOMY shown and the idle purge opened, the entry not made yet (R160). -/
def economyEntered (c : Chamber) (s : State) : State :=
  openPurge c .idlePurge (s.chamberCfg c).economyPurgeFlow (putMode c .economy s)

theorem enterEconomy_eq : enterEconomy c s =
    modeEntry c .nil 0 (bitIf (purgeClamps (economyEntered c s) c (s.chamberCfg c).economyPurgeFlow) 1)
      (economyEntered c s) := rfl

theorem Frame.economyEntered : Frame (.econ c :: allLines) [statusBytes c] [] s (Machine.economyEntered c s) :=
  .trans (Frame.putMode.mono (by simp) fun _ hr => covered_of_mem hr)
    (Frame.mono (ps := allLines) (rs := []) (fs := []) (.openPurge_line fun _ _ => mem_allLines)
      (List.subset_cons_self _ _) (by simp))

/-- The lines after the idle purge of ECONOMY (R82). -/
theorem economyEntered_line : (economyEntered c s).line k =
    if s.purgeLine c = some k ∧ s.gasInhibit c = false then
      (s.line k).purging c .idlePurge (s.lineCfg k) (s.chamberCfg c).economyPurgeFlow
    else s.line k := by
  have mode := Frame.putMode (s := s) (c := c) (m := .economy)
  have tables : (putMode c .economy s).tables = s.tables := mode.parts .tables (by simp)
  have gas : (putMode c .economy s).gasInhibit c = s.gasInhibit c := mode.parts (.gasInhibit c) (by simp)
  have line : ∀ j, (putMode c .economy s).line j = s.line j := fun j => mode.parts (.line j) (by simp)
  have purge : (putMode c .economy s).purgeLine c = s.purgeLine c := by simp only [State.purgeLine, State.chamberCfg, tables]
  have cfg : ∀ j, (putMode c .economy s).lineCfg j = s.lineCfg j := fun j => by simp only [State.lineCfg, tables]
  rw [economyEntered]
  generalize putMode c .economy s = u at gas line purge cfg ⊢
  cases hg : s.gasInhibit c with
  | true =>
    rw [if_neg (by simp)]
    unfold openPurge
    split
    · rw [if_pos (gas.trans hg), line]
    · exact line k
  | false =>
    cases hk : s.purgeLine c with
    | none =>
      rw [if_neg (by simp)]
      unfold openPurge
      rw [purge, hk]
      exact line k
    | some j =>
      rw [openPurge_opens (purge.trans hk) (gas.trans hg), State.modLine_eq, State.setLine_line]
      by_cases hj : k = j
      · subst hj
        rw [if_pos rfl, if_pos ⟨rfl, rfl⟩, line, cfg]
      · rw [if_neg hj, if_neg fun g => hj (Option.some.inj g.1).symm, line]

/-- What the answer of an order that ends at once leaves (R20). -/
theorem answerAtOnce_answers {code : Code} {d : Nat} (hd : d < 4294967296) :
    slotReads (answerAtOnce c code d s) (slotAddr c (s.seq c).expected) 3 code.code d 0 ∧
      ((answerAtOnce c code d s).seq c).expected = otherSlot (s.seq c).expected ∧
      (answerAtOnce c code d s).flagSet (.order c) = true ∧
      memField (answerAtOnce c code d s).mem (statusAddr c + 2) 1 = (s.econ c).mode.code ∧
      Frame [.summary, .seq c] (answerBytes c (s.seq c).expected ++ [(statusAddr c, 4)]) [.order c] s
        (answerAtOnce c code d s) := by
  have ho := code.code_lt_65536
  have reads : slotReads (doneSlot c (s.seq c).expected code d 0 s) (slotAddr c (s.seq c).expected) 3 code.code d 0 := by
    unfold doneSlot holdSlot
    have reads := writeSlot_reads (s := s) (c := c) (i := (s.seq c).expected) (o := code.code) (v := d) (n := 0) (st := 3)
      (by omega) (by omega) hd (by omega)
    simp only [slotReads, State.word, raise_mem, State.modSeq_eq, State.setSeq_mem] at reads ⊢
    exact reads
  have flag : (doneSlot c (s.seq c).expected code d 0 s).flagSet (.order c) = true := flagSet_raise_same
  have seq := doneSlot_seq (s := s) (c := c) (i := (s.seq c).expected) (o := code) (d := d) (n := 0)
  have done := Frame.doneSlot (s := s) (c := c) (i := (s.seq c).expected) (o := code) (d := d) (n := 0)
  rw [answerAtOnce]
  generalize doneSlot c (s.seq c).expected code d 0 s = u at reads flag seq done ⊢
  have econ : u.econ c = s.econ c := done.parts (.econ c) (by simp)
  have turned := Frame.turnPointer (s := u) (c := c)
  refine ⟨turned.slotReads (fun r hr => statesWord_slots _ r hr) reads, ?_, (turned.flags _ (by simp)).trans flag, ?_, ?_⟩
  · rw [turnPointer_seq, seq]
  · rw [turnPointer, showStates_mode, State.modSeq_eq, State.setSeq_econ, econ]
  · exact .trans (done.mono (by simp) (fun _ hr => answerBytes_left hr) (by simp))
      (turned.mono (by simp) (fun _ hr => covered_of_mem (List.mem_append_right _ hr)) (by simp))

/-- Later answers to slots leave the pages settled. -/
theorem answerBytes_pages {i : Fin 2} : ∀ r ∈ answerBytes c i ++ [(statusAddr c, 4)],
    r.1 + r.2 ≤ Config.memorySize ∧ (statusAddr c + 44 ≤ r.1 ∨ r.1 + r.2 ≤ statusAddr c + 28) := by
  have hs := statusAddr_bounds c
  have hi := slotAddr_top c i
  simp only [answerBytes, List.cons_append, List.nil_append, List.mem_cons, List.not_mem_nil, or_false, forall_eq_or_imp,
    forall_eq, Config.memorySize]
  omega

theorem setMode_enters (ho : ¬ occupied s c) (hp : (s.pump c).st = .pumped) (hm : (s.econ c).mode = .active)
    (ht : o.targetMode = 1) : setMode c o s = answerAtOnce c .complete PumpState.pumped.code (enterEconomy c s) := by
  rw [setMode_free ho hp, if_neg (by omega), if_pos ht, if_pos hm]

/-- Settles O20: the mode entered, its entry, and the answer at once. -/
theorem setModeEntersEconomy : Obligations.SetModeEntersEconomy := by
  intro s t c h hp hn hposted hr hk htarget ho hst hm
  refine answers_atTap h (body := slotScan c) rfl ?_
  have judged : judgeOrder c (expectedOrder (s.setNow t) c) (s.setNow t) =
      answerAtOnce c .complete PumpState.pumped.code (enterEconomy c (s.setNow t)) := by
    have hk' : (expectedOrder (s.setNow t) c).kind = 6 := hk
    have ht' : (expectedOrder (s.setNow t) c).targetMode = 1 := htarget
    rw [judgeOrder_setMode hk', setMode_enters (s := s.setNow t) ho hst hm ht']
  rw [slotScan_posted (s := s.setNow t) hn hposted, judged, enterEconomy_eq]
  have line : ∀ k, (economyEntered c (s.setNow t)).line k = if s.purgeLine c = some k ∧ s.gasInhibit c = false then
      (s.line k).purging c .idlePurge (s.lineCfg k) (s.chamberCfg c).economyPurgeFlow else s.line k :=
    fun k => economyEntered_line (s := s.setNow t) (c := c) (k := k)
  have entered := Frame.economyEntered (s := s.setNow t) (c := c)
  have econ : (economyEntered c (s.setNow t)).econ c =
      { s.econ c with mode := .economy, phase := .none, limit := 0, dwell := 0 } := by
    have opened : Frame allLines [] [] (putMode c .economy (s.setNow t)) (economyEntered c (s.setNow t)) :=
      .openPurge_line fun _ _ => mem_allLines
    exact (opened.parts (.econ c) (by simp [allLines])).trans putMode_econ
  generalize bitIf (purgeClamps (economyEntered c (s.setNow t)) c ((s.setNow t).chamberCfg c).economyPurgeFlow) 1 = flags
  generalize economyEntered c (s.setNow t) = u at line entered econ ⊢
  have tables : u.tables = s.tables := entered.parts .tables (by simp [allLines])
  have rep : ∀ d, u.rep d = s.rep d := fun d => entered.parts (.rep d) (by simp [allLines])
  have seq : u.seq c = s.seq c := entered.parts (.seq c) (by simp [allLines])
  obtain ⟨next, flag, -, entry⟩ := modeEntry_reports (c := c) (cause := .nil) (fault := 0) (flags := flags)
    (pagesFit_congr tables rep hp)
  have settled : scanSettled (modeEntry c .nil 0 flags u) c := produce_settled (hr.of_rep (rep c))
  rw [tables] at entry
  rw [rep] at next
  generalize modeEntry c .nil 0 flags u = v at next flag entry settled ⊢
  have vseq : v.seq c = s.seq c := (entry.parts (.seq c) (by simp)).trans seq
  have vecon : v.econ c = _ := (entry.parts (.econ c) (by simp)).trans econ
  have vline : ∀ k, v.line k = _ := fun k => (entry.parts (.line k) (by simp)).trans (line k)
  obtain ⟨reads, expected, order, mode, answered⟩ := answerAtOnce_answers (s := v) (c := c) (code := .complete)
    (d := PumpState.pumped.code) (by decide)
  have rest := settled.over answered (by simp) answerBytes_pages
  rw [vseq] at reads expected answered
  rw [vecon] at mode
  generalize answerAtOnce c .complete PumpState.pumped.code v = w at reads expected order mode answered rest ⊢
  rw [scanPages_settled rest]
  have whole : Frame ([.now, .summary, .seq c, .econ c, .rep c] ++ allLines)
      (answerBytes c (s.seq c).expected ++ [statusBytes c, reportBytes s.tables.partition c]) [.pump c, .order c, .report c] s
      w := by
    refine .trans (.setNow (by simp)) (.trans (entered.mono (fun p hp => ?_) (fun r hr => covered_of_mem ?_) (by simp))
      (.trans (entry.mono (by simp) (fun r hr => ?_) (by simp)) (answered.mono (by simp) (fun r hr => taken_covers hr) (by simp))))
    · rcases List.mem_cons.mp hp with rfl | hp
      · simp
      · exact List.mem_append_right _ hp
    · exact List.mem_append_right _ (List.mem_cons.mpr (.inl (List.mem_singleton.mp hr)))
    · exact noticeBytes_status (List.mem_append_right _ (by simp)) (List.mem_append_right _ (by simp)) hr
  have wecon : w.econ c = _ := (answered.parts (.econ c) (by simp)).trans vecon
  have wline : ∀ k, w.line k = _ := fun k => (answered.parts (.line k) (by simp)).trans (vline k)
  have wpump : w.flagSet (.pump c) = true := (answered.flags (.pump c) (by simp)).trans flag
  have wnext : (w.rep c).next = _ := (congrArg Rep.next (answered.parts (.rep c) (by simp))).trans next
  exact ⟨reads, expected, by simp [State.turboEconomy, wecon], by rw [wecon], by rw [wecon], mode, wline,
    ⟨wpump, order, whole.flags⟩, wnext, whole.stores⟩

end Sys2Proof.Machine
end

section
/-! The gap timer, and a request of the host that is acted on: ABORT as a run fault without a report (R29, R33, R38). -/

namespace Sys2Proof.Machine

variable {s s₀ u : State} {c : Chamber} {t : Moment} {cause : Code} {item pos rem : Nat}

/-! ### The gap timer (R29) -/

/-- The gap timer one lower. -/
def gapLower (c : Chamber) (s : State) : State := s.modSeq c fun q => { q with gap := q.gap - 1, gapMark := s.now }

theorem gapLower_seq : (gapLower c s).seq c = { s.seq c with gap := (s.seq c).gap - 1, gapMark := s.now } := by
  simp [gapLower, State.modSeq_eq]

theorem gapTick_running (hr : (s.seq c).run = .gap) (hm : (s.seq c).gapMark < s.now) (h : 1 < (s.seq c).gap) :
    gapTick c s = gapLower c s := by
  have hz : ((gapLower c s).seq c).gap ≠ 0 := by rw [gapLower_seq]; simp only; omega
  simp only [gapTick, hr, State.after, hm, decide_true, Bool.and_self, if_true]
  exact if_neg hz

theorem gapTick_last (hr : (s.seq c).run = .gap) (hm : (s.seq c).gapMark < s.now) (h : (s.seq c).gap ≤ 1) :
    gapTick c s = closeNow c .gapExpired 0 (gapLower c s) := by
  have hz : ((gapLower c s).seq c).gap = 0 := by rw [gapLower_seq]; simp only; omega
  simp only [gapTick, hr, State.after, hm, decide_true, Bool.and_self, if_true]
  exact if_pos hz

theorem gapTick_idle (h : (s.seq c).run ≠ .gap ∨ s.now ≤ (s.seq c).gapMark) : gapTick c s = s := by
  refine if_neg fun e => ?_
  obtain ⟨hr, hm⟩ := Bool.and_eq_true_iff.mp e
  exact h.elim (· (of_decide_eq_true hr)) (Nat.not_le.mpr (of_decide_eq_true hm))

/-- A chamber outside STEP has no line that an event reaches. -/
theorem reachedLines_none (h : (s.seq c).run ≠ .step) : reachedLines s c = [] :=
  List.eq_nil_iff_forall_not_mem.mpr fun p hp => by
    obtain ⟨k, rfl⟩ := reachedLines_lines p hp
    exact h (lineReaches_run (mem_reachedLines.mp hp).2)

/-! ### Requests that are acted on (R33) -/

/-- A new request's number taken and shown. -/
def requestTaken (c : Chamber) (s : State) : State :=
  showWord c .flags (s.modSeq c fun q => { q with lastRequest := memField s.mem (controlAddr c + 2) 2 })

/-- The result ACTED of a request, shown, with ORDER. -/
def requestActed (c : Chamber) (s : State) : State :=
  raise (.order c) (showWord c .outcome (s.modSeq c fun q => { q with requestResult := 1 }))

theorem hostRequest_acted (hn : ¬ noRequest s c) {n : Nat} (hk : memField s.mem (controlAddr c) 2 = n)
    (h : requestActs (s.seq c) n = true) : hostRequest c s = requestActed c (actRequest c n (requestTaken c s)) := by
  subst hk
  refine (if_neg hn).trans ?_
  simp only [h, if_true]
  rfl

theorem requestTaken_seq : (requestTaken c s).seq c =
    { s.seq c with lastRequest := memField s.mem (controlAddr c + 2) 2 } := by
  simp [requestTaken, showWord, State.modSeq_eq]

theorem Frame.requestTaken : Frame [.seq c] [(statusAddr c + 4, 4)] [] s (Machine.requestTaken c s) :=
  .trans .modSeq (.showWord (covered_of_mem (List.mem_singleton.mpr rfl)))

theorem requestActed_seq : (requestActed c s).seq c = { s.seq c with requestResult := 1 } := by
  simp [requestActed, showWord, State.modSeq_eq]

theorem requestActed_shown : memField (requestActed c s).mem (statusAddr c + 8) 2 = 1 := by
  have outcome := field_showWord (c := c) (w := .outcome) (s := s.modSeq c fun q => { q with requestResult := 1 }) (i := 0)
    (n := 2) (by decide)
  rw [show statusAddr c + StatusWord.outcome.offset + 0 = statusAddr c + 8 from rfl] at outcome
  rw [requestActed, raise_mem, outcome, statusValue, State.modSeq_eq, State.setSeq_seq_same, pack16]
  simp only
  omega

theorem requestActed_order : (requestActed c s).flagSet (.order c) = true := flagSet_raise_same

theorem Frame.requestActed :
    Frame [.summary, .seq c] [(statusAddr c + 8, 4)] [.order c] s (Machine.requestActed c s) :=
  .trans .modSeq (.trans (.showWord (covered_of_mem (List.mem_singleton.mpr rfl))) .raise)

/-- A close-out stands when the request that began it is answered. -/
theorem ClosesOut.requestActed (h : ClosesOut c cause item pos rem s₀ s) :
    ClosesOut c cause item pos rem s₀ (Machine.requestActed c s) := by
  have frame := Frame.requestActed (s := s) (c := c)
  have seq := requestActed_seq (s := s) (c := c)
  have rf : (Machine.requestActed c s).rf c = s.rf c := frame.parts (.rf c) (by simp)
  have press : (Machine.requestActed c s).press c = s.press c := frame.parts (.press c) (by simp)
  have flag : (Machine.requestActed c s).flagSet (.fault c) = s.flagSet (.fault c) := frame.flags _ (by simp)
  have hs := statusAddr_bounds c
  have hb := contextAddr_bounds c
  have field : ∀ a n, a + n ≤ 0x2000 → a + n ≤ statusAddr c + 8 ∨ statusAddr c + 12 ≤ a →
      memField (Machine.requestActed c s).mem a n = memField s.mem a n := fun a n hl ha => by
    refine frame.field (by simp only [Config.memorySize]; omega) ?_
    simp only [List.mem_cons, List.not_mem_nil, or_false, forall_eq, Config.memorySize]
    omega
  generalize Machine.requestActed c s = u at seq rf press flag field ⊢
  obtain ⟨c0, c1, c2, c3, c4⟩ := h.context
  exact
    { run := by rw [seq]; exact h.run
      stage := by rw [seq]; exact h.stage
      outcome := by rw [seq]; exact h.outcome
      item := by rw [seq]; exact h.item
      latch := by rw [seq]; exact h.latch
      restriction := by rw [seq]; exact h.restriction
      shown := (field _ _ (by omega) (by omega)).trans h.shown
      rf := rf ▸ h.rf
      pressure := press ▸ h.pressure
      context := ⟨(field _ 4 (by omega) (by omega)).trans c0, (field _ 2 (by omega) (by omega)).trans c1,
        (field _ 2 (by omega) (by omega)).trans c2, (field _ 2 (by omega) (by omega)).trans c3,
        (field _ 2 (by omega) (by omega)).trans c4⟩
      fault := fun e => flag.trans (h.fault e)
      noFault := fun e => flag.trans (h.noFault e) }

/-! ### ABORT (R38) -/

theorem abortRun_closes (h : (s.seq c).run = .step ∨ (s.seq c).run = .gap ∨ (s.seq c).run = .held) :
    abortRun c s = closeNow c .abortedHost 0 s := by
  unfold abortRun
  rcases h with h | h | h <;> rw [h]

theorem closePoint_lastRequest {q : Seq} {n : Nat} : Seq.closePoint { q with lastRequest := n } = q.closePoint := by
  unfold Seq.closePoint
  rfl

/-- What a close-out that reports no fault may change. -/
theorem Frame.closeNow_quiet (hw : notWaiting s c) (hc : cause.reportsFault = false) :
    Frame ([.seq c, .rf c, .press c] ++ reachedLines s c) [statusBytes c, contextBytes c] [] s
      (Machine.closeNow c cause item s) := by
  have reach := Frame.reachFaults (s := s) (c := c) (rs := []) (fs := [])
  have begins := Frame.closeBegin_quiet (fs := []) (item := item) (pos := (s.seq c).closePoint.1)
    (rem := (s.seq c).closePoint.2) (s := Machine.reachFaults c s)
    (by simpa only [notWaiting, reachFaults_waitQueue] using hw) hc
  refine .trans (reach.mono ?_ (by simp)) (begins.mono (by simp) ?_)
  · intro p hp
    simp only [List.mem_append, List.mem_cons, List.not_mem_nil, or_false] at hp ⊢
    tauto
  · simp only [List.mem_cons, List.not_mem_nil, or_false, forall_eq_or_imp, forall_eq]
    exact ⟨⟨statusBytes c, by simp, le_rfl, by simp [statusBytes]⟩, covered_of_mem (by simp)⟩

/-- Settles O22: the gap's last count and the host's ABORT begin close-out from the run state they meet. -/
theorem gapExpiryAndAbortBeginCloseOut : Obligations.GapExpiryAndAbortBeginCloseOut := by
  refine ⟨⟨?_, ?_, ?_⟩, ?_⟩
  · intro s t c h hr hg hm
    refine answers_atTap h (body := gapTick c) rfl ?_
    rw [gapTick_running (s := s.setNow t) hr hm hg]
    exact ⟨gapLower_seq, Frame.keeps (fs := []) (.trans .setNow .modSeq)⟩
  · intro s t c h hx
    refine answers_atTap h (body := gapTick c) rfl ?_
    rw [gapTick_idle (s := s.setNow t) hx]
    exact setNow_keeps
  · intro i s t c hi h hp hw hr hg hm
    have key : exec i s = .next (gapTick c (s.setNow t)) := by
      rcases hi with rfl | rfl
      · exact (atTap_of_eventAt h _).trans (congrArg _ (workIf_true (by simp [gapEnds, hr, hg, State.after, hm])))
      · exact atTap_of_eventAt h _
    refine ⟨_, key, ?_⟩
    rw [gapTick_last (s := s.setNow t) hr hm hg]
    have frame : Frame [.now, .seq c] [] [] s (gapLower c (s.setNow t)) := .trans .setNow .modSeq
    have seq := gapLower_seq (s := s.setNow t) (c := c)
    have run : ((gapLower c (s.setNow t)).seq c).run = .gap := by rw [seq]; exact hr
    have faults : ((gapLower c (s.setNow t)).seq c).run.faults = true := by rw [run]; rfl
    rw [← deliverFault_faults faults]
    obtain ⟨h1, h2, h3⟩ := deliverFault_closes (cause := .gapExpired) (item := 0) frame (by simp [closeParts]) (by simp)
      (by simp) (.of_frame frame (by rw [seq]; rfl) (by rw [seq]; rfl) (by simp)) faults hw hp rfl
    have point : ((gapLower c (s.setNow t)).seq c).closePoint = ((s.seq c).seg.count, 0) := by
      rw [seq]; simp [Seq.closePoint, hr]
    rw [point] at h1
    rw [reachedLines_none (by rw [run]; decide), List.append_nil] at h3
    exact ⟨h1, h2, h3.flags, h3.parts, h3.bytes⟩
  · intro s t c h hn hk hr hw hp hrest
    refine answers_atTap h (body := slotScan c) rfl ?_
    have acts : requestActs (s.seq c) 5 = true := by
      rcases hr with hr | hr | hr <;> simp [requestActs, hr]
    rw [slotScan, hostRequest_acted (s := s.setNow t) hn hk acts]
    have taken : Frame [.now, .seq c] [(statusAddr c + 4, 4)] [] s (requestTaken c (s.setNow t)) :=
      .trans .setNow (Frame.requestTaken.mono (by simp) fun _ hr => covered_of_mem hr)
    have seq : (requestTaken c (s.setNow t)).seq c = _ := requestTaken_seq
    have hps : [Part.now, .seq c] ⊆ closeParts c := by simp [closeParts]
    have now : (requestTaken c (s.setNow t)).now = t := (Frame.requestTaken (s := s.setNow t)).parts .now (by simp)
    have starts : StartsFrom c s (requestTaken c (s.setNow t)) :=
      .of_frame taken (by rw [seq]; rfl) (by rw [seq]; rfl) (by simp)
    have reached := reachedLines_of_frame (t := t) taken hps now (by rw [seq]; exact ⟨rfl, rfl⟩)
    have waits : notWaiting (requestTaken c (s.setNow t)) c := by
      simpa only [notWaiting, show (requestTaken c (s.setNow t)).waitQueue = s.waitQueue from
        taken.parts .waitQueue (by simp)] using hw
    have acted : actRequest c 5 (requestTaken c (s.setNow t)) =
        closeNow c .abortedHost 0 (requestTaken c (s.setNow t)) := abortRun_closes (by rw [seq]; exact hr)
    have point : ((requestTaken c (s.setNow t)).seq c).closePoint = (s.seq c).closePoint := by
      rw [seq]; exact closePoint_lastRequest
    rw [acted]
    clear acted acts
    generalize requestTaken c (s.setNow t) = v at taken seq starts reached waits point ⊢
    have closes : ClosesOut c .abortedHost 0 _ _ s (closeNow c .abortedHost 0 v) :=
      closeNow_closesOut starts waits fun e => absurd e (by decide)
    have closing := Frame.closeNow_quiet (cause := .abortedHost) (item := 0) waits rfl
    have closed : (closeNow c .abortedHost 0 v).seq c =
        (v.seq c).closing .abortedHost 0 (restrictionNow (reachFaults c v) c) (reachFaults c v).now := by
      rw [closeNow, closeBegin_seq (by simpa only [notWaiting, reachFaults_waitQueue] using waits), reachFaults_seq]
    rw [point] at closes
    rw [reached] at closing
    generalize closeNow c .abortedHost 0 v = w at closes closing closed ⊢
    have result := requestActed_seq (s := w) (c := c)
    have shown := requestActed_shown (s := w) (c := c)
    have order := requestActed_order (s := w) (c := c)
    have whole : Frame ([.now, .summary, .seq c, .rf c, .press c] ++ reachedLines (s.setNow t) c)
        [statusBytes c, contextBytes c] [.order c] s (requestActed c w) := by
      have status : ∀ a n, statusAddr c ≤ a → a + n ≤ statusAddr c + 128 →
          covered [statusBytes c, contextBytes c] (a, n) := fun a n h1 h2 => ⟨statusBytes c, by simp, h1, h2⟩
      refine .trans (taken.mono ?_ ?_) (.trans (closing.mono ?_ (fun _ hr => covered_of_mem hr))
        (Frame.requestActed.mono ?_ ?_))
      · simp
      · simpa using status _ _ (by omega) (by omega)
      · intro p hp
        simp only [List.mem_append, List.mem_cons, List.not_mem_nil, or_false] at hp ⊢
        tauto
      · simp
      · simpa using status _ _ (by omega) (by omega)
    have done := closes.requestActed
    generalize requestActed c w = u at result shown order whole done ⊢
    have notNow : ¬ posted u c := by
      refine not_posted_of hp (by rw [result, closed, seq]; rfl) (by rw [result, closed, seq]; rfl)
        (by rw [result, closed, seq]; rfl) fun i => ?_
      have hi := slotAddr_top c i
      have hs := statusAddr_bounds c
      have hb := contextAddr_bounds c
      refine whole.word (by simp only [Config.memorySize]; omega) ?_
      simp only [List.mem_cons, List.not_mem_nil, or_false, forall_eq_or_imp, forall_eq, Config.memorySize, statusBytes,
        contextBytes]
      omega
    have rest : pagesAtRest u c := hrest.of_rep (whole.parts (.rep c) (by
      simp only [List.mem_append, not_or]
      exact ⟨by simp, line_not_reached reachedLines_lines (by simp)⟩))
    rw [examineSlot_none notNow, scanPages_rest rest]
    exact ⟨done, by rw [result], shown, order, whole.flags, whole.parts, whole.bytes⟩

end Sys2Proof.Machine
end

section
/-! The entry into HELD, and HOLD_NOW at a running step (R34, R36). -/

namespace Sys2Proof.Machine

variable {s : State} {c : Chamber} {k : LineId} {pos rem : Nat}

/-! ### The chamber at rest in HELD -/

/-- The held position and its remaining count. -/
def heldPoint (c : Chamber) (pos rem : Nat) (s : State) : State :=
  s.modSeq c fun q => { q with pos := pos, stepIdx := q.seg.first + pos, saved := rem }

/-- RF off, the lines closed, the throttle open, and the latch and the context record written (R34, R36, R40). -/
def heldContext (c : Chamber) (pos rem : Nat) (s : State) : State :=
  writeContext c .hold pos rem (clearLatch c (gasOff c (rfOff c (heldPoint c pos rem s))))

theorem enterHeld_eq : enterHeld c pos rem s = setRun c .held
    (produce c { kind := .held, rfOn := ((heldContext c pos rem s).seq c).rfTotal } (heldContext c pos rem s)) := rfl

theorem Frame.heldContext (h : ownsNoLine s c) :
    Frame ([.seq c, .rf c, .press c] ++ allLines) [(statusAddr c + 4, 4), contextBytes c] [] s
      (Machine.heldContext c pos rem s) := by
  have gas := Frame.gasOff (rs := []) (fs := []) (s := rfOff c (Machine.heldPoint c pos rem s)) (c := c) h
  refine .trans (Frame.modSeq (by simp)) (.trans (Frame.modRf (by simp)) (.trans (gas.mono ?_ (by simp)) (.trans
    (.clearLatch (by simp) (covered_of_mem (by simp))) .writeContext)))
  exact subset_lines (as := [.press c]) (by simp)

theorem writeContext_parts {cause : Code} : changesOnly [] s (writeContext c cause pos rem s) :=
  (Frame.writeContext (rs := [contextBytes c]) (fs := [])).parts

theorem heldContext_seq (h : ownsNoLine s c) : (heldContext c pos rem s).seq c =
    { s.seq c with pos := pos, stepIdx := (s.seq c).seg.first + pos, saved := rem, latch := false } := by
  have kept : (gasOff c (rfOff c (heldPoint c pos rem s))).seq c = (heldPoint c pos rem s).seq c :=
    gasOff_same (p := .seq c) h (by simp) (by simp)
  rw [heldContext, writeContext_parts (.seq c) (by simp), clearLatch_seq, kept, heldPoint, State.modSeq_eq,
    State.setSeq_seq_same]

theorem clearLatch_rest {p : Part} (h : p ≠ .seq c) : p.same s (clearLatch c s) :=
  (Frame.clearLatch (rs := [(statusAddr c + 4, 4)]) (fs := []) (ps := [.seq c]) (by simp) (covered_of_mem (by simp))).parts
    p (by simpa using h)

theorem heldContext_rf (h : ownsNoLine s c) :
    (heldContext c pos rem s).rf c = (s.rf c).released .off s.now := by
  have latched : (clearLatch c (gasOff c (rfOff c (heldPoint c pos rem s)))).rf c = _ :=
    clearLatch_rest (p := .rf c) (by simp)
  have kept : (gasOff c (rfOff c (heldPoint c pos rem s))).rf c = (rfOff c (heldPoint c pos rem s)).rf c :=
    gasOff_same (p := .rf c) h (by simp) (by simp)
  rw [heldContext, writeContext_parts (.rf c) (by simp), latched, kept, rfOff, State.modRf_eq, State.setRf_rf_same]
  rfl

theorem heldContext_press : ((heldContext c pos rem s).press c).target = 0 ∧
    ((heldContext c pos rem s).press c).throttleOpen = true ∧ ((heldContext c pos rem s).press c).evaluating = false := by
  have latched : (clearLatch c (gasOff c (rfOff c (heldPoint c pos rem s)))).press c = _ :=
    clearLatch_rest (p := .press c) (by simp)
  obtain ⟨h1, -, h3, h4⟩ := gasOff_press (s := rfOff c (heldPoint c pos rem s)) (c := c)
  rw [heldContext, writeContext_parts (.press c) (by simp), latched]
  exact ⟨h1, h3, h4⟩

theorem heldContext_line (h : ownsNoLine s c) : (heldContext c pos rem s).line k =
    if (s.line k).openTo = some c then (s.line k).shut else s.line k := by
  have latched : (clearLatch c (gasOff c (rfOff c (heldPoint c pos rem s)))).line k = _ :=
    clearLatch_rest (p := .line k) (by simp)
  rw [heldContext, writeContext_parts (.line k) (by simp), latched]
  exact gasOff_line (s := rfOff c (heldPoint c pos rem s)) h k

theorem heldContext_shown : memField (heldContext c pos rem s).mem (contextAddr c + 8) 2 = pos % 65536 ∧
    memField (heldContext c pos rem s).mem (contextAddr c + 12) 2 = rem % 65536 ∧
    memField (heldContext c pos rem s).mem (contextAddr c + 14) 2 = 48 := by
  obtain ⟨-, h1, -, h3, h4⟩ := writeContext_reads (c := c) (cause := .hold) (pos := pos) (rem := rem)
    (s := clearLatch c (gasOff c (rfOff c (heldPoint c pos rem s))))
  exact ⟨h1, h3, h4⟩

/-! ### The entry HELD -/

/-- What the entry into HELD leaves, of a chamber whose pages are at rest. -/
structure Held (c : Chamber) (pos rem : Nat) (s u : State) : Prop where
  seq : u.seq c =
    { s.seq c with pos := pos, stepIdx := (s.seq c).seg.first + pos, saved := rem, latch := false, run := .held }
  rf : u.rf c = (s.rf c).released .off s.now
  press : (u.press c).target = 0 ∧ (u.press c).throttleOpen = true ∧ (u.press c).evaluating = false
  line : ∀ k, u.line k = if (s.line k).openTo = some c then (s.line k).shut else s.line k
  context : memField u.mem (contextAddr c + 8) 2 = pos % 65536 ∧ memField u.mem (contextAddr c + 12) 2 = rem % 65536 ∧
    memField u.mem (contextAddr c + 14) 2 = 48
  shown : memField u.mem (statusAddr c) 1 = RunState.held.code
  next : (u.rep c).next = ((s.rep c).next + 1) % 65536
  settled : scanSettled u c
  frame : Frame ([.summary, .seq c, .rf c, .press c, .rep c] ++ allLines) (closeBytes s c) [.report c] s u

theorem enterHeld_holds (hp : PagesFit s) (ho : ownsNoLine s c) (hr : pagesAtRest s c) :
    Held c pos rem s (enterHeld c pos rem s) := by
  rw [enterHeld_eq]
  have before := Frame.heldContext (pos := pos) (rem := rem) ho
  have seq := heldContext_seq (pos := pos) (rem := rem) ho
  have rf := heldContext_rf (pos := pos) (rem := rem) ho
  have press := heldContext_press (s := s) (c := c) (pos := pos) (rem := rem)
  have line := fun k => heldContext_line (k := k) (pos := pos) (rem := rem) ho
  have context := heldContext_shown (s := s) (c := c) (pos := pos) (rem := rem)
  generalize heldContext c pos rem s = v at before seq rf press line context ⊢
  have notLine : ∀ {p : Part}, (∀ k, p ≠ .line k) → p ∉ allLines := fun h hp => by
    obtain ⟨k, -, e⟩ := List.mem_map.mp hp
    exact h k e.symm
  have part : ∀ p, p ∉ [Part.seq c, .rf c, .press c] → (∀ k, p ≠ .line k) → p.same s v := fun p h1 h2 =>
    before.parts p fun h => (List.mem_append.mp h).elim h1 (notLine h2)
  have tables : v.tables = s.tables := part .tables (by simp) (by simp)
  have rep : ∀ d, v.rep d = s.rep d := fun d => part (.rep d) (by simp) (by simp)
  have fit : PagesFit v := pagesFit_congr tables rep hp
  have entered := Frame.produce_notice (c := c) (e := { kind := .held, rfOn := (v.seq c).rfTotal }) fit
  rw [tables] at entered
  have settled := produce_settled (c := c) (e := { kind := .held, rfOn := (v.seq c).rfTotal }) (hr.of_rep (rep c))
  have seqP := produce_seq (c := c) (d := c) (e := { kind := .held, rfOn := (v.seq c).rfTotal }) (s := v)
  have nextP := produce_next (c := c) (e := { kind := .held, rfOn := (v.seq c).rfTotal }) (s := v)
  have rfP := produce_rf (c := c) (d := c) (e := { kind := .held, rfOn := (v.seq c).rfTotal }) (s := v)
  have pressP := produce_press (c := c) (d := c) (e := { kind := .held, rfOn := (v.seq c).rfTotal }) (s := v)
  have lineP := fun k => produce_line (c := c) (k := k) (e := { kind := .held, rfOn := (v.seq c).rfTotal }) (s := v)
  generalize produce c { kind := .held, rfOn := (v.seq c).rfTotal } v = w at *
  have ran : Frame [.seq c] [(statusAddr c, 4)] [] w (setRun c .held w) :=
    .setRun (by simp) (covered_of_mem (by simp [StatusWord.offset]))
  have hs := statusAddr_bounds c
  have hb := contextAddr_bounds c
  have field : ∀ a n, 0xC00 ≤ a → a + n ≤ 0xD00 → statusAddr c + 60 ≤ a →
      memField (setRun c .held w).mem a n = memField v.mem a n := fun a n h1 h2 h3 => by
    refine (ran.field (by simp only [Config.memorySize]; omega) ?_).trans
      (entered.field (by simp only [Config.memorySize]; omega) (noticeBytes_apart ⟨hp.1, hp.2.1⟩ (by omega)))
    simp only [List.mem_cons, List.not_mem_nil, or_false, forall_eq, Config.memorySize]
    omega
  have seqR : (setRun c .held w).seq c = { w.seq c with run := .held } := by
    simp [setRun, State.modSeq_eq]
  refine ⟨?_, ?_, ?_, fun k => ?_, ?_, setRun_shown, ?_, ?_, ?_⟩
  · rw [seqR, seqP, seq]
  · exact (ran.parts (.rf c) (by simp)).trans (rfP.trans rf)
  · rw [show (setRun c .held w).press c = w.press c from ran.parts (.press c) (by simp), pressP]
    exact press
  · exact (ran.parts (.line k) (by simp)).trans ((lineP k).trans (line k))
  · exact ⟨(field _ 2 (by omega) (by omega) (by omega)).trans context.1,
      (field _ 2 (by omega) (by omega) (by omega)).trans context.2.1,
      (field _ 2 (by omega) (by omega) (by omega)).trans context.2.2⟩
  · rw [show (setRun c .held w).rep c = w.rep c from ran.parts (.rep c) (by simp), nextP, rep]
  · refine settled.over ran (by simp) ?_
    simp only [List.mem_cons, List.not_mem_nil, or_false, forall_eq, Config.memorySize]
    omega
  · refine .trans (before.mono ?_ ?_) (.trans (entered.mono ?_ noticeBytes_closeBytes)
      (ran.mono (by simp) ?_))
    · exact subset_lines (by simp)
    · simp only [List.mem_cons, List.not_mem_nil, or_false, forall_eq_or_imp, forall_eq]
      exact ⟨closeBytes_status (by omega) (by omega), closeBytes_context s c⟩
    · simp
    · simpa using closeBytes_status (s := s) (c := c) le_rfl (by omega)

/-! ### HOLD_NOW (R34) -/

theorem holdNow_step (h : (s.seq c).run = .step) :
    holdNow c s = enterHeld c (s.seq c).pos (s.seq c).timer (dropRfDues c s) := if_pos h

theorem requestTaken_dues : (dropRfDues c (requestTaken c s)).seq c =
    { s.seq c with lastRequest := memField s.mem (controlAddr c + 2) 2 } :=
  Eq.trans (by rw [dropRfDues, State.modRf_eq]; rfl) requestTaken_seq

theorem Frame.requestHeld {s : State} {t : Moment} {c : Chamber} :
    Frame [.now, .seq c, .rf c] [(statusAddr c + 4, 4)] [] s (dropRfDues c (Machine.requestTaken c (s.setNow t))) :=
  .trans .setNow (.trans (Frame.requestTaken.mono (by simp) fun _ hr => covered_of_mem hr) .modRf)

/-- A request that acts by HOLD_NOW at a running step. -/
theorem hostRequest_holds (hn : ¬ noRequest s c) (hk : memField s.mem (controlAddr c) 2 = 1) (hr : (s.seq c).run = .step) :
    hostRequest c s = requestActed c (enterHeld c (s.seq c).pos (s.seq c).timer (dropRfDues c (requestTaken c s))) := by
  have acts : requestActs (s.seq c) 1 = true := by simp [requestActs, hr]
  rw [hostRequest_acted hn hk acts]
  have run : ((requestTaken c s).seq c).run = .step := by rw [requestTaken_seq]; exact hr
  refine congrArg _ ((holdNow_step run).trans ?_)
  rw [requestTaken_seq]

/-- HELD over the taking of its request, answered. -/
structure HeldActed (c : Chamber) (s u : State) : Prop where
  seq : u.seq c =
    { s.seq c with
      stepIdx := (s.seq c).seg.first + (s.seq c).pos, saved := (s.seq c).timer, latch := false, run := .held
      lastRequest := memField s.mem (controlAddr c + 2) 2, requestResult := 1 }
  rf : (u.rf c).phase = .off ∧ (u.rf c).output = 0
  press : (u.press c).target = 0 ∧ (u.press c).throttleOpen = true ∧ (u.press c).evaluating = false
  line : ∀ k, u.line k = if (s.line k).openTo = some c then (s.line k).shut else s.line k
  context : memField u.mem (contextAddr c + 8) 2 = (s.seq c).pos % 65536 ∧
    memField u.mem (contextAddr c + 12) 2 = (s.seq c).timer % 65536 ∧ memField u.mem (contextAddr c + 14) 2 = 48
  shown : memField u.mem (statusAddr c) 1 = RunState.held.code ∧ memField u.mem (statusAddr c + 8) 2 = 1
  next : (u.rep c).next = ((s.rep c).next + 1) % 65536
  order : u.flagSet (.order c) = true
  settled : scanSettled u c
  frame : Frame ([.now, .summary, .seq c, .rf c, .press c, .rep c] ++ allLines) (closeBytes s c) [.order c, .report c] s u

theorem Held.acted {v w : State} (held : Held c (s.seq c).pos (s.seq c).timer v w)
    (taken : Frame [.now, .seq c, .rf c] [(statusAddr c + 4, 4)] [] s v)
    (seq : v.seq c = { s.seq c with lastRequest := memField s.mem (controlAddr c + 2) 2 }) :
    HeldActed c s (requestActed c w) := by
  have answer := Frame.requestActed (s := w) (c := c)
  have result := requestActed_seq (s := w) (c := c)
  have shown := requestActed_shown (s := w) (c := c)
  have order := requestActed_order (s := w) (c := c)
  generalize requestActed c w = u at answer result shown order ⊢
  have tables : v.tables = s.tables := taken.parts .tables (by simp)
  have rep : v.rep c = s.rep c := taken.parts (.rep c) (by simp)
  have lines : ∀ k, v.line k = s.line k := fun k => taken.parts (.line k) (by simp)
  have hb : closeBytes v c = closeBytes s c := by simp only [closeBytes, tables]
  have hs := statusAddr_bounds c
  have hc := contextAddr_bounds c
  have field : ∀ a n, a + n ≤ 0x2000 → a + n ≤ statusAddr c + 8 ∨ statusAddr c + 12 ≤ a →
      memField u.mem a n = memField w.mem a n := fun a n h1 h2 => by
    refine answer.field (by simp only [Config.memorySize]; omega) ?_
    simp only [List.mem_cons, List.not_mem_nil, or_false, forall_eq, Config.memorySize]
    omega
  have rf : u.rf c = _ := (answer.parts (.rf c) (by simp)).trans held.rf
  have press : u.press c = w.press c := answer.parts (.press c) (by simp)
  refine ⟨?_, ?_, press ▸ held.press, fun k => ?_, ⟨?_, ?_, ?_⟩, ⟨?_, shown⟩, ?_, order, ?_, ?_⟩
  · rw [result, held.seq, seq]
  · rw [rf]; exact ⟨rfl, rfl⟩
  · rw [show u.line k = w.line k from answer.parts (.line k) (by simp), held.line, lines]
  · exact (field _ 2 (by omega) (by omega)).trans held.context.1
  · exact (field _ 2 (by omega) (by omega)).trans held.context.2.1
  · exact (field _ 2 (by omega) (by omega)).trans held.context.2.2
  · exact (field _ 1 (by omega) (by omega)).trans held.shown
  · rw [show u.rep c = w.rep c from answer.parts (.rep c) (by simp), held.next, rep]
  · refine held.settled.over answer (by simp) ?_
    simp only [List.mem_cons, List.not_mem_nil, or_false, forall_eq, Config.memorySize]
    omega
  · have frame := held.frame
    rw [hb] at frame
    refine .trans (taken.mono ?_ ?_) (.trans (frame.mono ?_ (fun _ hr => covered_of_mem hr) (by simp))
      (answer.mono ?_ ?_ (by simp)))
    · simp
    · simpa using closeBytes_status (s := s) (c := c) (by omega) (by omega)
    · exact subset_lines (by simp)
    · simp
    · simpa using closeBytes_status (s := s) (c := c) (by omega) (by omega)

/-- Settles O21: the request is taken, the run enters HELD at its position, and the result is shown. -/
theorem holdNowFreezesTheStep : Obligations.HoldNowFreezesTheStep := by
  intro s t c h hp hn hk hr hpost hrest ho
  refine answers_atTap h (body := slotScan c) rfl ?_
  rw [slotScan, hostRequest_holds (s := s.setNow t) hn hk hr]
  have taken : Frame [.now, .seq c, .rf c] [(statusAddr c + 4, 4)] [] s _ := Frame.requestHeld (t := t)
  have seq : _ = { s.seq c with lastRequest := memField s.mem (controlAddr c + 2) 2 } :=
    requestTaken_dues (s := s.setNow t) (c := c)
  generalize dropRfDues c (requestTaken c (s.setNow t)) = v at taken seq ⊢
  have owns : ownsNoLine v c := fun k => by
    rw [show v.arb k = s.arb k from taken.parts (.arb k) (by simp)]
    exact ho k
  have rep : ∀ d, v.rep d = s.rep d := fun d => taken.parts (.rep d) (by simp)
  have held : Held c (s.seq c).pos (s.seq c).timer v (enterHeld c (s.seq c).pos (s.seq c).timer v) :=
    enterHeld_holds (pagesFit_congr (taken.parts .tables (by simp)) rep hp) owns (hrest.of_rep (rep c))
  have done := held.acted taken seq
  have same : (s.setNow t).seq c = s.seq c := rfl
  rw [same]
  generalize requestActed c (enterHeld c (s.seq c).pos (s.seq c).timer v) = u at done ⊢
  obtain ⟨result, rf, press, line, context, shown, next, order, settled, whole⟩ := done
  have words : ∀ i, u.word (slotAddr c i) = s.word (slotAddr c i) := fun i => by
    have hi := slotAddr_top c i
    have hs := statusAddr_bounds c
    have hc := contextAddr_bounds c
    have hrep := reportAddr_bounds (c := c) (n := s.tables.partition) (by have := hp.2.1; omega)
    refine whole.word (by simp only [Config.memorySize]; omega) ?_
    simp only [closeBytes, List.mem_cons, List.not_mem_nil, or_false, forall_eq_or_imp, forall_eq, Config.memorySize,
      statusBytes, contextBytes, reportBytes]
    omega
  have notNow : ¬ posted u c :=
    not_posted_of hpost (by rw [result]) (by rw [result]) (by rw [result]) words
  rw [examineSlot_none notNow, scanPages_settled settled]
  refine ⟨?_, ⟨rf.1, rf.2, by simp [State.rfEnable, rf.1]⟩, press, line, context, shown, next, order, whole.flags,
    whole.parts, whole.bytes⟩
  rw [result]
  exact ⟨rfl, rfl, rfl, rfl, rfl, rfl, rfl⟩

end Sys2Proof.Machine
end

section
/-! The fourth and fifth stages of a step start: setpoints handed on, and the step timer loaded (R51, R52, R68, R98). -/

namespace Sys2Proof.Machine

variable {s u : State} {c : Chamber} {k : LineId} {r : StepRec} {e : LineId × Nat}

/-! ### The lines a record names (R46) -/

theorem noRepeats_nodup {l : List Nat} (h : noRepeats l = true) : l.Nodup := by
  induction l with
  | nil => exact List.nodup_nil
  | cons a rest ih =>
    obtain ⟨h1, h2⟩ := Bool.and_eq_true_iff.mp h
    exact List.nodup_cons.mpr ⟨by simpa using h1, ih h2⟩

theorem lineIndex?_eq_some {n : Nat} : lineIndex? n = some k ↔ n = k.val + 1 := by
  have := k.isLt
  unfold lineIndex?
  split
  · rw [Option.some.injEq, Fin.ext_iff]
    simp only
    omega
  · simp only [reduceCtorEq, false_iff]
    omega

/-- The lines of the gas entries in use, as the record's bytes name them. -/
theorem namedLines_eq (l : List (Nat × Nat)) :
    (l.filterMap fun g => (lineIndex? g.1).map fun k => (k, g.2)).map Prod.fst =
      ((l.map Prod.fst).filter (· != 0)).filterMap lineIndex? := by
  induction l with
  | nil => rfl
  | cons g rest ih =>
    by_cases hz : g.1 = 0
    · have none : lineIndex? g.1 = none := by rw [hz]; rfl
      rw [List.filterMap_cons_none (by rw [none]; rfl), ih, List.map_cons,
        List.filter_cons_of_neg (by simp [hz])]
    · rw [List.map_cons, List.filter_cons_of_pos (by simpa using hz)]
      cases hi : lineIndex? g.1 with
      | none => rw [List.filterMap_cons_none (by rw [hi]; rfl), List.filterMap_cons_none hi, ih]
      | some k =>
        rw [List.filterMap_cons_some (b := (k, g.2)) (by rw [hi]; rfl), List.filterMap_cons_some hi, List.map_cons, ih]

/-- A record that passes its tests names no line twice (R46). -/
theorem stepOk_lines {tab : Tables} {first idx : Nat} (h : stepOk tab c first idx r = true) (hl : r.isLoop = false) :
    (r.entries.map Prod.fst).Nodup := by
  unfold StepRec.entries
  split
  next hk =>
    have named : gasLinesOk tab c r = true := by
      unfold stepOk at h
      rw [hl, hk] at h
      simp only [Bool.false_eq_true, if_false, if_true, Bool.and_eq_true] at h
      exact h.1.1.1.2
    rw [namedLines_eq]
    exact (noRepeats_nodup (Bool.and_eq_true_iff.mp named).1).filterMap fun a b k ha hb =>
      (lineIndex?_eq_some.mp ha).trans (lineIndex?_eq_some.mp hb).symm
  next => exact List.nodup_nil

theorem names_iff : r.names k = true ↔ ∃ e ∈ r.entries, e.1 = k := by
  simp [StepRec.names]

/-! ### Setpoints handed on (R51) -/

theorem handLine_line_ne (h : k ≠ e.1) : (handLine c r e s).line k = s.line k := by
  unfold handLine
  split
  · rfl
  · rw [State.modLine_eq, State.setLine_line_ne _ _ _ _ h]

theorem handLine_line (h : s.gasInhibit c = false) : (handLine c r e s).line e.1 =
    (s.line e.1).handed c (s.lineCfg e.1) e.2 r.flowRamp (if r.exitsStable then some r.dwell else none) s.now := by
  rw [handLine, h, if_neg (by decide), State.modLine_eq, State.setLine_line_same]

theorem Frame.handLine {ps : List Part} {rs : List Bytes} {fs : List EventFlag} (hp : .line e.1 ∈ ps) :
    Frame ps rs fs s (Machine.handLine c r e s) :=
  .ite (fun _ => .refl _) fun _ => .setLine hp

theorem Frame.handLines {l : List (LineId × Nat)} {rs : List Bytes} {fs : List EventFlag} :
    Frame allLines rs fs s (l.foldl (fun s e => Machine.handLine c r e s) s) :=
  .foldl (fun _ _ => .handLine mem_allLines) _ _

theorem handLines_other {l : List (LineId × Nat)} (h : ∀ e ∈ l, e.1 ≠ k) :
    (l.foldl (fun s e => handLine c r e s) s).line k = s.line k := by
  induction l generalizing s with
  | nil => rfl
  | cons a rest ih =>
    rw [List.foldl_cons, ih fun e he => h e (List.mem_cons_of_mem _ he),
      handLine_line_ne (h a (List.mem_cons_self ..)).symm]

/-- Each line of a list that names none twice takes its own setpoint. -/
theorem handLines_line {l : List (LineId × Nat)} (hl : (l.map Prod.fst).Nodup) (hg : s.gasInhibit c = false) (he : e ∈ l) :
    (l.foldl (fun s e => handLine c r e s) s).line e.1 =
      (s.line e.1).handed c (s.lineCfg e.1) e.2 r.flowRamp (if r.exitsStable then some r.dwell else none) s.now := by
  induction l generalizing s with
  | nil => cases he
  | cons a rest ih =>
    rw [List.map_cons, List.nodup_cons] at hl
    rw [List.foldl_cons]
    have frame : Frame [.line a.1] [] [] s (handLine c r a s) := .handLine (List.mem_singleton.mpr rfl)
    rcases List.mem_cons.mp he with rfl | he
    · rw [handLines_other fun d hd ed => hl.1 (List.mem_map.mpr ⟨d, hd, ed⟩), handLine_line hg]
    · have apart : e.1 ≠ a.1 := fun ea => hl.1 (ea ▸ List.mem_map_of_mem he)
      have cfg : (handLine c r a s).lineCfg e.1 = s.lineCfg e.1 := by
        simp only [State.lineCfg, show (handLine c r a s).tables = s.tables from frame.parts .tables (by simp)]
      rw [ih hl.2 ((frame.parts (.gasInhibit c) (by simp)).trans hg) he, handLine_line_ne apart, cfg,
        show (handLine c r a s).now = s.now from frame.parts .now (by simp)]

/-- The lines handed the current step's setpoints. -/
def stepHanded (c : Chamber) (s : State) : State :=
  (s.seq c).step.entries.foldl (fun t e => handLine c (s.seq c).step e t) s

theorem handSetpoints_eq : handSetpoints c s =
    handRf c (s.seq c).step (handPressure c (s.seq c).step (stepHanded c s)) := rfl

theorem Frame.stepHanded {rs : List Bytes} {fs : List EventFlag} : Frame allLines rs fs s (Machine.stepHanded c s) :=
  .handLines

theorem Frame.handSetpoints {ps : List Part} {rs : List Bytes} {fs : List EventFlag} (h1 : .rf c ∈ ps) (h2 : .press c ∈ ps)
    (h3 : allLines ⊆ ps) : Frame ps rs fs s (Machine.handSetpoints c s) :=
  have lines : Frame ps rs fs s (Machine.stepHanded c s) :=
    (Frame.stepHanded (rs := rs) (fs := fs)).mono h3 (fun _ hr => covered_of_mem hr) fun _ hf => hf
  have press : Frame ps rs fs (Machine.stepHanded c s) (handPressure c (s.seq c).step (Machine.stepHanded c s)) := by
    unfold handPressure
    exact .modPress h2
  have rf : Frame ps rs fs (handPressure c (s.seq c).step (Machine.stepHanded c s)) (Machine.handSetpoints c s) := by
    rw [handSetpoints_eq]
    exact .modRf h1
  .trans lines (.trans press rf)

theorem handSetpoints_line : (handSetpoints c s).line k = (stepHanded c s).line k := by
  rw [handSetpoints_eq, handRf, handPressure, State.modRf_eq, State.modPress_eq]
  rfl

theorem handPressure_drives :
    ((handPressure c r s).press c).target = (if r.isPumpOut then 0 else r.target) ∧
    ((handPressure c r s).press c).throttleOpen = decide (((handPressure c r s).press c).target = 0) ∧
    ((handPressure c r s).press c).evaluating = decide (((handPressure c r s).press c).target ≠ 0) := by
  rw [handPressure, State.modPress_eq, State.setPress_press_same]
  generalize (if r.isPumpOut = true then 0 else r.target) = target
  simp only
  split
  next h => simp [Press.driven, h]
  next h => simp [Press.driven, h]

theorem handSetpoints_press : ((handSetpoints c s).press c).target =
      (if (s.seq c).step.isPumpOut then 0 else (s.seq c).step.target) ∧
    ((handSetpoints c s).press c).throttleOpen = decide (((handSetpoints c s).press c).target = 0) ∧
    ((handSetpoints c s).press c).evaluating = decide (((handSetpoints c s).press c).target ≠ 0) := by
  have same : (handSetpoints c s).press c = (handPressure c (s.seq c).step (stepHanded c s)).press c := by
    rw [handSetpoints_eq, handRf, State.modRf_eq]
    rfl
  rw [same]
  exact handPressure_drives

theorem handSetpoints_rf (h : (s.seq c).step.isPlasma = false) :
    ((handSetpoints c s).rf c).phase = .off ∧ ((handSetpoints c s).rf c).output = 0 := by
  rw [handSetpoints_eq, handRf, State.modRf_eq, State.setRf_rf_same, h]
  exact ⟨rfl, rfl⟩

/-! ### The timer loaded (R52) -/

/-- A sequencer whose step timer is loaded and whose exit machinery starts afresh. -/
def Seq.loaded (q : Seq) (lossTime : Nat) (now : Moment) : Seq :=
  { q with
    timer := if q.saved ≠ 0 then q.saved else q.step.duration
    timerMark := now
    saved := 0
    elapsed := 0
    elapsedMark := now
    endpointCount := 0
    pulse := if q.step.onExt then lossTime else q.pulse
    pulseMark := now
    run := .step }

theorem loadTimer_seq : (loadTimer c s).seq c = (s.seq c).loaded (s.chamberCfg c).pulseLossTime s.now := by
  simp [loadTimer, setRun, State.modSeq_eq, Seq.loaded]

/-- The words of the status block that a step start writes at its fifth stage. -/
def loadBytes (c : Chamber) : List Bytes := [(statusAddr c, 4), (statusAddr c + 16, 8)]

theorem Frame.loadTimer : Frame [.seq c] (loadBytes c) [] s (Machine.loadTimer c s) := by
  have cov : ∀ n, n = 16 ∨ n = 20 → covered (loadBytes c) ((statusAddr c + n, 4) : Bytes) := fun n hn =>
    ⟨(statusAddr c + 16, 8), by simp [loadBytes], by simp only; omega, by simp only; omega⟩
  exact .trans .modSeq (.trans (.setRun (by simp) (covered_of_mem (by simp [loadBytes, StatusWord.offset])))
    (.trans (.showWord (cov 16 (.inl rfl))) (.showWord (cov 20 (.inr rfl)))))

/-- The run, the step's index and its timer as the status block shows them. -/
theorem loadTimer_shown : memField (loadTimer c s).mem (statusAddr c) 1 = RunState.step.code ∧
    memField (loadTimer c s).mem (statusAddr c + 16) 2 = (s.seq c).shownIdx % 65536 ∧
    memField (loadTimer c s).mem (statusAddr c + 20) 2 = ((loadTimer c s).seq c).timer % 65536 := by
  have hs := statusAddr_bounds c
  rw [loadTimer_seq]
  unfold loadTimer
  simp only
  generalize hv : s.modSeq c _ = v
  have seq : v.seq c = { (s.seq c).loaded (s.chamberCfg c).pulseLossTime s.now with run := (s.seq c).run } := by
    rw [← hv, State.modSeq_eq, State.setSeq_seq_same]
    rfl
  clear hv
  have run := setRun_shown (s := v) (c := c) (r := .step)
  have seqR : (setRun c .step v).seq c = { v.seq c with run := .step } := by simp [setRun, State.modSeq_eq]
  generalize setRun c .step v = w at run seqR ⊢
  have index := field_showWord (c := c) (w := .index) (s := w) (i := 0) (n := 2) (by decide)
  rw [show statusAddr c + StatusWord.index.offset + 0 = statusAddr c + 16 from rfl, statusValue, pack16] at index
  have frame1 : Frame [] [(statusAddr c + 16, 4)] [] w (showWord c .index w) := .showWord (covered_of_mem (by simp [StatusWord.offset]))
  have seqI : (showWord c .index w).seq c = w.seq c := rfl
  generalize showWord c .index w = x at index frame1 seqI ⊢
  have shown := field_showWord (c := c) (w := .timer) (s := x) (i := 0) (n := 2) (by decide)
  rw [show statusAddr c + StatusWord.timer.offset + 0 = statusAddr c + 20 from rfl, statusValue, pack16] at shown
  have frame2 : Frame [] [(statusAddr c + 20, 4)] [] x (showWord c .timer x) := .showWord (covered_of_mem (by simp [StatusWord.offset]))
  refine ⟨?_, ?_, ?_⟩
  · refine (frame2.field (by simp only [Config.memorySize]; omega) ?_).trans
      ((frame1.field (by simp only [Config.memorySize]; omega) ?_).trans run)
    · simp only [List.mem_cons, List.not_mem_nil, or_false, forall_eq, Config.memorySize]; omega
    · simp only [List.mem_cons, List.not_mem_nil, or_false, forall_eq, Config.memorySize]; omega
  · refine (frame2.field (by simp only [Config.memorySize]; omega) ?_).trans (index.trans ?_)
    · simp only [List.mem_cons, List.not_mem_nil, or_false, forall_eq, Config.memorySize]; omega
    · rw [seqR, seq]
      simp only [Seq.loaded]
      omega
  · rw [shown, seqI, seqR, seq]
    simp only [Seq.loaded]
    omega

/-! ### Both stages -/

theorem Frame.handStep : Frame ([.seq c, .rf c, .press c] ++ allLines) (loadBytes c) [] s (Machine.handStep c s) :=
  .trans (.handSetpoints (by simp) (by simp) (List.subset_append_right _ _))
    (Frame.loadTimer.mono (by simp) fun _ hr => covered_of_mem hr)

theorem handSetpoints_same {p : Part} (h1 : p ≠ .rf c) (h2 : p ≠ .press c) (h3 : ∀ k, p ≠ .line k) :
    p.same s (handSetpoints c s) := by
  refine (Frame.handSetpoints (ps := [.rf c, .press c] ++ allLines) (rs := []) (fs := []) (by simp) (by simp)
    (List.subset_append_right _ _)).parts p fun hp => ?_
  rcases List.mem_append.mp hp with hp | hp
  · simp only [List.mem_cons, List.not_mem_nil, or_false] at hp
    exact hp.elim h1 h2
  · obtain ⟨k, -, e⟩ := List.mem_map.mp hp
    exact h3 k e.symm

theorem handSetpoints_chamberCfg : (handSetpoints c s).chamberCfg c = s.chamberCfg c := by
  simp only [State.chamberCfg, show (handSetpoints c s).tables = s.tables from
    handSetpoints_same (p := .tables) (by simp) (by simp) (by simp)]

theorem handStep_seq : (handStep c s).seq c = (s.seq c).loaded (s.chamberCfg c).pulseLossTime s.now := by
  rw [handStep, loadTimer_seq, handSetpoints_chamberCfg,
    show (handSetpoints c s).seq c = s.seq c from handSetpoints_same (p := .seq c) (by simp) (by simp) (by simp),
    show (handSetpoints c s).now = s.now from handSetpoints_same (p := .now) (by simp) (by simp) (by simp)]

theorem handStep_shown : memField (handStep c s).mem (statusAddr c) 1 = RunState.step.code ∧
    memField (handStep c s).mem (statusAddr c + 16) 2 = (s.seq c).shownIdx % 65536 ∧
    memField (handStep c s).mem (statusAddr c + 20) 2 = ((handStep c s).seq c).timer % 65536 := by
  have shown := loadTimer_shown (s := handSetpoints c s) (c := c)
  rw [show (handSetpoints c s).seq c = s.seq c from handSetpoints_same (p := .seq c) (by simp) (by simp) (by simp)] at shown
  exact shown

theorem loadTimer_same {p : Part} (h : p ≠ .seq c) : p.same s (loadTimer c s) :=
  Frame.loadTimer.parts p (by simpa using h)

theorem handStep_line : (handStep c s).line k = (stepHanded c s).line k :=
  (loadTimer_same (p := .line k) (by simp)).trans handSetpoints_line

theorem handStep_press : ((handStep c s).press c).target =
      (if (s.seq c).step.isPumpOut then 0 else (s.seq c).step.target) ∧
    ((handStep c s).press c).throttleOpen = decide (((handStep c s).press c).target = 0) ∧
    ((handStep c s).press c).evaluating = decide (((handStep c s).press c).target ≠ 0) := by
  have same : (handStep c s).press c = (handSetpoints c s).press c := loadTimer_same (p := .press c) (by simp)
  rw [same]
  exact handSetpoints_press

theorem handStep_rf (h : (s.seq c).step.isPlasma = false) :
    ((handStep c s).rf c).phase = .off ∧ ((handStep c s).rf c).output = 0 := by
  have same : (handStep c s).rf c = (handSetpoints c s).rf c := loadTimer_same (p := .rf c) (by simp)
  rw [same]
  exact handSetpoints_rf h

end Sys2Proof.Machine
end

section
/-! A step start that runs its record: the record read and judged, the current step set, the lines not named dropped
(R47 to R49), and the end of a TIME step (R55, R64). -/

namespace Sys2Proof.Machine

variable {s u : State} {c : Chamber} {k : LineId} {r : StepRec} {pos : Nat} {t : Moment}

/-! ### The record of a position (R46, R47) -/

/-- A record that the writes of a frame do not touch reads as before. -/
theorem Frame.readStep {ps : List Part} {rs : List Bytes} {fs : List EventFlag} {s s' : State} {i : Nat}
    (h : Frame ps rs fs s s') (hi : recordAddr i + 32 ≤ Config.memorySize)
    (hr : ∀ r ∈ rs, r.1 + r.2 ≤ Config.memorySize ∧ (recordAddr i + 32 ≤ r.1 ∨ r.1 + r.2 ≤ recordAddr i)) :
    Machine.readStep s'.mem i = Machine.readStep s.mem i := by
  have field : ∀ j n, j + n ≤ 32 → memField s'.mem (recordAddr i + j) n = memField s.mem (recordAddr i + j) n :=
    fun j n hj => h.field (by omega) fun r hm => by
      have := hr r hm
      omega
  have gases : (List.range 4).map (fun j => (memField s'.mem (recordAddr i + 8 + j) 1,
      memField s'.mem (recordAddr i + 12 + 2 * j) 2)) = (List.range 4).map fun j =>
        (memField s.mem (recordAddr i + 8 + j) 1, memField s.mem (recordAddr i + 12 + 2 * j) 2) := by
    refine List.map_congr_left fun j hj => ?_
    have hj := List.mem_range.mp hj
    rw [Nat.add_assoc, Nat.add_assoc, field (8 + j) 1 (by omega), field (12 + 2 * j) 2 (by omega)]
  have first := field 0 1 (by decide)
  rw [Nat.add_zero] at first
  simp only [Machine.readStep, gases, first, field 1 1 (by decide), field 2 1 (by decide), field 3 1 (by decide),
    field 4 2 (by decide), field 6 1 (by decide), field 7 1 (by decide), field 20 2 (by decide), field 22 2 (by decide),
    field 24 2 (by decide), field 26 2 (by decide), field 28 1 (by decide), field 8 2 (by decide), field 12 2 (by decide)]

/-- A record that passes its tests and is no LOOP_BACK is run at its position, the loops standing (R47). -/
theorem resolveNow_runs (hr : r = readStep s.mem ((s.seq c).seg.first + pos)) (hl : r.isLoop = false)
    (hk : stepOk s.tables c (s.seq c).seg.first ((s.seq c).seg.first + pos) r = true) :
    resolveNow c pos s = .run r pos (s.seq c).loop := by
  unfold resolveNow
  cases (s.seq c).loop with
  | nil => simp [resolve, ← hr, hl, hk]
  | cons top rest => simp [resolve, ← hr, hl, hk]

/-! ### The current step (R47, R49) -/

/-- The position and the record of the current step. -/
def stepChosen (c : Chamber) (pos : Nat) (r : StepRec) (s : State) : State :=
  (setStep c pos (s.seq c).loop s).modSeq c fun q => { q with step := r }

/-- The current step set, and the lines it does not name dropped. -/
def stepSet (c : Chamber) (pos : Nat) (r : StepRec) (s : State) : State :=
  dropLines c (fun k => !r.names k) (stepChosen c pos r s)

/-- A sequencer with its current step. -/
def Seq.atStep (q : Seq) (pos : Nat) (r : StepRec) : Seq :=
  { q with
    pos := pos, stepIdx := q.seg.first + pos, shownIdx := q.seg.first + pos, shownDepth := q.loop.length, step := r }

theorem stepChosen_seq : (stepChosen c pos r s).seq c = (s.seq c).atStep pos r := by
  simp [stepChosen, setStep, showWord, State.modSeq_eq, Seq.atStep]

theorem Frame.stepChosen : Frame [.seq c] (loadBytes c) [] s (Machine.stepChosen c pos r s) := by
  have cov : covered (loadBytes c) ((statusAddr c + 16, 4) : Bytes) :=
    ⟨(statusAddr c + 16, 8), by simp [loadBytes], le_rfl, by simp⟩
  have set : Frame [.seq c] (loadBytes c) [] s (setStep c pos (s.seq c).loop s) := by
    unfold setStep
    exact .trans .modSeq (.showWord cov)
  exact .trans set .modSeq

theorem ownsNoLine.stepChosen (h : ownsNoLine s c) : ownsNoLine (Machine.stepChosen c pos r s) c := fun k => by
  rw [show (Machine.stepChosen c pos r s).arb k = s.arb k from Frame.stepChosen.parts (.arb k) (by simp)]
  exact h k

theorem Frame.stepSet (h : ownsNoLine s c) :
    Frame ([.seq c] ++ allLines) (loadBytes c) [] s (Machine.stepSet c pos r s) :=
  .trans (Frame.stepChosen.mono (by simp) fun _ hr => covered_of_mem hr)
    (.dropLines h.stepChosen (List.subset_append_right _ _))

theorem stepSet_seq (h : ownsNoLine s c) : (stepSet c pos r s).seq c = (s.seq c).atStep pos r := by
  rw [← stepChosen_seq]
  exact (Frame.dropLines (rs := []) (fs := []) h.stepChosen (List.Subset.refl _)).parts (.seq c) (by simp [allLines])

theorem stepSet_line (h : ownsNoLine s c) : (stepSet c pos r s).line k =
    if r.names k = false ∧ (s.line k).openTo = some c then (s.line k).shut else s.line k := by
  rw [stepSet, dropLines_line h.stepChosen,
    show (stepChosen c pos r s).line k = s.line k from Frame.stepChosen.parts (.line k) (by simp)]
  simp

theorem stepSet_part {p : Part} (h : ownsNoLine s c) (h1 : p ≠ .seq c) (h2 : ∀ k, p ≠ .line k) :
    p.same s (stepSet c pos r s) := by
  refine (Frame.stepSet h).parts p fun hp => ?_
  rcases List.mem_append.mp hp with hp | hp
  · exact h1 (List.mem_singleton.mp hp)
  · obtain ⟨k, -, e⟩ := List.mem_map.mp hp
    exact h2 k e.symm

theorem enterStep_runs (h : ownsNoLine s c) (hq : requestedLines s r = []) :
    enterStep c (.run r pos (s.seq c).loop) s = handStep c (stepSet c pos r s) := by
  have tables : (stepSet c pos r s).tables = s.tables := stepSet_part (p := .tables) h (by simp) (by simp)
  have requested : requestedLines (stepSet c pos r s) r = [] := by
    rw [← hq]
    simp only [requestedLines, State.lineCfg, tables]
  have e : enterStep c (.run r pos (s.seq c).loop) s =
      if (requestedLines (stepSet c pos r s) r).isEmpty then handStep c (stepSet c pos r s)
      else if grantedAtOnce c (requestedLines (stepSet c pos r s) r) (stepSet c pos r s) then
        handStep c (ownLines c ((requestedLines (stepSet c pos r s) r).filter
          fun k => decide ((stepSet c pos r s).arb k ≠ .owned c)) (stepSet c pos r s))
      else enterWait c (requestedLines (stepSet c pos r s) r) (stepSet c pos r s) := rfl
  rw [e, requested]
  rfl

/-! ### A step start that runs its record -/

/-- What a step start at a position leaves where its record names no SHARED line. -/
structure StepRuns (c : Chamber) (pos : Nat) (r : StepRec) (s u : State) : Prop where
  seq : u.seq c = ((s.seq c).atStep pos r).loaded (s.chamberCfg c).pulseLossTime s.now
  shown : memField u.mem (statusAddr c) 1 = RunState.step.code ∧
    memField u.mem (statusAddr c + 16) 2 = ((s.seq c).seg.first + pos) % 65536 ∧
    memField u.mem (statusAddr c + 20) 2 = (u.seq c).timer % 65536
  unnamed : ∀ k, r.names k = false → u.line k = if (s.line k).openTo = some c then (s.line k).shut else s.line k
  named : s.gasInhibit c = false → ∀ e ∈ r.entries, u.line e.1 =
    (s.line e.1).handed c (s.lineCfg e.1) e.2 r.flowRamp (if r.exitsStable then some r.dwell else none) s.now
  press : (u.press c).target = (if r.isPumpOut then 0 else r.target) ∧
    (u.press c).throttleOpen = decide ((u.press c).target = 0) ∧
    (u.press c).evaluating = decide ((u.press c).target ≠ 0)
  rf : r.isPlasma = false → (u.rf c).phase = .off ∧ (u.rf c).output = 0
  frame : Frame ([.seq c, .rf c, .press c] ++ allLines) (loadBytes c) [] s u

theorem stepStart_runs (hr : r = readStep s.mem ((s.seq c).seg.first + pos)) (hl : r.isLoop = false)
    (hk : stepOk s.tables c (s.seq c).seg.first ((s.seq c).seg.first + pos) r = true) (hq : requestedLines s r = [])
    (ho : ownsNoLine s c) : StepRuns c pos r s (stepStart c pos s) := by
  have start : stepStart c pos s = handStep c (stepSet c pos r s) := by
    rw [← enterStep_runs ho hq, stepStart, resolveNow_runs hr hl hk]
  have seq := stepSet_seq (pos := pos) (r := r) ho
  have line := fun k => stepSet_line (k := k) (pos := pos) (r := r) ho
  have frame := Frame.stepSet (pos := pos) (r := r) ho
  have part := fun p (h1 : p ≠ .seq c) (h2 : ∀ k, p ≠ Part.line k) => stepSet_part (p := p) (pos := pos) (r := r) ho h1 h2
  rw [start]
  generalize stepSet c pos r s = v at seq line frame part ⊢
  have tables : v.tables = s.tables := part .tables (by simp) (by simp)
  have now : v.now = s.now := part .now (by simp) (by simp)
  have inhibit : v.gasInhibit c = s.gasInhibit c := part (.gasInhibit c) (by simp) (by simp)
  have step : (v.seq c).step = r := by rw [seq]; rfl
  have shown := handStep_shown (s := v) (c := c)
  refine ⟨?_, ⟨shown.1, ?_, shown.2.2⟩, fun k hn => ?_, fun hg e he => ?_, ?_, ?_, ?_⟩
  · rw [handStep_seq, seq, now]
    simp only [State.chamberCfg, tables]
  · rw [shown.2.1, seq]
    rfl
  · rw [handStep_line, stepHanded, step, handLines_other, line]
    · simp [hn]
    · intro e he ek
      rw [names_iff.mpr ⟨e, he, ek⟩] at hn
      cases hn
  · have kept : v.line e.1 = s.line e.1 := by
      rw [line, names_iff.mpr ⟨e, he, rfl⟩]
      exact if_neg (by simp)
    rw [handStep_line, stepHanded, step, handLines_line (stepOk_lines hk hl) (inhibit.trans hg) he, kept, now]
    simp only [State.lineCfg, tables]
  · have := handStep_press (s := v) (c := c)
    rw [step] at this
    exact this
  · intro hp
    exact handStep_rf (s := v) (by rw [step]; exact hp)
  · exact .trans (frame.mono (subset_lines (by simp)) fun _ hr => covered_of_mem hr) .handStep

/-! ### The end of a TIME step (R55, R64) -/

theorem timerExpired_time (h : (s.seq c).step.exitsTime = true) : timerExpired c s = stepEnd c .time s := if_pos h

theorem stepCounted_quiet {x : ExitCause} (h : (s.seq c).step.reports = false) : stepCounted c x s = stepCount c s := by
  unfold stepCounted
  rw [stepCount_seq]
  exact if_neg (by simp [h])

/-- A step's end before the last position, with no hold latched, starts the next one (R64). -/
theorem stepEnd_goesOn {x : ExitCause} (h1 : (s.seq c).pos + 1 < (s.seq c).seg.count) (h2 : (s.seq c).latch = false)
    (h3 : (s.seq c).step.reports = false) : stepEnd c x s = stepStart c ((s.seq c).pos + 1) (stepCount c s) := by
  rw [stepEnd_eq, if_neg (by omega), h2, stepCounted_quiet h3]
  rfl

/-- The step timer's last event and the count of the step that it ends. -/
def timeEnded (c : Chamber) (t : Moment) (s : State) : State := stepCount c (timerLower c (s.setNow t))

theorem timeEnded_seq : (timeEnded c t s).seq c = { s.seq c with
    timer := (s.seq c).timer - 1
    timerMark := t
    stepsRun := (s.seq c).stepsRun + 1
    segDone := (s.seq c).segDone + 1
    segLast := some (s.seq c).stepIdx
    segClamped := (s.seq c).segClamped || stepClamped (timerLower c (s.setNow t)) c
    segPclamped := (s.seq c).segPclamped || (s.press c).pclamped
    segRclamped := (s.seq c).segRclamped || (s.rf c).rclamped } := by
  rw [timeEnded, stepCount_seq, timerLower_seq]
  rfl

theorem Frame.timeEnded : Frame [.now, .seq c] [(statusAddr c + 20, 8)] [] s (Machine.timeEnded c t s) := by
  have cov : ∀ n, n = 20 ∨ n = 24 → covered [(statusAddr c + 20, 8)] ((statusAddr c + n, 4) : Bytes) := fun n hn =>
    ⟨_, List.mem_singleton.mpr rfl, by simp only; omega, by simp only; omega⟩
  exact .trans .setNow (.trans (.timerLower (by simp) (cov 20 (.inl rfl)))
    ((Frame.stepCount (fs := []) (cov 24 (.inr rfl))).mono (by simp) fun _ hr => covered_of_mem hr))

theorem timeEnded_shown : (timeEnded c t s).word (statusAddr c + 24) =
    shownCount 32 ((s.seq c).stepsRun + 1) % 4294967296 := by
  rw [timeEnded, stepCount_shown, timerLower_seq]
  rfl

theorem statusWords_below (i : Nat) : ∀ r ∈ [((statusAddr c + 20, 8) : Bytes)],
    r.1 + r.2 ≤ Config.memorySize ∧ (recordAddr i + 32 ≤ r.1 ∨ r.1 + r.2 ≤ recordAddr i) := by
  have hs := statusAddr_bounds c
  simp only [List.mem_cons, List.not_mem_nil, or_false, forall_eq, Config.memorySize, recordAddr]
  omega

/-- Settles O26: the last count ends the step, and the step start finds the next record as the host wrote it. -/
theorem timeStepEndStartsTheNextStep : Obligations.TimeStepEndStartsTheNextStep := by
  intro s t c tap r h hrun ht hm htap hf hx hrep hlatch hpos hfit hr hk hl hq hopen ho hg
  refine answers_atTap h (body := workIf (fun s => timerEnds s c) (timerTick c)) rfl ?_
  have ends : timerEnds (s.setNow t) c = true := by
    have counts : timerCounts (s.setNow t) c = true := timerCounts_iff.mpr ⟨hrun, by simp [ht], hm, tap, htap, hf⟩
    simp [timerEnds, counts, ht]
  have lower := timerLower_seq (s := s.setNow t) (c := c)
  have goes : timerTick c (s.setNow t) = stepStart c ((s.seq c).pos + 1) (timeEnded c t s) := by
    rw [timerTick_last (s := s.setNow t) (by simp [ht]), timerExpired_time (by rw [lower]; exact hx),
      stepEnd_goesOn (by rw [lower]; exact hpos) (by rw [lower]; exact hlatch) (by rw [lower]; exact hrep), lower]
    rfl
  rw [workIf_true ends, goes]
  have seq := timeEnded_seq (s := s) (c := c) (t := t)
  have frame := Frame.timeEnded (s := s) (c := c) (t := t)
  have counted := timeEnded_shown (s := s) (c := c) (t := t)
  have now : (timeEnded c t s).now = t := rfl
  generalize timeEnded c t s = v at seq frame counted now ⊢
  have tables : v.tables = s.tables := frame.parts .tables (by simp)
  have first : (v.seq c).seg = (s.seq c).seg := by rw [seq]
  have read : r = readStep v.mem ((v.seq c).seg.first + ((s.seq c).pos + 1)) := by
    rw [first, frame.readStep (by simp only [recordAddr, Config.memorySize]; omega) (statusWords_below _)]
    exact hr
  have runs : StepRuns c ((s.seq c).pos + 1) r v (stepStart c ((s.seq c).pos + 1) v) := by
    refine stepStart_runs read hl (by rw [first, tables]; exact hk) ?_ fun k => ?_
    · rw [← hq]
      simp only [requestedLines, State.lineCfg, tables]
    · rw [show v.arb k = s.arb k from frame.parts (.arb k) (by simp)]
      exact ho k
  generalize stepStart c ((s.seq c).pos + 1) v = u at runs ⊢
  have lines : ∀ k, v.line k = s.line k := fun k => frame.parts (.line k) (by simp)
  have inhibit : v.gasInhibit c = s.gasInhibit c := frame.parts (.gasInhibit c) (by simp)
  have rep : u.rep c = s.rep c :=
    (runs.frame.parts (.rep c) (by simp [allLines])).trans (frame.parts (.rep c) (by simp))
  have kept : u.word (statusAddr c + 24) = v.word (statusAddr c + 24) := by
    have hs := statusAddr_bounds c
    refine runs.frame.word (by simp only [Config.memorySize]; omega) ?_
    simp only [loadBytes, List.mem_cons, List.not_mem_nil, or_false, forall_eq_or_imp, forall_eq, Config.memorySize]
    omega
  have whole : Frame ([.now, .seq c, .rf c, .press c] ++ allLines) [statusBytes c] [] s u := by
    have cov : ∀ n m, n + m ≤ 128 → covered [statusBytes c] ((statusAddr c + n, m) : Bytes) := fun n m hn =>
      ⟨_, List.mem_singleton.mpr rfl, by simp only [statusBytes]; omega, by simp only [statusBytes]; omega⟩
    refine .trans (frame.mono (by simp) ?_) (runs.frame.mono (subset_lines (by simp)) ?_)
    · simpa using cov 20 8 (by decide)
    · simp only [loadBytes, List.mem_cons, List.not_mem_nil, or_false, forall_eq_or_imp, forall_eq]
      exact ⟨cov 0 4 (by decide), cov 16 8 (by decide)⟩
  refine ⟨?_, ⟨?_, ?_, ?_, kept.trans counted, ?_⟩, ?_, runs.shown.2.2, fun e he => ?_, fun k hn => ?_, runs.press,
    runs.rf, whole.parts, whole.bytes⟩
  · rw [runs.seq, seq]
    exact ⟨rfl, rfl, rfl, rfl, rfl, rfl, rfl, rfl, rfl⟩
  · rw [runs.seq, seq]; rfl
  · rw [runs.seq, seq]; rfl
  · rw [runs.seq, seq]; rfl
  · rw [rep, hrep]; rfl
  · rw [runs.shown.2.1, first]
  · rw [runs.named (inhibit.trans hg) e he, lines, show v.lineCfg e.1 = s.lineCfg e.1 by simp only [State.lineCfg, tables]]
    refine ⟨rfl, rfl, rfl, rfl, rfl, rfl, rfl⟩
  · rw [runs.unnamed k hn, lines]
    refine if_neg fun hc => ?_
    rw [hopen k hc] at hn
    cases hn

end Sys2Proof.Machine
end

section
/-! RUN_NEW: the run's records set up, its pages fixed and its entry made, and the first step start (R20, R22, R26). -/

namespace Sys2Proof.Machine

variable {s u v : State} {c : Chamber} {t : Moment} {o : Order} {f : Seq → Seq} {r : StepRec}

/-! ### The run's records (R26) -/

/-- The words of the status block that the take of a run writes. -/
def runWords (c : Chamber) (s : State) : State :=
  showWord c .steps (showWord c .timer (showWord c .tag
    (showWord c .flags (showWord c .states (showWord c .pending (showWord c .index s))))))

/-- The slot taken and the run's records set up. -/
def runSet (c : Chamber) (f : Seq → Seq) (s : State) : State := forgetDues c ((takeSlot c .current s).modSeq c f)

/-- The run's records set up and shown. -/
def runTaken (c : Chamber) (f : Seq → Seq) (s : State) : State := runWords c (runSet c f s)

/-- The pages fixed and the run's entry made. -/
def runStarted (c : Chamber) (f : Seq → Seq) (s : State) : State :=
  produce c { kind := .runStart, rfOn := ((runTaken c f s).seq c).rfTotal } (fixPages c (runTaken c f s))

theorem takeRun_eq : takeRun c f s =
    if ((runStarted c f s).econ c).mode = .economy then beginWake c .order (runStarted c f s)
    else stepStart c ((runStarted c f s).seq c).pos (runStarted c f s) := rfl

theorem covered_status {n : Nat} (h : n + 4 ≤ 128) : covered [statusBytes c] ((statusAddr c + n, 4) : Bytes) :=
  ⟨_, List.mem_singleton.mpr rfl, by simp only [statusBytes]; omega, by simp only [statusBytes]; omega⟩

theorem Frame.runWords : Frame [] [statusBytes c] [] s (Machine.runWords c s) := by
  have word : ∀ (w : StatusWord) (u : State), Frame [] [statusBytes c] [] u (Machine.showWord c w u) := fun w u =>
    .showWord (covered_status (by have := w.offset_le; omega))
  exact .trans (word _ _) (.trans (word _ _) (.trans (word _ _) (.trans (word _ _) (.trans (word _ _)
    (.trans (word _ _) (word _ _))))))

theorem runWords_tag : (runWords c s).word (statusAddr c + 12) = (s.seq c).tag % 4294967296 := by
  have hs := statusAddr_bounds c
  unfold runWords
  generalize hx : showWord c .flags _ = x
  have seq : x.seq c = s.seq c := by rw [← hx]; rfl
  have shown := word_showWord (c := c) (w := .tag) (s := x)
  rw [show statusAddr c + StatusWord.tag.offset = statusAddr c + 12 from rfl, statusValue, seq] at shown
  generalize showWord c .tag x = y at shown ⊢
  have after : Frame [] [(statusAddr c + 20, 4), (statusAddr c + 24, 4)] [] y (showWord c .steps (showWord c .timer y)) :=
    .trans (.showWord (covered_of_mem (by simp [StatusWord.offset]))) (.showWord (covered_of_mem (by simp [StatusWord.offset])))
  refine (after.word (by simp only [Config.memorySize]; omega) ?_).trans shown
  simp only [List.mem_cons, List.not_mem_nil, or_false, forall_eq_or_imp, forall_eq, Config.memorySize]
  omega

theorem Frame.forgetDues {rs : List Bytes} {fs : List EventFlag} :
    Frame ([.rf c, .press c] ++ allLines) rs fs s (Machine.forgetDues c s) :=
  .trans .modRf <| .trans .modPress <| .foldl (fun _ k => .modLine (by simp [allLines])) _ _

theorem forgetDues_seq : (forgetDues c s).seq c = s.seq c := forgetDues_parts (.seq c) (by simp [allLines])

theorem runSet_sets : (runSet c f s).seq c = f { s.seq c with
      slots := (s.seq c).slots.set (s.seq c).expected .current, expected := otherSlot (s.seq c).expected } ∧
    slotReads (runSet c f s) (slotAddr c (s.seq c).expected) 2 0 0 0 ∧
    Frame ([.seq c, .rf c, .press c] ++ allLines) (answerBytes c (s.seq c).expected ++ [statusBytes c]) [] s
      (runSet c f s) := by
  obtain ⟨reads, seq, frame⟩ := takeSlot_taken (s := s) (c := c) (h := .current)
  rw [runSet]
  generalize takeSlot c .current s = u at reads seq frame ⊢
  have after : Frame ([.seq c, .rf c, .press c] ++ allLines) [] [] u (forgetDues c (u.modSeq c f)) :=
    .trans (.modSeq (by simp)) ((Frame.forgetDues (rs := []) (fs := [])).mono (subset_lines (by simp))
      (fun _ hr => covered_of_mem hr))
  refine ⟨?_, after.slotReads (by simp) reads, ?_⟩
  · rw [forgetDues_seq, State.modSeq_eq, State.setSeq_seq_same, seq]
  · exact .trans (frame.mono (by simp) fun r hr => taken_covers (rs := []) hr) (after.mono (fun _ h => h) (by simp))

theorem runTaken_takes : (runTaken c f s).seq c = f { s.seq c with
      slots := (s.seq c).slots.set (s.seq c).expected .current, expected := otherSlot (s.seq c).expected } ∧
    slotReads (runTaken c f s) (slotAddr c (s.seq c).expected) 2 0 0 0 ∧
    (runTaken c f s).word (statusAddr c + 12) = ((runTaken c f s).seq c).tag % 4294967296 ∧
    Frame ([.seq c, .rf c, .press c] ++ allLines) (answerBytes c (s.seq c).expected ++ [statusBytes c]) [] s
      (runTaken c f s) := by
  obtain ⟨seq, reads, frame⟩ := runSet_sets (s := s) (c := c) (f := f)
  rw [runTaken]
  generalize runSet c f s = u at seq reads frame ⊢
  have words := Frame.runWords (s := u) (c := c)
  have same : (runWords c u).seq c = u.seq c := words.parts (.seq c) (by simp)
  refine ⟨same.trans seq, words.slotReads (fun r hr => ?_) reads, ?_, ?_⟩
  · have hs := statusAddr_bounds c
    refine slotsAbove _ ?_ ?_ <;> rw [List.mem_singleton.mp hr] <;> simp only [statusBytes, Config.memorySize] <;> omega
  · rw [runWords_tag, same]
  · exact .trans frame (words.mono (by simp) fun _ hr => covered_of_mem (List.mem_append_right _ hr))

/-! ### The pages fixed (R164) -/

/-- Pages with no held entry are fixed as the control block asks. -/
theorem fixPages_rep (h : (s.rep c).held = none) : (fixPages c s).rep c =
    (s.rep c).fixed s.tables.partition (memField s.mem (controlAddr c + 4) 2) (memField s.mem (controlAddr c + 6) 1)
      (memField s.mem (controlAddr c + 7) 1) := by
  unfold fixPages
  simp only
  generalize hr : (s.rep c).fixed s.tables.partition (memField s.mem (controlAddr c + 4) 2)
    (memField s.mem (controlAddr c + 6) 1) (memField s.mem (controlAddr c + 7) 1) = r
  have held : r.held = none := by rw [← hr]; exact h
  have rep : (showWord c .flags (showWord c .layout (s.setRep c r))).rep c = r := by
    rw [showWord_rep, showWord_rep, State.setRep_rep_same]
  split
  · exact rep
  · generalize showWord c .flags (showWord c .layout (s.setRep c r)) = u at rep ⊢
    have shown : (showPage c 1 (showPage c 0 u)).rep c = r := by simp only [showPage, showWord_rep, rep]
    rw [placeHeld_none (by rw [shown]; exact held)]
    exact shown

/-- A page after the layout is fixed: kept, or EMPTY with a header of 0. -/
theorem fixed_page {r : Rep} {n a b d : Nat} {i : Fin 2} :
    (r.fixed n a b d).page i = r.page i ∨ (r.fixed n a b d).page i = {} := by
  unfold Rep.page Rep.fixed
  simp only
  split <;> split <;> simp

theorem pagesAtRest.fixPages (h : pagesAtRest s c) : pagesAtRest (Machine.fixPages c s) c := by
  obtain ⟨held, rest⟩ := h
  unfold pagesAtRest
  rw [fixPages_rep held]
  refine ⟨held, fun i => ?_⟩
  rcases fixed_page (r := s.rep c) (n := s.tables.partition) (a := memField s.mem (controlAddr c + 4) 2)
    (b := memField s.mem (controlAddr c + 6) 1) (d := memField s.mem (controlAddr c + 7) 1) (i := i) with h | h
  · rw [h]; exact rest i
  · rw [h]; decide

/-! ### The run's entry -/

/-- A run taken and its entry made, its first step not started yet. -/
structure RunStarted (c : Chamber) (f : Seq → Seq) (s v : State) : Prop where
  seq : v.seq c = f { s.seq c with
    slots := (s.seq c).slots.set (s.seq c).expected .current, expected := otherSlot (s.seq c).expected }
  reads : slotReads v (slotAddr c (s.seq c).expected) 2 0 0 0
  tag : v.word (statusAddr c + 12) = (v.seq c).tag % 4294967296
  next : (v.rep c).next = ((s.rep c).next + 1) % 65536
  settled : scanSettled v c
  frame : Frame ([.summary, .seq c, .rf c, .press c, .rep c] ++ allLines)
    (answerBytes c (s.seq c).expected ++ [statusBytes c, reportBytes s.tables.partition c]) [.report c] s v

theorem runStarted_starts (hp : PagesFit s) (hr : pagesAtRest s c) : RunStarted c f s (runStarted c f s) := by
  obtain ⟨seq, reads, tag, taken⟩ := runTaken_takes (s := s) (c := c) (f := f)
  rw [runStarted]
  generalize runTaken c f s = w at seq taken tag reads ⊢
  have tables : w.tables = s.tables := taken.parts .tables (by simp [allLines])
  have rep : ∀ d, w.rep d = s.rep d := fun d => taken.parts (.rep d) (by simp [allLines])
  have fit : PagesFit w := pagesFit_congr tables rep hp
  have fixed : Frame [.rep c, .summary] ((statusAddr c + 4, 4) :: noticeBytes s.tables.partition c) [.report c] w
      (fixPages c w) :=
    .fixPages (hw := covered_of_mem (by simp [noticeBytes])) (covered_of_mem (by simp))
      (fit.reportArea (covered_of_mem (by rw [tables]; simp [noticeBytes])))
  have fixedFit : PagesFit (fixPages c w) := Keeps.fixPages.core.pagesFit fit
  have fixedRest : pagesAtRest (fixPages c w) c := (hr.of_rep (rep c)).fixPages
  have fixedNext : ((fixPages c w).rep c).next = (s.rep c).next := by rw [fixPages_layout.2.2, rep]
  generalize fixPages c w = x at fixed fixedFit fixedRest fixedNext ⊢
  have entered : Frame [.rep c, .summary] ((statusAddr c + 4, 4) :: noticeBytes s.tables.partition c) [.report c] x
      (produce c { kind := .runStart, rfOn := (w.seq c).rfTotal } x) := by
    have := Frame.produce_notice (c := c) (e := { kind := .runStart, rfOn := (w.seq c).rfTotal }) fixedFit
    rw [show x.tables = s.tables from (fixed.parts .tables (by simp)).trans tables] at this
    exact this.mono (by simp) fun _ hr => covered_of_mem (List.mem_cons_of_mem _ hr)
  have reported := fixed.trans entered
  have settled := produce_settled (c := c) (e := { kind := .runStart, rfOn := (w.seq c).rfTotal }) fixedRest
  have nextP := produce_next (c := c) (e := { kind := .runStart, rfOn := (w.seq c).rfTotal }) (s := x)
  generalize produce c { kind := .runStart, rfOn := (w.seq c).rfTotal } x = v at reported settled nextP ⊢
  have same : v.seq c = w.seq c := reported.parts (.seq c) (by simp)
  have hs := statusAddr_bounds c
  have hn : 6 ≤ s.tables.partition ∧ s.tables.partition ≤ 26 := ⟨hp.1, hp.2.1⟩
  refine ⟨same.trans seq, reported.slotReads (fun r hr => ?_) reads, ?_, nextP.trans (by rw [fixedNext]), settled, ?_⟩
  · rcases List.mem_cons.mp hr with rfl | hr
    · exact slotsAbove _ (by simp only; omega) (by simp only [Config.memorySize]; omega)
    · exact noticeBytes_slots hn _ r hr
  · rw [same, ← tag]
    refine reported.word (by simp only [Config.memorySize]; omega) fun r hr => ?_
    rcases List.mem_cons.mp hr with rfl | hr
    · simp only [Config.memorySize]; omega
    · exact noticeBytes_apart hn (.inl (by omega)) r hr
  · refine .trans (taken.mono (subset_lines (by simp)) (fun r hr => ?_) (by simp)) (reported.mono (by simp) (fun r hr => ?_))
    · rcases List.mem_append.mp hr with hr | hr
      · exact answerBytes_left hr
      · exact covered_of_mem (List.mem_append_right _ (by rw [List.mem_singleton.mp hr]; simp))
    · have cov : covered [statusBytes c, reportBytes s.tables.partition c] r := by
        rcases List.mem_cons.mp hr with rfl | hr
        · exact ⟨statusBytes c, by simp, by simp only [statusBytes]; omega, by simp only [statusBytes]; omega⟩
        · exact noticeBytes_status (by simp) (by simp) hr
      obtain ⟨r', hm, h'⟩ := cov
      exact ⟨r', List.mem_append_right _ hm, h'⟩

/-! ### The checks passed (R19, R22, R23, R46) -/

/-- A run order that passes every check lies in the recipe area, and its first record passes its tests. -/
theorem runOrder_passes (h : runOrderRefusal s c false o = none) :
    o.first + 1 ≤ recipeRecords s.tables.partition ∧
      stepOk s.tables c o.first (o.first + 0) (readStep s.mem (o.first + 0)) = true := by
  have segment : segmentRefusal s c false o = none := by
    unfold runOrderRefusal at h
    cases hr : runRefusal s c with
    | some code => simp [hr] at h
    | none =>
      cases hs : segmentRefusal s c false o with
      | some x => simp [hr, hs] at h
      | none => rfl
  have range : orderRangeFault s.tables.partition false o = none := by
    unfold segmentRefusal at segment
    cases hr : orderRangeFault s.tables.partition false o with
    | some x => simp [hr] at segment
    | none => rfl
  have bad : firstBadRecord s.mem s.tables c o.first o.count = none := by
    simpa [segmentRefusal, range] using segment
  have count : 1 ≤ o.count ∧ o.first + o.count ≤ recipeRecords s.tables.partition := by
    unfold orderRangeFault at range
    split_ifs at range with h1 h2 h3
    all_goals omega
  refine ⟨by omega, ?_⟩
  have first := List.findSome?_eq_none_iff.mp bad 0 (List.mem_range.mpr (by omega))
  simp only at first
  split at first
  next hk => exact (Bool.and_eq_true_iff.mp hk).1
  next => cases first

/-- A record of the recipe area lies off what the take of a run and its step write. -/
theorem recipe_apart {i n : Nat} {j : Fin 2} (hn : 6 ≤ n ∧ n ≤ 26) (hi : i + 1 ≤ recipeRecords n) :
    recordAddr i + 32 ≤ Config.memorySize ∧ ∀ r ∈ answerBytes c j ++ [statusBytes c, reportBytes n c],
      r.1 + r.2 ≤ Config.memorySize ∧ (recordAddr i + 32 ≤ r.1 ∨ r.1 + r.2 ≤ recordAddr i) := by
  have hs := statusAddr_bounds c
  have hj := slotAddr_top c j
  have hr := reportAddr_bounds (c := c) (n := n) (by omega)
  have area : recordAddr i + 32 ≤ reportAddr n c := by
    simp only [recordAddr, reportAddr, recipeRecords] at *
    omega
  refine ⟨by simp only [Config.memorySize] at *; omega, ?_⟩
  simp only [answerBytes, List.cons_append, List.nil_append, List.mem_cons, List.not_mem_nil, or_false, forall_eq_or_imp,
    forall_eq, statusBytes, reportBytes, recordAddr, Config.memorySize] at *
  omega

theorem runNew_takes (h : runOrderRefusal s c false o = none) (hk : o.kind = 1) :
    judgeOrder c o s = takeRun c (fun q => q.newRun o) s := by
  simp [judgeOrder, hk, runNew, h]

theorem memField_four_lt (m : Memory) (a : Nat) : memField m a 4 < 4294967296 := by
  have h0 := (memRead m a).isLt
  have h1 := (memRead m (a + 1)).isLt
  have h2 := (memRead m (a + 2)).isLt
  have h3 := (memRead m (a + 3)).isLt
  simp only [memField, Nat.add_assoc, Nat.reduceAdd]
  omega

/-- Settles O16: the run taken and reported, and the step start over it, which leaves the slot and the pages alone. -/
theorem runNewStartsItsFirstStep : Obligations.RunNewStartsItsFirstStep := by
  intro s t c o r h hp hn hposted hrest ho hk href hm hr hl hq hopen howns
  refine answers_atTap h (body := slotScan c) rfl ?_
  obtain ⟨range, ok⟩ := runOrder_passes href
  have order : expectedOrder (s.setNow t) c = o := ho.symm
  have tag : o.tag < 4294967296 := by rw [ho]; exact memField_four_lt _ _
  have first : o.first < 65536 := by rw [ho]; exact field_lt _ _
  have duration : r.duration < 65536 := by rw [hr]; exact field_lt _ _
  rw [slotScan_posted (s := s.setNow t) hn hposted, order, runNew_takes (s := s.setNow t) href hk, takeRun_eq]
  have started : RunStarted c (fun q => q.newRun o) (s.setNow t) (runStarted c (fun q => q.newRun o) (s.setNow t)) :=
    runStarted_starts (s := s.setNow t) hp hrest
  generalize runStarted c (fun q => q.newRun o) (s.setNow t) = v at started ⊢
  obtain ⟨seq, reads, shownTag, next, settled, frame⟩ := started
  have part : ∀ p, p ∉ [Part.summary, .seq c, .rf c, .press c, .rep c] → (∀ k, p ≠ .line k) → p.same (s.setNow t) v :=
    fun p h1 h2 => frame.parts p fun h => (List.mem_append.mp h).elim h1 fun hp => by
      obtain ⟨k, -, e⟩ := List.mem_map.mp hp
      exact h2 k e.symm
  have tables : v.tables = s.tables := part .tables (by simp) (by simp)
  have econ : v.econ c = s.econ c := part (.econ c) (by simp) (by simp)
  have seg : (v.seq c).seg = o.segment ∧ (v.seq c).pos = 0 ∧ (v.seq c).saved = 0 ∧ (v.seq c).loop = [] := by
    rw [seq]; exact ⟨rfl, rfl, rfl, rfl⟩
  have segFirst : (v.seq c).seg.first = o.first := by rw [seg.1]; rfl
  obtain ⟨inside, apart⟩ := recipe_apart (c := c) (j := (s.seq c).expected) ⟨hp.1, hp.2.1⟩ range
  have read : r = readStep v.mem ((v.seq c).seg.first + 0) := by
    rw [segFirst, hr]
    exact (frame.readStep inside apart).symm
  have runs : StepRuns c 0 r v (stepStart c 0 v) := by
    refine stepStart_runs read hl ?_ ?_ fun k => ?_
    · rw [segFirst, tables, hr]; exact ok
    · rw [← hq]
      simp only [requestedLines, State.lineCfg, tables]
    · rw [show v.arb k = s.arb k from part (.arb k) (by simp) (by simp)]
      exact howns k
  rw [econ, hm, if_neg (by decide), seg.2.1]
  generalize stepStart c 0 v = u at runs ⊢
  have hs := statusAddr_bounds c
  have loads : ∀ r ∈ loadBytes c, r.1 + r.2 ≤ Config.memorySize ∧ statusAddr c ≤ r.1 ∧ r.1 + r.2 ≤ statusAddr c + 28 := by
    simp only [loadBytes, List.mem_cons, List.not_mem_nil, or_false, forall_eq_or_imp, forall_eq, Config.memorySize]
    omega
  have rep : u.rep c = v.rep c := runs.frame.parts (.rep c) (by simp [allLines])
  rw [scanPages_settled (settled.over runs.frame (by simp [allLines]) fun r hr =>
    ⟨(loads r hr).1, .inr (loads r hr).2.2⟩)]
  have seqU : u.seq c = _ := runs.seq
  have timer : (u.seq c).timer = r.duration := by
    rw [seqU]
    exact if_neg (not_not_intro seg.2.2.1)
  have whole : Frame ([.now, .summary, .seq c, .rf c, .press c, .rep c] ++ allLines)
      (answerBytes c (s.seq c).expected ++ [statusBytes c, reportBytes s.tables.partition c]) [.report c] s u := by
    refine .trans .setNow (.trans (frame.mono (subset_lines (by simp)) fun _ hr => covered_of_mem hr)
      (runs.frame.mono (subset_lines (by simp)) (fun r hr => ?_) (by simp)))
    have := loads r hr
    exact ⟨statusBytes c, List.mem_append_right _ (by simp), this.2.1, by simp only [statusBytes]; omega⟩
  have kept : u.word (statusAddr c + 12) = v.word (statusAddr c + 12) := by
    refine runs.frame.word (by simp only [Config.memorySize]; omega) ?_
    simp only [loadBytes, List.mem_cons, List.not_mem_nil, or_false, forall_eq_or_imp, forall_eq, Config.memorySize]
    omega
  refine ⟨?_, ?_, ?_, ⟨?_, ?_, ?_, ?_, timer, ?_, ?_, ?_⟩, ?_, ⟨runs.shown.1, ?_, ?_, ?_⟩, ?_, whole.flags, whole.parts,
    whole.bytes⟩
  · refine runs.frame.slotReads (fun r hr => slotsAbove _ ?_ (loads r hr).1) reads
    have := loads r hr
    omega
  · rw [seqU, seq]
    simp [Seq.loaded, Seq.atStep, Seq.newRun]
  · rw [seqU, seq]; rfl
  · rw [seqU]; rfl
  · rw [seqU]; rfl
  · rw [seqU]; rfl
  · rw [seqU]; exact segFirst
  · rw [seqU]; rfl
  · rw [seqU]; exact seg.2.2.2
  · rw [seqU]; rfl
  · rw [seqU, seq]; exact ⟨rfl, rfl, rfl, rfl, rfl, rfl, rfl, rfl⟩
  · rw [kept, shownTag, seq]
    exact Nat.mod_eq_of_lt tag
  · rw [runs.shown.2.1, segFirst]
    exact Nat.mod_eq_of_lt first
  · rw [runs.shown.2.2, timer]
    exact Nat.mod_eq_of_lt duration
  · rw [rep, next]; rfl

end Sys2Proof.Machine
end

section
/-! The Line Arbiter: a handover timer's last event frees its line, and the walk grants the one chamber that waits
(R50, R90, R91, R94). -/

namespace Sys2Proof.Machine

variable {s u : State} {c : Chamber} {j k : LineId} {t m : Moment} {n : Nat} {w : WaitEntry}

/-! ### A line's state as the image shows it (R94) -/

theorem putArb_arb {x : Arb} : (putArb k x s).arb j = if j = k then x else s.arb j := by
  have image : (putArb k x s).arb j = (s.setArb k x).arb j := by simp [putArb, imageLine]
  rw [image]
  split
  next e => rw [e, State.setArb_arb_same]
  next e => exact State.setArb_arb_ne _ _ _ _ e

/-- Each line of the pair that a write of the image shows. -/
theorem imageLine_shown (h : j.val / 2 = k.val / 2) : memField (imageLine k s).mem (0x100 + 2 * j.val) 2 =
    (lineCodes s j).1 % 256 + 256 * ((lineCodes s j).2 % 256) := by
  unfold imageLine
  simp only
  rcases Nat.mod_two_eq_zero_or_one j.val with hm | hm
  · have low : pairBase k = j := Fin.ext (by simp only [pairBase]; omega)
    have at0 : 0x100 + 2 * j.val = imageAddr (4 * (k.val / 2)) + 0 := by simp only [imageAddr]; omega
    rw [low, at0]
    refine (memField_memPutWord_part (by decide)).trans ?_
    simp only [pack8]
    omega
  · have top : pairTop k = j := Fin.ext (by simp only [pairTop]; omega)
    have at2 : 0x100 + 2 * j.val = imageAddr (4 * (k.val / 2)) + 2 := by simp only [imageAddr]; omega
    rw [top, at2]
    refine (memField_memPutWord_part (by decide)).trans ?_
    simp only [pack8]
    omega

/-- The word of the image that shows a line. -/
theorem Frame.putArb_word {x : Arb} : Frame [.arb k] [(0x100 + 4 * (k.val / 2), 4)] [] s (Machine.putArb k x s) := by
  have hk := k.isLt
  exact .trans .setArb (.putWord ⟨_, List.mem_singleton.mpr rfl, le_rfl, le_rfl⟩
    (by simp only [imageAddr, Config.memorySize]; omega))

theorem putArb_free_shown : memField (putArb k .free s).mem (0x100 + 2 * k.val) 2 = 0 := by
  rw [putArb, imageLine_shown rfl]
  simp [lineCodes]

/-- A line OWNED by a chamber, and shown so. -/
def ownedShown (c : Chamber) (s : State) (j : LineId) : Prop :=
  s.arb j = .owned c ∧ memField s.mem (0x100 + 2 * j.val) 2 = 1 + 256 * (c.val + 1)

theorem imageLine_owned (h : (s.arb j) = .owned c) (hj : j.val / 2 = k.val / 2) :
    memField (imageLine k s).mem (0x100 + 2 * j.val) 2 = 1 + 256 * (c.val + 1) := by
  have hc := c.isLt
  have codes : lineCodes s j = (1, c.val + 1) := by simp [lineCodes, h]
  rw [imageLine_shown hj, codes]
  simp only
  omega

theorem putArb_ownedShown (h : j = k ∨ ownedShown c s j) : ownedShown c (putArb k (.owned c) s) j := by
  have arb : (putArb k (.owned c) s).arb j = .owned c := by
    rw [putArb_arb]
    split
    · rfl
    next e => exact (h.resolve_left e).1
  refine ⟨arb, ?_⟩
  by_cases hj : j.val / 2 = k.val / 2
  · refine imageLine_owned ?_ hj
    simpa [putArb, imageLine] using arb
  · have apart : j ≠ k := fun e => hj (by rw [e])
    have hjl := j.isLt
    have hkl := k.isLt
    refine (Frame.putArb_word.field (by simp only [Config.memorySize]; omega) ?_).trans (h.resolve_left apart).2
    simp only [List.mem_cons, List.not_mem_nil, or_false, forall_eq, Config.memorySize]
    omega

/-! ### A set of lines OWNED (R91) -/

theorem ownLines_owned {set : List LineId} (h : j ∈ set) : ownedShown c (ownLines c set s) j := by
  have walk : ∀ (ks : List LineId) (u : State), j ∈ ks ∨ ownedShown c u j →
      ownedShown c (ks.foldl (fun s k => if set.contains k then putArb k (.owned c) s else s) u) j := by
    intro ks
    induction ks with
    | nil => exact fun u hu => hu.resolve_left (by simp)
    | cons k ks ih =>
      intro u hu
      rw [List.foldl_cons]
      by_cases e : j = k
      · subst e
        refine ih _ (.inr ?_)
        rw [if_pos (by simpa using h)]
        exact putArb_ownedShown (.inl rfl)
      · refine ih _ (hu.imp (fun g => (List.mem_cons.mp g).resolve_left e) fun g => ?_)
        split
        · exact putArb_ownedShown (.inr g)
        · exact g
  exact walk _ _ (.inl (List.mem_finRange j))

theorem ownLines_other {set : List LineId} (h : j ∉ set) : (ownLines c set s).arb j = s.arb j := by
  have walk : ∀ (ks : List LineId) (u : State),
      (ks.foldl (fun s k => if set.contains k then putArb k (.owned c) s else s) u).arb j = u.arb j := by
    intro ks
    induction ks with
    | nil => exact fun _ => rfl
    | cons k ks ih =>
      intro u
      rw [List.foldl_cons, ih]
      split
      next hk =>
        rw [putArb_arb, if_neg]
        rintro rfl
        exact h (by simpa using hk)
      next => rfl
  exact walk _ _

/-- All sixteen lines in the Line Arbiter. -/
def allArbs : List Part := (List.finRange 16).map .arb

theorem mem_allArbs : Part.arb k ∈ allArbs := by simp [allArbs]

theorem Frame.ownLines {set : List LineId} {fs : List EventFlag} :
    Frame allArbs [(0x100, 32)] fs s (Machine.ownLines c set s) :=
  .forLines fun _ _ => .ite (fun _ => .putArb mem_allArbs (covered_of_mem (by simp))) fun _ => .refl _

/-! ### The handover timer (R90) -/

theorem handoverTick_counts (h : s.arb k = .purging n m) (hm : m < s.now) (hn : 1 < n) :
    handoverTick k s = s.setArb k (.purging (n - 1) s.now) := by
  simp [handoverTick, h, State.after, hm, hn]

theorem handoverTick_ends (h : s.arb k = .purging n m) (hm : m < s.now) (hn : n ≤ 1) : handoverTick k s = freeLine k s := by
  simp [handoverTick, h, State.after, hm, Nat.not_lt.mpr hn]

theorem handoverTick_idle (h : ∀ n m, s.arb k = .purging n m → s.now ≤ m) : handoverTick k s = s := by
  unfold handoverTick
  split
  next n m e => exact if_neg (by simpa [State.after] using h n m e)
  next => rfl

theorem handoverEnds_true (h : s.arb k = .purging n m) (hm : m < s.now) (hn : n ≤ 1) : handoverEnds k s = true := by
  simp [handoverEnds, h, State.after, hm, hn]

theorem walk_empty (h : s.waitQueue = []) : walk s = s := by
  rw [walk, h]
  rfl

/-! ### The grant (R50, R91) -/

/-- The queue without a chamber's entry, shown. -/
def entryGone (w : WaitEntry) (s : State) : State :=
  imageWait (s.setWaitQueue (s.waitQueue.filter fun x => decide (x.chamber ≠ w.chamber)))

/-- A walk over one entry whose set is FREE grants it. -/
theorem walk_grants (h : s.waitQueue = [w]) (hf : ∀ j ∈ w.set, s.arb j = .free) :
    walk s = handStep w.chamber (ownLines w.chamber w.set (entryGone w s)) := by
  have grants : ((w.set.all fun k => decide (s.arb k = .free)) && (w.set.all fun k => !([] : List LineId).contains k)) = true := by
    simpa using hf
  rw [walk, h]
  exact if_pos grants

theorem Frame.entryGone : Frame [.waitQueue] [(0x128, 8)] [] s (Machine.entryGone w s) := by
  unfold Machine.entryGone
  exact .trans (.setWaitQueue (by simp)) (.imageWait (covered_of_mem (by simp)))

theorem entryGone_empties (h : s.waitQueue = [w]) : (entryGone w s).waitQueue = [] ∧
    (entryGone w s).word 0x128 = 0 ∧ (entryGone w s).word 0x12C = 0 := by
  have queue : (s.waitQueue.filter fun x => decide (x.chamber ≠ w.chamber)) = [] := by simp [h]
  rw [entryGone, queue]
  refine ⟨rfl, memField_memPutWord_same _ _ _, ?_⟩
  refine (memField_memPutWord_outside _ _ _ _ _ (by decide) (by decide) (by decide)).trans ?_
  exact memField_memPutWord_same _ _ _

/-- What a grant of the only entry leaves (R50, R91, R94). -/
theorem grant_leaves (h : s.waitQueue = [w]) (hs : (s.seq w.chamber).saved = 0) {u : State}
    (hu : u = handStep w.chamber (ownLines w.chamber w.set (entryGone w s))) :
    (∀ j ∈ w.set, ownedShown w.chamber u j) ∧ (∀ j, j ∉ w.set → u.arb j = s.arb j) ∧
      (u.waitQueue = [] ∧ u.word 0x128 = 0 ∧ u.word 0x12C = 0) ∧
      ((u.seq w.chamber).run = .step ∧ (u.seq w.chamber).step = (s.seq w.chamber).step ∧
        (u.seq w.chamber).timer = (s.seq w.chamber).step.duration) ∧
      memField u.mem (statusAddr w.chamber) 1 = RunState.step.code ∧
      Frame ([.waitQueue, .seq w.chamber, .rf w.chamber, .press w.chamber] ++ allLines ++ allArbs)
        [(0x100, 32), (0x128, 8), statusBytes w.chamber] [] s u := by
  obtain ⟨empty, word0, word1⟩ := entryGone_empties h
  have gone := Frame.entryGone (s := s) (w := w)
  generalize entryGone w s = v at hu empty word0 word1 gone
  have owns := Frame.ownLines (s := v) (c := w.chamber) (set := w.set) (fs := [])
  have owned := fun j (hj : j ∈ w.set) => ownLines_owned (s := v) (c := w.chamber) hj
  have others := fun j (hj : j ∉ w.set) => ownLines_other (s := v) (c := w.chamber) hj
  generalize ownLines w.chamber w.set v = x at hu owns owned others
  have hands := Frame.handStep (s := x) (c := w.chamber)
  have loaded := handStep_seq (s := x) (c := w.chamber)
  have shown := handStep_shown (s := x) (c := w.chamber)
  subst hu
  generalize handStep w.chamber x = u at hands loaded shown ⊢
  have hst := statusAddr_bounds w.chamber
  have below : ∀ a n, a + n ≤ 0xA00 → memField u.mem a n = memField x.mem a n := fun a n ha => by
    refine hands.field (by simp only [Config.memorySize]; omega) ?_
    simp only [loadBytes, List.mem_cons, List.not_mem_nil, or_false, forall_eq_or_imp, forall_eq, Config.memorySize]
    omega
  have above : ∀ a, 0x120 ≤ a → a + 4 ≤ 0xA00 → u.word a = v.word a := fun a h1 h2 =>
    (below a 4 h2).trans (owns.word (by simp only [Config.memorySize]; omega) (by
      simp only [List.mem_cons, List.not_mem_nil, or_false, forall_eq, Config.memorySize]
      omega))
  have arb : ∀ j, u.arb j = x.arb j := fun j => hands.parts (.arb j) (by simp [allLines])
  have seq : x.seq w.chamber = s.seq w.chamber :=
    Part.same_trans (p := .seq w.chamber) (gone.parts _ (by simp)) (owns.parts _ (by simp [allArbs]))
  refine ⟨fun j hj => ⟨(arb j).trans (owned j hj).1, ?_⟩, fun j hj => ?_, ⟨?_, ?_, ?_⟩, ?_, shown.1, ?_⟩
  · have := j.isLt
    exact (below _ _ (by omega)).trans (owned j hj).2
  · rw [arb, others j hj]
    exact gone.parts (.arb j) (by simp)
  · have q1 : u.waitQueue = x.waitQueue := hands.parts .waitQueue (by simp [allLines])
    have q2 : x.waitQueue = v.waitQueue := owns.parts .waitQueue (by simp [allArbs])
    rw [q1, q2, empty]
  · rw [above _ (by decide) (by decide), word0]
  · rw [above _ (by decide) (by decide), word1]
  · rw [loaded, seq]
    exact ⟨rfl, rfl, if_neg (not_not_intro hs)⟩
  · have cov : ∀ n i, n + i ≤ 128 → covered [(0x100, 32), (0x128, 8), statusBytes w.chamber] ((statusAddr w.chamber + n, i) : Bytes) :=
      fun n i hn => ⟨statusBytes w.chamber, by simp, by simp only [statusBytes]; omega, by simp only [statusBytes]; omega⟩
    refine .trans (gone.mono (by simp) (by simp [covered])) (.trans (owns.mono ?_ (by simp [covered])) (hands.mono ?_ ?_))
    · exact List.subset_append_right _ _
    · exact fun p hp => List.mem_append_left _ (subset_lines (by simp) hp)
    · simp only [loadBytes, List.mem_cons, List.not_mem_nil, or_false, forall_eq_or_imp, forall_eq]
      exact ⟨cov 0 4 (by decide), cov 16 8 (by decide)⟩

/-- Settles O32: the timer's count, the line freed, and the walk over the one entry that its line completes. -/
theorem handoverPurgeEndsInAFreeLineOrAGrant : Obligations.HandoverPurgeEndsInAFreeLineOrAGrant := by
  refine ⟨⟨?_, ?_, ?_⟩, ?_⟩
  · intro s t k n m h hp hm hn
    refine answers_atTap h (body := handoverTick k) rfl ?_
    rw [handoverTick_counts (s := s.setNow t) hp hm hn]
    have arb : ((s.setNow t).setArb k (.purging (n - 1) t)).arb k = .purging (n - 1) t := State.setArb_arb_same ..
    refine ⟨arb, ?_, Frame.keeps (fs := []) (.trans .setNow .setArb)⟩
    simp [State.purgeValveOpen]
  · intro i s t k n m hi h hp hm hn hq
    have key : exec i s = .next (handoverTick k (s.setNow t)) := by
      rcases hi with rfl | rfl
      · exact (atTap_of_eventAt h _).trans (congrArg _ (workIf_true (handoverEnds_true (s := s.setNow t) hp hm hn)))
      · exact atTap_of_eventAt h _
    refine ⟨_, key, ?_⟩
    have queue : (putArb k .free (s.setNow t)).waitQueue = [] :=
      (Frame.putArb_word.parts .waitQueue (by simp)).trans hq
    rw [handoverTick_ends (s := s.setNow t) hp hm hn, freeLine, walk_empty queue]
    have frame : Frame [.now, .arb k] [(0x100 + 4 * (k.val / 2), 4)] [] s (putArb k .free (s.setNow t)) :=
      .trans .setNow (Frame.putArb_word.mono (by simp) fun _ hr => covered_of_mem hr)
    have arb : (putArb k .free (s.setNow t)).arb k = .free := by rw [putArb_arb, if_pos rfl]
    refine ⟨arb, ?_, putArb_free_shown, frame.stores⟩
    simp [State.purgeValveOpen, arb]
  · intro s t k h hx
    refine answers_atTap h (body := handoverTick k) rfl ?_
    rw [handoverTick_idle (s := s.setNow t) hx]
    exact setNow_keeps
  · intro s t k n m w h hp hm hn hq hk hf hs
    refine answers_atTap h (body := workIf (handoverEnds k) (handoverTick k)) rfl ?_
    rw [workIf_true (handoverEnds_true (s := s.setNow t) hp hm hn), handoverTick_ends (s := s.setNow t) hp hm hn, freeLine]
    have frees : Frame [.now, .arb k] [(0x100, 32)] [] s (putArb k .free (s.setNow t)) :=
      .trans .setNow (.putArb (by simp) (covered_of_mem (by simp)))
    have arb : ∀ j, (putArb k .free (s.setNow t)).arb j = if j = k then .free else s.arb j := fun j => putArb_arb
    generalize putArb k .free (s.setNow t) = v at frees arb ⊢
    have queue : v.waitQueue = [w] := (frees.parts .waitQueue (by simp)).trans hq
    have seq : v.seq w.chamber = s.seq w.chamber := frees.parts (.seq w.chamber) (by simp)
    rw [walk_grants queue fun j hj => by
      rw [arb]
      split
      · rfl
      next e => exact hf j hj e]
    obtain ⟨owned, others, waits, runs, shown, frame⟩ := grant_leaves queue (by rw [seq]; exact hs) rfl
    generalize handStep w.chamber (ownLines w.chamber w.set (entryGone w v)) = u at owned others waits runs shown frame ⊢
    rw [seq] at runs
    have whole : Frame ([.now, .waitQueue, .seq w.chamber, .rf w.chamber, .press w.chamber] ++ allLines ++ allArbs)
        [(0x100, 32), (0x128, 8), statusBytes w.chamber] [] s u := by
      refine .trans (frees.mono ?_ (by simp [covered])) (frame.mono ?_ fun _ hr => covered_of_mem hr)
      · intro p hp
        rcases List.mem_cons.mp hp with rfl | hp
        · simp
        · rw [List.mem_singleton.mp hp]
          exact List.mem_append_right _ mem_allArbs
      · exact List.append_subset.mpr ⟨fun p hp => List.mem_append_left _ (subset_lines (by simp) hp),
          List.subset_append_right _ _⟩
    refine ⟨fun j => ?_, waits.1, waits.2.1, waits.2.2, fun j hj => (owned j hj).2, runs, shown, whole.stores⟩
    split
    next hj => exact (owned j hj).1
    next hj =>
      rw [others j hj, arb, if_neg]
      rintro rfl
      exact hj hk

end Sys2Proof.Machine
end

section
/-! What the part's work for one chamber keeps of a chamber: its inhibits, RF at rest under an RF inhibit, its mode, a
machine in FAULT_HOLD off the rough line, and its run (R83, R92, R113, R129, R150). -/

namespace Sys2Proof.Machine

variable {p q r : Prop} {s s' u : State} {c d : Chamber} {k : LineId}

/-! ### The relation -/

/-- RF off with its output at 0 under an RF inhibit (R129). -/
def rfAtRest (s : State) (c : Chamber) : Prop :=
  (s.rf c).inhibit = true ∧ (s.rf c).phase = .off ∧ (s.rf c).output = 0

/-- A machine in FAULT_HOLD that waits for no rough line (R110, R113). -/
def heldOff (s : State) (c : Chamber) : Prop := (s.pump c).st = .faultHold ∧ c ∉ s.rough.queue

/-- What the part's work keeps of a chamber, and of the inputs, the channels and the interlock word; a run that can close
out by a fault stays one where `p`, the records of a chamber that waits for no shared line stand where `q`, and a machine in
FAULT_HOLD off the rough line stays there where `r`. -/
structure Spared (p q r : Prop) (c : Chamber) (s s' : State) : Prop where
  inhibit : (s'.rf c).inhibit = (s.rf c).inhibit
  rest : rfAtRest s c → rfAtRest s' c
  gas : s'.gasInhibit c = s.gasInhibit c
  econ : s'.econ c = s.econ c
  hold : r → heldOff s c → heldOff s' c
  faults : p → (s.seq c).run.faults = true → (s'.seq c).run.faults = true
  seq : q → notWaiting s c → s'.seq c = s.seq c ∧ notWaiting s' c
  ilk : ∀ k, s'.ilk k = s.ilk k
  chan : ∀ j, s'.chan j = s.chan j
  scan : s'.scan = s.scan
  fit : PagesFit s → PagesFit s'
  word : PagesFit s → s'.word 0x130 = s.word 0x130

theorem Spared.refl (s : State) : Spared p q r c s s :=
  ⟨rfl, id, rfl, rfl, fun _ => id, fun _ => id, fun _ h => ⟨rfl, h⟩, fun _ => rfl, fun _ => rfl, rfl, id, fun _ => rfl⟩

theorem Spared.trans {a b e : State} (h : Spared p q r c a b) (g : Spared p q r c b e) : Spared p q r c a e where
  inhibit := g.inhibit.trans h.inhibit
  rest := g.rest ∘ h.rest
  gas := g.gas.trans h.gas
  econ := g.econ.trans h.econ
  hold x := g.hold x ∘ h.hold x
  faults x := g.faults x ∘ h.faults x
  seq x hn :=
    let ⟨h1, h2⟩ := h.seq x hn
    let ⟨g1, g2⟩ := g.seq x h2
    ⟨g1.trans h1, g2⟩
  ilk k := (g.ilk k).trans (h.ilk k)
  chan j := (g.chan j).trans (h.chan j)
  scan := g.scan.trans h.scan
  fit := g.fit ∘ h.fit
  word x := (g.word (h.fit x)).trans (h.word x)

theorem Spared.mono {p' q' r' : Prop} (h : Spared p q r c s s') (hp : p' → p) (hq : q' → q) (hr : r' → r) : Spared p' q' r' c s s' :=
  { h with faults := fun x => h.faults (hp x), seq := fun x => h.seq (hq x), hold := fun x => h.hold (hr x) }

theorem Spared.ite {b : Prop} [Decidable b] {s1 s2 : State} (h1 : b → Spared p q r c s s1) (h2 : ¬ b → Spared p q r c s s2) :
    Spared p q r c s (if b then s1 else s2) := by
  split
  · exact h1 ‹_›
  · exact h2 ‹_›

theorem Spared.foldl {α : Type} {f : State → α → State} (h : ∀ s x, Spared p q r c s (f s x)) (xs : List α) (s : State) :
    Spared p q r c s (xs.foldl f s) := by
  induction xs generalizing s with
  | nil => exact .refl s
  | cons x xs ih => exact (h s x).trans (ih _)

theorem Spared.forLines {f : LineId → State → State} (h : ∀ k s, Spared p q r c s (f k s)) :
    Spared p q r c s (forLines f s) := .foldl (fun s k => h k s) _ _

/-- The parts whose change the relation says nothing of. -/
def Part.spares (c : Chamber) : Part → Bool
  | .rf d | .gasInhibit d | .econ d | .seq d | .pump d => decide (d ≠ c)
  | .waitQueue | .rough | .ilk _ | .chan _ | .scan | .tables | .rep _ => false
  | _ => true

/-- A change of parts that the relation says nothing of, and of Report Writers. -/
theorem Spared.of_parts {ps : List Part} (h : changesOnly ps s s')
    (hp : ∀ x ∈ ps, Part.spares c x = true ∨ ∃ d, x = .rep d) (fit : PagesFit s → PagesFit s')
    (word : PagesFit s → s'.word 0x130 = s.word 0x130) : Spared p q r c s s' := by
  have same : ∀ x : Part, Part.spares c x = false → (∀ d, x ≠ .rep d) → x.same s s' := fun x h1 h2 => h x fun hm =>
    (hp x hm).elim (fun g => by rw [h1] at g; cases g) fun ⟨d, e⟩ => h2 d e
  have rf : s'.rf c = s.rf c := same (.rf c) (by simp [Part.spares]) (by simp)
  have seq : s'.seq c = s.seq c := same (.seq c) (by simp [Part.spares]) (by simp)
  have pump : s'.pump c = s.pump c := same (.pump c) (by simp [Part.spares]) (by simp)
  have rough : s'.rough = s.rough := same .rough rfl (by simp)
  have queue : s'.waitQueue = s.waitQueue := same .waitQueue rfl (by simp)
  exact
    { inhibit := by rw [rf]
      rest := by unfold rfAtRest; rw [rf]; exact id
      gas := same (.gasInhibit c) (by simp [Part.spares]) (by simp)
      econ := same (.econ c) (by simp [Part.spares]) (by simp)
      hold := fun _ => by unfold heldOff; rw [pump, rough]; exact id
      faults := fun _ => by rw [seq]; exact id
      seq := fun _ hn => ⟨seq, by unfold notWaiting; rw [queue]; exact hn⟩
      ilk := fun k => same (.ilk k) rfl (by simp)
      chan := fun j => same (.chan j) rfl (by simp)
      scan := same .scan rfl (by simp)
      fit := fit
      word := word }

/-- Bytes off the interlock word. -/
def offInterlock (r : Bytes) : Prop := r.1 + r.2 ≤ Config.memorySize ∧ (0x134 ≤ r.1 ∨ r.1 + r.2 ≤ 0x130)

theorem Spared.of_frame {ps : List Part} {rs : List Bytes} {fs : List EventFlag} (h : Frame ps rs fs s s')
    (hp : ∀ x ∈ ps, Part.spares c x = true := by simp [Part.spares]) (hr : ∀ r ∈ rs, offInterlock r := by simp) :
    Spared p q r c s s' :=
  .of_parts h.parts (fun x hx => .inl (hp x hx))
    (pagesFit_congr (h.parts .tables fun hm => by simpa [Part.spares] using hp _ hm)
      fun d => h.parts (.rep d) fun hm => by simpa [Part.spares] using hp _ hm)
    fun _ => h.word (by decide) fun r hm => by have := hr r hm; unfold offInterlock at this; omega

/-! ### The updates -/

theorem offInterlock_above {a n : Nat} (h1 : 0x134 ≤ a) (h2 : a + n ≤ Config.memorySize) : offInterlock (a, n) :=
  ⟨h2, .inl h1⟩

theorem offInterlock_status {a n : Nat} (h1 : statusAddr d ≤ a) (h2 : a + n ≤ statusAddr d + 128) : offInterlock (a, n) := by
  have hs := statusAddr_bounds d
  exact offInterlock_above (by omega) (by simp only [Config.memorySize]; omega)

theorem Spared.showWord {w : StatusWord} : Spared p q r c s (showWord d w s) := by
  refine .of_frame (ps := []) (fs := []) (.showWord (covered_of_mem (List.mem_singleton.mpr rfl))) (by simp) fun r hr => ?_
  rw [List.mem_singleton.mp hr]
  have := w.offset_le
  exact offInterlock_status (d := d) (by omega) (by omega)

theorem Spared.writeContext {x : Code} {pos rem : Nat} : Spared p q r c s (writeContext d x pos rem s) := by
  refine .of_frame (ps := []) (rs := [contextBytes d]) (fs := []) .writeContext (by simp) fun r hr => ?_
  rw [List.mem_singleton.mp hr]
  have hb := contextAddr_bounds d
  exact offInterlock_above (by omega) (by simp only [Config.memorySize]; omega)

theorem Spared.raise {f : EventFlag} : Spared p q r c s (raise f s) :=
  .of_frame (ps := [.summary]) (rs := []) (fs := [f]) .raise
theorem Spared.bumpUses : Spared p q r c s s.bumpUses :=
  .of_frame (ps := [.uses]) (rs := []) (fs := []) .bumpUses
theorem Spared.setPress {x : Press} : Spared p q r c s (s.setPress d x) :=
  .of_frame (ps := [.press d]) (rs := []) (fs := []) .setPress
theorem Spared.modPress {f : Press → Press} : Spared p q r c s (s.modPress d f) := .setPress
theorem Spared.setLine {x : Line} : Spared p q r c s (s.setLine k x) :=
  .of_frame (ps := [.line k]) (rs := []) (fs := []) .setLine
theorem Spared.modLine {f : Line → Line} : Spared p q r c s (s.modLine k f) := .setLine

theorem Spared.putArb {x : Arb} : Spared p q r c s (putArb k x s) := by
  refine .of_frame (ps := [.arb k]) (rs := [(0x100, 32)]) (fs := []) (.putArb (by simp) (covered_of_mem (by simp))) (by simp [Part.spares]) ?_
  simp [offInterlock, Config.memorySize]

theorem Spared.imageWait : Spared p q r c s (imageWait s) := by
  refine .of_frame (ps := []) (rs := [(0x128, 8)]) (fs := []) (.imageWait (covered_of_mem (by simp))) (by simp) ?_
  simp [offInterlock, Config.memorySize]

theorem Spared.imageRough : Spared p q r c s (imageRough s) := by
  refine .of_frame (ps := []) (rs := [(0x120, 8)]) (fs := []) (.imageRough (covered_of_mem (by simp))) (by simp) ?_
  simp [offInterlock, Config.memorySize]

/-- The records of another chamber. -/
theorem Spared.modSeq {f : Seq → Seq} (h : d ≠ c) : Spared p q r c s (s.modSeq d f) :=
  .of_frame (ps := [.seq d]) (rs := []) (fs := []) .modSeq (by simp [Part.spares, h])

/-- The records of a chamber that may be the chamber itself, as far as its run goes. -/
theorem Spared.modSeq_run {f : Seq → Seq} (h : p → (s.seq d).run.faults = true → (f (s.seq d)).run.faults = true) :
    Spared p (c ≠ d) r c s (s.modSeq d f) := by
  by_cases e : d = c
  · subst e
    exact
      { inhibit := rfl, rest := id, gas := rfl, econ := rfl, hold := fun _ => id
        faults := fun x g => by rw [State.modSeq_eq, State.setSeq_seq_same]; exact h x g
        seq := fun x => absurd rfl x
        ilk := fun _ => rfl, chan := fun _ => rfl, scan := rfl, fit := pagesFit_congr rfl fun _ => rfl, word := fun _ => rfl }
  · exact .modSeq e

theorem Spared.setRf {x : Rf} (h : d = c → x.inhibit = (s.rf c).inhibit ∧
    (rfAtRest s c → x.phase = .off ∧ x.output = 0)) : Spared p q r c s (s.setRf d x) := by
  by_cases e : d = c
  · subst e
    obtain ⟨h1, h2⟩ := h rfl
    exact
      { inhibit := by rw [State.setRf_rf_same]; exact h1
        rest := fun g => by
          unfold rfAtRest
          rw [State.setRf_rf_same]
          exact ⟨h1.trans g.1, h2 g⟩
        gas := rfl, econ := rfl, hold := fun _ => id, faults := fun _ => id, seq := fun _ g => ⟨rfl, g⟩
        ilk := fun _ => rfl, chan := fun _ => rfl, scan := rfl, fit := pagesFit_congr rfl fun _ => rfl, word := fun _ => rfl }
  · exact .of_frame (ps := [.rf d]) (rs := []) (fs := []) .setRf (by simp [Part.spares, e])

theorem Spared.modRf {f : Rf → Rf} (h : (f (s.rf d)).inhibit = (s.rf d).inhibit ∧
    (rfAtRest s d → (f (s.rf d)).phase = .off ∧ (f (s.rf d)).output = 0)) : Spared p q r c s (s.modRf d f) :=
  .setRf fun e => e ▸ h

theorem Spared.setWaitQueue {l : List WaitEntry} (h : ∀ w ∈ l, w ∈ s.waitQueue) : Spared p q r c s (s.setWaitQueue l) where
  inhibit := rfl
  rest := id
  gas := rfl
  econ := rfl
  hold := fun _ => id
  faults _ := id
  seq _ g := ⟨rfl, fun w hw => g w (h w hw)⟩
  ilk _ := rfl
  chan _ := rfl
  scan := rfl
  fit := pagesFit_congr rfl fun _ => rfl
  word _ := rfl

theorem Spared.setRough {x : Rough} (h : c ∉ s.rough.queue → c ∉ x.queue) : Spared p q r c s (s.setRough x) where
  inhibit := rfl
  rest := id
  gas := rfl
  econ := rfl
  hold _ g := ⟨g.1, h g.2⟩
  faults _ := id
  seq _ g := ⟨rfl, g⟩
  ilk _ := rfl
  chan _ := rfl
  scan := rfl
  fit := pagesFit_congr rfl fun _ => rfl
  word _ := rfl

theorem offInterlock_notice {n : Nat} (hn : 6 ≤ n ∧ n ≤ 26) : ∀ r ∈ noticeBytes n d, offInterlock r := by
  have hs := statusAddr_bounds d
  have hr := reportAddr_bounds (c := d) (n := n) (by omega)
  simp only [noticeBytes, List.mem_cons, List.not_mem_nil, or_false, forall_eq_or_imp, forall_eq, pageBytes, reportBytes,
    offInterlock, Config.memorySize] at *
  omega

theorem Spared.produce {e : Entry} : Spared p q r c s (produce d e s) := by
  refine .of_parts produce_parts (by simp [Part.spares]) Keeps.produce.core.pagesFit fun hp => ?_
  exact (Frame.produce_notice hp).word (by decide) fun r hr => by
    have := offInterlock_notice ⟨hp.1, hp.2.1⟩ r hr
    unfold offInterlock at this
    omega

theorem Spared.closeShort : Spared p q r c s (closeShort d s) := by
  refine .of_parts (Frame.closeShort (coversAll d).1).parts (by simp [Part.spares]) Keeps.closeShort.core.pagesFit fun _ => ?_
  exact (Frame.closeShort (rs := [pageBytes d]) (covered_of_mem (by simp))).word (by decide) fun r hr => by
    have hs := statusAddr_bounds d
    rw [List.mem_singleton.mp hr]
    simp only [pageBytes, Config.memorySize]
    omega

/-! ### Flow, pressure and RF -/

theorem Spared.lineWork : Spared p q r c s (lineWork k s) := by
  unfold Machine.lineWork
  dsimp only
  split
  · exact .refl _
  · exact .ite (fun _ => .trans .setLine (.ite (fun _ => .modLine) fun _ => .refl _)) fun _ => .refl _

theorem Spared.pressureWork : Spared p q r c s (pressureWork d s) := .ite (fun _ => .setPress) fun _ => .refl _

theorem Spared.rfOff : Spared p q r c s (rfOff d s) := .modRf ⟨rfl, fun _ => ⟨rfl, rfl⟩⟩

theorem Spared.rfWork : Spared p q r c s (rfWork d s) := by
  unfold Machine.rfWork
  dsimp only
  refine .ite (fun _ => ?_) fun _ => .refl _
  split
  · exact .refl _
  all_goals
    rename_i hp
    refine .setRf fun e => ⟨by subst e; simp, fun g => ?_⟩
    subst e
    rw [g.2.1] at hp
    cases hp

theorem Spared.reachFaults : Spared p q r c s (reachFaults d s) :=
  .ite (fun _ => .trans (.forLines fun _ _ => .ite (fun _ => .lineWork) fun _ => .refl _) <|
    .trans (.ite (fun _ => .pressureWork) fun _ => .refl _) (.ite (fun _ => .rfWork) fun _ => .refl _)) fun _ => .refl _

theorem Spared.handLine {x : StepRec} {e : LineId × Nat} : Spared p q r c s (handLine d x e s) :=
  .ite (fun _ => .refl _) fun _ => .modLine

theorem Rf.handedPlasma_inhibited {x : Rf} {cfg : ChamberCfg} {e : StepRec} {t : Moment} (h : x.inhibit = true) :
    (x.handedPlasma cfg e t).phase = .off ∧ (x.handedPlasma cfg e t).output = 0 := by
  simp [Rf.handedPlasma, h, Rf.released]

theorem Spared.handRf {x : StepRec} : Spared p q r c s (handRf d x s) := by
  refine .modRf ?_
  dsimp only
  split
  · exact ⟨by simp, fun g => Rf.handedPlasma_inhibited g.1⟩
  · exact ⟨rfl, fun _ => ⟨rfl, rfl⟩⟩

/-! ### The Line Arbiter -/

theorem Spared.handSetpoints : Spared p q r c s (handSetpoints d s) :=
  .trans (.foldl (fun _ _ => .handLine) _ _) (.trans .modPress .handRf)

theorem Spared.setRun_faults {x : RunState} (h : x.faults = true) : Spared p (c ≠ d) r c s (setRun d x s) :=
  .trans (.modSeq_run fun _ _ => h) .showWord

theorem Spared.loadTimer : Spared p (c ≠ d) r c s (loadTimer d s) :=
  .trans (.modSeq_run fun _ => id) <| .trans (.setRun_faults rfl) <| .trans .showWord .showWord

theorem Spared.handStep : Spared p (c ≠ d) r c s (handStep d s) := .trans .handSetpoints .loadTimer

theorem Spared.ownLines {set : List LineId} : Spared p q r c s (ownLines d set s) :=
  .forLines fun _ _ => .ite (fun _ => .putArb) fun _ => .refl _

theorem Spared.grantWaiting {e : WaitEntry} : Spared p (c ≠ e.chamber) r c s (grantWaiting e s) :=
  .trans (.setWaitQueue fun _ hw => (List.mem_filter.mp hw).1) <| .trans .imageWait <| .trans .ownLines .handStep

/-- A walk grants chambers of its entries only. -/
theorem Spared.walkFrom {l : List WaitEntry} {older : List LineId} :
    Spared p (∀ w ∈ l, w.chamber ≠ c) r c s (walkFrom l older s) := by
  induction l generalizing older s with
  | nil => exact .refl _
  | cons e rest ih =>
    have tail : ∀ {x y : State}, Spared p (∀ w ∈ rest, w.chamber ≠ c) r c x y → Spared p (∀ w ∈ e :: rest, w.chamber ≠ c) r c x y :=
      fun h => h.mono id (fun g w hw => g w (List.mem_cons_of_mem _ hw)) id
    exact .ite (fun _ => .trans (Spared.grantWaiting.mono id (fun g => (g e (List.mem_cons_self ..)).symm) id) (tail ih))
      fun _ => tail ih

theorem Spared.walk : Spared p q r c s (walk s) :=
  have h := Spared.walkFrom (p := p) (r := r) (c := c) (s := s) (l := s.waitQueue) (older := [])
  { h with seq := fun _ hn => h.seq hn hn }

theorem Spared.freeLine : Spared p q r c s (freeLine k s) := .trans .putArb .walk
theorem Spared.releaseLine : Spared p q r c s (releaseLine d k s) :=
  .ite (fun _ => .ite (fun _ => .freeLine) fun _ => .putArb) fun _ => .refl _
theorem Spared.dropLine : Spared p q r c s (dropLine d k s) :=
  .trans (.ite (fun _ => .modLine) fun _ => .refl _) .releaseLine
theorem Spared.dropLines {f : LineId → Bool} : Spared p q r c s (dropLines d f s) :=
  .forLines fun _ _ => .ite (fun _ => .dropLine) fun _ => .refl _
theorem Spared.dropAll : Spared p q r c s (dropAll d s) := .dropLines
theorem Spared.dropPurge : Spared p q r c s (dropPurge d s) := .dropLines
theorem Spared.leaveQueue : Spared p q r c s (leaveQueue d s) :=
  .ite (fun _ => .trans (.setWaitQueue fun _ hw => (List.mem_filter.mp hw).1) (.trans .imageWait .walk)) fun _ => .refl _

/-- A chamber that leaves the queue keeps its records and waits for no shared line (R92). -/
theorem leaveQueue_own : (leaveQueue c s).seq c = s.seq c ∧ notWaiting (leaveQueue c s) c := by
  unfold leaveQueue
  split
  next =>
    refine (Spared.trans .imageWait .walk : Spared True True True c (s.setWaitQueue _) _).seq trivial fun w hw => ?_
    exact of_decide_eq_true (List.mem_filter.mp hw).2
  next h => exact ⟨rfl, fun w hw e => h (List.any_eq_true.mpr ⟨w, hw, by simp [e]⟩)⟩

end Sys2Proof.Machine
end

section
/-! What a trip's action on one chamber keeps of the others, and what it leaves of its own (R83, R122, R129, R150, R163). -/

namespace Sys2Proof.Machine

variable {p q r : Prop} {s s' u : State} {c d : Chamber} {k : InputId}

/-! ### The records of the chamber at work -/

/-- The records of the chamber at work, or of another one. -/
theorem Spared.modSeq_any {f : Seq → Seq} : Spared (c ≠ d) (c ≠ d) r c s (s.modSeq d f) := by
  by_cases e : d = c
  · subst e
    exact (Spared.modSeq_run (p := False) fun x => x.elim).mono (fun x => x rfl) id id
  · exact .modSeq e

theorem Spared.writeSlot {i : Fin 2} {o v n st : Nat} : Spared p q r c s (writeSlot d i o v n st s) := by
  refine .of_frame (ps := []) (rs := answerBytes d i) (fs := []) (.writeSlot fun _ hr => covered_of_mem hr) (by simp) ?_
  have hi := slotAddr_top d i
  simp only [answerBytes, List.mem_cons, List.not_mem_nil, or_false, forall_eq_or_imp, forall_eq, offInterlock,
    Config.memorySize]
  omega

theorem Spared.doneSlot {i : Fin 2} {o : Code} {v n : Nat} : Spared p (c ≠ d) r c s (doneSlot d i o v n s) :=
  .trans .writeSlot (.trans (.modSeq_run fun _ => id) .raise)

theorem Spared.doneHeld {f : SlotHold → Bool} {o : Code} {v n : Nat} : Spared p (c ≠ d) r c s (doneHeld d f o v n s) := by
  unfold Machine.doneHeld
  split
  · exact .doneSlot
  · exact .refl _

theorem Spared.clearLatch : Spared p (c ≠ d) r c s (clearLatch d s) :=
  .ite (fun _ => .trans (.modSeq_run fun _ => id) .showWord) fun _ => .refl _

theorem Spared.setRun {x : RunState} : Spared (c ≠ d) (c ≠ d) r c s (setRun d x s) := .trans .modSeq_any .showWord

/-! ### Close-out -/

theorem Spared.faultEntry {x : Code} {e : Entry} :
    Spared p q r c s (if x.reportsFault = true then Machine.produce d e (Machine.raise (.fault d) s) else s) :=
  .ite (fun _ => .trans .raise .produce) fun _ => .refl _

theorem Spared.closeBegin {x : Code} {item pos rem : Nat} : Spared (c ≠ d) (c ≠ d) r c s (closeBegin d x item pos rem s) :=
  .trans .modSeq_any <| .trans .writeContext <| .trans .clearLatch <| .trans .leaveQueue <| .trans .modSeq_any <|
    .trans .setRun <| .trans .rfOff <| .trans .modPress .faultEntry

theorem Spared.closeNow {x : Code} {item : Nat} : Spared (c ≠ d) (c ≠ d) r c s (closeNow d x item s) :=
  .trans .reachFaults .closeBegin

theorem Spared.finishRun {e f : Nat} : Spared (c ≠ d) (c ≠ d) r c s (finishRun d e f s) :=
  .trans .produce <| .trans .closeShort <| .trans .doneHeld <| .trans .doneHeld <| .trans .modSeq_any <|
    .trans .setRun <| .trans .showWord <| .trans .showWord .showWord

theorem Spared.endStarting {x : Code} {item : Nat} : Spared (c ≠ d) (c ≠ d) r c s (endStarting d x item s) :=
  .trans (.trans .modSeq_any .faultEntry) (.trans .clearLatch .finishRun)

theorem Spared.deliverFault {x : Code} {item : Nat} : Spared (c ≠ d) (c ≠ d) r c s (deliverFault d x item s) := by
  unfold Machine.deliverFault
  split
  · exact .refl _
  · exact .ite (fun _ => .endStarting) fun _ => .refl _
  · exact .modSeq_any
  · exact .closeNow

theorem Spared.openThrottle : Spared p q r c s (openThrottle d s) := by
  unfold Machine.openThrottle
  exact .modPress

theorem Spared.endStage : Spared (c ≠ d) (c ≠ d) r c s (endStage d s) := by
  unfold Machine.endStage
  exact .trans .finishRun .openThrottle

theorem Spared.judgePumpOut : Spared (c ≠ d) (c ≠ d) r c s (judgePumpOut d s) :=
  .ite (fun _ => .modSeq_any) fun _ => .endStage
theorem Spared.endPurge : Spared (c ≠ d) (c ≠ d) r c s (endPurge d s) :=
  .trans .modSeq_any (.trans .dropPurge .judgePumpOut)

theorem Spared.checkStage : Spared (c ≠ d) (c ≠ d) r c s (checkStage d s) := by
  unfold Machine.checkStage
  refine .ite (fun _ => ?_) fun _ => .refl _
  split
  · exact .ite (fun _ => .endPurge) fun _ => .refl _
  · exact .ite (fun _ => .endStage) fun _ => .ite (fun _ => .trans .modSeq_any .endStage) fun _ => .refl _
  · exact .refl _

theorem Spared.raiseRestriction {n : Nat} : Spared p (c ≠ d) r c s (raiseRestriction d n s) :=
  .ite (fun _ => .modSeq_run fun _ => id) fun _ => .refl _

/-! ### The pump machine and the mode -/

theorem Spared.setPump {x : Pump} : Spared p q (c ≠ d) c s (s.setPump d x) := by
  by_cases e : d = c
  · subst e
    exact
      { inhibit := rfl, rest := id, gas := rfl, econ := rfl, hold := fun x => absurd rfl x, faults := fun _ => id
        seq := fun _ g => ⟨rfl, g⟩
        ilk := fun _ => rfl, chan := fun _ => rfl, scan := rfl, fit := pagesFit_congr rfl fun _ => rfl, word := fun _ => rfl }
  · exact .of_frame (ps := [.pump d]) (rs := []) (fs := []) .setPump (by simp [Part.spares, e])

theorem Spared.putPump {x : Pump} : Spared p q (c ≠ d) c s (putPump d x s) :=
  .trans .setPump <| .trans (.ite (fun _ => .refl _) fun _ => .showWord) (.ite (fun _ => .refl _) fun _ => .showWord)

theorem Spared.stageTo {x : Pump} : Spared p q (c ≠ d) c s (stageTo d x s) :=
  .trans .putPump (.ite (fun _ => .refl _) fun _ => .produce)

theorem Spared.enterSoftRough : Spared p q (c ≠ d) c s (enterSoftRough d s) := by
  unfold Machine.enterSoftRough
  exact .stageTo

theorem Spared.grantRough : Spared p q (c ≠ d) c s (grantRough d s) := by
  have held : Spared p q (c ≠ d) c s (Machine.imageRough (s.setRough { s.rough with holder := some d })) :=
    Spared.trans (Spared.setRough (x := { s.rough with holder := some d }) fun g => g) Spared.imageRough
  unfold Machine.grantRough
  exact held.trans (.ite (fun _ => .enterSoftRough) fun _ => .stageTo)

/-- A release grants a waiter, and a machine off the rough line is none (R113). -/
theorem Spared.releaseRough : Spared p q r c s (releaseRough s) := by
  unfold Machine.releaseRough
  split
  next => exact .trans (.setRough fun _ => by simp) .imageRough
  next next rest h =>
    have grants : Spared p q (c ≠ next) c s (Machine.grantRough next (s.setRough { holder := none, queue := rest })) :=
      .trans (.setRough fun hc => by rw [h] at hc; exact fun g => hc (List.mem_cons_of_mem _ g)) .grantRough
    refine { grants with hold := fun _ g => grants.hold (fun e => g.2 ?_) g }
    rw [h, e]
    exact List.mem_cons_self ..

theorem Spared.leaveRough : Spared p q r c s (leaveRough d s) :=
  .ite (fun _ => .releaseRough) fun _ => .ite
    (fun _ => .trans (.setRough fun hc g => hc (List.mem_filter.mp g).1) .imageRough) fun _ => .refl _

theorem Spared.putFaultHold {x : Code} {v : Nat} : Spared p (c ≠ d) (c ≠ d) c s (putFaultHold d x v s) :=
  .trans .putPump (.trans .leaveRough (.trans .doneHeld .raise))

theorem Spared.enterFaultHold {x : Code} {v : Nat} : Spared p (c ≠ d) (c ≠ d) c s (enterFaultHold d x v s) :=
  .trans .putFaultHold .produce

theorem Spared.modeEntry {x : WakeCause} {f g : Nat} : Spared p q r c s (modeEntry d x f g s) := .trans .produce .raise

theorem Spared.leaveByTrip {i : Nat} (h : c ≠ d) : Spared p q r c s (leaveByTrip d i s) := by
  have mode : Spared p q r c s (s.modEcon d fun e => { e with mode := .active, phase := .none, limit := 0, dwell := 0 }) :=
    .of_frame (ps := [.econ d]) (rs := []) (fs := []) .modEcon (by simp [Part.spares, h.symm])
  exact .trans (.trans mode .showWord) (Spared.doneHeld.mono id (fun _ => h) id)

/-- A machine put in FAULT_HOLD, or left there. -/
def heldBy (c : Chamber) (item : Nat) (s : State) : State :=
  if (s.pump c).st = .faultHold then s else enterFaultHold c .faultInterlock item s

theorem fullSafe_economy {i : Nat} (h : (s.econ d).mode = .economy) : fullSafe d i s =
    if Config.modeEntryFirst s.uses then heldBy d i (tripModeEntry d (leaveByTrip d i s.bumpUses))
    else tripModeEntry d (heldBy d i (leaveByTrip d i s.bumpUses)) := if_pos h

theorem fullSafe_active {i : Nat} (h : (s.econ d).mode ≠ .economy) : fullSafe d i s = heldBy d i s := if_neg h

theorem Spared.heldBy {i : Nat} : Spared p (c ≠ d) (c ≠ d) c s (heldBy d i s) :=
  .ite (fun _ => .refl _) fun _ => .enterFaultHold

theorem Spared.fullSafe {i : Nat} (h : c ≠ d) : Spared p q r c s (fullSafe d i s) := by
  have held : ∀ t : State, Spared p q r c t (Machine.heldBy d i t) := fun t =>
    Spared.heldBy.mono id (fun _ => h) fun _ => h
  by_cases he : (s.econ d).mode = .economy
  · rw [fullSafe_economy he]
    exact .ite (fun _ => .trans .bumpUses (.trans (.leaveByTrip h) (.trans .modeEntry (held _))))
      fun _ => .trans .bumpUses (.trans (.leaveByTrip h) (.trans (held _) .modeEntry))
  · rw [fullSafe_active he]
    exact held s

/-! ### A trip's action on the other chambers -/

theorem Spared.setRfInhibit (h : c ≠ d) : Spared p q r c s (setRfInhibit d s) :=
  .of_frame (ps := [.rf d]) (rs := []) (fs := []) (.trans .modRf .modRf) (by simp [Part.spares, h.symm])

theorem Spared.inhibitGas (h : c ≠ d) : Spared p q r c s (inhibitGas d s) :=
  .trans (.of_frame (ps := [.gasInhibit d]) (rs := []) (fs := []) .setGasInhibit (by simp [Part.spares, h.symm])) .dropAll

/-- A trip's action on a chamber keeps what it says nothing of in the others. -/
theorem Spared.tripChamber (h : c ≠ d) : Spared p q r c s (tripChamber k d s) := by
  unfold Machine.tripChamber
  extract_lets action item s1 s2 s3
  have h1 : Spared p q r c s s1 := .trans .reachFaults (.setRfInhibit h)
  have h2 : Spared p q r c s1 s2 := .ite (fun _ => .inhibitGas h) fun _ => .refl _
  have h3 : Spared p q r c s2 s3 := .ite (fun _ => .fullSafe h) fun _ => .refl _
  have rest : Spared (c ≠ d) (c ≠ d) r c s3
      (Machine.checkStage d (Machine.deliverFault d .faultInterlock item (Machine.raiseRestriction d action s3))) :=
    .trans .raiseRestriction (.trans .deliverFault .checkStage)
  exact h1.trans (h2.trans (h3.trans (rest.mono (fun _ => h) (fun _ => h) id)))

end Sys2Proof.Machine
end

section
/-! What a trip's action leaves of a chamber of its Scope (R83, R122, R129, R150, R153, R163). -/

namespace Sys2Proof.Machine

variable {p q r : Prop} {s s' : State} {c : Chamber} {k : InputId} {i : Nat}

/-! ### The rough line and FAULT_HOLD -/

/-- A machine that leaves the rough line keeps FAULT_HOLD, as a waiter is not the holder (R113). -/
theorem leaveRough_faultHold (h : (s.pump c).st = .faultHold) (hq : c ∈ s.rough.queue → s.rough.holder ≠ some c) :
    ((leaveRough c s).pump c).st = .faultHold := by
  by_cases hc : c ∈ s.rough.queue
  · rw [leaveRough, if_neg (hq hc), if_pos (by simpa using hc)]
    exact h
  · exact ((Spared.leaveRough (p := True) (q := True) (r := True)).hold trivial ⟨h, hc⟩).1

theorem RoughLineLaw.heldOff (l : RoughLineLaw s) (h : (s.pump c).st = .faultHold) : heldOff s c :=
  ⟨h, fun hc => by
    have waits : (s.pump c).st = .roughWait := ((l.2.2.1 c).mp hc).1
    rw [h] at waits
    cases waits⟩

theorem enterFaultHold_heldOff {x : Code} {v : Nat} (l : RoughLineLaw s) : heldOff (enterFaultHold c x v s) c := by
  refine RoughLineLaw.heldOff (Keeps.enterFaultHold.rough l) ?_
  have put : SamePumps (s.setPump c { st := .faultHold, mark := s.now }) (putPump c { st := .faultHold, mark := s.now } s) :=
    .putPump
  have left : ((leaveRough c (putPump c { st := .faultHold, mark := s.now } s)).pump c).st = .faultHold := by
    refine leaveRough_faultHold ?_ fun hc => ?_
    · rw [State.pump, put.1]
      exact congrArg Pump.st (State.setPump_pump_same s c _)
    · rw [put.2] at hc ⊢
      exact ((l.2.2.1 c).mp hc).2
  have after : ∀ t : State, SamePumps t (pumpEntry c x.code (raise (.fault c) (doneHeld c SlotHold.isPump x v 0 t))) :=
    fun t => SamePumps.doneHeld.trans (SamePumps.raise.trans .produce)
  rw [enterFaultHold, putFaultHold, State.pump, (after _).1]
  exact left

theorem heldBy_heldOff (l : RoughLineLaw s) : heldOff (heldBy c i s) c := by
  unfold heldBy
  split
  · exact l.heldOff ‹_›
  · exact enterFaultHold_heldOff l

/-! ### FULL_SAFE -/

/-- What FULL_SAFE leaves of a chamber: its machine in FAULT_HOLD, its mode ACTIVE, and RF at rest and a run that can close
out as they were (R122, R163). -/
structure MadeSafe (c : Chamber) (s s' : State) : Prop where
  held : heldOff s' c
  active : (s'.econ c).mode = .active
  rest : rfAtRest s c → rfAtRest s' c
  faults : (s.seq c).run.faults = true → (s'.seq c).run.faults = true

/-- What the part does next keeps it, as far as it leaves the chamber's run and machine alone. -/
theorem MadeSafe.spared {s₁ : State} (h : MadeSafe c s s₁) (g : Spared True q True c s₁ s') : MadeSafe c s s' where
  held := g.hold trivial h.held
  active := by rw [g.econ]; exact h.active
  rest := g.rest ∘ h.rest
  faults := g.faults trivial ∘ h.faults

/-- The mode returned to ACTIVE with every wake stopped (R163). -/
def modeLeft (c : Chamber) (s : State) : State :=
  s.modEcon c fun e => { e with mode := .active, phase := .none, limit := 0, dwell := 0 }

theorem Spared.leaveByTrip_left : Spared p (c ≠ c) r c (modeLeft c s) (Machine.leaveByTrip c i s) :=
  .trans .showWord .doneHeld

/-- A machine held keeps the mode, RF at rest and the run. -/
theorem heldBy_madeSafe {s₁ : State} (l : RoughLineLaw s₁) (active : (s₁.econ c).mode = .active)
    (rest : rfAtRest s c → rfAtRest s₁ c) (faults : (s.seq c).run.faults = true → (s₁.seq c).run.faults = true) :
    MadeSafe c s (heldBy c i s₁) :=
  have h : Spared True (c ≠ c) (c ≠ c) c s₁ (heldBy c i s₁) := .heldBy
  ⟨heldBy_heldOff l, by rw [h.econ]; exact active, h.rest ∘ rest, h.faults trivial ∘ faults⟩

theorem fullSafe_madeSafe (l : RoughLineLaw s) : MadeSafe c s (fullSafe c i s) := by
  by_cases he : (s.econ c).mode = .economy
  · have left : Spared True (c ≠ c) True c (modeLeft c s.bumpUses) (leaveByTrip c i s.bumpUses) := .leaveByTrip_left
    have active : ((leaveByTrip c i s.bumpUses).econ c).mode = .active := by
      rw [left.econ, modeLeft, State.modEcon_eq, State.setEcon_econ_same]
    have rest : rfAtRest s c → rfAtRest (leaveByTrip c i s.bumpUses) c := left.rest
    have faults : (s.seq c).run.faults = true → ((leaveByTrip c i s.bumpUses).seq c).run.faults = true :=
      left.faults trivial
    have law : RoughLineLaw (leaveByTrip c i s.bumpUses) := Keeps.leaveByTrip.rough (Keeps.bumpUses.rough l)
    have entry : ∀ t : State, Spared True True True c t (tripModeEntry c t) := fun _ => .modeEntry
    rw [fullSafe_economy he]
    split
    · exact heldBy_madeSafe (Keeps.tripModeEntry.rough law) (by rw [(entry _).econ]; exact active)
        ((entry _).rest ∘ rest) ((entry _).faults trivial ∘ faults)
    · exact (heldBy_madeSafe law active rest faults).spared (entry _)
  · rw [fullSafe_active he]
    refine heldBy_madeSafe l ?_ id id
    cases hm : (s.econ c).mode
    · rfl
    · exact absurd hm he

/-! ### The start of close-out -/

/-- A run that a trip closes out: CLOSING with the input as its item, in the stage RF_OFF, waiting for no line, its FAULT
flag set (R31, R153). -/
structure ClosedBy (k : InputId) (c : Chamber) (s : State) : Prop where
  run : (s.seq c).run = .closing
  outcome : (s.seq c).outcome = .faultInterlock
  item : (s.seq c).item = k.val + 1
  free : notWaiting s c
  flag : s.flagSet (.fault c) = true

theorem ClosedBy.spared (h : ClosedBy k c s) (g : Spared p True r c s s') (keeps : Keeps s s') : ClosedBy k c s' := by
  obtain ⟨same, free⟩ := g.seq trivial h.free
  refine ⟨?_, ?_, ?_, free, keeps.flagSet h.flag⟩ <;> rw [same]
  exacts [h.run, h.outcome, h.item]

theorem faultNotice_seq {x : Code} : (faultNotice c x s).seq c = s.seq c := by
  unfold faultNotice
  split <;> simp

theorem faultNotice_waitQueue {x : Code} : (faultNotice c x s).waitQueue = s.waitQueue := by
  unfold faultNotice
  split
  · exact (produce_parts .waitQueue (by simp)).trans rfl
  · rfl

/-- The end of the preparation of a close-out, from which the records change in the stage's fields only. -/
theorem closeTail_seq : ∃ x, (closeTail c s).seq c =
    { s.seq c with
      run := .closing, stage := .rfOff, restriction := x, stageMark := s.now, closeElapsed := 0, closeElapsedMark := s.now
      closeClamped := false, pumpOutIncomplete := false } :=
  ⟨restrictionNow s c, by simp [closeTail, stopPressure, rfOff, setRun, State.modSeq_eq, State.modRf_eq, State.modPress_eq]⟩

theorem closeTail_waitQueue : (closeTail c s).waitQueue = s.waitQueue :=
  (Frame.closeTail (fs := [])).parts .waitQueue (by simp)

end Sys2Proof.Machine
end

section
/-! A trip's action on a chamber of its Scope, whole (R83, R122, R129, R150, R153). -/

namespace Sys2Proof.Machine

variable {p q r : Prop} {s s' : State} {c d : Chamber} {k : InputId} {i : Nat}

/-! ### A run that the trip closes out -/

/-- A close-out begun for a chamber that may wait: it leaves the queue first (R92). -/
theorem closeBegin_leaves {x : Code} {item pos rem : Nat} : closeBegin c x item pos rem s =
    faultNotice c x (closeTail c (leaveQueue c (closePrep c x item pos rem s))) := rfl

theorem closeBegin_closedBy {pos rem : Nat} : ClosedBy k c (closeBegin c .faultInterlock (k.val + 1) pos rem s) ∧
    ((closeBegin c .faultInterlock (k.val + 1) pos rem s).seq c).stage = .rfOff := by
  obtain ⟨same, free⟩ := leaveQueue_own (s := closePrep c .faultInterlock (k.val + 1) pos rem s) (c := c)
  obtain ⟨x, tail⟩ := closeTail_seq (s := leaveQueue c (closePrep c .faultInterlock (k.val + 1) pos rem s)) (c := c)
  rw [same, closePrep_seq] at tail
  rw [closeBegin_leaves]
  refine ⟨⟨?_, ?_, ?_, ?_, faultNotice_flag rfl⟩, ?_⟩
  iterate 3 rw [faultNotice_seq, tail]
  · simpa only [notWaiting, faultNotice_waitQueue, closeTail_waitQueue] using free
  · rw [faultNotice_seq, tail]

theorem checkStage_rfOff (h : (s.seq c).stage = .rfOff) : checkStage c s = s := by
  simp [checkStage, h]

theorem raiseRestriction_open (h : (s.seq c).run ≠ .closing) : raiseRestriction c i s = s := if_neg h

theorem RunState.faults_open {x : RunState} (h : x.faults = true) : x ≠ .closing := by
  rintro rfl
  cases h

/-- The trip delivered to a run that can close out by a fault (R31, R153). -/
theorem delivered_closedBy (h : (s.seq c).run.faults = true) : ClosedBy k c
    (checkStage c (deliverFault c .faultInterlock (k.val + 1) (raiseRestriction c i s))) := by
  obtain ⟨closed, stage⟩ := closeBegin_closedBy (s := reachFaults c s) (c := c) (k := k)
    (pos := (s.seq c).closePoint.1) (rem := (s.seq c).closePoint.2)
  rw [raiseRestriction_open (RunState.faults_open h), deliverFault_faults h, closeNow, checkStage_rfOff stage]
  exact closed

/-! ### The action, part by part -/

/-- RF off and inhibited (R129). -/
def tripRf (c : Chamber) (s : State) : State := setRfInhibit c (reachFaults c s)

/-- Gas closed and inhibited from GAS_INHIBIT on (R83). -/
def tripGas (k : InputId) (c : Chamber) (s : State) : State :=
  if 2 ≤ (s.ilkCfg k).action then inhibitGas c (tripRf c s) else tripRf c s

/-- The machine held and the mode ACTIVE at FULL_SAFE (R122, R163). -/
def tripSafe (k : InputId) (c : Chamber) (s : State) : State :=
  if 3 ≤ (s.ilkCfg k).action then fullSafe c (k.val + 1) (tripGas k c s) else tripGas k c s

theorem tripChamber_eq : tripChamber k c s = checkStage c (deliverFault c .faultInterlock (k.val + 1)
    (raiseRestriction c (s.ilkCfg k).action (tripSafe k c s))) := rfl

theorem Keeps.tripRf : Keeps s (tripRf c s) := Keeps.reachFaults.trans .setRfInhibit
theorem Keeps.tripGas : Keeps s (tripGas k c s) := Keeps.tripRf.trans (.ite (fun _ => .inhibitGas) fun _ => .refl _)

theorem tripRf_rest : rfAtRest (tripRf c s) c := by
  simp [tripRf, setRfInhibit, rfAtRest, rfOff, State.modRf_eq, Rf.released]

theorem tripRf_faults (h : (s.seq c).run.faults = true) : ((tripRf c s).seq c).run.faults = true := by
  simpa [tripRf, setRfInhibit, rfOff, State.modRf_eq] using h

theorem inhibitGas_own : (rfAtRest s c → rfAtRest (inhibitGas c s) c) ∧
    ((s.seq c).run.faults = true → ((inhibitGas c s).seq c).run.faults = true) :=
  have h : Spared True True True c (s.setGasInhibit c true) (inhibitGas c s) := .dropAll
  ⟨h.rest, h.faults trivial⟩

theorem tripGas_own : rfAtRest (tripGas k c s) c ∧
    ((s.seq c).run.faults = true → ((tripGas k c s).seq c).run.faults = true) := by
  unfold tripGas
  split
  · exact ⟨inhibitGas_own.1 tripRf_rest, fun h => inhibitGas_own.2 (tripRf_faults h)⟩
  · exact ⟨tripRf_rest, tripRf_faults⟩

theorem tripSafe_own (l : RoughLineLaw s) : rfAtRest (tripSafe k c s) c ∧
    ((s.seq c).run.faults = true → ((tripSafe k c s).seq c).run.faults = true) ∧
    (3 ≤ (s.ilkCfg k).action → heldOff (tripSafe k c s) c ∧ ((tripSafe k c s).econ c).mode = .active) := by
  obtain ⟨rest, faults⟩ := tripGas_own (k := k) (c := c) (s := s)
  unfold tripSafe
  split
  next ha =>
    have safe : MadeSafe c (tripGas k c s) (fullSafe c (k.val + 1) (tripGas k c s)) :=
      fullSafe_madeSafe (Keeps.tripGas.rough l)
    exact ⟨safe.rest rest, safe.faults ∘ faults, fun _ => ⟨safe.held, safe.active⟩⟩
  next ha => exact ⟨rest, faults, fun h => absurd h ha⟩

/-! ### The action, whole -/

/-- What a trip leaves of a chamber of its Scope, whose run could close out by a fault or not (R150). -/
structure TrippedOn (k : InputId) (action : Nat) (faults : Bool) (c : Chamber) (s : State) : Prop where
  rest : rfAtRest s c
  gas : 2 ≤ action → s.gasInhibit c = true ∧ ∀ j, (s.line j).openTo ≠ some c
  safe : 3 ≤ action → heldOff s c ∧ (s.econ c).mode = .active
  run : faults = true → ClosedBy k c s

theorem tripChamber_on (l : RoughLineLaw s) :
    TrippedOn k (s.ilkCfg k).action (s.seq c).run.faults c (tripChamber k c s) := by
  obtain ⟨rest, faults, safe⟩ := tripSafe_own (k := k) (c := c) l
  have last : Spared (c ≠ c) (c ≠ c) True c (tripSafe k c s) (tripChamber k c s) := by
    rw [tripChamber_eq]
    exact .trans .raiseRestriction (.trans .deliverFault .checkStage)
  have keeps : Keeps (tripSafe k c s) (tripChamber k c s) := by
    rw [tripChamber_eq]
    exact Keeps.raiseRestriction.trans (Keeps.deliverFault.trans .checkStage)
  refine ⟨last.rest rest, fun ha => ?_, fun ha => ?_, fun h => ?_⟩
  · have closed : ∀ j, ((tripGas k c s).line j).openTo ≠ some c := by
      rw [tripGas, if_pos ha]
      exact dropAll_closed (State.setGasInhibit_gasInhibit_same _ _ _)
    have shut : (tripGas k c s).gasInhibit c = true := by
      rw [tripGas, if_pos ha]
      exact Keeps.dropAll.core.gases c (State.setGasInhibit_gasInhibit_same _ _ _)
    have onward : Keeps (tripGas k c s) (tripChamber k c s) :=
      Keeps.trans (.ite (fun _ => .fullSafe) fun _ => .refl _) keeps
    exact ⟨onward.core.gases c shut, fun j => onward.core.gasShut c shut j (closed j)⟩
  · obtain ⟨held, active⟩ := safe ha
    exact ⟨last.hold trivial held, by rw [last.econ]; exact active⟩
  · rw [tripChamber_eq]
    exact delivered_closedBy (faults h)

/-- The trip's action on another chamber keeps it. -/
theorem TrippedOn.spared {a : Nat} {b : Bool} (h : TrippedOn k a b c s) (g : Spared True True True c s s') (keeps : Keeps s s') :
    TrippedOn k a b c s' where
  rest := g.rest h.rest
  gas ha := ⟨keeps.core.gases c (h.gas ha).1, fun j => keeps.core.gasShut c (h.gas ha).1 j ((h.gas ha).2 j)⟩
  safe ha := ⟨g.hold trivial (h.safe ha).1, by rw [g.econ]; exact (h.safe ha).2⟩
  run hb := (h.run hb).spared g keeps

end Sys2Proof.Machine
end

section
/-! The latch of a trip over the chambers of its Scope (R149, R150). -/

namespace Sys2Proof.Machine

variable {s s' u : State} {c d : Chamber} {k : InputId} {i : Instr} {t : Moment} {level : Bool}

/-! ### The pass over the chambers -/

/-- A trip's action on a chamber, if its Scope includes it. -/
def tripIf (k : InputId) (c : Chamber) (s : State) : State := if (s.ilkCfg k).covers c then tripChamber k c s else s

/-- A trip's action on every chamber of its Scope. -/
def tripPass (k : InputId) (s : State) : State := forChambers (tripIf k) s

theorem Keeps.tripIf : Keeps s (tripIf k c s) := .ite (fun _ => .tripChamber) fun _ => .refl _
theorem Keeps.tripPass : Keeps s (tripPass k s) := .forChambers fun _ _ => .tripIf

theorem Spared.tripIf (h : c ≠ d) : Spared True True True c s (tripIf k d s) :=
  .ite (fun _ => .tripChamber h) fun _ => .refl _

/-- What a trip leaves of every chamber of its Scope. -/
theorem tripPass_covered (l : RoughLineLaw s) (h : (s.ilkCfg k).covers c = true) :
    TrippedOn k (s.ilkCfg k).action (s.seq c).run.faults c (tripPass k s) := by
  refine forChambers_at c
    (P := fun t => t.tables = s.tables ∧ RoughLineLaw t ∧ ((s.seq c).run.faults = true → (t.seq c).run.faults = true))
    (fun d hd t ht => ?_) (fun t ht => ?_) (fun d hd t ht => ht.spared (Spared.tripIf hd.symm) Keeps.tripIf)
    ⟨rfl, l, id⟩
  · obtain ⟨tables, law, faults⟩ := ht
    exact ⟨Keeps.tripIf.core.tables.trans tables, Keeps.tripIf.rough law, (Spared.tripIf hd.symm).faults trivial ∘ faults⟩
  · obtain ⟨tables, law, faults⟩ := ht
    have cfg : t.ilkCfg k = s.ilkCfg k := State.ilkCfg_of_tables tables
    have on : TrippedOn k (s.ilkCfg k).action (t.seq c).run.faults c (tripIf k c t) := by
      rw [tripIf, cfg, if_pos h, ← cfg]
      exact tripChamber_on law
    exact { on with run := fun hf => on.run (faults hf) }

/-- What a trip leaves of every chamber outside its Scope. -/
theorem tripPass_uncovered (h : (s.ilkCfg k).covers c = false) : Spared True True True c s (tripPass k s) := by
  refine (forChambers_keeps (P := fun t => t.tables = s.tables ∧ Spared True True True c s t) (fun d t ht => ?_)
    ⟨rfl, .refl s⟩).2
  obtain ⟨tables, spared⟩ := ht
  refine ⟨Keeps.tripIf.core.tables.trans tables, ?_⟩
  by_cases e : c = d
  · rw [tripIf, State.ilkCfg_of_tables tables, ← e, if_neg (by simp [h])]
    exact spared
  · exact spared.trans (.tripIf e)

/-- What a trip leaves of the inputs, of the scanner and of the interlock word. -/
structure Beside (s s' : State) : Prop where
  ilk : ∀ k, s'.ilk k = s.ilk k
  chan : ∀ j, s'.chan j = s.chan j
  scan : s'.scan = s.scan
  fit : PagesFit s'
  word : s'.word 0x130 = s.word 0x130

theorem tripPass_beside (h : PagesFit s) : Beside s (tripPass k s) := by
  refine forChambers_keeps (P := Beside s) (fun d t ht => ?_) ⟨fun _ => rfl, fun _ => rfl, rfl, h, rfl⟩
  obtain ⟨c, hc⟩ := exists_ne d
  have g : Spared True True True c t (tripIf k d t) := .tripIf hc
  exact ⟨fun k => (g.ilk k).trans (ht.ilk k), fun j => (g.chan j).trans (ht.chan j), g.scan.trans ht.scan, g.fit ht.fit,
    (g.word ht.fit).trans ht.word⟩

/-! ### The sample that latches -/

/-- The input latched, its word written and the flag set (R149, R150). -/
def latchedInput (k : InputId) (s : State) : State :=
  raise .interlock (imageInterlock (s.modIlk k fun x => { x with trip := true, count := 0 }))

theorem latchTrip_eq : latchTrip k s = tripPass k (latchedInput k s) := rfl

/-- The input of an active sample, before the latch. -/
def sampledWord (k : InputId) (level : Bool) (s : State) : State :=
  if (s.ilk k).raw = true then sampledIlk k level s else imageInterlock (sampledIlk k level s)

theorem sampleInput_latches (h : sampleLatches s k level = true) :
    sampleInput k level s = tripPass k (latchedInput k (sampledWord k level s)) := by
  have on : sampled s k = true := by
    simp only [sampleLatches, Bool.and_eq_true] at h
    exact h.1.1.1
  have active : (s.ilkCfg k).activeAt level = true := ((sampleLatches_iff on).mp h).1
  rw [← latchTrip_eq, sampledWord, sampledIlk, active]
  simp only [sampleInput, if_pos on, h, active, if_true]

theorem Frame.sampledWord {fs : List EventFlag} : Frame [.pins, .ilk k] [(0x130, 4)] fs s (Machine.sampledWord k level s) := by
  have sampled : Frame [.pins, .ilk k] [(0x130, 4)] fs s (Machine.sampledIlk k level s) := .trans .setPins .setIlk
  exact .ite (fun _ => sampled) fun _ => sampled.trans .imageInterlock_word

theorem Frame.latchedInput : Frame [.summary, .ilk k] [(0x130, 4)] [.interlock] s (Machine.latchedInput k s) :=
  .trans .modIlk (.trans .imageInterlock_word .raise)

theorem sampledWord_raw (h : (s.ilkCfg k).activeAt level = true) : ((sampledWord k level s).ilk k).raw = true := by
  unfold sampledWord
  split <;> exact (congrArg Ilk.raw (State.setIlk_ilk_same (interlockPin k level s) k _)).trans h

theorem latchedInput_input : (latchedInput k s).ilk k = { s.ilk k with trip := true, count := 0 } :=
  State.setIlk_ilk_same s k _

theorem latchedInput_shown : ((latchedInput k s).word 0x130).testBit (k.val + 16) = true := by
  have shown := (imageInterlock_shown (s := s.modIlk k fun x => { x with trip := true, count := 0 }) k).2
  rw [State.modIlk_eq, State.setIlk_ilk_same] at shown
  exact shown

/-- The state that the latch of an active sample passes over the chambers. -/
def latchReady (k : InputId) (level : Bool) (s : State) : State := latchedInput k (sampledWord k level s)

/-- The level at which the input is active. -/
theorem activeAt_active {e : InterlockCfg} : e.activeAt (decide (e.activeLevel = 1)) = true := by
  simp [activeAt_iff]

/-- An event whose sample latches the trip, by either of its rows. -/
theorem answers_latch {P : State → Prop}
    (hi : i = .tripLatch t k ∨ i = .interlockSample t k (decide ((s.ilkCfg k).activeLevel = 1))) (h : eventAt .t0 t s)
    (hs : (s.ilkCfg k).scope ≠ 0) (hm : (s.ilk k).mark < t) (ht : (s.ilk k).trip = false)
    (hd : (s.ilkCfg k).debounce < (s.ilk k).count + 1)
    (p : P (tripPass k (latchReady k (decide ((s.ilkCfg k).activeLevel = 1)) (s.setNow t)))) : answers i s P := by
  have on : sampled (s.setNow t) k = true := sampled_iff.mpr ⟨hs, hm⟩
  have latches : sampleLatches (s.setNow t) k (decide ((s.ilkCfg k).activeLevel = 1)) = true :=
    (sampleLatches_iff on).mpr ⟨activeAt_active, ht, hd⟩
  rcases hi with rfl | rfl
  · refine answers_atTap h (body := workIf (fun s => sampleLatches s k (activeLevel s k))
      fun s => sampleInput k (activeLevel s k) s) rfl ?_
    rw [workIf_true latches]
    exact (sampleInput_latches latches).symm ▸ p
  · exact answers_atTap h (body := sampleInput k _) rfl ((sampleInput_latches latches).symm ▸ p)

end Sys2Proof.Machine
end

section
/-! A trip acts on every chamber of its Scope and on no other (R83, R122, R129, R149, R150, R163). -/

namespace Sys2Proof.Machine

variable {s s' u : State} {c d : Chamber} {k : InputId} {i : Instr} {t : Moment} {level : Bool}

/-! ### The state that the latch passes over the chambers -/

/-- The input latched and shown, and nothing else changed but the flag and the level found. -/
structure LatchReady (k : InputId) (s s' : State) : Prop where
  trip : (s'.ilk k).trip = true
  raw : (s'.ilk k).raw = true
  count : (s'.ilk k).count = 0
  shown : (s'.word 0x130).testBit (k.val + 16) = true
  flag : s'.flagSet .interlock = true
  frame : Frame [.now, .pins, .summary, .ilk k] [(0x130, 4)] [.interlock] s s'

theorem latchReady_ready (h : (s.ilkCfg k).activeAt level = true) : LatchReady k s (latchReady k level (s.setNow t)) := by
  have sampled : Frame [.now, .pins, .ilk k] [(0x130, 4)] [.interlock] s (sampledWord k level (s.setNow t)) :=
    .trans .setNow (Frame.sampledWord.mono (fs := []))
  have raw : ((sampledWord k level (s.setNow t)).ilk k).raw = true := sampledWord_raw h
  unfold latchReady
  generalize sampledWord k level (s.setNow t) = v at sampled raw ⊢
  have input := latchedInput_input (s := v) (k := k)
  exact
    { trip := by rw [input]
      raw := by rw [input]; exact raw
      count := by rw [input]
      shown := latchedInput_shown
      flag := flagSet_raise_same
      frame := (sampled.mono).trans (Frame.latchedInput.mono) }

namespace LatchReady
variable (h : LatchReady k s u)
include h

theorem tables : u.tables = s.tables := h.frame.parts .tables (by simp)
theorem cfg : u.ilkCfg k = s.ilkCfg k := State.ilkCfg_of_tables h.tables
theorem seq (c : Chamber) : u.seq c = s.seq c := h.frame.parts (.seq c) (by simp)
theorem fit (hp : PagesFit s) : PagesFit u := pagesFit_congr h.tables (fun d => h.frame.parts (.rep d) (by simp)) hp

theorem law (l : RoughLineLaw s) : RoughLineLaw u := by
  have pump : ∀ c, u.pump c = s.pump c := fun c => h.frame.parts (.pump c) (by simp)
  have rough : u.rough = s.rough := h.frame.parts .rough (by simp)
  unfold RoughLineLaw
  simp only [pump, rough]
  exact l

end LatchReady

/-! ### A trip of RF alone over IDLE runs -/

/-- A trip of RF alone does nothing else to a chamber whose run is IDLE (R150). -/
theorem tripChamber_idle (ha : (s.ilkCfg k).action = 1) (h : (s.seq c).run = .idle) : tripChamber k c s = setRfInhibit c s := by
  have reached : reachFaults c s = s := if_neg (by simp [h])
  have same : ((setRfInhibit c s).seq c).run = .idle := h
  have safe : tripSafe k c s = setRfInhibit c s := by
    simp [tripSafe, tripGas, tripRf, ha, reached]
  rw [tripChamber_eq, safe, raiseRestriction_open (by simp [same]), deliverFault, same]
  exact if_neg (by simp [same])

/-- The RF units of the chambers of a Scope. -/
def coveredRf (k : InputId) (s : State) : List Part := ((List.finRange 4).filter fun c => (s.ilkCfg k).covers c).map .rf

theorem mem_coveredRf (h : (s.ilkCfg k).covers c = true) : Part.rf c ∈ coveredRf k s :=
  List.mem_map.mpr ⟨c, List.mem_filter.mpr ⟨List.mem_finRange c, h⟩, rfl⟩

theorem tripPass_idle (ha : (s.ilkCfg k).action = 1) (h : ∀ c, (s.seq c).run = .idle) :
    Frame (coveredRf k s) [] [] s (tripPass k s) := by
  refine (forChambers_keeps (P := fun t => t.tables = s.tables ∧ (∀ c, (t.seq c).run = .idle) ∧
    Frame (coveredRf k s) [] [] s t) (fun d t ht => ?_) ⟨rfl, h, .refl s⟩).2.2
  obtain ⟨tables, idle, frame⟩ := ht
  have cfg : t.ilkCfg k = s.ilkCfg k := State.ilkCfg_of_tables tables
  rw [tripIf, cfg]
  split
  next hd =>
    rw [tripChamber_idle (cfg ▸ ha) (idle d)]
    exact ⟨tables, idle, frame.trans (.trans (.modRf (mem_coveredRf hd)) (.modRf (mem_coveredRf hd)))⟩
  next => exact ⟨tables, idle, frame⟩

/-! ### The statement -/

/-- The parts that a latch's pass keeps, from what the part's work keeps. -/
theorem LatchReady.parts (h : LatchReady k s u) (keeps : Keeps u s') (scan : s'.scan = u.scan) :
    ∀ p ∈ [Part.pending, .partState, .layoutResult, .enable, .dataOut, .tables, .scan], p.same s s' := by
  have off : ∀ p ∈ [Part.pending, .partState, .layoutResult, .enable, .dataOut, .tables, .scan],
      p ∉ [Part.now, .pins, .summary, .ilk k] := by simp
  have before : ∀ p ∈ [Part.pending, .partState, .layoutResult, .enable, .dataOut, .tables, .scan], p.same s u :=
    fun p hp => h.frame.parts p (off p hp)
  have after : ∀ p ∈ [Part.pending, .partState, .layoutResult, .enable, .dataOut, .tables, .scan], p.same u s' := by
    obtain ⟨pending, part, result, entry, enable, dataOut, tables⟩ := keeps.core
    simp [Part.same, *]
  exact fun p hp => Part.same_trans (before p hp) (after p hp)

theorem LatchReady.host (h : LatchReady k s u) (hp : PagesFit s) (keeps : Keeps u s') {a : Nat} (ha : a < Config.memorySize)
    (ho : hostOwned s.tables.partition a = true) : memRead s'.mem a = memRead s.mem a := by
  rw [keeps.core.host (h.fit hp) a ha (by rw [h.tables]; exact ho)]
  refine h.frame.bytes a ha fun r hr => ?_
  rw [List.mem_singleton.mp hr]
  rintro ⟨j, hj, e⟩
  simp only [hostOwned, decide_eq_true_eq, Config.memorySize] at ho e hj ha
  omega

theorem rfEnable_off (h : (s.rf c).phase = .off) : s.rfEnable c = false := by simp [State.rfEnable, h]

/-- Settles O45: the pass over the chambers, by what the action leaves of its own chamber and keeps of the others. -/
theorem tripsActOnTheirScope : Obligations.TripsActOnTheirScope := by
  refine ⟨fun i s t k hi h hp hl hs hm ht hd => ?_, fun s t k h hs hm ht hd ha hidle => ?_⟩
  · refine answers_latch hi h hs hm ht hd ?_
    have ready := latchReady_ready (s := s) (t := t) (k := k) activeAt_active
    generalize latchReady k _ (s.setNow t) = u at ready ⊢
    have keeps : Keeps u (tripPass k u) := .tripPass
    have beside := tripPass_beside (k := k) (ready.fit hp)
    refine ⟨⟨?_, ?_, ?_, keeps.flagSet ready.flag, ?_⟩, fun c hc => ?_, fun c hc => ?_, fun j hj => ?_, fun j => ?_,
      ready.parts keeps beside.scan, fun a => ready.host hp keeps⟩
    · rw [beside.ilk]; exact ready.trip
    · rw [beside.ilk]; exact ready.raw
    · rw [beside.ilk]; exact ready.count
    · rw [beside.word]; exact ready.shown
    · have on := tripPass_covered (c := c) (ready.law hl) (by rw [ready.cfg]; exact hc)
      rw [ready.cfg, ready.seq] at on
      obtain ⟨inhibit, phase, output⟩ := on.rest
      refine ⟨⟨inhibit, phase, output, rfEnable_off phase⟩, on.gas, fun h3 => ?_, fun hf => ?_⟩
      · obtain ⟨held, active⟩ := on.safe h3
        exact ⟨held.1, active⟩
      · obtain ⟨run, outcome, item, -, flag⟩ := on.run hf
        exact ⟨run, outcome, item, flag⟩
    · have off := tripPass_uncovered (c := c) (s := u) (k := k) (by rw [ready.cfg]; exact hc)
      refine ⟨off.inhibit.trans ?_, off.gas.trans ?_, off.econ.trans ?_⟩
      · exact congrArg Rf.inhibit (ready.frame.parts (.rf c) (by simp))
      · exact ready.frame.parts (.gasInhibit c) (by simp)
      · exact ready.frame.parts (.econ c) (by simp)
    · exact (beside.ilk j).trans (ready.frame.parts (.ilk j) (by simp [hj]))
    · exact (beside.chan j).trans (ready.frame.parts (.chan j) (by simp))
  · refine answers_latch (.inl rfl) h hs hm ht hd ?_
    have ready := latchReady_ready (s := s) (t := t) (k := k) activeAt_active
    generalize latchReady k _ (s.setNow t) = u at ready ⊢
    have pass : Frame (coveredRf k u) [] [] u (tripPass k u) :=
      tripPass_idle (by rw [ready.cfg]; exact ha) fun c => by rw [ready.seq]; exact hidle c
    have same : coveredRf k u = coveredRf k s := by rw [coveredRf, ready.cfg]; rfl
    rw [same] at pass
    have whole : Frame ([.now, .pins, .summary, .ilk k] ++ coveredRf k s) [(0x130, 4)] [.interlock] s (tripPass k u) :=
      (ready.frame.mono (by simp)).trans (pass.mono (List.subset_append_right _ _))
    exact ⟨whole.flags, whole.stores⟩

end Sys2Proof.Machine
end
